-- ==== Sys2Proof/Word.lean ====
section
/-! DEFINITION. The words of the AV320: bytes, keys, sequences, generations and lease-clock values, each with the
width the spec gives it (12_formats_and_connections.md R174). -/

namespace Sys2Proof

/-- One byte on the wire or in flash (R174). -/
abbrev Byte := BitVec 8

/-- A key, the 16-bit name of a stored parameter (R22, R174). -/
abbrev Key := BitVec 16

/-- A sequence or a version, 48 bits (R10, R27, R174). -/
abbrev SeqNo := BitVec 48

/-- A sector generation, 32 bits (R9). -/
abbrev Generation := BitVec 32

/-- A value of the lease clock, counted modulo 2^32 (R73). -/
abbrev ClockValue := BitVec 32

/-- An erased byte reads 0xFF (R1). -/
abbrev erasedByte : Byte := 0xFF

end Sys2Proof
end

