-- ==== Sys2Proof/Syntax.lean ====
section
/-! DEFINITION. The commands the block takes, one constructor for each row of opcode_table.json, with the operands that
come from outside: the port and the moment of a frame and the bytes clocked into it, the outcome of a flash operation, the lease or
the waiter whose expiry is taken. A request's own fields are in the body that its SUBMIT carried. -/

namespace Sys2Proof

/-- The three client ports (R161). -/
inductive Port where
  | A | B | C
deriving DecidableEq, Repr

/-- What the flash made of a line program (R135): good flash, or a fault and the eight bytes it was left with (bits the
program may turn to zero; a bit already zero stays zero whatever is named here). -/
inductive LineResult where
  | good
  | faulty (left : List Byte)
deriving DecidableEq, Repr

/-- An expiry that the lease clock may reach: of the lease on a key (R82), or of the wait of a port's parked claim
(R83). -/
inductive Expiry where
  | lease (key : Key)
  | wait (port : Port)
deriving DecidableEq, Repr

/-- An expiry that the next advance of the lease clock reaches, named by its key or its port, and the order in which expiries of
the same advance are taken after it (R85). -/
structure Reached (α : Type) where
  named : α
  others : List Expiry
deriving DecidableEq, Repr

/-- The two moments of a frame at which its port does something (R163): SEL# is asserted, and the port latches its status; the
frame acts, at input byte 1 for a FETCH (R165) and at the end of any other frame. -/
inductive FrameMoment where
  | asserted
  | acts
deriving DecidableEq, Repr

/-- A moment of a frame on a port. At the assertion of SEL# no byte has been clocked, and a command's bytes are not read. A frame
whose assertion has had no command of its own is asserted right where it acts, with nothing between. -/
structure FrameEvent where
  port : Port
  moment : FrameMoment
deriving DecidableEq, Repr

/-- One command: an event at a pin, a moment of a frame, a choice of the arbiter, the service of the granted work, an outcome of the
flash, an event of the lease clock. -/
inductive Instr where
  -- resets and mount
  /-- POWER_ON_RESET_HOLD (R139): VDD falls below 2.55 V. -/
  | powerOnResetHold
  /-- RESET_HOLD_RELEASE (R139): VDD rises above 2.60 V. -/
  | resetHoldRelease
  /-- RESET_PIN_ASSERT (R6): RESET# is driven low. -/
  | resetPinAssert
  /-- RESET_PIN_RELEASE (R145): RESET# is released. -/
  | resetPinRelease
  /-- MOUNT_CLOSE (R151): mount programs the next CLOSED marker. -/
  | mountClose
  /-- DIRTY_ERASE (R152): mount starts the erase of the next DIRTY sector. -/
  | dirtyErase
  -- frames
  /-- SUBMIT (R164): `input` is the whole bytes clocked in after the kind byte 0x01; `partByte` says that a part byte was
  clocked as well. -/
  | submit (frame : FrameEvent) (input : List Byte) (partByte : Bool)
  /-- FETCH (R165): `input` is the whole bytes clocked in after the kind byte 0x02, the first of them the
  acknowledgment tag. -/
  | fetch (frame : FrameEvent) (input : List Byte)
  /-- PEEK (R163): `input` is the whole bytes clocked in after the kind byte 0x03. -/
  | peek (frame : FrameEvent) (input : List Byte)
  /-- PORT_RESET (R168): `input` is the whole bytes clocked in after the kind byte 0x04; `partByte` as for SUBMIT. -/
  | portReset (frame : FrameEvent) (input : List Byte) (partByte : Bool)
  /-- UNKNOWN_KIND (R163): a kind byte outside the four, and the whole bytes after it. -/
  | unknownKind (frame : FrameEvent) (kind : Byte) (input : List Byte)
  /-- FRAME_TIMEOUT (R163): all whole bytes clocked in before the 20 ms were over, the kind byte first. -/
  | frameTimeout (frame : FrameEvent) (bytes : List Byte)
  /-- FRAME_RELEASED_BEFORE_KIND (R163): SEL# is released before eight bits were clocked. -/
  | frameReleasedBeforeKind (frame : FrameEvent)
  -- the arbiter and the service of a grant
  /-- ARBITER_CHOICE (R48). -/
  | arbiterChoice
  /-- OPEN (R171). -/
  | sessionOpen
  /-- CLOSE (R172). -/
  | sessionClose
  /-- READ (R55). -/
  | read
  /-- READ_META (R29). -/
  | readMeta
  /-- LIST (R30). -/
  | list
  /-- WRITE (R58). -/
  | write
  /-- DELETE (R61). -/
  | delete
  /-- CLAIM (R75). -/
  | claim
  /-- RENEW (R80). -/
  | renew
  /-- RELEASE (R81). -/
  | release
  /-- WATCH (R92). -/
  | watch
  /-- UNWATCH (R93). -/
  | unwatch
  /-- TAKE_NOTICE (R98). -/
  | takeNotice
  /-- GROUP_BEGIN (R103). -/
  | groupBegin
  /-- GROUP_PUT (R104). -/
  | groupPut
  /-- GROUP_COMMIT (R107). -/
  | groupCommit
  /-- GROUP_ABANDON (R106). -/
  | groupAbandon
  /-- STORE_STATUS (R133). -/
  | storeStatus
  /-- COMPACT (R131). -/
  | compact
  /-- FORMAT (R155). -/
  | format
  /-- UNKNOWN_REQUEST_CODE (R52). -/
  | unknownRequestCode
  /-- TEARDOWN (R173). -/
  | teardown
  -- reclaim and FORMAT's continuation
  /-- RECLAIM_MARK (R120). -/
  | reclaimMark
  /-- RECLAIM_COPY (R121). -/
  | reclaimCopy
  /-- RECLAIM_ERASE (R126). -/
  | reclaimErase
  /-- FORMAT_ERASE (R157). -/
  | formatErase
  /-- WIPE_RE_PLACEMENT (R158). -/
  | wipeRePlacement
  -- flash outcomes
  /-- LINE_PROGRAM_COMPLETE (R135): the line program in flight ends with its verify. -/
  | lineProgramComplete (result : LineResult)
  /-- ERASE_COMPLETE (R136): the erase in flight ends with its verify; `stuck` lists sector offsets with the bits the
  erase did turn to one there (empty: good flash, every byte reads 0xFF). -/
  | eraseComplete (stuck : List (Nat × Byte))
  -- the lease clock
  /-- LEASE_CLOCK_ADVANCE (R73). -/
  | leaseClockAdvance
  /-- LEASE_EXPIRY (R82): the lease clock reaches the expiry of the lease on a key, which is taken first,
  and then those listed with it. -/
  | leaseExpiry (key : Reached Key)
  /-- WAIT_EXPIRY (R83): the lease clock reaches the wait expiry of a port's parked claim, which is taken first,
  and then those listed with it. -/
  | waitExpiry (port : Reached Port)
  -- the supply
  /-- GUARD_ARRIVAL (R138). -/
  | guardArrival
  /-- NORMAL_ARRIVAL (R144). -/
  | normalArrival
deriving DecidableEq, Repr

end Sys2Proof
end

