-- ==== Sys2Proof/Decode.lean ====
section
/-! DEFINITION. The command a table word spells. The block fetches no instruction and its rows in opcode_table.json give
no bits ("fields": [], no "fixed"), so no word spells a command. -/

namespace Sys2Proof

/-- The command spelled by the `nbits`-bit word `w`: none, for every word, since no row of the table gives bits. -/
def decodeTableWord (_nbits _w : Nat) : Option Instr :=
  none

end Sys2Proof
end

