-- ==== Sys2Proof/Config.lean ====
section
/-! DEFINITION. What the spec leaves open and the machine goes on with: the free values. None has a body, so no proof
can see a value of one; a claim that holds of this model holds whatever they are. `State.draws` counts the draws, so that
each draw may differ from the last. -/

namespace Sys2Proof.Config

/-- The bits that an erase which was aborted or cut off had already turned to one, in the byte at a sector offset
(R137, R134: the contents are "in no defined state"; log 7). First argument: the draw; second: the sector offset. -/
opaque erasedBits : Nat → Nat → Byte

/-- The bits that a line program cut off by a reset had not yet turned to zero, in one of the eight bytes of the line
(R134: "cut off where it stands"; log 8). First argument: the draw; second: the byte of the line. -/
opaque unprogrammedBits : Nat → Nat → Byte

/-- The erase count STORE_STATUS reports when no sector is usable, lowest (false) or highest (true): the spec gives
none (R133; log 15). First argument: the draw. -/
opaque eraseCountOfNone : Nat → Bool → Nat

/-- The erase count of a sector found RETIRED whose lines 0 and 1 are not valid: the spec gives none (R147; log 14).
First argument: the draw; second: the sector index. -/
opaque retiredEraseCount : Nat → Nat → Nat

end Sys2Proof.Config
end

