-- ==== Sys2Proof/Machine/State.lean ====
section
/-! DEFINITION. The state of the AV320, all of it plain data, and its value after reset. What the spec names and this
state determines (the ring, the head, the tail, the free pool, credits, ATN#, notice-pending, the engine state) has one
home here and an accessor elsewhere (log 22). -/

namespace Sys2Proof.Machine

open Sys2Proof

/-- Why the machine stops. -/
inductive Fault where
  /-- Raised by RECLAIM_COPY alone: the tail's live bytes are above 0, yet no record from the cursor to the fill is
  live. R121 says that this cannot be, and gives no effect for it. Safe: no run reaches it (log 18). -/
  | noLiveRecord
deriving DecidableEq, Repr

/-- Why a command has no meaning. -/
inductive Refusal where
  /-- Raised by an arm of `exec` whose command has no meaning yet; none is left. Safe. -/
  | notModelled (mnemonic : String)
deriving DecidableEq, Repr

/-! ### Names -/

/-- The supply state (R138). -/
inductive Supply where
  | normal | guard
deriving DecidableEq, Repr

/-- The five store modes (R41, TABLE 27). -/
inductive StoreMode where
  | mounting | blank | ready | readOnly | formatting
deriving DecidableEq, Repr

/-- The five engine states (R39, TABLE 25). -/
inductive EngineState where
  | idle | serving | stepping | mount | format
deriving DecidableEq, Repr

/-- The last-grant marker (R47). -/
inductive GrantMarker where
  | none | port | reclaim
deriving DecidableEq, Repr

/-- The port state (R161). -/
inductive PortState where
  | normal | resetting
deriving DecidableEq, Repr

/-- A port's teardown (R161). -/
inductive TeardownState where
  | none | pending | inService
deriving DecidableEq, Repr

/-- The result of the last frame (R161, TABLE 81). -/
inductive FrameResult where
  | none | ok | crcError | lengthError | full | badTag | resetting | timeout | unknownKind
deriving DecidableEq, Repr

/-- The 26 reply status codes (TABLE 83). -/
inductive Status where
  | ok | empty | notFound | stale | held | notHeld | frozen | denied | badKey | tooLong | noRoom | noSpace | hold
  | blank | noSession | noGroup | groupOpen | groupFull | limit | waitBusy | timeout | aborted | busySessions
  | malformed | retry | readOnly
deriving DecidableEq, Repr

/-- The sector states (R3, TABLE 7), DIRTY among them. -/
inductive SectorState where
  | erased | opened | closed | reclaiming | retired | dirty
deriving DecidableEq, Repr

/-- The four record kinds (TABLE 10). -/
inductive RecordKind where
  | value | tombstone | commit | wipe
deriving DecidableEq, Repr

/-- The state of the reclaim unit (R118). -/
inductive ReclaimState where
  | idle | marking | copying | erasing
deriving DecidableEq, Repr

/-! ### Ports and sessions -/

/-- One like thing for each of the three ports. -/
structure PerPort (α : Type) where
  a : α
  b : α
  c : α
deriving DecidableEq, Repr

/-- A request in a request queue: tag, code and body (R161). -/
structure Request where
  tag : Byte
  code : Byte
  body : List Byte
deriving DecidableEq, Repr

/-- A reply in a reply queue: tag, status and body (R161). -/
structure Reply where
  tag : Byte
  status : Status
  body : List Byte
deriving DecidableEq, Repr

/-- A port frame unit (R161, TABLE 78). Its parked claim is the tag in the session's parked-claim marker. -/
structure PortUnit where
  /-- NORMAL or RESETTING. -/
  state : PortState
  /-- The request queue, oldest first. -/
  queue : List Request
  /-- The tag of the request in service. -/
  inService : Option Byte
  /-- The reply queue, head first. -/
  replies : List Reply
  /-- Set once the head reply has been clocked out in full. -/
  headSent : Bool
  teardown : TeardownState
  lastResult : FrameResult
  replyEnable : Bool
  noticeEnable : Bool
  /-- SEL# has been asserted, and the frame that runs has not acted yet (R163). -/
  selected : Bool
  /-- The status bytes latched at the last assertion of SEL# (R163). -/
  latch : List Byte
  /-- The whole bytes put out on SDO in the last frame that acted; none once SEL# is asserted again (R163, R175). -/
  sdo : List Byte
deriving DecidableEq, Repr

/-- A rights set (R34, TABLE 24). -/
structure Rights where
  read : Bool
  write : Bool
  claim : Bool
  admin : Bool
deriving DecidableEq, Repr

/-- An entry of a notice list (R94, TABLE 48). -/
structure Notice where
  key : Key
  changed : Bool
  version : SeqNo
  lapsed : Bool
deriving DecidableEq, Repr

/-- A staged member of a group (R102, TABLE 54). -/
structure Member where
  key : Key
  expected : Option SeqNo
  delete : Bool
  value : List Byte
deriving DecidableEq, Repr

/-- A session context (R170, R91, R94, R102, R72). -/
structure Session where
  /-- OPEN when true, CLOSED when false. -/
  isOpen : Bool
  rights : Rights
  /-- Watched keys in order of insertion. -/
  watch : List Key
  /-- Notices in order of first posting. -/
  notices : List Notice
  groupOpen : Bool
  /-- Members in staging order. -/
  members : List Member
  /-- The parked-claim marker: key and tag. -/
  parked : Option (Key × Byte)
deriving DecidableEq, Repr

/-! ### Leases -/

/-- A waiter record (R72, TABLE 42). -/
structure Waiter where
  port : Port
  tag : Byte
  /-- The period field of the parked CLAIM as given; 0 asks for the default at the grant. -/
  period : Nat
  waitExpiry : ClockValue
deriving DecidableEq, Repr

/-- A lease entry (R72, TABLE 42). -/
structure Lease where
  key : Key
  holder : Port
  period : Nat
  expiry : ClockValue
  /-- Oldest first. -/
  waiters : List Waiter
deriving DecidableEq, Repr

/-! ### The store -/

/-- A directory entry (R23, TABLE 17). -/
structure DirEntry where
  key : Key
  version : SeqNo
  length : Nat
  sector : Nat
  /-- Payload offset, in bytes. -/
  offset : Nat
  /-- The group marker. -/
  group : Bool
deriving DecidableEq, Repr

/-- A sector table entry (R5, TABLE 9). -/
structure Sector where
  state : SectorState
  generation : Option Generation
  eraseCount : Nat
  /-- Payload lines occupied by records. -/
  fill : Nat
  live : Nat
  suspect : Bool
  erasePending : Bool
deriving DecidableEq, Repr

/-- The reclaim unit (R118, TABLE 62). -/
structure Reclaim where
  state : ReclaimState
  cursor : Nat
  failures : Nat
  target : Option Nat
  limit : Option Generation
deriving DecidableEq, Repr

/-- The flash controller (R134). -/
inductive FlashController where
  | idle
  | programming (sector line : Nat) (data : List Byte)
  | erasing (sector : Nat)
deriving DecidableEq, Repr

/-! ### The engine's work in hand -/

/-- A record to be placed, without its sequence (TABLE 11). `position` and `count` are the group field's two halves, 0
and 0 outside a group. -/
structure RecordSpec where
  kind : RecordKind
  copied : Bool
  key : Key
  value : List Byte
  position : Nat
  count : Nat
deriving DecidableEq, Repr

/-- What a placement is for. -/
inductive Goal where
  /-- A WRITE of a port, with its tag (R59). -/
  | write (port : Port) (tag : Byte)
  /-- A DELETE of a port, with its tag (R62). -/
  | delete (port : Port) (tag : Byte)
  /-- A GROUP_COMMIT of a port, with its tag (R110). -/
  | commit (port : Port) (tag : Byte)
  /-- A reclaim copy of the record at a payload line of the tail (R122). -/
  | copy (line : Nat)
  /-- The WIPE record of a FORMAT of a port, with its tag (R156). -/
  | wipe (port : Port) (tag : Byte)
deriving DecidableEq, Repr

/-- The line program a placement has in flight. -/
inductive PlacePhase where
  /-- The CLOSED marker of the old head (R12, first step). -/
  | closing (sector : Nat)
  /-- Header line 0 of the sector being opened. -/
  | line0 (sector : Nat)
  /-- Header line 1 of the sector being opened. -/
  | line1 (sector : Nat)
  /-- The RETIRED marker of a sector whose header failed (R13). -/
  | retiring (sector : Nat)
  /-- Line `line` of record `index` (both from 0), the placement having begun at payload line `base` of `sector`. -/
  | body (sector base index line : Nat)
  /-- The CLOSED marker of the head in which a record line failed (R11, R63). -/
  | closingFailed (sector : Nat)
deriving DecidableEq, Repr

/-- Records being placed and programmed (R59, R110, R122, R156). -/
structure Placement where
  goal : Goal
  /-- All records, in placement order; a group's COMMIT record is the last. -/
  records : List RecordSpec
  /-- The sequence of the first record, once taken; record k carries it plus k. -/
  firstSeq : Option SeqNo
  /-- Failed attempts so far (R63). -/
  attempts : Nat
  phase : PlacePhase
deriving DecidableEq, Repr

/-- What mount has in flight. -/
inductive MountPhase where
  /-- Reset is held: nothing has been read. -/
  | held
  /-- The settling phase waits for its next write. -/
  | waiting
  /-- A CLOSED marker is being programmed (R151). -/
  | closing (sector : Nat)
  /-- A DIRTY sector is being erased (R152). -/
  | erasing (sector : Nat)
  /-- The RETIRED marker of a DIRTY sector is being programmed (R152). -/
  | retiring (sector : Nat)
deriving DecidableEq, Repr

/-- Mount (R145 to R154). -/
structure MountWork where
  phase : MountPhase
  /-- Sectors still to be closed, in ring order. -/
  toClose : List Nat
  /-- The working directory. -/
  working : List DirEntry
  /-- Verify failures of the DIRTY sector in hand. -/
  failures : Nat
deriving DecidableEq, Repr

/-- What a FORMAT outside the WIPE's own placement has in flight. -/
inductive FormatPhase where
  /-- Paused in GUARD before a re-placement of the WIPE or a case-3 erase (R156, R158). -/
  | paused
  /-- The case-3 erase of the ring's first sector (R156); `suspect` as it stood when the erase began. -/
  | firstErase (sector : Nat) (suspect : Bool)
  /-- The RETIRED marker of that sector. -/
  | firstRetire (sector : Nat)
  /-- Waiting to start the erase of the first sector due at or above this index (R157). -/
  | sweep (next : Nat)
  /-- The erase of R157; `suspect` as it stood when the erase began. -/
  | sweepErase (sector : Nat) (suspect : Bool)
  /-- The RETIRED marker of that sector. -/
  | sweepRetire (sector : Nat)
deriving DecidableEq, Repr

/-- A FORMAT in progress (R155 to R159). -/
structure FormatWork where
  port : Port
  tag : Byte
  phase : FormatPhase
  /-- The WIPE record's sequence, once taken. -/
  wipeSeq : Option SeqNo
  /-- Verify failures of the sector in hand. -/
  failures : Nat
deriving DecidableEq, Repr

/-- The engine's work in hand; it decides the engine state (R39). -/
inductive Work where
  | idle
  /-- A granted request whose service has not begun (R50). -/
  | request (port : Port) (r : Request)
  /-- A granted teardown (R51). -/
  | teardown (port : Port)
  /-- Records being programmed. -/
  | place (p : Placement)
  /-- A reclaim grant whose step has not begun. -/
  | reclaimGrant
  /-- The RECLAIM marker of the tail is being programmed (R120). -/
  | marking (sector : Nat)
  /-- The tail is being erased (R126); `suspect` as taken at the start of the erase. -/
  | tailErase (sector : Nat) (suspect : Bool)
  /-- The RETIRED marker of the tail is being programmed (R127, R128). -/
  | tailRetire (sector : Nat)
  | mount (m : MountWork)
  | format (f : FormatWork)
deriving DecidableEq, Repr

/-! ### The state -/

/-- The whole block. -/
structure State where
  /-- The commands waiting, first in first out. -/
  pending : List Instr
  /-- RESET# is asserted (TABLE 88). -/
  resetPin : Bool
  /-- The supply monitor holds the part in power-on reset (R139). -/
  powerHold : Bool
  /-- The supply state (R138). -/
  supply : Supply
  /-- VDD stands above 2.95 V as the supply monitor has seen it, so that leaving reset takes that rise (R138; log 28). -/
  supplyHigh : Bool
  /-- The store mode (R41). -/
  mode : StoreMode
  /-- The engine's work in hand (R39). -/
  work : Work
  /-- The round-robin pointer (R47). -/
  pointer : Port
  /-- The last-grant marker (R47). -/
  lastGrant : GrantMarker
  /-- The flash controller (R134). -/
  controller : FlashController
  /-- The flash array (R1): rising addresses, no erased byte listed. -/
  flash : List Host.Cell
  /-- The sector table, entry i for sector i; empty until mount has read the flash (R6). -/
  sectors : List Sector
  /-- The sequence counter (R10); 0 while it is empty (R6). -/
  nextSeq : SeqNo
  /-- The generation counter (R9); 0 while it is empty (R6). -/
  nextGen : Generation
  /-- The key directory in ascending key order (R23). -/
  directory : List DirEntry
  /-- The rights in force (R32). -/
  rightsInForce : PerPort Rights
  /-- The freeze line in force (R32). -/
  freezeLine : Key
  /-- The default lease period in force (R32). -/
  defaultPeriod : Nat
  /-- Damaged records found by the last mount (R145). -/
  damaged : Nat
  /-- The reclaim unit (R118). -/
  reclaim : Reclaim
  /-- The lease table (R72), in ascending key order (DESIGN CHOICE, log 23). -/
  leases : List Lease
  /-- The lease clock (R73). -/
  leaseClock : ClockValue
  /-- The port frame units (R161). -/
  ports : PerPort PortUnit
  /-- The session contexts (R170). -/
  sessions : PerPort Session
  /-- Free values drawn so far: the model's own field (log 7). -/
  draws : Nat
deriving DecidableEq, Repr

/-! ### Reset -/

/-- No right at all (R170). -/
def Rights.noRights : Rights := ⟨false, false, false, false⟩

/-- The default rights of TABLE 23 and TABLE 87: A 0x0F, B and C 0x07. -/
def defaultRights : PerPort Rights :=
  ⟨⟨true, true, true, true⟩, ⟨true, true, true, false⟩, ⟨true, true, true, false⟩⟩

/-- A port frame unit after a reset (R161, TABLE 78, last column). Latch and SDO: DESIGN CHOICE, log 6. -/
def PortUnit.reset : PortUnit where
  state := .normal
  queue := []
  inService := none
  replies := []
  headSent := false
  teardown := .none
  lastResult := .none
  replyEnable := true
  noticeEnable := false
  selected := false
  latch := []
  sdo := []

/-- A closed session (R170). -/
def Session.closed : Session where
  isOpen := false
  rights := .noRights
  watch := []
  notices := []
  groupOpen := false
  members := []
  parked := none

/-- The reclaim unit after a reset (R118). -/
def Reclaim.reset : Reclaim where
  state := .idle
  cursor := 0
  failures := 0
  target := none
  limit := none

/-- Mount before the reset is released. -/
def MountWork.held : MountWork where
  phase := .held
  toClose := []
  working := []
  failures := 0

/-- The block in reset: held in power-on reset, RESET# released, the flash blank (DESIGN CHOICE, logs 4 and 5); every
block in its reset state (R6, R23, R41, R47, R72, R118, R134, R138, R161, R170). The values in force stand at the
defaults of TABLE 23 until mount sets them (DESIGN CHOICE, log 6). -/
def State.reset : State where
  pending := []
  resetPin := false
  powerHold := true
  supply := .guard
  supplyHigh := false
  mode := .mounting
  work := .mount .held
  pointer := .A
  lastGrant := .none
  controller := .idle
  flash := []
  sectors := []
  nextSeq := 0
  nextGen := 0
  directory := []
  rightsInForce := defaultRights
  freezeLine := 0x0F00
  defaultPeriod := 500
  damaged := 0
  reclaim := .reset
  leases := []
  leaseClock := 0
  ports := ⟨.reset, .reset, .reset⟩
  sessions := ⟨.closed, .closed, .closed⟩
  draws := 0

end Sys2Proof.Machine
end

