-- ==== Sys2Proof/Machine/Bytes.lean ====
section
/-! DEFINITION. Byte order, the two checks, and the stored layouts of records, sector headers and markers
(12_formats_and_connections.md R174, R177). -/

namespace Sys2Proof.Machine

/-- `n` bytes of a number, most significant byte first (R174). -/
def beBytes : Nat → Nat → List Byte
  | 0, _ => []
  | n + 1, v => BitVec.ofNat 8 (v / 256 ^ n) :: beBytes n v

/-- The number a list of bytes spells, most significant byte first (R174). -/
def beNat (bytes : List Byte) : Nat :=
  bytes.foldl (fun acc b => acc * 256 + b.toNat) 0

/-- `f` applied `n` times. -/
def iterateTimes {α : Type} (f : α → α) : Nat → α → α
  | 0, x => x
  | n + 1, x => iterateTimes f n (f x)

/-- One bit of the CRC-8, generator 0x2F, most significant bit first (R174). -/
def crc8Bit (c : Byte) : Byte :=
  if 128 ≤ c.toNat then (c <<< 1) ^^^ 0x2F else c <<< 1

/-- The CRC-8 of a frame or a reply: initial value 0x00, no final inversion (R174). -/
def crc8 (bytes : List Byte) : Byte :=
  bytes.foldl (fun c b => iterateTimes crc8Bit 8 (c ^^^ b)) 0

/-- One bit of the CRC-16, generator 0x1021, most significant bit first (R174). -/
def crc16Bit (c : BitVec 16) : BitVec 16 :=
  if 32768 ≤ c.toNat then (c <<< 1) ^^^ 0x1021 else c <<< 1

/-- The CRC-16 of a record or a sector header: initial value 0xFFFF, no final inversion (R174). -/
def crc16 (bytes : List Byte) : BitVec 16 :=
  bytes.foldl (fun c b => iterateTimes crc16Bit 8 (c ^^^ (BitVec.ofNat 16 (b.toNat * 256)))) 0xFFFF

/-- A value padded with 0xFF to a multiple of 8 bytes (TABLE 11, R177). -/
def padValue (value : List Byte) : List Byte :=
  value ++ List.replicate (8 * ((value.length + 7) / 8) - value.length) erasedByte

/-- Line `l` of a run of bytes. -/
def lineOf (bytes : List Byte) (l : Nat) : List Byte :=
  (bytes.drop (8 * l)).take 8

/-! ### Sizes (R14) -/

/-- Lines of a record with `length` value bytes: 2 for the header, and the value's. -/
def linesForLength (length : Nat) : Nat :=
  2 + (length + 7) / 8

/-- Size of a record with `length` value bytes: 16 plus the length rounded up to a multiple of 8. -/
def sizeForLength (length : Nat) : Nat :=
  16 + 8 * ((length + 7) / 8)

/-- Lines of a record to be placed. -/
def RecordSpec.lines (r : RecordSpec) : Nat :=
  linesForLength r.value.length

/-- Lines of all records of a placement (R16). -/
def totalLines (rs : List RecordSpec) : Nat :=
  (rs.map RecordSpec.lines).sum

/-- The record a directory entry points at has this size. -/
def DirEntry.size (e : DirEntry) : Nat :=
  sizeForLength e.length

/-! ### Record layout (R177, TABLE 85) -/

/-- The record kind codes (R177). -/
def RecordKind.code : RecordKind → Byte
  | .value => 0x01
  | .tombstone => 0x02
  | .commit => 0x03
  | .wipe => 0x04

/-- The group byte: position in bits 7 to 4, count in bits 3 to 0; a COMMIT carries position 0 (R177). -/
def RecordSpec.groupByte (r : RecordSpec) : Byte :=
  BitVec.ofNat 8 (r.position * 16 + r.count)

/-- The group reference: the low 16 bits of the group's first sequence; 0 outside a group (TABLE 11, R110). -/
def RecordSpec.groupReference (r : RecordSpec) (firstSeq : SeqNo) : Nat :=
  if r.count = 0 then 0 else firstSeq.toNat % 65536

/-- Record header bytes 0 to 13, over which and the value the check is taken (R174). -/
def RecordSpec.headerFields (r : RecordSpec) (firstSeq seq : SeqNo) : List Byte :=
  [r.kind.code, if r.copied then 0x01 else 0x00] ++ beBytes 2 r.key.toNat ++ [BitVec.ofNat 8 r.value.length]
    ++ [r.groupByte] ++ beBytes 2 (r.groupReference firstSeq) ++ beBytes 6 seq.toNat

/-- The bytes of a record as they are programmed (TABLE 85). -/
def RecordSpec.bytes (r : RecordSpec) (firstSeq seq : SeqNo) : List Byte :=
  r.headerFields firstSeq seq ++ beBytes 2 (crc16 (r.headerFields firstSeq seq ++ r.value)).toNat ++ padValue r.value

/-! ### Sector header layout (R177, TABLE 86) -/

/-- The sector format identifier (R177). -/
def formatIdentifier : Nat := 0x4A52

/-- Header bytes 0 to 13: identifier, erase count, generation, sequence mark. -/
def headerFields (eraseCount : Nat) (generation : Generation) (mark : SeqNo) : List Byte :=
  beBytes 2 formatIdentifier ++ beBytes 2 eraseCount ++ beBytes 4 generation.toNat ++ beBytes 6 mark.toNat

/-- Header lines 0 and 1: the fields and the header check over them (R2, R174). -/
def headerBytes (eraseCount : Nat) (generation : Generation) (mark : SeqNo) : List Byte :=
  headerFields eraseCount generation mark ++ beBytes 2 (crc16 (headerFields eraseCount generation mark)).toNat

/-- The CLOSED marker line (R177). -/
def closedMarker : List Byte := List.replicate 8 0x0C

/-- The RECLAIM marker line (R177). -/
def reclaimMarker : List Byte := List.replicate 8 0x0A

/-- The RETIRED marker line (R177). -/
def retiredMarker : List Byte := List.replicate 8 0x00

end Sys2Proof.Machine
end

