-- ==== Sys2Proof/Machine/Flags.lean ====
section
/-! DEFINITION. Code values and flag bytes: the port status bytes (TABLE 81), the status codes (TABLE 83), the encodings
of ports, modes and flags in reply bodies (R176, TABLE 82). -/

namespace Sys2Proof.Machine

/-- A port in a reply body: 0 none, 1 A, 2 B, 3 C (R176). -/
def Port.code : Port → Byte
  | .A => 1
  | .B => 2
  | .C => 3

/-- A port or none in a reply body (R176). -/
def portCode : Option Port → Byte
  | none => 0
  | some p => Port.code p

/-- Store mode codes (TABLE 81). -/
def StoreMode.code : StoreMode → Nat
  | .mounting => 0
  | .blank => 1
  | .ready => 2
  | .readOnly => 3
  | .formatting => 4

/-- Supply state codes (TABLE 81). -/
def Supply.code : Supply → Nat
  | .normal => 0
  | .guard => 1

/-- Port state codes (TABLE 81). -/
def PortState.code : PortState → Nat
  | .normal => 0
  | .resetting => 1

/-- Frame result codes (TABLE 81). -/
def FrameResult.code : FrameResult → Nat
  | .none => 0
  | .ok => 1
  | .crcError => 2
  | .lengthError => 3
  | .full => 4
  | .badTag => 5
  | .resetting => 6
  | .timeout => 7
  | .unknownKind => 8

/-- Reply status codes (TABLE 83). -/
def Status.code : Status → Byte
  | .ok => 0x00
  | .empty => 0x01
  | .notFound => 0x02
  | .stale => 0x03
  | .held => 0x04
  | .notHeld => 0x05
  | .frozen => 0x06
  | .denied => 0x07
  | .badKey => 0x08
  | .tooLong => 0x09
  | .noRoom => 0x0A
  | .noSpace => 0x0B
  | .hold => 0x0C
  | .blank => 0x0D
  | .noSession => 0x0E
  | .noGroup => 0x0F
  | .groupOpen => 0x10
  | .groupFull => 0x11
  | .limit => 0x12
  | .waitBusy => 0x13
  | .timeout => 0x14
  | .aborted => 0x15
  | .busySessions => 0x16
  | .malformed => 0x17
  | .retry => 0x18
  | .readOnly => 0x19

/-- The reclaim state in STORE_STATUS: 0 IDLE, 2 COPYING, 3 ERASING (TABLE 84); MARKING never stands between grants
(R133), and would read 1. -/
def ReclaimState.code : ReclaimState → Byte
  | .idle => 0
  | .marking => 1
  | .copying => 2
  | .erasing => 3

/-- One bit as a number. -/
def flagBit (b : Bool) : Nat := b.toNat

/-- Status byte 0 (TABLE 81). -/
def statusByte0 (mode : StoreMode) (supply : Supply) (sessionOpen replyReady noticePending : Bool)
    (port : PortState) : Byte :=
  BitVec.ofNat 8 (mode.code * 32 + supply.code * 16 + flagBit sessionOpen * 8 + flagBit replyReady * 4
    + flagBit noticePending * 2 + port.code)

/-- Status byte 1 (TABLE 81); bit 0 reads 0 (R175). -/
def statusByte1 (credits : Nat) (result : FrameResult) : Byte :=
  BitVec.ofNat 8 (credits * 32 + result.code * 2)

/-- READ_META's flags byte: bit 0 frozen, bit 1 watched, bit 2 group member (TABLE 82). -/
def metaFlags (frozen watched group : Bool) : Byte :=
  BitVec.ofNat 8 (flagBit frozen + 2 * flagBit watched + 4 * flagBit group)

/-- TAKE_NOTICE's flags byte: bit 0 changed, bit 1 lapsed (TABLE 82). -/
def noticeFlags (n : Notice) : Byte :=
  BitVec.ofNat 8 (flagBit n.changed + 2 * flagBit n.lapsed)

/-- LIST's flags byte: bit 0 END (TABLE 82). -/
def listFlags (atEnd : Bool) : Byte :=
  BitVec.ofNat 8 (flagBit atEnd)

/-- A reply as it is clocked out: tag, status, body length, body, and the CRC-8 over them (R174, R175). -/
def Reply.bytes (r : Reply) : List Byte :=
  [r.tag, r.status.code, BitVec.ofNat 8 r.body.length] ++ r.body
    ++ [crc8 ([r.tag, r.status.code, BitVec.ofNat 8 r.body.length] ++ r.body)]

end Sys2Proof.Machine
end

