-- ==== Sys2Proof/Machine/Flash.lean ====
section
/-! DEFINITION. The flash array (01_the_journal_ring.md R1; 09_flash_array_and_supply_guard.md R135, R136): 64 sectors of
2,048 bytes at address 2,048 × sector + offset, held as a list of cells in one canonical form. -/

namespace Sys2Proof.Machine

/-- Bytes of a sector (R1). -/
def sectorBytes : Nat := 2048

/-- Address of sector `i`. -/
def sectorBase (i : Nat) : Nat := sectorBytes * i

/-- Address of line `l` of sector `i`; lines 0 to 4 are the header (R1, TABLE 6). -/
def lineAddress (i l : Nat) : Nat := sectorBase i + 8 * l

/-- Address of payload offset `off` of sector `i` (TABLE 6: the payload begins at sector offset 40). -/
def payloadAddress (i off : Nat) : Nat := sectorBase i + 40 + off

/-- What a byte of flash reads; an unlisted byte is erased (R1). -/
def readByte (m : List Host.Cell) (a : Nat) : Byte :=
  match m with
  | [] => erasedByte
  | (x, b) :: t => if x = a then b else readByte t a

/-- `n` bytes from address `a`. -/
def readBytes (m : List Host.Cell) (a : Nat) : Nat → List Byte
  | 0 => []
  | n + 1 => readByte m a :: readBytes m (a + 1) n

/-- A byte replaced, keeping the canonical form: an erased byte is not listed. -/
def writeByte : List Host.Cell → Nat → Byte → List Host.Cell
  | [], a, b => if b = erasedByte then [] else [(a, b)]
  | (x, y) :: t, a, b =>
    if a < x then (if b = erasedByte then (x, y) :: t else (a, b) :: (x, y) :: t)
    else if a = x then (if b = erasedByte then t else (a, b) :: t)
    else (x, y) :: writeByte t a b

/-- Programming turns bits from one to zero only: each byte keeps the zeros it had (R1, R135). -/
def programBytes (m : List Host.Cell) (a : Nat) : List Byte → List Host.Cell
  | [] => m
  | b :: bs => programBytes (writeByte m a (readByte m a &&& b)) (a + 1) bs

/-- Erasing turns bits from zero to one only: in the addresses from `lo` below `hi`, each byte gains the bits that `bits`
gives for its sector offset. -/
def raiseBytes (bits : Nat → Byte) (base lo hi : Nat) : List Host.Cell → List Host.Cell
  | [] => []
  | (a, b) :: t =>
    if lo ≤ a ∧ a < hi then
      (if b ||| bits (a - base) = erasedByte then raiseBytes bits base lo hi t
       else (a, b ||| bits (a - base)) :: raiseBytes bits base lo hi t)
    else (a, b) :: raiseBytes bits base lo hi t

/-- No byte from `lo` below `hi` is other than 0xFF. -/
def allErased (m : List Host.Cell) (lo hi : Nat) : Bool :=
  m.all fun c => !(decide (lo ≤ c.1) && decide (c.1 < hi))

/-- A sector erase as far as `bits` says it went: the header first, and no payload byte before every header byte reads
0xFF (R136). -/
def eraseSector (bits : Nat → Byte) (i : Nat) (m : List Host.Cell) : List Host.Cell :=
  if allErased (raiseBytes bits (sectorBase i) (sectorBase i) (sectorBase i + 40) m) (sectorBase i) (sectorBase i + 40)
  then raiseBytes bits (sectorBase i) (sectorBase i + 40) (sectorBase i + sectorBytes)
    (raiseBytes bits (sectorBase i) (sectorBase i) (sectorBase i + 40) m)
  else raiseBytes bits (sectorBase i) (sectorBase i) (sectorBase i + 40) m

/-- Every byte of the sector reads 0xFF (R136, TABLE 67). -/
def sectorErased (m : List Host.Cell) (i : Nat) : Bool :=
  allErased m (sectorBase i) (sectorBase i + sectorBytes)

/-- The bits an erase turned to one, when `stuck` lists the offsets it did not clear. -/
def stuckBits (stuck : List (Nat × Byte)) (off : Nat) : Byte :=
  match stuck with
  | [] => 0xFF
  | (o, b) :: t => if o = off then b else stuckBits t off

/-- The 8 bytes of a line. -/
def readLine (m : List Host.Cell) (i l : Nat) : List Byte :=
  readBytes m (lineAddress i l) 8

/-- The canonical form: addresses strictly rising, and no erased byte listed. -/
def Memory.wf : List Host.Cell → Bool
  | [] => true
  | [(_, b)] => b != erasedByte
  | (a, b) :: (a', b') :: t => b != erasedByte && decide (a < a') && Memory.wf ((a', b') :: t)

end Sys2Proof.Machine
end

