-- ==== Sys2Proof/Machine/Operands.lean ====
section
/-! DEFINITION. Request bodies: every operand form of TABLE 82 and the field values step 2 of the common check order
tests (R52, R176), and the stored values of the system keys (TABLE 87). -/

namespace Sys2Proof.Machine

/-- A user key (R22, TABLE 16). -/
def userKey (k : Key) : Bool :=
  decide (0x0001 ≤ k.toNat) && decide (k.toNat ≤ 0x0EFF)

/-- A system key (R22, TABLE 16). -/
def systemKey (k : Key) : Bool :=
  decide (0x0F01 ≤ k.toNat) && decide (k.toNat ≤ 0x0F03)

/-- A valid key (R22). -/
def keyValid (k : Key) : Bool :=
  userKey k || systemKey k

/-- The rights key, the freeze-line key and the default-period key (TABLE 23). -/
def rightsKey : Key := 0x0F01
def freezeKey : Key := 0x0F02
def periodKey : Key := 0x0F03

/-- Two bytes as a key. -/
def keyOfBytes (hi lo : Byte) : Key :=
  BitVec.ofNat 16 (beNat [hi, lo])

/-- A body that must be empty. -/
def parseEmpty : List Byte → Option Unit
  | [] => some ()
  | _ => none

/-- A body that is one 2-byte key (READ, READ_META, LIST, RELEASE, WATCH, UNWATCH). -/
def parseKey : List Byte → Option Key
  | [a, b] => some (keyOfBytes a b)
  | _ => none

/-- The body of OPEN: empty, or one enables byte with bits 2 to 7 at 0 (R171): (reply enable, notice enable). -/
def parseOpen : List Byte → Option (Bool × Bool)
  | [] => some (true, true)
  | [e] => if e.toNat < 4 then some (e.getLsbD 0, e.getLsbD 1) else none
  | _ => none

/-- The body of WRITE, DELETE or GROUP_PUT (R57, R61, R104, R176). -/
structure Change where
  key : Key
  expected : Option SeqNo
  delete : Bool
  value : List Byte
deriving DecidableEq, Repr

/-- Key, options, optional 6-byte expected version, rest; `limit` bounds the options byte, so that an undefined bit is
refused (R57, R104, R176). -/
def parseChange (limit : Nat) : List Byte → Option Change
  | a :: b :: opts :: rest =>
    if opts.toNat < limit then
      (if opts.getLsbD 0 then
        (if rest.length < 6 then none
         else some ⟨keyOfBytes a b, some (BitVec.ofNat 48 (beNat (rest.take 6))), opts.getLsbD 1, rest.drop 6⟩)
       else some ⟨keyOfBytes a b, none, opts.getLsbD 1, rest⟩)
    else none
  | _ => none

/-- A rights byte names only the four rights (R33, R176). -/
def rightsByteValid (b : Byte) : Bool :=
  decide (b.toNat < 16)

/-- A rights set from its byte (R176). -/
def Rights.ofByte (b : Byte) : Rights :=
  ⟨b.getLsbD 0, b.getLsbD 1, b.getLsbD 2, b.getLsbD 3⟩

/-- A rights set as its byte (R176). -/
def Rights.toByte (r : Rights) : Byte :=
  BitVec.ofNat 8 (r.read.toNat + 2 * r.write.toNat + 4 * r.claim.toNat + 8 * r.admin.toNat)

/-- The rights value: three valid bytes, for A, B and C (TABLE 87). -/
def parseRights : List Byte → Option (PerPort Rights)
  | [a, b, c] =>
    if rightsByteValid a && rightsByteValid b && rightsByteValid c then
      some ⟨Rights.ofByte a, Rights.ofByte b, Rights.ofByte c⟩
    else none
  | _ => none

/-- At least one port is granted ADMIN (R32, R33). -/
def grantsAdmin (r : PerPort Rights) : Bool :=
  r.a.admin || r.b.admin || r.c.admin

/-- The freeze-line value: 2 bytes, 0x0001 to 0x0F00 (TABLE 87). -/
def parseFreezeLine : List Byte → Option Key
  | [a, b] => if 1 ≤ beNat [a, b] ∧ beNat [a, b] ≤ 0x0F00 then some (keyOfBytes a b) else none
  | _ => none

/-- The default-period value: 2 bytes, 1 to 6,000 (TABLE 87). -/
def parsePeriod : List Byte → Option Nat
  | [a, b] => if 1 ≤ beNat [a, b] ∧ beNat [a, b] ≤ 6000 then some (beNat [a, b]) else none
  | _ => none

/-- Length and range of a system-key value at step 2; a user-key value passes (R33, TABLE 23). -/
def systemValueValid (k : Key) (value : List Byte) : Bool :=
  if k = rightsKey then (parseRights value).isSome
  else if k = freezeKey then (parseFreezeLine value).isSome
  else if k = periodKey then (parsePeriod value).isSome
  else true

/-- The body of WRITE: options bit 0 alone; a system-key value of the right length and range (R57, R33). -/
def parseWrite (body : List Byte) : Option Change :=
  match parseChange 2 body with
  | some c => if systemValueValid c.key c.value then some c else none
  | none => none

/-- The body of DELETE: as WRITE's, with no value (R61). -/
def parseDelete (body : List Byte) : Option Change :=
  match parseChange 2 body with
  | some c => if c.value = [] then some c else none
  | none => none

/-- The body of GROUP_PUT: options bits 0 and 1; no value with the delete flag (R104). -/
def parseGroupPut (body : List Byte) : Option Change :=
  match parseChange 4 body with
  | some c => if c.delete && !c.value.isEmpty then none else some c
  | none => none

/-- The body of CLAIM: key, period and wait, each of the two at most 6,000 (R75). -/
structure ClaimBody where
  key : Key
  period : Nat
  wait : Nat
deriving DecidableEq, Repr

def parseClaim : List Byte → Option ClaimBody
  | [a, b, p, p', w, w'] =>
    if beNat [p, p'] ≤ 6000 ∧ beNat [w, w'] ≤ 6000 then some ⟨keyOfBytes a b, beNat [p, p'], beNat [w, w']⟩ else none
  | _ => none

/-- The body of RENEW: key and period of at most 6,000 (R80). -/
def parseRenew : List Byte → Option (Key × Nat)
  | [a, b, p, p'] => if beNat [p, p'] ≤ 6000 then some (keyOfBytes a b, beNat [p, p']) else none
  | _ => none

/-- The body of COMPACT: a target from 1 to usable − 3 (R131). -/
def parseCompact (usable : Nat) : List Byte → Option Nat
  | [a, b] => if 1 ≤ beNat [a, b] ∧ beNat [a, b] ≤ usable - 3 then some (beNat [a, b]) else none
  | _ => none

end Sys2Proof.Machine
end

