-- ==== Sys2Proof/Machine/Ops.lean ====
section
/-! DEFINITION. The named operations over the state: ports and sessions, replies, notices, the keyed tables, the sector
table and what is derived from it, the flash controller's requests. Each writes the fields it names and no other. -/

namespace Sys2Proof.Machine

/-! ### The three ports -/

/-- The port after this one in the order A, B, C, A (R47). -/
def Port.next : Port → Port
  | .A => .B
  | .B => .C
  | .C => .A

def PerPort.get {α : Type} (x : PerPort α) : Port → α
  | .A => x.a
  | .B => x.b
  | .C => x.c

def PerPort.set {α : Type} (x : PerPort α) : Port → α → PerPort α
  | .A, v => { x with a := v }
  | .B, v => { x with b := v }
  | .C, v => { x with c := v }

/-- `f` at every port but `p`. -/
def PerPort.mapOthers {α : Type} (x : PerPort α) (p : Port) (f : α → α) : PerPort α where
  a := if p = .A then x.a else f x.a
  b := if p = .B then x.b else f x.b
  c := if p = .C then x.c else f x.c

/-- The port frame unit of a port. -/
def State.port (s : State) (p : Port) : PortUnit := s.ports.get p

/-- The session of a port. -/
def State.session (s : State) (p : Port) : Session := s.sessions.get p

def State.setPort (s : State) (p : Port) (u : PortUnit) : State :=
  { s with ports := s.ports.set p u }

def State.setSession (s : State) (p : Port) (x : Session) : State :=
  { s with sessions := s.sessions.set p x }

/-- The part is in reset: RESET# is asserted or the supply monitor holds it (R139). -/
def State.inReset (s : State) : Bool :=
  s.resetPin || s.powerHold

/-! ### Engine state -/

/-- The engine state that the work in hand shows (R39, TABLE 25). -/
def Work.engineState : Work → EngineState
  | .idle => .idle
  | .request _ _ => .serving
  | .teardown _ => .serving
  | .place p =>
    match p.goal with
    | .write _ _ => .serving
    | .delete _ _ => .serving
    | .commit _ _ => .serving
    | .copy _ => .stepping
    | .wipe _ _ => .format
  | .reclaimGrant => .stepping
  | .marking _ => .stepping
  | .tailErase _ _ => .stepping
  | .tailRetire _ => .stepping
  | .mount _ => .mount
  | .format _ => .format

/-- The engine state (R39). -/
def State.engineState (s : State) : EngineState := s.work.engineState

/-! ### Replies (R40, R51, R166, R169) -/

/-- A reply handed to a port joins the tail of its reply queue; in RESETTING it is discarded, and its credit is back
(R166, R169). -/
def PortUnit.receive (u : PortUnit) (r : Reply) : PortUnit :=
  { u with replies := if u.state = .resetting then u.replies else u.replies ++ [r] }

/-- The request in service has been answered, or has left the port's service. -/
def PortUnit.endService (u : PortUnit) : PortUnit :=
  { u with inService := none }

/-- The lease table, or a teardown, hands a reply to a port. -/
def State.handReply (s : State) (p : Port) (r : Reply) : State :=
  s.setPort p ((s.port p).receive r)

/-- The engine hands the reply of the request in service to its port, and is IDLE (R40, TABLE 26). -/
def State.answer (s : State) (p : Port) (tag : Byte) (st : Status) (body : List Byte) : State :=
  { s with work := .idle, ports := s.ports.set p ((s.port p).receive ⟨tag, st, body⟩).endService }

/-! ### Credits, tags, attention (R162, R167) -/

/-- The tag of the port's parked claim (R161). -/
def State.portParked (s : State) (p : Port) : Option Byte :=
  (s.session p).parked.map Prod.snd

/-- Credits in use: queued requests, the request in service, the parked claim, replies waiting (R162). -/
def State.creditsInUse (s : State) (p : Port) : Nat :=
  (s.port p).queue.length + (s.port p).inService.toList.length + (s.portParked p).toList.length
    + (s.port p).replies.length

/-- Free credits: four less those in use (R162). -/
def State.freeCredits (s : State) (p : Port) : Nat :=
  4 - s.creditsInUse p

/-- The tags in use (R162). -/
def State.tagsInUse (s : State) (p : Port) : List Byte :=
  (s.port p).queue.map Request.tag ++ (s.port p).inService.toList ++ (s.portParked p).toList
    ++ (s.port p).replies.map Reply.tag

/-- Notice-pending: the notice list is not empty (R99). -/
def Session.noticePending (x : Session) : Bool := !x.notices.isEmpty

/-- ATN# of a port is asserted (R167). -/
def State.attention (s : State) (p : Port) : Bool :=
  ((s.port p).replyEnable && !(s.port p).replies.isEmpty)
    || ((s.port p).noticeEnable && (s.session p).noticePending)

/-! ### Keyed tables in ascending key order

R23 gives the key directory this order. R72 gives the lease table none: that it has it is a DESIGN CHOICE (log 23). -/

/-- Insert, or replace the element of the same key. -/
def insertKeyed {α : Type} (key : α → Key) (x : α) : List α → List α
  | [] => [x]
  | y :: ys =>
    if (key x).toNat < (key y).toNat then x :: y :: ys
    else if key x = key y then x :: ys
    else y :: insertKeyed key x ys

def findKeyed {α : Type} (key : α → Key) (k : Key) (l : List α) : Option α :=
  l.find? fun y => key y == k

def removeKeyed {α : Type} (key : α → Key) (k : Key) (l : List α) : List α :=
  l.filter fun y => key y != k

/-- The directory entry of a key (R23). -/
def State.entry (s : State) (k : Key) : Option DirEntry :=
  findKeyed DirEntry.key k s.directory

/-- The version of a key, 0 when it does not exist (R27). -/
def State.version (s : State) (k : Key) : SeqNo :=
  match s.entry k with
  | some e => e.version
  | none => 0

/-- The lease entry of a key (R72). -/
def State.leaseOf (s : State) (k : Key) : Option Lease :=
  findKeyed Lease.key k s.leases

/-! ### Sector table and what is derived from it (R5, R7, R8, R18, R19) -/

/-- A sector table entry of an erased sector with no count. -/
def Sector.erased (eraseCount : Nat) : Sector where
  state := .erased
  generation := none
  eraseCount := eraseCount
  fill := 0
  live := 0
  suspect := false
  erasePending := false

/-- Entry `i` of a sector table. -/
def sectorAt (t : List Sector) (i : Nat) : Sector :=
  t.getD i (Sector.erased 0)

/-- Entry `i` of the sector table. -/
def State.sector (s : State) (i : Nat) : Sector := sectorAt s.sectors i

def State.setSector (s : State) (i : Nat) (e : Sector) : State :=
  { s with sectors := s.sectors.set i e }

/-- The sector is in the ring (R7). -/
def Sector.inRing (e : Sector) : Bool :=
  match e.state with
  | .opened => true
  | .closed => true
  | .reclaiming => true
  | .erased => false
  | .retired => false
  | .dirty => false

/-- The generation as a number; 0 when absent. -/
def Sector.generationNat (e : Sector) : Nat :=
  match e.generation with
  | some g => g.toNat
  | none => 0

/-- Place an index before the first of a higher or the same generation, so that of two with one generation the one placed
later stands first (R7, R147). -/
def insertByGeneration (t : List Sector) (i : Nat) : List Nat → List Nat
  | [] => [i]
  | j :: js =>
    if (sectorAt t i).generationNat ≤ (sectorAt t j).generationNat then i :: j :: js
    else j :: insertByGeneration t i js

/-- The ring: the sectors OPEN, CLOSED and RECLAIMING by ascending generation, of one generation the lower index first
(R7, R147). -/
def ringOf (t : List Sector) : List Nat :=
  ((List.range t.length).filter fun i => (sectorAt t i).inRing).foldr (insertByGeneration t) []

def State.ring (s : State) : List Nat := ringOf s.sectors

/-- The tail: the first sector of the ring (R7). -/
def State.tail? (s : State) : Option Nat := s.ring.head?

/-- The head: the OPEN sector (R7). -/
def State.head? (s : State) : Option Nat :=
  (List.range s.sectors.length).find? fun i => decide ((s.sector i).state = .opened)

/-- The free pool: ERASED sectors with erase pending clear, by index (R8). -/
def State.freePool (s : State) : List Nat :=
  (List.range s.sectors.length).filter fun i =>
    decide ((s.sector i).state = .erased) && !(s.sector i).erasePending

/-- Free (R8). -/
def State.freeCount (s : State) : Nat := s.freePool.length

/-- The number of retired sectors (R8). -/
def State.retiredCount (s : State) : Nat :=
  (s.sectors.filter fun e => decide (e.state = .retired)).length

/-- Usable: 64 less the retired (R8). -/
def State.usable (s : State) : Nat := 64 - s.retiredCount

/-- The live bytes of the store (R18). -/
def State.storeLive (s : State) : Nat := (s.sectors.map Sector.live).sum

/-- The live budget (R19); 0 when usable is below 3 (TABLE 64). -/
def State.liveBudget (s : State) : Nat := (s.usable - 3) * 2008

/-- The better of two free sectors: the lower erase count, the earlier one at the same count (R12). -/
def lessWorn (s : State) (best i : Nat) : Nat :=
  if (s.sector i).eraseCount < (s.sector best).eraseCount then i else best

/-- The free sector that becomes the next head: lowest erase count, then lowest index (R12). -/
def State.chooseFree (s : State) : Option Nat :=
  match s.freePool with
  | [] => none
  | i :: is => some (is.foldl (lessWorn s) i)

/-- The record or group of `n` lines fits in the head's remaining payload (R15, R16). -/
def State.fitsHead (s : State) (n : Nat) : Bool :=
  match s.head? with
  | some h => decide (n ≤ 251 - (s.sector h).fill)
  | none => false

/-- READ_ONLY entry test (R129). -/
def State.readOnlyTest (s : State) : Bool :=
  decide (s.usable < 8) || decide (s.liveBudget < s.storeLive) || decide (s.freeCount = 0)

/-- At a retirement outside mount the test is made, in READY alone (R129). -/
def State.afterRetirement (s : State) : State :=
  { s with mode := if s.mode = .ready ∧ s.readOnlyTest = true then .readOnly else s.mode }

/-! ### Live bytes and the directory (R18, R24, R25) -/

def addLive (t : List Sector) (i n : Nat) : List Sector :=
  t.set i { sectorAt t i with live := (sectorAt t i).live + n }

def subLive (t : List Sector) (i n : Nat) : List Sector :=
  t.set i { sectorAt t i with live := (sectorAt t i).live - n }

/-- The live bytes of the record an entry pointed at leave its sector. -/
def dropLive (t : List Sector) : Option DirEntry → List Sector
  | some e => subLive t e.sector e.size
  | none => t

/-- A VALUE record becomes current: its entry is set and the live bytes move (R18, R24). -/
def State.setEntry (s : State) (e : DirEntry) : State :=
  { s with directory := insertKeyed DirEntry.key e s.directory,
           sectors := dropLive (addLive s.sectors e.sector e.size) (s.entry e.key) }

/-- A key's entry is removed, and the live bytes of its record (R18, R25). -/
def State.removeEntry (s : State) (k : Key) : State :=
  { s with directory := removeKeyed DirEntry.key k s.directory,
           sectors := dropLive s.sectors (s.entry k) }

/-! ### Notices (R95, R96, R99) -/

/-- A notice list takes a posting for a key: the entry is updated in place, or created at the tail (R96, TABLE 49). -/
def postNotice (k : Key) (f : Notice → Notice) : List Notice → List Notice
  | [] => [f ⟨k, false, 0, false⟩]
  | n :: ns => if n.key = k then f n :: ns else n :: postNotice k f ns

/-- A changed posting with its version (R96). -/
def Notice.markChanged (v : SeqNo) (n : Notice) : Notice := { n with changed := true, version := v }

/-- A lapsed posting (R96). -/
def Notice.markLapsed (n : Notice) : Notice := { n with lapsed := true }

/-- A session takes a changed posting when it is OPEN and watches the key (R95). -/
def Session.takeChanged (k : Key) (v : SeqNo) (x : Session) : Session :=
  { x with notices := if x.isOpen && x.watch.contains k then postNotice k (Notice.markChanged v) x.notices
                      else x.notices }

/-- The change of a key by port `p` is posted to the sessions of the other ports (R68, R95). -/
def State.postChanged (s : State) (p : Port) (k : Key) (v : SeqNo) : State :=
  { s with sessions := s.sessions.mapOthers p (Session.takeChanged k v) }

/-- A lapsed posting to the session of a port (R82). -/
def State.postLapsed (s : State) (p : Port) (k : Key) : State :=
  s.setSession p { s.session p with notices := postNotice k Notice.markLapsed (s.session p).notices }

/-! ### The flash controller's requests (R134) -/

/-- The engine asks for a line program (R134, R135). -/
def State.program (s : State) (i l : Nat) (data : List Byte) : State :=
  { s with controller := .programming i l data }

/-- The engine asks for a sector erase (R134, R136). -/
def State.erase (s : State) (i : Nat) : State :=
  { s with controller := .erasing i }

/-- What an operation in flight leaves in the flash when a reset cuts it off (R134): a line keeps the bits not yet
turned to zero, a sector is erased as far as the erase had gone; both are free values (logs 7 and 8). -/
def cutFlash (c : FlashController) (draw : Nat) (m : List Host.Cell) : List Host.Cell :=
  match c with
  | .idle => m
  | .programming i l data =>
    programBytes m (lineAddress i l)
      ((List.range data.length).map fun k => data.getD k erasedByte ||| Config.unprogrammedBits draw k)
  | .erasing i => eraseSector (Config.erasedBits draw) i m

/-- Values read back of a record: its value bytes (R56). -/
def State.valueAt (s : State) (e : DirEntry) : List Byte :=
  readBytes s.flash (payloadAddress e.sector (e.offset + 16)) e.length

end Sys2Proof.Machine
end

