-- ==== Sys2Proof/Machine/Arbiter.lean ====
section
/-! DEFINITION. The grant arbiter (03_the_journal_engine.md R44 to R51). -/

namespace Sys2Proof.Machine

/-- The demand the reclaim unit presents (R45). -/
inductive Demand where
  | none | background | urgent
deriving DecidableEq, Repr

/-- What a choice grants (R48). -/
inductive Grant where
  | none | reclaim | port (p : Port)
deriving DecidableEq, Repr

/-- A port is a requester (R44). -/
def State.requester (s : State) (p : Port) : Bool :=
  !(s.port p).queue.isEmpty || decide ((s.port p).teardown = .pending)

/-- No port is a requester. -/
def State.noRequester (s : State) : Bool :=
  !s.requester .A && !s.requester .B && !s.requester .C

/-- A sector has erase pending set. -/
def State.anyPending (s : State) : Bool := s.sectors.any Sector.erasePending

/-- Reclaim has work (R45). -/
def State.reclaimHasWork (s : State) : Bool :=
  s.ring.any (fun i => !decide ((s.sector i).state = .opened)) || s.anyPending

/-- The tail is RECLAIMING. -/
def State.tailReclaiming (s : State) : Bool :=
  match s.tail? with
  | some i => decide ((s.sector i).state = .reclaiming)
  | none => false

/-- Free is below a compact target that is set. -/
def State.belowTarget (s : State) : Bool :=
  match s.reclaim.target with
  | some t => decide (s.freeCount < t)
  | none => false

/-- The demand level (R45, TABLE 29). -/
def State.demand (s : State) : Demand :=
  if s.reclaimHasWork = false then .none
  else if s.freeCount < 4 then .urgent
  else if s.freeCount < 8 ∨ s.belowTarget = true ∨ s.anyPending = true ∨ s.tailReclaiming = true then .background
  else .none

/-- Reclaim is eligible, its demand apart (R46). -/
def State.reclaimAllowed (s : State) : Bool :=
  decide (s.mode = .ready) && decide (s.supply = .normal)

/-- The first requester from the pointer on, A after C (R48, case 2). -/
def State.firstRequester (s : State) : Option Port :=
  [s.pointer, Port.next s.pointer, Port.next (Port.next s.pointer)].find? s.requester

/-- The choice (R48): urgent reclaim in its turn, a port, background reclaim, or nothing. -/
def State.choice (s : State) : Grant :=
  if s.reclaimAllowed = true ∧ s.demand = .urgent ∧ (s.lastGrant = .port ∨ s.noRequester = true) then .reclaim
  else
    match s.firstRequester with
    | some p => .port p
    | none => if s.reclaimAllowed = true ∧ s.demand = .background then .reclaim else .none

/-- A port grant moves the pointer past the port and sets the marker; it takes the port's pending teardown, or its oldest
request, which becomes the request in service (R47, R50, R51). -/
def State.grantPort (s : State) (p : Port) : State :=
  if (s.port p).teardown = .pending then
    { s with pointer := Port.next p, lastGrant := .port, work := .teardown p,
             ports := s.ports.set p { s.port p with teardown := .inService } }
  else
    match (s.port p).queue with
    | [] => s
    | r :: rest =>
      { s with pointer := Port.next p, lastGrant := .port, work := .request p r,
               ports := s.ports.set p { s.port p with queue := rest, inService := some r.tag } }

/-- The grant of a choice (R39, R47). -/
def State.grant (s : State) : Grant → State
  | .none => s
  | .reclaim => { s with lastGrant := .reclaim, work := .reclaimGrant }
  | .port p => s.grantPort p

/-- ARBITER_CHOICE (R48): made when the engine is IDLE and the mode is neither MOUNTING nor FORMATTING. -/
def execArbiterChoice (s : State) : Host.Outcome State Fault Refusal :=
  match s.work with
  | .idle => if s.mode = .mounting ∨ s.mode = .formatting then .next s else .next (s.grant s.choice)
  | _ => .next s

end Sys2Proof.Machine
end

