-- ==== Sys2Proof/Machine/Checks.lean ====
section
/-! DEFINITION. The common check order (03_the_journal_engine.md R52, R53, TABLE 30): one test for each step, each giving
the status and the body of its refusal. A request lists the tests it takes, and the first that fails decides. -/

namespace Sys2Proof.Machine

/-- A refusal's status and body. -/
abbrev Rejection := Status × List Byte

/-- The first test that fails. -/
def firstFailing : List (Option Rejection) → Option Rejection
  | [] => none
  | some r :: _ => some r
  | none :: t => firstFailing t

/-- A request with its body parsed is refused by the first of its tests that fails, and else passes (R52). -/
def verdictOf {α : Type} (a : α) (tests : List (Option Rejection)) : Except Rejection α :=
  match firstFailing tests with
  | some rej => .error rej
  | none => .ok a

/-- The verdict on a request: step 1 or none, then step 2 (the body parsed, or MALFORMED), then the later tests (R52). -/
def judge {α : Type} (first : Option Rejection) (parsed : Option α) (later : α → List (Option Rejection)) :
    Except Rejection α :=
  match first with
  | some rej => .error rej
  | none =>
    match parsed with
    | none => .error (.malformed, [])
    | some a => verdictOf a (later a)

/-- A refused request is answered and changes nothing else; a passed one does its work (R52). -/
def State.settle {α : Type} (s : State) (p : Port) (r : Request) (verdict : Except Rejection α)
    (act : α → State → State) : State :=
  match verdict with
  | .error rej => s.answer p r.tag rej.1 rej.2
  | .ok a => act a s

/-- A refusal unless the condition holds. -/
def failUnless (ok : Bool) (st : Status) (body : List Byte) : Option Rejection :=
  if ok then none else some (st, body)

/-- Step 1: the port's session is OPEN. -/
def checkSession (s : State) (p : Port) : Option Rejection :=
  failUnless (s.session p).isOpen .noSession []

/-- Step 3: the store mode is not BLANK. -/
def checkNotBlank (s : State) : Option Rejection :=
  failUnless (decide (s.mode ≠ .blank)) .blank []

/-- Step 4: the session was bound with the right. -/
def checkRight (s : State) (p : Port) (right : Rights → Bool) : Option Rejection :=
  failUnless (right (s.session p).rights) .denied []

/-- Step 4 for a WRITE of a system key: ADMIN too, and for the rights key a port left with ADMIN (R33). -/
def checkSystemWrite (s : State) (p : Port) (c : Change) : Option Rejection :=
  failUnless (!systemKey c.key || ((s.session p).rights.admin
    && (decide (c.key ≠ rightsKey) || ((parseRights c.value).map grantsAdmin).getD false))) .denied []

/-- Step 4 for a DELETE or GROUP_PUT naming a system key (R33). -/
def checkNotSystem (k : Key) : Option Rejection :=
  failUnless (!systemKey k) .denied []

/-- Step 5: the key is valid (R22). -/
def checkKey (k : Key) : Option Rejection :=
  failUnless (keyValid k) .badKey []

/-- Step 6: the store mode is not READ_ONLY. -/
def checkNotReadOnly (s : State) : Option Rejection :=
  failUnless (decide (s.mode ≠ .readOnly)) .readOnly []

/-- A user key at or above the freeze line in force is frozen (R36). -/
def State.frozen (s : State) (k : Key) : Bool :=
  userKey k && decide (s.freezeLine.toNat ≤ k.toNat)

/-- Step 7: the key is not frozen (R36). -/
def checkFrozen (s : State) (k : Key) : Option Rejection :=
  failUnless (!s.frozen k) .frozen []

/-- Step 7 for a WRITE of the freeze line: it does not rise (R35). -/
def checkFreezeRise (s : State) (c : Change) : Option Rejection :=
  failUnless (decide (c.key ≠ freezeKey) || decide (beNat c.value ≤ s.freezeLine.toNat)) .frozen []

/-- The port other than `p` that holds the lease on a key (R86). -/
def State.heldByOther (s : State) (p : Port) (k : Key) : Option Port :=
  match s.leaseOf k with
  | some e => if e.holder = p then none else some e.holder
  | none => none

/-- Step 8: no other port holds the key's lease (R86). -/
def checkLease (s : State) (p : Port) (k : Key) : Option Rejection :=
  match s.heldByOther p k with
  | some q => some (.held, [Port.code q])
  | none => none

/-- The expected version, if given, matches (R28). -/
def State.versionMatches (s : State) (k : Key) (expected : Option SeqNo) : Bool :=
  match expected with
  | none => true
  | some v =>
    match s.entry k with
    | some e => decide (v ≠ 0) && decide (e.version = v)
    | none => decide (v = 0)

/-- Step 9 for a writing change: STALE with the key's current version, or 0 (R28, R71). -/
def checkVersion (s : State) (k : Key) (expected : Option SeqNo) : Option Rejection :=
  failUnless (s.versionMatches k expected) .stale (beBytes 6 (s.version k).toNat)

/-- Step 9 for DELETE: the key exists, once the version matches (TABLE 18). -/
def checkExists (s : State) (k : Key) : Option Rejection :=
  failUnless (s.entry k).isSome .notFound []

/-- Step 10 for WRITE: the key exists, or the directory holds fewer than 1,024 entries (R26, TABLE 35). -/
def checkRoom (s : State) (k : Key) : Option Rejection :=
  failUnless ((s.entry k).isSome || decide (s.directory.length < 1024)) .noRoom []

/-- Step 11: the value is no longer than 240 bytes. -/
def checkLength (value : List Byte) : Option Rejection :=
  failUnless (decide (value.length ≤ 240)) .tooLong []

/-- Step 12: the live bytes after the change do not exceed the budget, or do not rise (R19). -/
def checkBudget (s : State) (after : Nat) : Option Rejection :=
  failUnless (decide (after ≤ s.liveBudget) || decide (after ≤ s.storeLive)) .noSpace []

/-- Step 13: if the change needs a new head, free is at least 3 (R20, R21). -/
def checkReserve (s : State) (lines : Nat) : Option Rejection :=
  failUnless (s.fitsHead lines || decide (3 ≤ s.freeCount)) .retry []

/-- Step 14: the supply is NORMAL. -/
def checkSupply (s : State) : Option Rejection :=
  failUnless (decide (s.supply = .normal)) .hold []

/-- The size of the record a key's entry points at; 0 when it does not exist. -/
def State.entrySize (s : State) (k : Key) : Nat :=
  match s.entry k with
  | some e => e.size
  | none => 0

/-- Live bytes after a WRITE (R19, TABLE 35 step 12). -/
def State.liveAfterWrite (s : State) (c : Change) : Nat :=
  s.storeLive + sizeForLength c.value.length - s.entrySize c.key

end Sys2Proof.Machine
end

