-- ==== Sys2Proof/Machine/Leases.lean ====
section
/-! DEFINITION. The lease table (05_claims.md): expiries, the passing on of a lease, waiters, the claim count, and the
lease clock. Each operation is one event, taken whole (R72). -/

namespace Sys2Proof.Machine

/-- The clock value `n` granules and the rest of the present one ahead: k + n + 1 (R73). -/
def expiryFrom (clock : ClockValue) (n : Nat) : ClockValue :=
  clock + BitVec.ofNat 32 (n + 1)

/-- The period used for a period field: 0 asks for the default in force (R37). -/
def State.periodUsed (s : State) (period : Nat) : Nat :=
  if period = 0 then s.defaultPeriod else period

/-- The claim count of a port: leases held, the parked claim, lapsed entries untaken (R74). -/
def State.claimCount (s : State) (p : Port) : Nat :=
  (s.leases.filter fun e => decide (e.holder = p)).length + (s.portParked p).toList.length
    + ((s.session p).notices.filter fun n => n.lapsed).length

/-- The body of CLAIM's OK reply: the outcome, 1 GRANTED or 2 RENEWED, and the period in force for the lease (R90). -/
def claimBody (outcome : Byte) (period : Nat) : List Byte :=
  outcome :: beBytes 2 period

/-- The lease of an entry that its oldest waiter takes over (R79). -/
def Lease.passTo (e : Lease) (w : Waiter) (rest : List Waiter) (period : Nat) (clock : ClockValue) : Lease :=
  { e with holder := w.port, period := period, expiry := expiryFrom clock period, waiters := rest }

/-- A holder's lease ends: the entry passes to its oldest waiter, who is answered OK GRANTED under the tag of its parked
CLAIM, or is removed (R79). -/
def State.endLease (s : State) (k : Key) : State :=
  match s.leaseOf k with
  | none => s
  | some e =>
    match e.waiters with
    | [] => { s with leases := removeKeyed Lease.key k s.leases }
    | w :: rest =>
      { s with
        leases := insertKeyed Lease.key (e.passTo w rest (s.periodUsed w.period) s.leaseClock) s.leases
        sessions := s.sessions.set w.port { s.session w.port with parked := none }
        ports := s.ports.set w.port
          ((s.port w.port).receive ⟨w.tag, .ok, claimBody 1 (s.periodUsed w.period)⟩) }

/-- The lease clock has reached the expiry of a lease: the former holder gets a lapsed posting and the lease ends (R82). -/
def State.expireLease (s : State) (k : Key) : State :=
  match s.leaseOf k with
  | none => s
  | some e => if e.expiry = s.leaseClock then (s.postLapsed e.holder k).endLease k else s

/-- The waiter record of a port, if it stands in some entry's list (R72). -/
def State.waiterOf (s : State) (p : Port) : Option Waiter :=
  (s.leases.flatMap Lease.waiters).find? fun w => decide (w.port = p)

/-- A port's waiter record is removed from the list it stands in, and its session's marker cleared (R83, R87). -/
def State.removeParked (s : State) (p : Port) : State :=
  { s with
    leases := s.leases.map fun e => { e with waiters := e.waiters.filter fun w => !decide (w.port = p) }
    sessions := s.sessions.set p { s.session p with parked := none } }

/-- The lease clock has reached the wait expiry of a port's parked claim: it is answered TIMEOUT (R83). -/
def State.expireWait (s : State) (p : Port) : State :=
  match s.waiterOf p with
  | none => s
  | some w =>
    if w.waitExpiry = s.leaseClock then (s.removeParked p).handReply p ⟨w.tag, .timeout, []⟩ else s

/-- One expiry is taken, if the lease clock stands at its value (R82, R83). -/
def State.takeExpiry (s : State) : Expiry → State
  | .lease k => s.expireLease k
  | .wait p => s.expireWait p

/-- Every expiry there may be: leases in key order, then waits in port order (log 13). -/
def State.expiries (s : State) : List Expiry :=
  s.leases.map (fun e => .lease e.key) ++ [.wait .A, .wait .B, .wait .C]

/-- The lease clock has advanced by one, counted modulo 2^32 (R73). -/
def State.tickClock (s : State) : State := { s with leaseClock := s.leaseClock + 1 }

/-- The lease clock advances, and every expiry it reaches is taken: those named first in their order, then the rest
(R73, R85; log 13). -/
def State.advanceClock (s : State) (first : List Expiry) : State :=
  (first ++ s.expiries).foldl State.takeExpiry s.tickClock

/-- The next advance of the lease clock reaches this expiry (R73). -/
def State.reachesNext (s : State) : Expiry → Bool
  | .lease k => ((s.leaseOf k).map fun e => decide (e.expiry = s.leaseClock + 1)).getD false
  | .wait p => ((s.waiterOf p).map fun w => decide (w.waitExpiry = s.leaseClock + 1)).getD false

/-- The lease clock advances to the value of an expiry, which is taken first, then those listed with it, then the rest
(log 13); an expiry that the next advance does not reach is no event (R82, R83; log 12). -/
def State.reachExpiry (s : State) (x : Expiry) (others : List Expiry) : State :=
  if s.reachesNext x = true then s.advanceClock (x :: others) else s

/-- Every lease of a port ends as a release, in ascending key order (R87). -/
def State.releaseAll (s : State) (p : Port) : State :=
  ((s.leases.filter fun e => decide (e.holder = p)).map Lease.key).foldl State.endLease s

/-- The lease remaining of an entry: its expiry less the clock (R73). -/
def Lease.remaining (e : Lease) (clock : ClockValue) : Nat :=
  (e.expiry - clock).toNat

/-! ### The session's end (R87, R100, R115, R173) -/

/-- Step 2 of a teardown: the parked claim is removed; for CLOSE it is answered ABORTED (R87, R173). -/
def State.dropParked (s : State) (p : Port) (answered : Bool) : State :=
  match (s.session p).parked with
  | none => s
  | some (_, tag) =>
    if answered then (s.removeParked p).handReply p ⟨tag, .aborted, []⟩ else s.removeParked p

/-- Steps 3 to 5 of a teardown: lists, group and rights cleared, the session CLOSED (R173). -/
def State.closeSession (s : State) (p : Port) : State :=
  s.setSession p .closed

/-- Steps 1 to 5 of a teardown (R173). -/
def State.tearDown (s : State) (p : Port) (answered : Bool) : State :=
  ((s.releaseAll p).dropParked p answered).closeSession p

end Sys2Proof.Machine
end

