-- ==== Sys2Proof/Machine/Reading.lean ====
section
/-! DEFINITION. READ, READ_META, LIST and STORE_STATUS (04 R55, R56; 02 R29, R30; 08 R133): requests that only report. -/

namespace Sys2Proof.Machine

/-- The service of a granted request by its request code (R50): the command acts when the request the engine has been
granted carries its code, and is no event otherwise (log 2). -/
def serve (code : Byte) (act : Port → Request → State → State) (s : State) : Host.Outcome State Fault Refusal :=
  match s.work with
  | .request p r => if r.code = code then .next (act p r s) else .next s
  | _ => .next s

/-! ### READ -/

/-- Steps 1 to 5 (R55). -/
def readVerdict (s : State) (p : Port) (body : List Byte) : Except Rejection Key :=
  judge (checkSession s p) (parseKey body) fun k =>
    [checkNotBlank s, checkRight s p Rights.read, checkKey k]

/-- READ of a key: version, length and value of an existing key, or NOT_FOUND (R55, R56). -/
def readAct (p : Port) (r : Request) (k : Key) (s : State) : State :=
  match s.entry k with
  | some e => s.answer p r.tag .ok (beBytes 6 e.version.toNat ++ [BitVec.ofNat 8 e.length] ++ s.valueAt e)
  | none => s.answer p r.tag .notFound []

def readRequest (p : Port) (r : Request) (s : State) : State :=
  s.settle p r (readVerdict s p r.body) (readAct p r)

/-- READ (R55). -/
def execRead (s : State) : Host.Outcome State Fault Refusal := serve 0x03 readRequest s

/-! ### READ_META -/

/-- Steps 1 to 5 (R29). -/
def readMetaVerdict (s : State) (p : Port) (body : List Byte) : Except Rejection Key :=
  judge (checkSession s p) (parseKey body) fun k =>
    [checkNotBlank s, checkRight s p Rights.read, checkKey k]

/-- The value length of a key, 0 when it does not exist (TABLE 19). -/
def State.keyLength (s : State) (k : Key) : Nat :=
  match s.entry k with
  | some e => e.length
  | none => 0

/-- The group marker of a key, clear when it does not exist (TABLE 19). -/
def State.keyGroup (s : State) (k : Key) : Bool :=
  match s.entry k with
  | some e => e.group
  | none => false

/-- The lease remaining of a key, 0 when there is no holder (TABLE 19, R73). -/
def State.leaseRemaining (s : State) (k : Key) : Nat :=
  match s.leaseOf k with
  | some e => e.remaining s.leaseClock
  | none => 0

/-- The fields of TABLE 19. -/
def metaBody (s : State) (p : Port) (k : Key) : List Byte :=
  beBytes 6 (s.version k).toNat ++ [BitVec.ofNat 8 (s.keyLength k), portCode ((s.leaseOf k).map Lease.holder)]
    ++ beBytes 2 (s.leaseRemaining k)
    ++ [metaFlags (s.frozen k) ((s.session p).watch.contains k) (s.keyGroup k)]

def readMetaAct (p : Port) (r : Request) (k : Key) (s : State) : State :=
  s.answer p r.tag .ok (metaBody s p k)

def readMetaRequest (p : Port) (r : Request) (s : State) : State :=
  s.settle p r (readMetaVerdict s p r.body) (readMetaAct p r)

/-- READ_META (R29). -/
def execReadMeta (s : State) : Host.Outcome State Fault Refusal := serve 0x04 readMetaRequest s

/-! ### LIST -/

/-- Steps 1 to 4; the start key is not tested (R30). -/
def listVerdict (s : State) (p : Port) (body : List Byte) : Except Rejection Key :=
  judge (checkSession s p) (parseKey body) fun _ => [checkNotBlank s, checkRight s p Rights.read]

/-- The entries whose key is strictly greater than the start key, in ascending order (R30). -/
def State.entriesAbove (s : State) (k : Key) : List DirEntry :=
  s.directory.filter fun e => decide (k.toNat < e.key.toNat)

/-- One entry of LIST's reply: key, version and value length (TABLE 82). -/
def listEntryBytes (e : DirEntry) : List Byte :=
  beBytes 2 e.key.toNat ++ beBytes 6 e.version.toNat ++ [BitVec.ofNat 8 e.length]

/-- The reply body: the END flag, the count, up to eight entries (R30, TABLE 82). -/
def listBody (above : List DirEntry) : List Byte :=
  [listFlags (decide (above.length ≤ 8)), BitVec.ofNat 8 (above.take 8).length]
    ++ (above.take 8).flatMap listEntryBytes

def listAct (p : Port) (r : Request) (k : Key) (s : State) : State :=
  s.answer p r.tag (if s.entriesAbove k = [] then .empty else .ok) (listBody (s.entriesAbove k))

def listRequest (p : Port) (r : Request) (s : State) : State :=
  s.settle p r (listVerdict s p r.body) (listAct p r)

/-- LIST (R30). -/
def execList (s : State) : Host.Outcome State Fault Refusal := serve 0x05 listRequest s

/-! ### STORE_STATUS -/

/-- Erase counts of the sectors not in the retired set (R130). -/
def State.usableEraseCounts (s : State) : List Nat :=
  (s.sectors.filter fun e => !decide (e.state = .retired)).map Sector.eraseCount

/-- The lowest of them; with none, a free value (R133; log 15). -/
def State.lowestEraseCount (s : State) : Nat :=
  match s.usableEraseCounts with
  | [] => Config.eraseCountOfNone s.draws false
  | c :: cs => cs.foldl min c

/-- The highest of them; with none, a free value (R133; log 15). -/
def State.highestEraseCount (s : State) : Nat :=
  match s.usableEraseCounts with
  | [] => Config.eraseCountOfNone s.draws true
  | c :: cs => cs.foldl max c

/-- The generation of the OPEN sector, or 0 (TABLE 64). -/
def State.headGeneration (s : State) : Nat :=
  match s.head? with
  | some h => (s.sector h).generationNat
  | none => 0

/-- The 39 bytes of TABLE 84. -/
def statusBody (s : State) : List Byte :=
  [BitVec.ofNat 8 s.mode.code, BitVec.ofNat 8 s.supply.code, BitVec.ofNat 8 s.usable, BitVec.ofNat 8 s.freeCount,
    BitVec.ofNat 8 s.retiredCount] ++ beBytes 4 s.storeLive ++ beBytes 4 s.liveBudget
    ++ beBytes 2 s.directory.length ++ beBytes 6 s.nextSeq.toNat ++ beBytes 4 s.lowestEraseCount
    ++ beBytes 4 s.highestEraseCount ++ beBytes 4 s.headGeneration
    ++ [s.reclaim.state.code, BitVec.ofNat 8 (s.reclaim.target.getD 0)]
    ++ beBytes 2 s.damaged ++ beBytes 2 s.freezeLine.toNat

/-- Step 2 alone (R133). -/
def storeStatusVerdict (body : List Byte) : Except Rejection Unit :=
  judge none (parseEmpty body) fun _ => []

/-- The free value of a store with no usable sector is drawn (log 15). -/
def State.drawIfNoneUsable (s : State) : State :=
  { s with draws := if s.usableEraseCounts = [] then s.draws + 1 else s.draws }

def storeStatusAct (p : Port) (r : Request) (s : State) : State :=
  s.drawIfNoneUsable.answer p r.tag .ok (statusBody s)

def storeStatusRequest (p : Port) (r : Request) (s : State) : State :=
  s.settle p r (storeStatusVerdict r.body) fun _ => storeStatusAct p r

/-- STORE_STATUS (R133). -/
def execStoreStatus (s : State) : Host.Outcome State Fault Refusal := serve 0x12 storeStatusRequest s

end Sys2Proof.Machine
end

