-- ==== Sys2Proof/Machine/Claims.lean ====
section
/-! DEFINITION. CLAIM, RENEW and RELEASE, and the lease table's own events (05_claims.md R75 to R85). -/

namespace Sys2Proof.Machine

/-! ### CLAIM -/

/-- Steps 1 to 5 (R75). -/
def claimVerdict (s : State) (p : Port) (body : List Byte) : Except Rejection ClaimBody :=
  judge (checkSession s p) (parseClaim body) fun c =>
    [checkNotBlank s, checkRight s p Rights.claim, checkKey c.key]

/-- A new lease is granted without a wait (R76). -/
def State.grantLease (s : State) (p : Port) (tag : Byte) (k : Key) (period : Nat) : State :=
  ({ s with leases := insertKeyed Lease.key ⟨k, p, period, expiryFrom s.leaseClock period, []⟩ s.leases }).answer
    p tag .ok (claimBody 1 period)

/-- A lease restarted with a period: period and expiry replaced, the waiters left (R77, R80). -/
def Lease.restart (e : Lease) (period : Nat) (clock : ClockValue) : Lease :=
  { e with period := period, expiry := expiryFrom clock period }

/-- The holder's lease on its key is restarted (R77, R80). -/
def State.restartLease (s : State) (e : Lease) (period : Nat) : State :=
  { s with leases := insertKeyed Lease.key (e.restart period s.leaseClock) s.leases }

/-- The claim is parked: a waiter at the tail, the session's marker set, the grant ended with no reply and the credit
held by the parked claim (R78, R50). -/
def State.parkClaim (s : State) (p : Port) (tag : Byte) (e : Lease) (c : ClaimBody) : State :=
  { s with
    work := .idle
    leases := insertKeyed Lease.key
      { e with waiters := e.waiters ++ [⟨p, tag, c.period, expiryFrom s.leaseClock c.wait⟩] } s.leases
    sessions := s.sessions.set p { s.session p with parked := some (c.key, tag) }
    ports := s.ports.set p (s.port p).endService }

/-- A CLAIM on a key held by another port (R78). -/
def State.claimHeld (s : State) (p : Port) (tag : Byte) (e : Lease) (c : ClaimBody) : State :=
  if c.wait = 0 then s.answer p tag .held [Port.code e.holder]
  else if (s.session p).parked.isSome then s.answer p tag .waitBusy []
  else if 4 ≤ s.claimCount p then s.answer p tag .limit []
  else s.parkClaim p tag e c

/-- The outcomes of TABLE 44 (R76, R77, R78). -/
def claimAct (p : Port) (r : Request) (c : ClaimBody) (s : State) : State :=
  match s.leaseOf c.key with
  | none =>
    if 4 ≤ s.claimCount p then s.answer p r.tag .limit []
    else s.grantLease p r.tag c.key (s.periodUsed c.period)
  | some e =>
    if e.holder = p then
      (s.restartLease e (s.periodUsed c.period)).answer p r.tag .ok (claimBody 2 (s.periodUsed c.period))
    else s.claimHeld p r.tag e c

def claimRequest (p : Port) (r : Request) (s : State) : State :=
  s.settle p r (claimVerdict s p r.body) (claimAct p r)

/-- CLAIM (R75). -/
def execClaim (s : State) : Host.Outcome State Fault Refusal := serve 0x08 claimRequest s

/-! ### RENEW and RELEASE -/

/-- Steps 1 to 5 (R80). -/
def renewVerdict (s : State) (p : Port) (body : List Byte) : Except Rejection (Key × Nat) :=
  judge (checkSession s p) (parseRenew body) fun c =>
    [checkNotBlank s, checkRight s p Rights.claim, checkKey c.1]

/-- NOT_HELD, naming the present holder or none (R80, R81). -/
def State.answerNotHeld (s : State) (p : Port) (tag : Byte) (k : Key) : State :=
  s.answer p tag .notHeld [portCode ((s.leaseOf k).map Lease.holder)]

/-- The lease a port holds on a key. -/
def State.ownLease (s : State) (p : Port) (k : Key) : Option Lease :=
  match s.leaseOf k with
  | some e => if e.holder = p then some e else none
  | none => none

def renewAct (p : Port) (r : Request) (c : Key × Nat) (s : State) : State :=
  match s.ownLease p c.1 with
  | some e => (s.restartLease e (s.periodUsed c.2)).answer p r.tag .ok (beBytes 2 (s.periodUsed c.2))
  | none => s.answerNotHeld p r.tag c.1

def renewRequest (p : Port) (r : Request) (s : State) : State :=
  s.settle p r (renewVerdict s p r.body) (renewAct p r)

/-- RENEW (R80). -/
def execRenew (s : State) : Host.Outcome State Fault Refusal := serve 0x09 renewRequest s

/-- Steps 1 to 5 (R81). -/
def releaseVerdict (s : State) (p : Port) (body : List Byte) : Except Rejection Key :=
  judge (checkSession s p) (parseKey body) fun k =>
    [checkNotBlank s, checkRight s p Rights.claim, checkKey k]

/-- The lease ends as a release; the reply names the port that now holds it, or none, after the hand-over's own reply
(R81). -/
def releaseAct (p : Port) (r : Request) (k : Key) (s : State) : State :=
  match s.ownLease p k with
  | some _ => (s.endLease k).answer p r.tag .ok [portCode (((s.endLease k).leaseOf k).map Lease.holder)]
  | none => s.answerNotHeld p r.tag k

def releaseRequest (p : Port) (r : Request) (s : State) : State :=
  s.settle p r (releaseVerdict s p r.body) (releaseAct p r)

/-- RELEASE (R81). -/
def execRelease (s : State) : Host.Outcome State Fault Refusal := serve 0x0A releaseRequest s

/-! ### The lease table's own events (R72: they run in every store mode and supply state) -/

/-- A command of a block that is in reset is no event; otherwise it acts (log 25). -/
def whenRunning (act : State → State) (s : State) : Host.Outcome State Fault Refusal :=
  if s.inReset = true then .next s else .next (act s)

/-- LEASE_CLOCK_ADVANCE (R73). -/
def execLeaseClockAdvance (s : State) : Host.Outcome State Fault Refusal :=
  whenRunning (fun t => t.advanceClock []) s

/-- LEASE_EXPIRY (R82): the advance of the lease clock that reaches the lease's expiry. -/
def execLeaseExpiry (x : Reached Key) (s : State) : Host.Outcome State Fault Refusal :=
  whenRunning (fun t => t.reachExpiry (.lease x.named) x.others) s

/-- WAIT_EXPIRY (R83): the advance of the lease clock that reaches the wait expiry. -/
def execWaitExpiry (x : Reached Port) (s : State) : Host.Outcome State Fault Refusal :=
  whenRunning (fun t => t.reachExpiry (.wait x.named) x.others) s

end Sys2Proof.Machine
end

