-- ==== Sys2Proof/Machine/Frames.lean ====
section
/-! DEFINITION. Frames (11_client_ports_and_sessions.md R163 to R169; 12 R175). A frame is two steps: the status is latched at
the assertion of SEL#; where the frame acts, its bytes are exchanged. Any event may fall between them (log 1). -/

namespace Sys2Proof.Machine

/-- The status bytes a port latches at the assertion of SEL# (R163, TABLE 81). -/
def State.statusBytes (s : State) (p : Port) : List Byte :=
  [statusByte0 s.mode s.supply (s.session p).isOpen (!(s.port p).replies.isEmpty) (s.session p).noticePending
      (s.port p).state,
    statusByte1 (s.freeCredits p) (s.port p).lastResult]

/-- The assertion of SEL#: the status is latched, and nothing has been put out (R163). SEL# asserted already is no event. -/
def State.select (s : State) (p : Port) : State :=
  if (s.port p).selected = true then s
  else s.setPort p { s.port p with selected := true, latch := s.statusBytes p, sdo := [] }

/-- The status a frame puts out: the one latched at the assertion of SEL#, which no event since then has changed; it is latched
here when the assertion had no step of its own (R163, log 1). -/
def State.frameStatus (s : State) (p : Port) : List Byte :=
  if (s.port p).selected = true then (s.port p).latch else s.statusBytes p

/-- A moment of a frame (R163): the assertion of SEL#, whatever frame it will be, or `act`. -/
def atMoment (e : FrameEvent) (act : State → Port → State) (s : State) : Host.Outcome State Fault Refusal :=
  whenRunning (fun t =>
    match e.moment with
    | .asserted => t.select e.port
    | .acts => act t e.port) s

/-- The first `n` output bytes of a frame whose bytes after the status begin with `rest`; 0x00 after them (R175). -/
def frameOutput (status rest : List Byte) (n : Nat) : List Byte :=
  (status ++ rest ++ List.replicate n 0x00).take n

/-- What every frame leaves in its port: the latched status, the bytes put out, and its result (R163). -/
def PortUnit.endFrame (u : PortUnit) (status out : List Byte) (result : FrameResult) : PortUnit :=
  { u with selected := false, latch := status, sdo := out, lastResult := result }

/-- A frame that only outputs its status: `n` whole bytes were clocked (R163, R175). -/
def State.plainFrame (s : State) (p : Port) (n : Nat) (result : FrameResult) : State :=
  s.setPort p ((s.port p).endFrame (s.frameStatus p) (frameOutput (s.frameStatus p) [] n) result)

/-! ### SUBMIT (R164) -/

/-- Byte `k` of a list, 0 when there is none. -/
def byteAt (bytes : List Byte) (k : Nat) : Byte := bytes.getD k 0

/-- The request a SUBMIT carries, its input after the kind byte being tag, code, length, body, CRC-8 (R175). -/
def submitRequest (input : List Byte) : Request :=
  ⟨byteAt input 0, byteAt input 1, (input.drop 3).take (byteAt input 2).toNat⟩

/-- Test 1 of TABLE 79: the whole bytes received number exactly 5 plus the body length, and no part byte. -/
def submitLength (input : List Byte) (partByte : Bool) : Bool :=
  decide (3 ≤ input.length) && decide (input.length + 1 = 5 + (byteAt input 2).toNat) && !partByte

/-- Test 2: the CRC-8 over every byte before it matches (R164, R174). -/
def submitCrc (input : List Byte) : Bool :=
  decide (crc8 (0x01 :: input.dropLast) = input.getLast?.getD 0)

/-- Test 4: the tag is not 0xFF and not in use. -/
def State.tagFree (s : State) (p : Port) (tag : Byte) : Bool :=
  decide (tag ≠ 0xFF) && !(s.tagsInUse p).contains tag

/-- The first failing test of TABLE 79, or OK. -/
def State.submitResult (s : State) (p : Port) (input : List Byte) (partByte : Bool) : FrameResult :=
  if submitLength input partByte = false then .lengthError
  else if submitCrc input = false then .crcError
  else if (s.port p).state = .resetting then .resetting
  else if s.tagFree p (byteAt input 0) = false then .badTag
  else if s.freeCredits p = 0 then .full
  else .ok

/-- An admitted request joins the tail of the request queue (R164). -/
def PortUnit.enqueue (u : PortUnit) (r : Request) : PortUnit :=
  { u with queue := u.queue ++ [r] }

/-- A SUBMIT at the release of SEL# (R164). -/
def State.submitFrame (s : State) (p : Port) (input : List Byte) (partByte : Bool) : State :=
  if s.submitResult p input partByte = .ok then
    (s.plainFrame p (input.length + 1) .ok).setPort p
      (((s.plainFrame p (input.length + 1) .ok).port p).enqueue (submitRequest input))
  else s.plainFrame p (input.length + 1) (s.submitResult p input partByte)

/-- SUBMIT (R164). -/
def execSubmit (e : FrameEvent) (input : List Byte) (partByte : Bool) (s : State) : Host.Outcome State Fault Refusal :=
  atMoment e (fun t p => t.submitFrame p input partByte) s

/-! ### FETCH (R165) -/

/-- The acknowledgment names the head reply, which has been sent in full (R165). -/
def PortUnit.acknowledges (u : PortUnit) (ack : Byte) : Bool :=
  match u.replies with
  | [] => false
  | r :: _ => decide (r.tag = ack) && u.headSent

/-- The head reply is removed and head sent cleared; any other acknowledgment changes nothing, and in RESETTING none is
taken (R165). -/
def PortUnit.acknowledge (u : PortUnit) (ack : Byte) : PortUnit :=
  if u.acknowledges ack = true ∧ u.state = .normal then { u with replies := u.replies.tail, headSent := false } else u

/-- What a FETCH outputs after the status: the head reply, or the no-reply marker 0xFF (R165, R175). -/
def PortUnit.fetchBytes (u : PortUnit) : List Byte :=
  match u.state, u.replies with
  | .normal, r :: _ => r.bytes
  | _, _ => [0xFF]

/-- Head sent is set once the head reply's last byte has been clocked out, `n` bytes of the frame in all (R165). -/
def PortUnit.markSent (u : PortUnit) (n : Nat) : PortUnit :=
  { u with headSent := u.headSent ||
      (!u.replies.isEmpty && decide (u.state = .normal) && decide (2 + u.fetchBytes.length ≤ n)) }

/-- A FETCH whose acknowledgment byte is complete, with `n` whole bytes in all and its result (R165). -/
def State.fetchFrame (s : State) (p : Port) (ack : Byte) (n : Nat) (result : FrameResult) : State :=
  s.setPort p ((((s.port p).acknowledge ack).markSent n).endFrame (s.frameStatus p)
    (frameOutput (s.frameStatus p) ((s.port p).acknowledge ack).fetchBytes n) result)

/-- FETCH (R165): LENGTH_ERROR, with no acknowledgment taken, when it was released before byte 1 was complete. -/
def execFetch (e : FrameEvent) (input : List Byte) (s : State) : Host.Outcome State Fault Refusal :=
  atMoment e (fun t p =>
    match input with
    | [] => t.plainFrame p 1 .lengthError
    | ack :: _ => t.fetchFrame p ack (input.length + 1) .ok) s

/-! ### PEEK, unknown kinds, short frames and timeouts (R163) -/

/-- PEEK (R163). -/
def execPeek (e : FrameEvent) (input : List Byte) (s : State) : Host.Outcome State Fault Refusal :=
  atMoment e (fun t p => t.plainFrame p (input.length + 1) .ok) s

/-- UNKNOWN_KIND (R163): the rest of the frame is ignored. A kind that is one of the four is not this event. -/
def execUnknownKind (e : FrameEvent) (kind : Byte) (input : List Byte) (s : State) : Host.Outcome State Fault Refusal :=
  atMoment e (fun t p =>
    if 1 ≤ kind.toNat ∧ kind.toNat ≤ 4 then t else t.plainFrame p (input.length + 1) .unknownKind) s

/-- FRAME_RELEASED_BEFORE_KIND (R163): nothing changes but the result. -/
def execFrameReleasedBeforeKind (e : FrameEvent) (s : State) : Host.Outcome State Fault Refusal :=
  atMoment e (fun t p => t.plainFrame p 0 .lengthError) s

/-- A frame discarded at its timeout: a FETCH keeps its acknowledgment and any head sent it set (R163, R165). -/
def State.timeoutFrame (s : State) (p : Port) (bytes : List Byte) : State :=
  match bytes with
  | kind :: ack :: _ =>
    if kind = 0x02 then s.fetchFrame p ack bytes.length .timeout else s.plainFrame p bytes.length .timeout
  | _ => s.plainFrame p bytes.length .timeout

/-- FRAME_TIMEOUT (R163). -/
def execFrameTimeout (e : FrameEvent) (bytes : List Byte) (s : State) : Host.Outcome State Fault Refusal :=
  atMoment e (fun t p => t.timeoutFrame p bytes) s

/-! ### PORT_RESET (R168) -/

/-- The tests of a PORT_RESET frame: 2 whole bytes, and the CRC-8 over the kind byte (R168). -/
def portResetResult (input : List Byte) (partByte : Bool) : FrameResult :=
  if (input.length == 1 && !partByte) = false then .lengthError
  else if crc8 [0x04] = byteAt input 0 then .ok
  else .crcError

/-- A good PORT_RESET in NORMAL: queues discarded, head sent cleared, reply enable on, notice enable off, RESETTING, a
teardown pending; while RESETTING it changes nothing (R168). -/
def PortUnit.portReset (u : PortUnit) : PortUnit :=
  if u.state = .normal then
    { u with state := .resetting, queue := [], replies := [], headSent := false, teardown := .pending,
             replyEnable := true, noticeEnable := false }
  else u

/-- A PORT_RESET at the release of SEL# (R168). -/
def State.portResetFrame (s : State) (p : Port) (input : List Byte) (partByte : Bool) : State :=
  if portResetResult input partByte = .ok then
    (s.plainFrame p (input.length + 1) .ok).setPort p ((s.plainFrame p (input.length + 1) .ok).port p).portReset
  else s.plainFrame p (input.length + 1) (portResetResult input partByte)

/-- PORT_RESET (R168). -/
def execPortReset (e : FrameEvent) (input : List Byte) (partByte : Bool) (s : State) : Host.Outcome State Fault Refusal :=
  atMoment e (fun t p => t.portResetFrame p input partByte) s

end Sys2Proof.Machine
end

