-- ==== Sys2Proof/Machine/Format.lean ====
section
/-! DEFINITION. FORMAT after its WIPE record (10_mounting_recovery_and_format.md R156 to R159): the case-3 erase of the
ring's first sector, the erasures of R157, and the completion. -/

namespace Sys2Proof.Machine

/-- The sector leaves the ring or the free pool for the retired set once its RETIRED marker has been programmed (R129): its
erase-pending flag is cleared (R5, R128), a marker that failed its verify flags it suspect (R135, TABLE 9), and its erase
count and generation are kept. -/
def State.retireSector (s : State) (i : Nat) (ok : Bool) : State :=
  s.setSector i { s.sector i with state := .retired, suspect := (s.sector i).suspect || !ok, erasePending := false }

/-- A verified erase: the erase count rises by one, fill and live bytes are 0, the flags clear, the generation absent
(R127, R130). The sector keeps its state until it joins the free pool or the retired set. -/
def State.countErase (s : State) (i : Nat) : State :=
  s.setSector i { s.sector i with generation := none, eraseCount := (s.sector i).eraseCount + 1, fill := 0, live := 0,
                                  suspect := false, erasePending := false }

/-- The erased sector joins the free pool (R4). -/
def State.freeSector (s : State) (i : Nat) : State :=
  s.setSector i { s.sector i with state := .erased }

/-- The sector is due for retirement when it was suspect or its count has reached 60,000 (R127, R157). -/
def State.dueRetirement (s : State) (i : Nat) (suspect : Bool) : Bool :=
  suspect || decide (60000 ≤ (s.sector i).eraseCount)

/-- The erase-pending flag is set (R5). -/
def State.markPending (s : State) (i : Nat) : State :=
  s.setSector i { s.sector i with erasePending := true }

/-- The requesting session after FORMAT: leases released, lists and staging area emptied, rights rebound to the port's
default set; it stays OPEN (R159). -/
def State.formatSession (s : State) (p : Port) : State :=
  (s.releaseAll p).setSession p
    { (s.releaseAll p).session p with rights := defaultRights.get p, watch := [], notices := [], groupOpen := false,
                                      members := [] }

/-- The store after FORMAT: directory empty, live bytes 0, values in force at their defaults, the reclaim unit IDLE with
target and limit clear (R159). -/
def State.formatStore (s : State) : State :=
  { s with
    directory := []
    sectors := s.sectors.map fun e => { e with live := 0 }
    rightsInForce := defaultRights
    freezeLine := 0x0F00
    defaultPeriod := 500
    reclaim := .reset }

/-- FORMAT completes the store and the session, sets the mode and replies with usable and free (R159). -/
def State.formatComplete (s : State) (f : FormatWork) : State :=
  let t := s.formatStore.formatSession f.port
  { t with mode := if t.usable < 8 then .readOnly else .ready }.answer f.port f.tag .ok
    [BitVec.ofNat 8 t.usable, BitVec.ofNat 8 t.freeCount]

/-- R157 erases the sector: it is usable and is not the head holding the WIPE. -/
def State.sweepDue (s : State) (i : Nat) : Bool :=
  decide ((s.sector i).state ≠ .retired) && decide ((s.sector i).state ≠ .opened)

/-- The first sector from `i` that R157 erases. -/
def State.nextSweep (s : State) (i : Nat) : Option Nat :=
  (List.range s.sectors.length).find? fun j => decide (i ≤ j) && s.sweepDue j

/-- FORMAT waits to start the erase of the next sector from `i`; when none is left it completes (R157, R159). -/
def State.sweepFrom (s : State) (f : FormatWork) (i : Nat) : State :=
  match s.nextSweep i with
  | some j => { s with work := .format { f with phase := .sweep j, failures := 0 } }
  | none => s.formatComplete f

/-- Case 3 of R156: the supply is read, and the ring's first sector is erased, whatever its state; with no sector left
to erase or open, FORMAT goes on with no WIPE written. -/
def State.wipeErase (s : State) (f : FormatWork) : State :=
  match s.tail? with
  | none => s.sweepFrom f 0
  | some i =>
    if s.supply = .normal then
      ({ s.markPending i with work := .format { f with phase := .firstErase i (s.sector i).suspect } }).erase i
    else { s with work := .format { f with phase := .paused } }

/-- FORMAT_ERASE: with the supply NORMAL, the erase of the next sector begins (R157); a sector of the ring has its
erase-pending flag set, one of the free pool stays there. -/
def State.startSweep (s : State) (f : FormatWork) (i : Nat) : State :=
  ({ (if (s.sector i).inRing then s.markPending i else s) with
     work := .format { f with phase := .sweepErase i (s.sector i).suspect } }).erase i

end Sys2Proof.Machine
end

