-- ==== Sys2Proof/Machine/Placement.lean ====
section
/-! DEFINITION. Placing and programming records (01 R11 to R16, R20, R21; 04 R59 to R65; 07 R110 to R114; 08 R122 to R124;
10 R156): the close and the open of a head, the record lines one by one, failures, retries and endings. A placement
belongs to a WRITE, a DELETE, a GROUP_COMMIT, a reclaim copy or FORMAT's WIPE. -/

namespace Sys2Proof.Machine

/-! ### Lines in hand -/

/-- The bytes of record `k` of a placement whose first sequence is `q`. -/
def Placement.recordBytes (pl : Placement) (q : SeqNo) (k : Nat) : List Byte :=
  match pl.records[k]? with
  | some r => r.bytes q (q + BitVec.ofNat 48 k)
  | none => []

/-- Lines of record `k`. -/
def Placement.linesAt (pl : Placement) (k : Nat) : Nat :=
  match pl.records[k]? with
  | some r => r.lines
  | none => 0

/-- The payload line at which record `k` begins (R16). -/
def Placement.lineOfRecord (pl : Placement) (base k : Nat) : Nat :=
  base + totalLines (pl.records.take k)

/-- Line `l` of record `k` is programmed in the head's payload (R14). -/
def State.programRecordLine (s : State) (pl : Placement) (h base k l : Nat) : State :=
  { s with
    work := .place { pl with phase := .body h base k l }
    controller := .programming h (5 + pl.lineOfRecord base k + l)
      (lineOf (pl.recordBytes (pl.firstSeq.getD s.nextSeq) k) l) }

/-- The records are placed at the head's fill; records not yet placed take the next sequences (R10, R59, R110). -/
def State.enterBody (s : State) (pl : Placement) (h : Nat) : State :=
  ({ s with nextSeq := if pl.firstSeq = none then s.nextSeq + BitVec.ofNat 48 pl.records.length else s.nextSeq }).programRecordLine
    { pl with firstSeq := some (pl.firstSeq.getD s.nextSeq) } h (s.sector h).fill 0 0

/-! ### Closing and opening a head (R11, R12) -/

/-- The CLOSED marker of the old head is programmed before a new head is opened (R12, first step). -/
def State.closeHead (s : State) (pl : Placement) (h : Nat) : State :=
  ({ s with work := .place { pl with phase := .closing h } }).program h 2 closedMarker

/-- A sector is taken as CLOSED; a marker that failed its verify flags it suspect (R11). -/
def State.markClosed (s : State) (h : Nat) (ok : Bool) : State :=
  s.setSector h { s.sector h with state := .closed, suspect := (s.sector h).suspect || !ok }

/-- The chosen sector is given the next generation and its line 0 is programmed (R9, R12). -/
def State.openSector (s : State) (pl : Placement) (i : Nat) : State :=
  ({ s.setSector i { s.sector i with generation := some s.nextGen } with
     nextGen := s.nextGen + 1
     work := .place { pl with phase := .line0 i } }).program i 0
    (lineOf (headerBytes (s.sector i).eraseCount s.nextGen s.nextSeq) 0)

/-- Line 0 has been verified: line 1, with the sequence mark and the header check (R2, R10). -/
def State.openSecondLine (s : State) (pl : Placement) (i : Nat) : State :=
  ({ s with work := .place { pl with phase := .line1 i } }).program i 1
    (lineOf (headerBytes (s.sector i).eraseCount ((s.sector i).generation.getD 0) s.nextSeq) 1)

/-- Line 1 has been verified: the sector is OPEN with fill 0 and live bytes 0 (R12). -/
def State.becomeHead (s : State) (i : Nat) : State :=
  s.setSector i { s.sector i with state := .opened, fill := 0, live := 0 }

/-- A header line failed: the sector is flagged suspect (TABLE 9) and its RETIRED marker is programmed (R13). -/
def State.retireHeader (s : State) (pl : Placement) (i : Nat) : State :=
  ({ s.setSector i { s.sector i with suspect := true } with
     work := .place { pl with phase := .retiring i } }).program i 4 retiredMarker

/-! ### Endings without a verified record (R21, R65, R114, R123, R124) -/

/-- The work of a client ends with a status and no body; a reclaim step ends. A WIPE is never ended so: it is placed again,
or the first sector is erased for it (R156). -/
def State.endPlacement (s : State) (pl : Placement) (st : Status) : State :=
  match pl.goal with
  | .write p tag => s.answer p tag st []
  | .delete p tag => s.answer p tag st []
  | .commit p tag => s.answer p tag st []
  | .copy _ => { s with work := .idle }
  | .wipe _ _ => { s with work := .idle }

/-- The store becomes READ_ONLY and the work ends (R21, R65, R124). -/
def State.endReadOnly (s : State) (pl : Placement) : State :=
  ({ s with mode := .readOnly }).endPlacement pl .readOnly

/-- The goal is FORMAT's WIPE record. -/
def Placement.format? (pl : Placement) : Option FormatWork :=
  match pl.goal with
  | .wipe p tag => some ⟨p, tag, .paused, pl.firstSeq, 0⟩
  | _ => none

/-- The free count a placement needs to open a head (R20, TABLE 12). -/
def Placement.threshold (pl : Placement) : Nat :=
  match pl.goal with
  | .write _ _ => if pl.attempts = 0 then 3 else 2
  | .delete _ _ => if pl.attempts = 0 then 3 else 2
  | .commit _ _ => if pl.attempts = 0 then 3 else 2
  | .copy _ => 2
  | .wipe _ _ => 1

/-- A placement that does not meet its threshold (R21, TABLE 12): a client append before its first failure is refused
with RETRY, a retry or a copy makes the store READ_ONLY, a WIPE goes to case 3 of R156. -/
def State.loseThreshold (s : State) (pl : Placement) : State :=
  match pl.format? with
  | some f => s.wipeErase f
  | none => if pl.threshold = 3 then s.endPlacement pl .retry else s.endReadOnly pl

/-- A head is opened if free meets the threshold (R12, R20). -/
def State.tryOpen (s : State) (pl : Placement) : State :=
  match s.chooseFree with
  | some i => if pl.threshold ≤ s.freeCount then s.openSector pl i else s.loseThreshold pl
  | none => s.loseThreshold pl

/-- A placement begins (R15, R16): at the head's fill when it fits; else the head, if any, is closed and a new one
opened. The threshold of a placement that needs a head has been tested before (R12, R20). -/
def State.startPlacement (s : State) (pl : Placement) : State :=
  match s.head? with
  | some h => if s.fitsHead (totalLines pl.records) then s.enterBody pl h else s.closeHead pl h
  | none => s.tryOpen pl

/-! ### The WIPE record (R156) -/

/-- The WIPE record: key 0, length 0, group 0. -/
def wipeRecord : RecordSpec := ⟨.wipe, false, 0, [], 0, 0⟩

/-- The placement of FORMAT's WIPE, with the sequence it may already have. -/
def FormatWork.wipePlacement (f : FormatWork) : Placement :=
  ⟨.wipe f.port f.tag, [wipeRecord], f.wipeSeq, 0, .closing 0⟩

/-- The WIPE is placed by the first case of R156 that applies. -/
def State.wipePlace (s : State) (f : FormatWork) : State :=
  if s.fitsHead 2 = true ∨ 1 ≤ s.freeCount then s.startPlacement f.wipePlacement else s.wipeErase f

/-- A WIPE whose record failed is placed again; in GUARD FORMAT pauses first (R156, R158). -/
def State.wipeAgain (s : State) (f : FormatWork) : State :=
  if s.supply = .normal then s.wipePlace f else { s with work := .format { f with phase := .paused } }

/-! ### A verified placement -/

/-- A WRITE of a system key moves its value in force (R32, R60). -/
def State.setInForce (s : State) (k : Key) (value : List Byte) : State :=
  { s with
    rightsInForce := if k = rightsKey then (parseRights value).getD s.rightsInForce else s.rightsInForce
    freezeLine := if k = freezeKey then (parseFreezeLine value).getD s.freezeLine else s.freezeLine
    defaultPeriod := if k = periodKey then (parsePeriod value).getD s.defaultPeriod else s.defaultPeriod }

/-- R60: directory and live bytes, value in force, notices, reply. -/
def State.writeDone (s : State) (r : RecordSpec) (q : SeqNo) (h base : Nat) (p : Port) (tag : Byte) : State :=
  (((s.setEntry ⟨r.key, q, r.value.length, h, 8 * base, false⟩).setInForce r.key r.value).postChanged p r.key q).answer
    p tag .ok (beBytes 6 q.toNat)

/-- R62: the entry and the live bytes, notices with version 0, reply with the TOMBSTONE's sequence. -/
def State.deleteDone (s : State) (r : RecordSpec) (q : SeqNo) (p : Port) (tag : Byte) : State :=
  ((s.removeEntry r.key).postChanged p r.key 0).answer p tag .ok (beBytes 6 q.toNat)

/-- One member of a committed group enters or leaves the directory (R112, first and second). -/
def State.applyMember (s : State) (r : RecordSpec) (q : SeqNo) (h line : Nat) : State :=
  match r.kind with
  | .value => s.setEntry ⟨r.key, q, r.value.length, h, 8 * line, true⟩
  | .tombstone => s.removeEntry r.key
  | .commit => s
  | .wipe => s

/-- All members in staging order, member k carrying the first sequence plus k. -/
def State.applyMembers (s : State) (h : Nat) : List RecordSpec → SeqNo → Nat → State
  | [], _, _ => s
  | r :: rs, q, line => (s.applyMember r q h line).applyMembers h rs (q + 1) (line + r.lines)

/-- The changed postings of a group, in staging order (R95, R112): 0 for a deleting member. -/
def State.postMembers (s : State) (p : Port) : List RecordSpec → SeqNo → State
  | [], _ => s
  | r :: rs, q =>
    (match r.kind with
     | .value => s.postChanged p r.key q
     | .tombstone => s.postChanged p r.key 0
     | .commit => s
     | .wipe => s).postMembers p rs (q + 1)

/-- The staging area of a port is cleared (R102). -/
def State.clearGroup (s : State) (p : Port) : State :=
  s.setSession p { s.session p with groupOpen := false, members := [] }

/-- R112: directory and live bytes, the group cleared, postings, reply with member count and first sequence. -/
def State.commitDone (s : State) (pl : Placement) (q : SeqNo) (h base : Nat) (p : Port) (tag : Byte) : State :=
  (((s.applyMembers h pl.records q base).clearGroup p).postMembers p pl.records q).answer p tag .ok
    (BitVec.ofNat 8 (pl.records.length - 1) :: beBytes 6 q.toNat)

/-- R122: the entry moves to the copy with its group marker clear, the live bytes move, the cursor passes the original;
a tail left with no live bytes is to be erased. -/
def State.copyDone (s : State) (r : RecordSpec) (q : SeqNo) (h base line : Nat) : State :=
  match s.tail? with
  | none => { s with work := .idle }
  | some i =>
    let t := s.setEntry ⟨r.key, q, r.value.length, h, 8 * base, false⟩
    let u := { t with work := .idle, reclaim := { t.reclaim with cursor := line + r.lines } }
    if (u.sector i).live = 0 then
      { u.markPending i with reclaim := { u.reclaim with state := .erasing } }
    else u

/-- The last line of the last record has been verified. -/
def State.finishPlacement (s : State) (pl : Placement) (h base : Nat) : State :=
  match pl.records with
  | [] => { s with work := .idle }
  | r :: _ =>
    match pl.goal with
    | .write p tag => s.writeDone r (pl.firstSeq.getD 0) h base p tag
    | .delete p tag => s.deleteDone r (pl.firstSeq.getD 0) p tag
    | .commit p tag => s.commitDone pl (pl.firstSeq.getD 0) h base p tag
    | .copy line => s.copyDone r (pl.firstSeq.getD 0) h base line
    | .wipe p tag => s.sweepFrom ⟨p, tag, .paused, pl.firstSeq, 0⟩ 0

/-! ### The outcome of each line program -/

/-- A record's last line has been verified: the fill rises by its lines (R14). -/
def State.raiseFill (s : State) (h n : Nat) : State :=
  s.setSector h { s.sector h with fill := (s.sector h).fill + n }

/-- A record's last line has been verified; before a group's next record the supply is read (R111). -/
def State.recordVerified (s : State) (pl : Placement) (h base k : Nat) : State :=
  if k + 1 < pl.records.length then
    (if s.supply = .normal then s.programRecordLine pl h base (k + 1) 0 else s.endPlacement pl .hold)
  else s.finishPlacement pl h base

/-- A record line failed its verify: the sector is flagged suspect and closed, and the attempt is counted (R63, R113,
R124). -/
def State.recordFailed (s : State) (pl : Placement) (h : Nat) : State :=
  ({ s.setSector h { s.sector h with suspect := true } with
     work := .place { pl with phase := .closingFailed h, attempts := pl.attempts + 1 } }).program h 2 closedMarker

/-- The failed head has been closed: after the third failure the store is READ_ONLY; else the supply is read, and in
NORMAL the records are written again in a new head when free is at least 2 (R63 to R65, R113, R124); a WIPE is placed
again without limit (R156). -/
def State.afterFailure (s : State) (pl : Placement) : State :=
  match pl.format? with
  | some f => s.wipeAgain f
  | none =>
    if 3 ≤ pl.attempts then s.endReadOnly pl
    else if s.supply = .normal then s.tryOpen pl
    else s.endPlacement pl .hold

/-- The failed sector has been retired (R13): the READ_ONLY entry test, then the threshold again; a WIPE takes the next
free sector or case 3. -/
def State.afterHeaderFailure (s : State) (pl : Placement) : State :=
  if s.mode = .ready ∧ s.readOnlyTest = true then s.endReadOnly pl else s.tryOpen pl

/-- A line program of a placement has ended (R135). -/
def State.placementLine (s : State) (pl : Placement) (ok : Bool) : State :=
  match pl.phase with
  | .closing h => (s.markClosed h ok).tryOpen pl
  | .line0 i => if ok then s.openSecondLine pl i else s.retireHeader pl i
  | .line1 i => if ok then (s.becomeHead i).enterBody pl i else s.retireHeader pl i
  | .retiring i => (s.retireSector i ok).afterHeaderFailure pl
  | .body h base k l =>
    if ok then
      (if l + 1 < pl.linesAt k then s.programRecordLine pl h base k (l + 1)
       else (s.raiseFill h (pl.linesAt k)).recordVerified pl h base k)
    else s.recordFailed pl h
  | .closingFailed h => (s.markClosed h ok).afterFailure pl

end Sys2Proof.Machine
end

