-- ==== Sys2Proof/Machine/Writing.lean ====
section
/-! DEFINITION. WRITE and DELETE (04_reading_writing_and_deleting.md R57 to R62): the checks, and the placement that each
begins. The lines of the record are programmed by the commands LINE_PROGRAM_COMPLETE that follow. -/

namespace Sys2Proof.Machine

/-- Steps 1 to 14 of a WRITE (R58, TABLE 35). -/
def writeVerdict (s : State) (p : Port) (body : List Byte) : Except Rejection Change :=
  judge (checkSession s p) (parseWrite body) fun c =>
    [checkNotBlank s, checkRight s p Rights.write, checkSystemWrite s p c, checkKey c.key, checkNotReadOnly s,
      checkFrozen s c.key, checkFreezeRise s c, checkLease s p c.key, checkVersion s c.key c.expected, checkRoom s c.key,
      checkLength c.value, checkBudget s (s.liveAfterWrite c), checkReserve s (linesForLength c.value.length),
      checkSupply s]

/-- The VALUE record of a WRITE: COPIED clear, group 0 (R59). -/
def writeRecord (c : Change) : RecordSpec := ⟨.value, false, c.key, c.value, 0, 0⟩

/-- A placement of a client, before anything of it is in flight. -/
def newPlacement (g : Goal) (records : List RecordSpec) : Placement := ⟨g, records, none, 0, .closing 0⟩

/-- A WRITE that passes step 14 is appended (R59). -/
def writeAct (p : Port) (r : Request) (c : Change) (s : State) : State :=
  s.startPlacement (newPlacement (.write p r.tag) [writeRecord c])

def writeRequest (p : Port) (r : Request) (s : State) : State :=
  s.settle p r (writeVerdict s p r.body) (writeAct p r)

/-- WRITE (R58). -/
def execWrite (s : State) : Host.Outcome State Fault Refusal := serve 0x06 writeRequest s

/-- Steps 1 to 9, 13 and 14 of a DELETE (R61). -/
def deleteVerdict (s : State) (p : Port) (body : List Byte) : Except Rejection Change :=
  judge (checkSession s p) (parseDelete body) fun c =>
    [checkNotBlank s, checkRight s p Rights.write, checkNotSystem c.key, checkKey c.key, checkNotReadOnly s,
      checkFrozen s c.key, checkLease s p c.key, checkVersion s c.key c.expected, checkExists s c.key,
      checkReserve s 2, checkSupply s]

/-- The TOMBSTONE of a DELETE (R62). -/
def tombstoneRecord (k : Key) : RecordSpec := ⟨.tombstone, false, k, [], 0, 0⟩

/-- A DELETE that passes step 14 appends a TOMBSTONE (R62). -/
def deleteAct (p : Port) (r : Request) (c : Change) (s : State) : State :=
  s.startPlacement (newPlacement (.delete p r.tag) [tombstoneRecord c.key])

def deleteRequest (p : Port) (r : Request) (s : State) : State :=
  s.settle p r (deleteVerdict s p r.body) (deleteAct p r)

/-- DELETE (R61). -/
def execDelete (s : State) : Host.Outcome State Fault Refusal := serve 0x07 deleteRequest s

end Sys2Proof.Machine
end

