-- ==== Sys2Proof/Machine/Groups.lean ====
section
/-! DEFINITION. GROUP_BEGIN, GROUP_PUT, GROUP_COMMIT and GROUP_ABANDON (07_group_commit.md). -/

namespace Sys2Proof.Machine

/-- After step 4: the session has an open group (TABLE 31). -/
def checkGroup (s : State) (p : Port) : Option Rejection :=
  failUnless (s.session p).groupOpen .noGroup []

/-- Steps 1 to 4, then GROUP_OPEN (R103). -/
def groupBeginVerdict (s : State) (p : Port) (body : List Byte) : Except Rejection Unit :=
  judge (checkSession s p) (parseEmpty body) fun _ =>
    [checkNotBlank s, checkRight s p Rights.write, failUnless (!(s.session p).groupOpen) .groupOpen []]

/-- The group-open flag is set with an empty member list (R103). -/
def groupBeginAct (p : Port) (r : Request) (s : State) : State :=
  (s.setSession p { s.session p with groupOpen := true, members := [] }).answer p r.tag .ok []

def groupBeginRequest (p : Port) (r : Request) (s : State) : State :=
  s.settle p r (groupBeginVerdict s p r.body) fun _ => groupBeginAct p r

/-- GROUP_BEGIN (R103). -/
def execGroupBegin (s : State) : Host.Outcome State Fault Refusal := serve 0x0E groupBeginRequest s

/-! ### GROUP_PUT -/

/-- The staged bytes of a member list (R102). -/
def stagedBytes (ms : List Member) : Nat := (ms.map fun m => m.value.length).sum

/-- A member replaces the one of its key in place, or is appended at the tail (R105). -/
def stageMember (m : Member) : List Member → List Member
  | [] => [m]
  | x :: xs => if x.key = m.key then m :: xs else x :: stageMember m xs

/-- The position of a key's member, from 1 (R102). -/
def memberPosition (k : Key) : List Member → Nat
  | [] => 0
  | x :: xs => if x.key = k then 1 else 1 + memberPosition k xs

/-- The member a GROUP_PUT stages (TABLE 54). -/
def Change.member (c : Change) : Member := ⟨c.key, c.expected, c.delete, c.value⟩

/-- The member list after a GROUP_PUT. -/
def stagedAfter (s : State) (p : Port) (c : Change) : List Member :=
  stageMember c.member (s.session p).members

/-- The staging limits: 6 members and 768 staged bytes (R105). -/
def checkStaging (ms : List Member) : Option Rejection :=
  failUnless (decide (ms.length ≤ 6) && decide (stagedBytes ms ≤ 768)) .groupFull []

/-- Steps 1 to 4, NO_GROUP, steps 5, 7 and 11, then the staging limits (R104). -/
def groupPutVerdict (s : State) (p : Port) (body : List Byte) : Except Rejection Change :=
  judge (checkSession s p) (parseGroupPut body) fun c =>
    [checkNotBlank s, checkRight s p Rights.write, checkNotSystem c.key, checkGroup s p, checkKey c.key,
      checkFrozen s c.key, checkLength c.value, checkStaging (stagedAfter s p c)]

/-- The member is staged; the reply gives position, member count and staged bytes (R105). -/
def groupPutAct (p : Port) (r : Request) (c : Change) (s : State) : State :=
  (s.setSession p { s.session p with members := stagedAfter s p c }).answer p r.tag .ok
    ([BitVec.ofNat 8 (memberPosition c.key (stagedAfter s p c)), BitVec.ofNat 8 (stagedAfter s p c).length]
      ++ beBytes 2 (stagedBytes (stagedAfter s p c)))

def groupPutRequest (p : Port) (r : Request) (s : State) : State :=
  s.settle p r (groupPutVerdict s p r.body) (groupPutAct p r)

/-- GROUP_PUT (R104). -/
def execGroupPut (s : State) : Host.Outcome State Fault Refusal := serve 0x0F groupPutRequest s

/-! ### GROUP_ABANDON -/

/-- Steps 1 to 4, then NO_GROUP (R106). -/
def groupAbandonVerdict (s : State) (p : Port) (body : List Byte) : Except Rejection Unit :=
  judge (checkSession s p) (parseEmpty body) fun _ =>
    [checkNotBlank s, checkRight s p Rights.write, checkGroup s p]

/-- The member list is emptied and the flag cleared; the reply gives the members discarded (R106). -/
def groupAbandonAct (p : Port) (r : Request) (s : State) : State :=
  (s.clearGroup p).answer p r.tag .ok [BitVec.ofNat 8 (s.session p).members.length]

def groupAbandonRequest (p : Port) (r : Request) (s : State) : State :=
  s.settle p r (groupAbandonVerdict s p r.body) fun _ => groupAbandonAct p r

/-- GROUP_ABANDON (R106). -/
def execGroupAbandon (s : State) : Host.Outcome State Fault Refusal := serve 0x11 groupAbandonRequest s

/-! ### GROUP_COMMIT -/

/-- One step made over the members in staging order, from position `pos`: the first that fails names its position (R107). -/
def overMembers (test : Member → Option Rejection) : Nat → List Member → Option Rejection
  | _, [] => none
  | pos, m :: ms =>
    match test m with
    | some (st, body) => some (st, BitVec.ofNat 8 pos :: body)
    | none => overMembers test (pos + 1) ms

/-- What a member adds to the directory count: a writing member on an absent key one, a deleting member on an existing
key minus one (R26, R107). -/
def Member.countChange (s : State) (m : Member) : Int :=
  match m.delete, (s.entry m.key).isSome with
  | false, false => 1
  | true, true => -1
  | false, true => 0
  | true, false => 0

/-- Step 10 over the group: the count after the commit is at most 1,024 (R26). -/
def checkGroupRoom (s : State) (ms : List Member) : Option Rejection :=
  failUnless (decide ((s.directory.length : Int) + (ms.map (Member.countChange s)).sum ≤ 1024)) .noRoom []

/-- The bytes of the VALUE records the group writes (R19). -/
def groupAddedBytes (ms : List Member) : Nat :=
  (ms.map fun m => if m.delete then 0 else sizeForLength m.value.length).sum

/-- The live bytes of the records the group replaces or deletes (R19). -/
def groupReplacedBytes (s : State) (ms : List Member) : Nat :=
  (ms.map fun m => s.entrySize m.key).sum

/-- Live bytes after the commit (R107, step 12). -/
def liveAfterGroup (s : State) (ms : List Member) : Nat :=
  s.storeLive + groupAddedBytes ms - groupReplacedBytes s ms

/-- A member's record: its position and the member count in the group field (R110). -/
def memberRecord (count pos : Nat) (m : Member) : RecordSpec :=
  if m.delete then ⟨.tombstone, false, m.key, [], pos, count⟩ else ⟨.value, false, m.key, m.value, pos, count⟩

/-- The members' records from position `pos` on. -/
def memberRecords (count : Nat) : Nat → List Member → List RecordSpec
  | _, [] => []
  | pos, m :: ms => memberRecord count pos m :: memberRecords count (pos + 1) ms

/-- All records of a group: the members in staging order, then the COMMIT record (R110). -/
def groupRecords (ms : List Member) : List RecordSpec :=
  memberRecords ms.length 1 ms ++ [⟨.commit, false, 0, [], 0, ms.length⟩]

/-- Steps 6 to 10 and 12 to 14 over a group with members (R107, R108). -/
def groupChecks (s : State) (p : Port) (ms : List Member) : List (Option Rejection) :=
  [checkNotReadOnly s, overMembers (fun m => checkFrozen s m.key) 1 ms, overMembers (fun m => checkLease s p m.key) 1 ms,
    overMembers (fun m => checkVersion s m.key m.expected) 1 ms, checkGroupRoom s ms,
    checkBudget s (liveAfterGroup s ms), checkReserve s (totalLines (groupRecords ms)), checkSupply s]

/-- Steps 1 to 4 and NO_GROUP; a group with no member passes the rest without a test (R107, R109). -/
def groupCommitVerdict (s : State) (p : Port) (body : List Byte) : Except Rejection Unit :=
  judge (checkSession s p) (parseEmpty body) fun _ =>
    [checkNotBlank s, checkRight s p Rights.write, checkGroup s p]
      ++ (if (s.session p).members = [] then [] else groupChecks s p (s.session p).members)

/-- An empty group is committed with no flash write (R109); any other is placed whole (R110). -/
def groupCommitAct (p : Port) (r : Request) (s : State) : State :=
  if (s.session p).members = [] then (s.clearGroup p).answer p r.tag .ok (0 :: beBytes 6 0)
  else s.startPlacement (newPlacement (.commit p r.tag) (groupRecords (s.session p).members))

def groupCommitRequest (p : Port) (r : Request) (s : State) : State :=
  s.settle p r (groupCommitVerdict s p r.body) fun _ => groupCommitAct p r

/-- GROUP_COMMIT (R107). -/
def execGroupCommit (s : State) : Host.Outcome State Fault Refusal := serve 0x10 groupCommitRequest s

end Sys2Proof.Machine
end

