-- ==== Sys2Proof/Machine/Sessions.lean ====
section
/-! DEFINITION. OPEN, CLOSE, TEARDOWN, a request code outside the twenty, COMPACT and FORMAT's start (11 R171 to R173; 03
R52; 08 R131; 10 R155). -/

namespace Sys2Proof.Machine

/-! ### OPEN -/

/-- Step 2 alone (R171). -/
def openVerdict (body : List Byte) : Except Rejection (Bool × Bool) :=
  judge none (parseOpen body) fun _ => []

/-- The session is OPEN with the port's rights in force; all else of it stands (R34, R171). -/
def Session.bind (x : Session) (rights : Rights) : Session :=
  { x with isOpen := true, rights := rights }

/-- The reply to OPEN: rights now bound, store mode, directory count, next sequence (TABLE 82). -/
def openBody (s : State) (rights : Rights) : List Byte :=
  [rights.toByte, BitVec.ofNat 8 s.mode.code] ++ beBytes 2 s.directory.length ++ beBytes 6 s.nextSeq.toNat

/-- The port sets its enables (R171). -/
def PortUnit.setEnables (u : PortUnit) (e : Bool × Bool) : PortUnit :=
  { u with replyEnable := e.1, noticeEnable := e.2 }

def openAct (p : Port) (r : Request) (e : Bool × Bool) (s : State) : State :=
  ((s.setSession p ((s.session p).bind (s.rightsInForce.get p))).setPort p ((s.port p).setEnables e)).answer p r.tag .ok
    (openBody s (s.rightsInForce.get p))

def openRequest (p : Port) (r : Request) (s : State) : State :=
  s.settle p r (openVerdict r.body) (openAct p r)

/-- OPEN (R171). -/
def execOpen (s : State) : Host.Outcome State Fault Refusal := serve 0x01 openRequest s

/-! ### CLOSE and TEARDOWN -/

/-- Steps 1 and 2 (R172). -/
def closeVerdict (s : State) (p : Port) (body : List Byte) : Except Rejection Unit :=
  judge (checkSession s p) (parseEmpty body) fun _ => []

/-- The teardown within the grant, the parked claim answered ABORTED, then OK (R172, R173). -/
def closeAct (p : Port) (r : Request) (s : State) : State :=
  (s.tearDown p true).answer p r.tag .ok []

def closeRequest (p : Port) (r : Request) (s : State) : State :=
  s.settle p r (closeVerdict s p r.body) fun _ => closeAct p r

/-- CLOSE (R172). -/
def execClose (s : State) : Host.Outcome State Fault Refusal := serve 0x02 closeRequest s

/-- A teardown after a port reset has ended: the port is NORMAL again (R173, step 6). -/
def PortUnit.endTeardown (u : PortUnit) : PortUnit :=
  { u with state := .normal, teardown := .none }

/-- The teardown after a port reset: the parked claim removed silently, no reply (R169, R173). -/
def State.serveTeardown (s : State) (p : Port) : State :=
  { (s.tearDown p false).setPort p ((s.tearDown p false).port p).endTeardown with work := .idle }

/-- TEARDOWN (R173): acts when the engine has been granted a port's teardown. -/
def execTeardown (s : State) : Host.Outcome State Fault Refusal :=
  match s.work with
  | .teardown p => .next (s.serveTeardown p)
  | _ => .next s

/-! ### A request code outside the twenty -/

/-- The code is one of the twenty (TABLE 82). -/
def knownCode (code : Byte) : Bool :=
  decide (1 ≤ code.toNat) && decide (code.toNat ≤ 0x14)

/-- Step 1, then MALFORMED at step 2 (R52). -/
def unknownCodeVerdict (s : State) (p : Port) : Except Rejection Unit :=
  judge (checkSession s p) none fun _ => []

def unknownCodeRequest (p : Port) (r : Request) (s : State) : State :=
  s.settle p r (unknownCodeVerdict s p) fun _ t => t

/-- UNKNOWN_REQUEST_CODE (R52): acts when the granted request's code is outside the twenty. -/
def execUnknownRequestCode (s : State) : Host.Outcome State Fault Refusal :=
  match s.work with
  | .request p r => if knownCode r.code then .next s else .next (unknownCodeRequest p r s)
  | _ => .next s

/-! ### COMPACT -/

/-- Steps 1 to 4, with ADMIN (R131). -/
def compactVerdict (s : State) (p : Port) (body : List Byte) : Except Rejection Nat :=
  judge (checkSession s p) (parseCompact s.usable body) fun _ => [checkNotBlank s, checkRight s p Rights.admin]

/-- The target that stands after a COMPACT: none when free already meets it (R131). -/
def State.targetStanding (s : State) (target : Nat) : Option Nat :=
  if target ≤ s.freeCount then none else some target

/-- Target and limit are set, or both cleared (R131). -/
def State.setCompact (s : State) (target : Nat) : State :=
  { s with reclaim := { s.reclaim with
      target := s.targetStanding target
      limit := if target ≤ s.freeCount then none else some s.nextGen } }

def compactAct (p : Port) (r : Request) (target : Nat) (s : State) : State :=
  (s.setCompact target).answer p r.tag .ok
    [BitVec.ofNat 8 ((s.targetStanding target).getD 0), BitVec.ofNat 8 s.freeCount]

def compactRequest (p : Port) (r : Request) (s : State) : State :=
  s.settle p r (compactVerdict s p r.body) (compactAct p r)

/-- COMPACT (R131). -/
def execCompact (s : State) : Host.Outcome State Fault Refusal := serve 0x13 compactRequest s

/-! ### FORMAT -/

/-- No other session is OPEN (R155). -/
def State.othersClosed (s : State) (p : Port) : Bool :=
  !(s.session (Port.next p)).isOpen && !(s.session (Port.next (Port.next p))).isOpen

/-- Steps 1, 2 and 4, BUSY_SESSIONS, then step 14 (R155). -/
def formatVerdict (s : State) (p : Port) (body : List Byte) : Except Rejection Unit :=
  judge (checkSession s p) (parseEmpty body) fun _ =>
    [checkRight s p Rights.admin, failUnless (s.othersClosed p) .busySessions [], checkSupply s]

/-- The mode is FORMATTING and the WIPE record is placed (R155, R156). -/
def formatAct (p : Port) (r : Request) (s : State) : State :=
  ({ s with mode := .formatting }).wipePlace ⟨p, r.tag, .paused, none, 0⟩

def formatRequest (p : Port) (r : Request) (s : State) : State :=
  s.settle p r (formatVerdict s p r.body) fun _ => formatAct p r

/-- FORMAT (R155). -/
def execFormat (s : State) : Host.Outcome State Fault Refusal := serve 0x14 formatRequest s

/-- FORMAT_ERASE (R157): with the supply NORMAL, FORMAT starts the erase it waits to make; in GUARD it stays paused
(R158). -/
def execFormatErase (s : State) : Host.Outcome State Fault Refusal :=
  match s.work with
  | .format f =>
    match f.phase with
    | .sweep i => if s.supply = .normal then .next (s.startSweep f i) else .next s
    | _ => .next s
  | _ => .next s

/-- WIPE_RE_PLACEMENT (R158): with the supply NORMAL, a paused FORMAT places its WIPE again, or makes the case-3 erase it
was about to make. -/
def execWipeRePlacement (s : State) : Host.Outcome State Fault Refusal :=
  match s.work with
  | .format f =>
    match f.phase with
    | .paused => if s.supply = .normal then .next (s.wipePlace f) else .next s
    | _ => .next s
  | _ => .next s

end Sys2Proof.Machine
end

