-- ==== Sys2Proof/Machine/Mount.lean ====
section
/-! DEFINITION. Mount (10_mounting_recovery_and_format.md R145 to R154): the reading phase, made in one step, the settling
phase, and the outcome. -/

namespace Sys2Proof.Machine

/-! ### Classification (R146) -/

/-- The cells of one sector. -/
def sectorCells (m : List Host.Cell) (i : Nat) : List Host.Cell :=
  m.filter fun c => decide (sectorBase i ≤ c.1) && decide (c.1 < sectorBase i + sectorBytes)

/-- A line is erased when all 8 of its bytes read 0xFF. -/
def lineErased (m : List Host.Cell) (i l : Nat) : Bool :=
  decide (readLine m i l = List.replicate 8 erasedByte)

/-- A field of the sector header, by its bytes (TABLE 86). -/
def headerField (m : List Host.Cell) (i off n : Nat) : Nat :=
  beNat (readBytes m (sectorBase i + off) n)

/-- Lines 0 and 1 are valid: format identifier, a generation other than 0, a good header check. -/
def headerValid (m : List Host.Cell) (i : Nat) : Bool :=
  decide (headerField m i 0 2 = formatIdentifier) && decide (headerField m i 4 4 ≠ 0)
    && decide ((crc16 (readBytes m (sectorBase i) 14)).toNat = headerField m i 14 2)

/-- The payload reads 0xFF throughout. -/
def payloadErased (m : List Host.Cell) (i : Nat) : Bool :=
  allErased m (sectorBase i + 40) (sectorBase i + sectorBytes)

/-- The class of a sector and its suspect flag: the first row of TABLE 71 that applies. -/
def classify (m : List Host.Cell) (i : Nat) : SectorState × Bool :=
  if lineErased m i 4 = false then (.retired, false)
  else if lineErased m i 0 && lineErased m i 1 && lineErased m i 2 && lineErased m i 3 then
    (if payloadErased m i then (.erased, false) else (.dirty, false))
  else if headerValid m i then
    (if lineErased m i 3 then
      (if lineErased m i 2 then (.opened, false)
       else (.closed, !decide (readLine m i 2 = closedMarker)))
     else (.reclaiming, !(decide (readLine m i 2 = closedMarker) && decide (readLine m i 3 = reclaimMarker))))
  else (.dirty, false)

/-! ### Sector table, ring and counters (R147) -/

/-- The highest value of a header field over the valid headers. -/
def highestField (m : List Host.Cell) (off n : Nat) : Nat :=
  ((List.range 64).map fun i =>
    if headerValid (sectorCells m i) i then headerField (sectorCells m i) i off n else 0).foldl max 0

/-- The erase count a sector is given: from line 0 when the sector is in the ring or RETIRED with a valid header; the
highest found when ERASED or DIRTY; a free value for a RETIRED sector with no valid header (log 14). -/
def mountedEraseCount (m : List Host.Cell) (draw highest i : Nat) (st : SectorState) : Nat :=
  match st with
  | .erased => highest
  | .dirty => highest
  | .opened => headerField m i 2 2
  | .closed => headerField m i 2 2
  | .reclaiming => headerField m i 2 2
  | .retired => if headerValid m i then headerField m i 2 2 else Config.retiredEraseCount draw i

/-- The generation: from line 0 when the sector is in the ring (R147). A RETIRED sector keeps the one of a valid header, and has
none where lines 0 and 1 are not valid; R147 gives it none, and nothing uses it (TABLE 9; DESIGN CHOICE, log 30). A DIRTY sector
has none: R146, R147 and TABLE 9 do not say (DESIGN CHOICE, log 32). -/
def mountedGeneration (m : List Host.Cell) (i : Nat) (st : SectorState) : Option Generation :=
  match st with
  | .erased => none
  | .dirty => none
  | .opened => some (BitVec.ofNat 32 (headerField m i 4 4))
  | .closed => some (BitVec.ofNat 32 (headerField m i 4 4))
  | .reclaiming => some (BitVec.ofNat 32 (headerField m i 4 4))
  | .retired => if headerValid m i then some (BitVec.ofNat 32 (headerField m i 4 4)) else none

/-- The entry of one sector from its cells, before replay sets the fill and live bytes of the ring (R147); a DIRTY sector has
its erase pending (R146). That the fill is 0 where no rule gives it is a DESIGN CHOICE: RETIRED, as its clear suspect flag
(log 30), and DIRTY (log 32). -/
def mountedSector (m : List Host.Cell) (draw highest i : Nat) : Sector where
  state := (classify m i).1
  generation := mountedGeneration m i (classify m i).1
  eraseCount := mountedEraseCount m draw highest i (classify m i).1
  fill := 0
  live := 0
  suspect := (classify m i).2
  erasePending := decide ((classify m i).1 = .dirty)

/-- The table as classified. -/
def classifiedTable (m : List Host.Cell) (draw : Nat) : List Sector :=
  let highest := highestField m 2 2
  (List.range 64).map fun i => mountedSector (sectorCells m i) draw highest i

def suspectAt (t : List Sector) (i : Nat) : List Sector :=
  t.set i { sectorAt t i with suspect := true }

/-- Of two ring neighbours with one generation, the later is flagged suspect (R147). -/
def flagDuplicates (t : List Sector) : List Nat → List Sector
  | i :: j :: rest =>
    flagDuplicates (if (sectorAt t i).generationNat = (sectorAt t j).generationNat then suspectAt t j else t) (j :: rest)
  | _ => t

/-- A RECLAIMING sector that is not at the front of the ring is held as CLOSED and flagged suspect (R147). -/
def demoteReclaiming (t : List Sector) : List Nat → List Sector
  | [] => t
  | i :: rest =>
    demoteReclaiming
      (if (sectorAt t i).state = .reclaiming then t.set i { sectorAt t i with state := .closed, suspect := true } else t)
      rest

/-- The sector table before the replay. -/
def builtTable (m : List Host.Cell) (draw : Nat) : List Sector :=
  let t := classifiedTable m draw
  demoteReclaiming (flagDuplicates t (ringOf t)) (ringOf t).tail

/-! ### Reading a record (R149, TABLE 85) -/

/-- A record as mount reads it. -/
structure StoredRecord where
  kind : RecordKind
  copied : Bool
  key : Key
  length : Nat
  /-- Group byte, bits 7 to 4. -/
  position : Nat
  /-- Group byte, bits 3 to 0. -/
  count : Nat
  reference : Nat
  seq : SeqNo
deriving DecidableEq, Repr

/-- What stands at a payload line. -/
inductive ReadResult where
  /-- The kind reads erased, or the payload has ended (R14). -/
  | finished
  /-- A damaged record (R149). -/
  | damaged
  | record (r : StoredRecord)
deriving DecidableEq, Repr

/-- The kind of a code, if it is one of the four (R177). -/
def kindOfCode (b : Byte) : Option RecordKind :=
  if b = 0x01 then some .value
  else if b = 0x02 then some .tombstone
  else if b = 0x03 then some .commit
  else if b = 0x04 then some .wipe
  else none

/-- The group byte of a record. -/
def StoredRecord.grouped (r : StoredRecord) : Bool := !(r.position == 0 && r.count == 0)

/-- Conditions on the header of each kind (R149). -/
def StoredRecord.kindPossible (r : StoredRecord) : Bool :=
  match r.kind with
  | .value =>
    keyValid r.key && (!r.grouped || (decide (1 ≤ r.position) && decide (r.count ≤ 6) && decide (r.position ≤ r.count)))
      && (!r.copied || !r.grouped)
  | .tombstone =>
    decide (r.length = 0) && keyValid r.key
      && (!r.grouped || (decide (1 ≤ r.position) && decide (r.count ≤ 6) && decide (r.position ≤ r.count))) && !r.copied
  | .commit =>
    decide (r.length = 0) && decide (r.key = 0) && decide (1 ≤ r.count) && decide (r.count ≤ 6) && !r.copied
  | .wipe => decide (r.length = 0) && decide (r.key = 0) && !r.grouped && !r.copied

/-- The header is possible: length, kind, and the record's lines within the payload (R149). -/
def StoredRecord.possible (r : StoredRecord) (line : Nat) : Bool :=
  decide (r.length ≤ 240) && r.kindPossible && decide (line + linesForLength r.length ≤ 251)

/-- The fields of a record header of known kind at a payload line. -/
def headerAt (m : List Host.Cell) (i line : Nat) (k : RecordKind) : StoredRecord :=
  let at' := fun off => readByte m (payloadAddress i (8 * line + off))
  { kind := k
    copied := (at' 1).getLsbD 0
    key := keyOfBytes (at' 2) (at' 3)
    length := (at' 4).toNat
    position := (at' 5).toNat / 16
    count := (at' 5).toNat % 16
    reference := beNat [at' 6, at' 7]
    seq := BitVec.ofNat 48 (beNat (readBytes m (payloadAddress i (8 * line + 8)) 6)) }

/-- The record's check is good (R174, R177). -/
def checkGood (m : List Host.Cell) (i line length : Nat) : Bool :=
  decide ((crc16 (readBytes m (payloadAddress i (8 * line)) 14
      ++ readBytes m (payloadAddress i (8 * line + 16)) length)).toNat
    = beNat (readBytes m (payloadAddress i (8 * line + 14)) 2))

/-- What mount finds at a payload line (R148, R149). -/
def readRecord (m : List Host.Cell) (i line : Nat) : ReadResult :=
  if 251 ≤ line then .finished
  else if readByte m (payloadAddress i (8 * line)) = erasedByte then .finished
  else
    match kindOfCode (readByte m (payloadAddress i (8 * line))) with
    | none => .damaged
    | some k =>
      if (headerAt m i line k).possible line && checkGood m i line (headerAt m i line k).length then
        .record (headerAt m i line k)
      else .damaged

/-! ### Replay (R148, R150) -/

/-- What the replay carries: the working directory, the pending run with the line of each member, the damaged count, and
one more than the highest sequence of a good record (0 when there is none). -/
structure Replay where
  directory : List DirEntry
  run : List (StoredRecord × Nat)
  damaged : Nat
  afterHighest : Nat
deriving DecidableEq, Repr

/-- A VALUE sets its entry, a TOMBSTONE removes it. -/
def applyStored (dir : List DirEntry) (i : Nat) (r : StoredRecord) (line : Nat) (group : Bool) : List DirEntry :=
  match r.kind with
  | .value => insertKeyed DirEntry.key ⟨r.key, r.seq, r.length, i, 8 * line, group⟩ dir
  | .tombstone => removeKeyed DirEntry.key r.key dir
  | .commit => dir
  | .wipe => dir

/-- A run applied member by member in position order (R150). -/
def applyRun (i : Nat) : List (StoredRecord × Nat) → List DirEntry → List DirEntry
  | [], dir => dir
  | (r, line) :: rest, dir => applyRun i rest (applyStored dir i r line true)

/-- A member at a position above 1 joins the run (TABLE 72). -/
def joinsRun (run : List (StoredRecord × Nat)) (r : StoredRecord) : Bool :=
  match run.getLast? with
  | some (q, _) => decide (q.position + 1 = r.position) && decide (q.count = r.count)
      && decide (q.reference = r.reference)
  | none => false

/-- The COMMIT applies the run: positions 1 to its member count, all of its group reference (TABLE 72). -/
def commitApplies (run : List (StoredRecord × Nat)) (c : StoredRecord) : Bool :=
  decide (run.length = c.count) && run.all fun m => decide (m.1.reference = c.reference)

/-- The effect of one record (TABLE 72). -/
def replayRecord (i : Nat) (r : StoredRecord) (line : Nat) (a : Replay) : Replay :=
  match r.kind with
  | .wipe => { a with directory := [], run := [] }
  | .commit =>
    { a with directory := if commitApplies a.run r then applyRun i a.run a.directory else a.directory, run := [] }
  | .value =>
    if r.grouped then
      { a with run := if r.position = 1 then [(r, line)] else if joinsRun a.run r then a.run ++ [(r, line)] else [] }
    else { a with directory := applyStored a.directory i r line false, run := [] }
  | .tombstone =>
    if r.grouped then
      { a with run := if r.position = 1 then [(r, line)] else if joinsRun a.run r then a.run ++ [(r, line)] else [] }
    else { a with directory := applyStored a.directory i r line false, run := [] }

/-- Every good record takes part in the sequence count (R148). -/
def countSequence (r : StoredRecord) (a : Replay) : Replay :=
  { a with afterHighest := max a.afterHighest (r.seq.toNat + 1) }

/-- One sector read from a line on: what is carried, the line at which reading stopped, and whether a damaged record
stopped it (R148, R149). Every record has at least 2 lines. -/
def replaySector (m : List Host.Cell) (i : Nat) : Nat → Nat → Replay → Replay × Nat × Bool
  | 0, line, a => ({ a with run := [] }, line, false)
  | n + 1, line, a =>
    match readRecord m i line with
    | .finished => ({ a with run := [] }, line, false)
    | .damaged => ({ a with run := [], damaged := min 65535 (a.damaged + 1) }, line, true)
    | .record r =>
      replaySector m i n (line + linesForLength r.length) (countSequence r (replayRecord i r line a))

/-- What mount makes of one ring sector: its fill; suspect when a damaged record stopped it and it is not an OPEN last
sector (R149). A flag that R147 set before the replay stands. For an OPEN last sector that R147 flagged for its duplicate
generation and that holds a damaged record, R151 says "with its suspect flag clear" and nothing ranks the two rules: the
model keeps R147's flag (DESIGN CHOICE, log 31). -/
def replayedSector (e : Sector) (fill : Nat) (hurt last : Bool) : Sector :=
  { e with
    fill := fill
    suspect := e.suspect || (hurt && !(last && decide (e.state = .opened))) }

/-- An OPEN sector is to be closed when it is not the last of the ring, or holds a damaged record (R151). -/
def mustClose (e : Sector) (hurt last : Bool) : Bool :=
  decide (e.state = .opened) && (!last || hurt)

/-- The whole ring in ring order: table, what is carried, sectors to be closed. -/
def replayRing (m : List Host.Cell) : List Nat → List Sector → Replay → List Sector × Replay × List Nat
  | [], t, a => (t, a, [])
  | i :: rest, t, a =>
    let res := replaySector (sectorCells m i) i 126 0 a
    let out := replayRing m rest (t.set i (replayedSector (sectorAt t i) res.2.1 res.2.2 rest.isEmpty)) res.1
    (out.1, out.2.1, if mustClose (sectorAt t i) res.2.2 rest.isEmpty then i :: out.2.2 else out.2.2)

/-- The live bytes of each sector from a directory (R151, R18). -/
def liveOf (dir : List DirEntry) (i : Nat) : Nat :=
  ((dir.filter fun e => decide (e.sector = i)).map DirEntry.size).sum

def setLive (t : List Sector) (dir : List DirEntry) : List Sector :=
  (List.range t.length).map fun i => { sectorAt t i with live := liveOf dir i }

/-! ### The outcome (R153, R154) -/

/-- The directory limit: the entries with the highest user keys are left out until 1,024 remain; system keys stay
(R154). -/
def limitDirectory (dir : List DirEntry) : List DirEntry :=
  (dir.filter fun e => !systemKey e.key).take (1024 - (dir.filter fun e => systemKey e.key).length)
    ++ dir.filter fun e => systemKey e.key

/-- The store mode after mount (TABLE 73). -/
def State.modeAfterMount (s : State) (leftOut : Bool) : StoreMode :=
  if s.ring = [] then .blank
  else if s.readOnlyTest = true ∨ leftOut = true then .readOnly
  else .ready

/-- The stored value of a system key, if it exists (R32). -/
def State.storedValue (s : State) (k : Key) : Option (List Byte) :=
  (s.entry k).map s.valueAt

/-- The rights in force that a directory gives: the stored value when it is valid and grants ADMIN, else the default
(R32, R154). -/
def State.mountedRights (s : State) : PerPort Rights :=
  match (s.storedValue rightsKey).bind parseRights with
  | some r => if grantsAdmin r then r else defaultRights
  | none => defaultRights

/-- The three values in force, from the directory (R32, R154). -/
def State.takeInForce (s : State) : State :=
  { s with
    rightsInForce := s.mountedRights
    freezeLine := ((s.storedValue freezeKey).bind parseFreezeLine).getD 0x0F00
    defaultPeriod := ((s.storedValue periodKey).bind parsePeriod).getD 500 }

/-- The reclaim unit after mount (R153). -/
def State.mountedReclaim (s : State) : Reclaim :=
  match s.tail? with
  | some i => if (s.sector i).state = .reclaiming then { Reclaim.reset with state := .copying } else .reset
  | none => .reset

/-- The directory of a mount that ends, with the live bytes it gives. -/
def State.installDirectory (s : State) (dir : List DirEntry) : State :=
  { s with directory := limitDirectory dir, sectors := setLive s.sectors (limitDirectory dir) }

/-- Mount ends: directory limit, reclaim unit, store mode, values in force; the engine is IDLE (R153, R154). -/
def State.mountEnd (s : State) (m : MountWork) : State :=
  let t := s.installDirectory m.working
  ({ t with
     work := .idle
     reclaim := t.mountedReclaim
     mode := t.modeAfterMount (decide (1024 < m.working.length)) }).takeInForce

/-- The next DIRTY sector, by ascending index (R152). -/
def State.nextDirty (s : State) : Option Nat :=
  (List.range s.sectors.length).find? fun i => decide ((s.sector i).state = .dirty)

/-- The settling phase goes on; with nothing left to write, mount ends (R145). -/
def State.mountContinue (s : State) (m : MountWork) : State :=
  if m.toClose = [] ∧ s.nextDirty = none then s.mountEnd m
  else { s with work := .mount { m with phase := .waiting } }

/-- The next sequence: one more than the highest good record's, or the highest sequence mark; 1 when neither is found
(R10, R148). -/
def mountedNextSeq (m : List Host.Cell) (afterHighest : Nat) : SeqNo :=
  BitVec.ofNat 48 (max 1 (max afterHighest (highestField m 8 6)))

/-- The reading phase (R145 to R151), from the state in reset; a free value is drawn for a RETIRED sector's count. -/
def State.mountRead (s : State) : State :=
  let t := builtTable s.flash s.draws
  let out := replayRing s.flash (ringOf t) t ⟨[], [], 0, 0⟩
  ({ s with
     sectors := setLive out.1 out.2.1.directory
     nextSeq := mountedNextSeq s.flash out.2.1.afterHighest
     nextGen := BitVec.ofNat 32 (highestField s.flash 4 4 + 1)
     damaged := out.2.1.damaged
     mode := .mounting
     draws := s.draws + 1 }).mountContinue ⟨.waiting, out.2.2, out.2.1.directory, 0⟩

/-! ### The settling phase (R151, R152) -/

/-- The CLOSED marker of the next sector to be closed is programmed (R151). -/
def State.mountCloseNext (s : State) (m : MountWork) : State :=
  match m.toClose with
  | [] => s
  | i :: rest =>
    ({ s with work := .mount { m with phase := .closing i, toClose := rest } }).program i 2 closedMarker

/-- MOUNT_CLOSE (R151): in the settling phase with the supply NORMAL. -/
def execMountClose (s : State) : Host.Outcome State Fault Refusal :=
  match s.work with
  | .mount m => if m.phase = .waiting ∧ s.supply = .normal then .next (s.mountCloseNext m) else .next s
  | _ => .next s

/-- The erase of the next DIRTY sector is started, once no close is left (R152). -/
def State.dirtyEraseNext (s : State) (m : MountWork) : State :=
  match m.toClose, s.nextDirty with
  | [], some i => ({ s with work := .mount { m with phase := .erasing i } }).erase i
  | _, _ => s

/-- DIRTY_ERASE (R152): in the settling phase with the supply NORMAL. -/
def execDirtyErase (s : State) : Host.Outcome State Fault Refusal :=
  match s.work with
  | .mount m => if m.phase = .waiting ∧ s.supply = .normal then .next (s.dirtyEraseNext m) else .next s
  | _ => .next s

end Sys2Proof.Machine
end

