-- ==== Sys2Proof/Machine/Reclaiming.lean ====
section
/-! DEFINITION. The steps of reclaim (08_reclaim_and_wear.md R119 to R128, R131): mark, copy, erase, and how each ends. -/

namespace Sys2Proof.Machine

/-- The end of an erase step tests the compact target (R131): cleared when free meets it, when the tail's generation has
reached the limit, or when the tail is the OPEN head or the ring is empty. -/
def State.compactReached (s : State) : Bool :=
  match s.reclaim.target with
  | none => true
  | some t =>
    decide (t ≤ s.freeCount) ||
      (match s.tail? with
       | none => true
       | some i =>
         decide ((s.sector i).state = .opened) ||
           decide ((s.reclaim.limit.map BitVec.toNat).getD 0 ≤ (s.sector i).generationNat))

def State.testCompact (s : State) : State :=
  { s with reclaim := { s.reclaim with
      target := if s.compactReached then none else s.reclaim.target
      limit := if s.compactReached then none else s.reclaim.limit } }

/-! ### Mark (R120) -/

/-- The marker has been programmed, or was found programmed: the tail is RECLAIMING, to be copied or, with no live bytes,
erased. -/
def State.finishMark (s : State) (i : Nat) (ok : Bool) : State :=
  { s.setSector i { s.sector i with
      state := .reclaiming
      suspect := (s.sector i).suspect || !ok
      erasePending := (s.sector i).erasePending || decide ((s.sector i).live = 0) } with
    work := .idle
    reclaim := { s.reclaim with
      state := if (s.sector i).live = 0 then .erasing else .copying
      cursor := 0
      failures := 0 } }

/-- The mark step on a tail: line 3 is programmed, unless it is found programmed already (R120, R147). -/
def State.markTail (s : State) (i : Nat) : State :=
  if readLine s.flash i 3 = List.replicate 8 erasedByte then
    ({ s with work := .marking i, reclaim := { s.reclaim with state := .marking } }).program i 3 reclaimMarker
  else s.finishMark i true

/-- RECLAIM_MARK: a reclaim grant in IDLE with a CLOSED tail (R119, R120). -/
def execReclaimMark (s : State) : Host.Outcome State Fault Refusal :=
  match s.work, s.reclaim.state, s.tail? with
  | .reclaimGrant, .idle, some i =>
    if (s.sector i).state = .closed then .next (s.markTail i) else .next s
  | _, _, _ => .next s

/-! ### Copy (R121 to R124) -/

/-- The record at a payload line is live: a VALUE whose key's entry points at it (R121). -/
def State.liveAt (s : State) (i line : Nat) : Bool :=
  decide (readByte s.flash (payloadAddress i (8 * line)) = RecordKind.value.code) &&
    (match s.entry (keyOfBytes (readByte s.flash (payloadAddress i (8 * line + 2)))
        (readByte s.flash (payloadAddress i (8 * line + 3)))) with
     | some e => decide (e.sector = i) && decide (e.offset = 8 * line)
     | none => false)

/-- The first live record from a line on, below the fill (R121). Every record has at least 2 lines, so that no more records
than the fill counts lines have to be read. -/
def State.scanTail (s : State) (i : Nat) : Nat → Nat → Option Nat
  | 0, _ => none
  | n + 1, line =>
    if (s.sector i).fill ≤ line then none
    else if s.liveAt i line then some line
    else s.scanTail i n (line + linesForLength (readByte s.flash (payloadAddress i (8 * line + 4))).toNat)

/-- The copy of the record at a payload line: key, length and value as they stand, COPIED set, group 0 (R122). -/
def State.copyRecord (s : State) (i line : Nat) : RecordSpec :=
  ⟨.value, true,
    keyOfBytes (readByte s.flash (payloadAddress i (8 * line + 2))) (readByte s.flash (payloadAddress i (8 * line + 3))),
    readBytes s.flash (payloadAddress i (8 * line + 16)) (readByte s.flash (payloadAddress i (8 * line + 4))).toNat, 0, 0⟩

/-- The sequence of the record at a payload line (TABLE 85). -/
def State.sequenceAt (s : State) (i line : Nat) : SeqNo :=
  BitVec.ofNat 48 (beNat (readBytes s.flash (payloadAddress i (8 * line + 8)) 6))

/-- The copy step's placement: the copy carries its original's sequence (R122). -/
def State.copyPlacement (s : State) (i line : Nat) : Placement :=
  ⟨.copy line, [s.copyRecord i line], some (s.sequenceAt i line), 0, .closing 0⟩

/-- The cursor has moved past the records that are not live (R121). -/
def State.moveCursor (s : State) (line : Nat) : State :=
  { s with reclaim := { s.reclaim with cursor := line } }

/-- The copy of the live record found: placed when it fits in the head or free is at least 2; else the record stays and
the store becomes READ_ONLY (R123). -/
def State.copyFrom (s : State) (i line : Nat) : State :=
  if s.fitsHead (s.copyRecord i line).lines = true ∨ 2 ≤ s.freeCount then
    (s.moveCursor line).startPlacement (s.copyPlacement i line)
  else (s.moveCursor line).endReadOnly (s.copyPlacement i line)

/-- RECLAIM_COPY: a reclaim grant in COPYING whose tail holds live bytes (R119, R121). -/
def execReclaimCopy (s : State) : Host.Outcome State Fault Refusal :=
  match s.work, s.reclaim.state, s.tail? with
  | .reclaimGrant, .copying, some i =>
    if (s.sector i).live = 0 then .next s
    else
      match s.scanTail i (s.sector i).fill s.reclaim.cursor with
      | some line => .next (s.copyFrom i line)
      | none => .fault .noLiveRecord
  | _, _, _ => .next s

/-! ### Erase (R126 to R128) -/

/-- The step chosen is the erase: ERASING, or COPYING with no live bytes left (TABLE 63). -/
def State.eraseStep (s : State) (i : Nat) : Bool :=
  match s.reclaim.state with
  | .erasing => true
  | .copying => decide ((s.sector i).live = 0)
  | .idle => false
  | .marking => false

/-- The erase is decided: erase-pending set, the state ERASING (R126). -/
def State.decideErase (s : State) (i : Nat) : State :=
  { s.markPending i with reclaim := { s.reclaim with state := .erasing } }

/-- The erase begins; asked for in GUARD it is ABORTED at once, and the sector is left as it was (R126, R137). -/
def State.eraseTail (s : State) (i : Nat) : State :=
  if s.supply = .normal then
    ({ s.decideErase i with work := .tailErase i (s.sector i).suspect }).erase i
  else { s.decideErase i with work := .idle }

/-- RECLAIM_ERASE: a reclaim grant whose tail holds no live bytes (R119, R126). -/
def execReclaimErase (s : State) : Host.Outcome State Fault Refusal :=
  match s.work, s.tail? with
  | .reclaimGrant, some i => if s.eraseStep i then .next (s.eraseTail i) else .next s
  | _, _ => .next s

/-- The tail has left the ring: the unit is IDLE with cursor and count 0, and the target is tested (R127, R131). -/
def State.endTail (s : State) : State :=
  ({ s with work := .idle,
            reclaim := { s.reclaim with state := .idle, cursor := 0, failures := 0 } }).testCompact

/-- The RETIRED marker of the tail is programmed (R127, R128). -/
def State.retireTail (s : State) (i : Nat) : State :=
  ({ s with work := .tailRetire i }).program i 4 retiredMarker

/-- The tail's erase was verified (R127). -/
def State.tailErased (s : State) (i : Nat) (suspect : Bool) : State :=
  if (s.countErase i).dueRetirement i suspect then (s.countErase i).retireTail i
  else ((s.countErase i).freeSector i).endTail

/-- The tail's erase failed its verify: repeated once, then the sector is retired (R128). -/
def State.tailFailed (s : State) (i : Nat) : State :=
  if s.reclaim.failures = 0 then
    ({ s with work := .idle, reclaim := { s.reclaim with failures := 1 } }).testCompact
  else s.retireTail i

/-- The tail has been retired: the READ_ONLY entry test, then the end of the step (R128, R129). -/
def State.tailRetired (s : State) (i : Nat) (ok : Bool) : State :=
  (s.retireSector i ok).afterRetirement.endTail

end Sys2Proof.Machine
end

