-- ==== Sys2Proof/Machine/Outcomes.lean ====
section
/-! DEFINITION. The outcome of a flash operation and what the engine does next (09 R135 to R137; 08 R127, R128; 10 R151,
R152, R156, R157). -/

namespace Sys2Proof.Machine

/-- The outcomes of a sector erase (TABLE 67). -/
inductive EraseOutcome where
  | success | verifyFail | aborted
deriving DecidableEq, Repr

/-! ### Mount's writes -/

/-- A line program of mount has ended: a close (R151), or a RETIRED marker (R152). -/
def State.mountLine (s : State) (m : MountWork) (ok : Bool) : State :=
  match m.phase with
  | .closing i => (s.markClosed i ok).mountContinue m
  | .retiring i => (s.retireSector i ok).mountContinue { m with failures := 0 }
  | .held => s
  | .waiting => s
  | .erasing _ => s

/-- The RETIRED marker of a DIRTY sector is programmed (R152). -/
def State.mountRetire (s : State) (m : MountWork) (i : Nat) : State :=
  ({ s with work := .mount { m with phase := .retiring i } }).program i 4 retiredMarker

/-- A DIRTY sector's erase has ended (R152): verified, it joins the free pool or, at 60,000, is retired; failed, it is
erased once more and then retired; aborted, it waits. -/
def State.mountErased (s : State) (m : MountWork) (i : Nat) (o : EraseOutcome) : State :=
  match o with
  | .success =>
    if (s.countErase i).dueRetirement i false then (s.countErase i).mountRetire m i
    else ((s.countErase i).freeSector i).mountContinue { m with failures := 0 }
  | .verifyFail =>
    if m.failures = 0 then { s with work := .mount { m with phase := .waiting, failures := 1 } }
    else s.mountRetire m i
  | .aborted => { s with work := .mount { m with phase := .waiting } }

/-! ### FORMAT's erases -/

/-- A RETIRED marker of FORMAT has been programmed (R156, R157). -/
def State.formatLine (s : State) (f : FormatWork) (ok : Bool) : State :=
  match f.phase with
  | .firstRetire i => (s.retireSector i ok).wipeErase { f with failures := 0 }
  | .sweepRetire i => (s.retireSector i ok).sweepFrom f (i + 1)
  | .paused => s
  | .firstErase _ _ => s
  | .sweep _ => s
  | .sweepErase _ _ => s

/-- The RETIRED marker of a sector FORMAT retires is programmed. -/
def State.formatRetire (s : State) (f : FormatWork) (i : Nat) (phase : FormatPhase) : State :=
  ({ s with work := .format { f with phase := phase } }).program i 4 retiredMarker

/-- The case-3 erase has ended (R156): verified, the WIPE is placed or, suspect or worn, the sector is retired and the
next one taken; failed, once more and then retired; aborted, FORMAT is paused. -/
def State.firstErased (s : State) (f : FormatWork) (i : Nat) (suspect : Bool) (o : EraseOutcome) : State :=
  match o with
  | .success =>
    if (s.countErase i).dueRetirement i suspect then (s.countErase i).formatRetire f i (.firstRetire i)
    else ((s.countErase i).freeSector i).wipePlace { f with phase := .paused, failures := 0 }
  | .verifyFail =>
    if f.failures = 0 then s.wipeErase { f with failures := 1 } else s.formatRetire f i (.firstRetire i)
  | .aborted => { s with work := .format { f with phase := .paused } }

/-- An erase of R157 has ended: verified, the sector joins the free pool or is retired; failed, once more and then
retired; aborted, it is to be made again. -/
def State.sweepErased (s : State) (f : FormatWork) (i : Nat) (suspect : Bool) (o : EraseOutcome) : State :=
  match o with
  | .success =>
    if (s.countErase i).dueRetirement i suspect then (s.countErase i).formatRetire f i (.sweepRetire i)
    else ((s.countErase i).freeSector i).sweepFrom f (i + 1)
  | .verifyFail =>
    if f.failures = 0 then { s with work := .format { f with phase := .sweep i, failures := 1 } }
    else s.formatRetire f i (.sweepRetire i)
  | .aborted => { s with work := .format { f with phase := .sweep i } }

/-- An erase of FORMAT has ended. -/
def State.formatErased (s : State) (f : FormatWork) (o : EraseOutcome) : State :=
  match f.phase with
  | .firstErase i suspect => s.firstErased f i suspect o
  | .sweepErase i suspect => s.sweepErased f i suspect o
  | .paused => s
  | .firstRetire _ => s
  | .sweep _ => s
  | .sweepRetire _ => s

/-! ### The engine's response -/

/-- The tail's erase has ended (R126 to R128); an abort leaves it RECLAIMING with its erase pending. -/
def State.tailEraseEnded (s : State) (i : Nat) (suspect : Bool) (o : EraseOutcome) : State :=
  match o with
  | .success => s.tailErased i suspect
  | .verifyFail => s.tailFailed i
  | .aborted => { s with work := .idle }

/-- The engine receives the outcome of the line program it asked for (R135). -/
def State.lineEnded (s : State) (ok : Bool) : State :=
  match s.work with
  | .place pl => s.placementLine pl ok
  | .marking i => s.finishMark i ok
  | .tailRetire i => s.tailRetired i ok
  | .mount m => s.mountLine m ok
  | .format f => s.formatLine f ok
  | .idle => s
  | .request _ _ => s
  | .teardown _ => s
  | .reclaimGrant => s
  | .tailErase _ _ => s

/-- The engine receives the outcome of the erase it asked for (R136, R137). -/
def State.eraseEnded (s : State) (o : EraseOutcome) : State :=
  match s.work with
  | .tailErase i suspect => s.tailEraseEnded i suspect o
  | .format f => s.formatErased f o
  | .mount m =>
    (match m.phase with
     | .erasing i => s.mountErased m i o
     | .held => s
     | .waiting => s
     | .closing _ => s
     | .retiring _ => s)
  | .place _ => s
  | .marking _ => s
  | .tailRetire _ => s
  | .idle => s
  | .request _ _ => s
  | .teardown _ => s
  | .reclaimGrant => s

/-- The bits a program leaves: as asked on good flash, else as the command says (R135; log 9). -/
def LineResult.bits (data : List Byte) : LineResult → List Byte
  | .good => data
  | .faulty left => left.take 8

/-- The flash after a line program has ended, and the controller IDLE (R134, R135). -/
def State.lineProgrammed (s : State) (i l : Nat) (bits : List Byte) : State :=
  { s with controller := .idle, flash := programBytes s.flash (lineAddress i l) bits }

/-- LINE_PROGRAM_COMPLETE (R135): the line is left with its bits and read back; SUCCESS when it reads as asked. -/
def execLineProgramComplete (res : LineResult) (s : State) : Host.Outcome State Fault Refusal :=
  match s.controller with
  | .programming i l data =>
    let t := s.lineProgrammed i l (LineResult.bits data res)
    .next (t.lineEnded (decide (readLine t.flash i l = data)))
  | .idle => .next s
  | .erasing _ => .next s

/-- The flash after an erase has gone as far as `bits` says, and the controller IDLE (R134, R136). -/
def State.sectorErasedTo (s : State) (i : Nat) (bits : Nat → Byte) : State :=
  { s with controller := .idle, flash := eraseSector bits i s.flash }

/-- ERASE_COMPLETE (R136): SUCCESS when every byte of the sector reads 0xFF, else VERIFY_FAIL. -/
def execEraseComplete (stuck : List (Nat × Byte)) (s : State) : Host.Outcome State Fault Refusal :=
  match s.controller with
  | .erasing i =>
    let t := s.sectorErasedTo i (stuckBits stuck)
    .next (t.eraseEnded (if sectorErased t.flash i then .success else .verifyFail))
  | .idle => .next s
  | .programming _ _ _ => .next s

end Sys2Proof.Machine
end

