-- ==== Sys2Proof/Machine/Supply.lean ====
section
/-! DEFINITION. The supply monitor and the resets (09 R137 to R139, R144; 10 R145; 01 R6). -/

namespace Sys2Proof.Machine

/-! ### GUARD and NORMAL -/

/-- A GUARD arrival stops an erase in flight: its sector is left as far as the erase had gone, a free value, and the
engine receives ABORTED (R137; log 7). -/
def State.abortErase (s : State) : State :=
  match s.controller with
  | .erasing i =>
    ({ s.sectorErasedTo i (Config.erasedBits s.draws) with draws := s.draws + 1 }).eraseEnded .aborted
  | .idle => s
  | .programming _ _ _ => s

/-- GUARD_ARRIVAL (R138): in NORMAL the state becomes GUARD, and in GUARD there is no arrival. In reset the state is GUARD
already, and VDD no longer stands above 2.95 V (log 28). -/
def execGuardArrival (s : State) : Host.Outcome State Fault Refusal :=
  if s.inReset = true then .next { s with supplyHigh := false }
  else if s.supply = .guard then .next s
  else .next ({ s with supply := .guard, supplyHigh := false }).abortErase

/-- NORMAL_ARRIVAL (R138, R144): in GUARD the state becomes NORMAL for every later read. While RESET# is asserted the rise
is kept, to be taken on leaving reset; while the supply monitor holds the part, VDD is below 2.60 V and there is none
(R139). -/
def execNormalArrival (s : State) : Host.Outcome State Fault Refusal :=
  if s.powerHold = true then .next s
  else if s.resetPin = true then .next { s with supplyHigh := true }
  else .next { s with supply := .normal, supplyHigh := true }

/-! ### Resets -/

/-- Every block in its reset state; the flash keeps what it held, less what an operation cut off had done (R6, R134,
R139). The pins, VDD and the queue of commands are not the block's to reset; VDD below 2.55 V is not above 2.95 V. -/
def State.toReset (s : State) (pin hold : Bool) : State :=
  { State.reset with
    pending := s.pending
    resetPin := pin
    powerHold := hold
    supplyHigh := s.supplyHigh && !hold
    flash := cutFlash s.controller s.draws s.flash
    draws := s.draws + 1 }

/-- POWER_ON_RESET_HOLD (R139): from any state. -/
def execPowerOnResetHold (s : State) : Host.Outcome State Fault Refusal :=
  .next (s.toReset s.resetPin true)

/-- RESET_PIN_ASSERT (R6, R134): from any state. -/
def execResetPinAssert (s : State) : Host.Outcome State Fault Refusal :=
  .next (s.toReset true s.powerHold)

/-- A supply that stands above 2.95 V already: the part takes that rise as soon as it leaves reset (R138). -/
def State.takeRise (s : State) : State :=
  { s with supply := if s.supplyHigh = true then .normal else s.supply }

/-- Reset is left when neither RESET# nor the supply monitor holds the part: mount begins and reads the flash, which needs
no NORMAL supply (R139, R145), and a supply already above 2.95 V is taken as risen (R138). -/
def State.leaveReset (s : State) : State :=
  if s.inReset = true then s else s.mountRead.takeRise

/-- RESET_HOLD_RELEASE (R139): the hold ends; with RESET# asserted the part stays in reset. -/
def execResetHoldRelease (s : State) : Host.Outcome State Fault Refusal :=
  if s.powerHold = true then .next ({ s with powerHold := false }).leaveReset else .next s

/-- RESET_PIN_RELEASE (R145): RESET# is released; while the supply monitor holds the part it stays in reset. -/
def execResetPinRelease (s : State) : Host.Outcome State Fault Refusal :=
  if s.resetPin = true then .next ({ s with resetPin := false }).leaveReset else .next s

end Sys2Proof.Machine
end

