-- ==== Sys2Proof/Machine/Watches.lean ====
section
/-! DEFINITION. WATCH, UNWATCH and TAKE_NOTICE (06_watches_and_change_notices.md R92, R93, R98). -/

namespace Sys2Proof.Machine

/-- Steps 1 to 5 (R92). -/
def watchVerdict (s : State) (p : Port) (body : List Byte) : Except Rejection Key :=
  judge (checkSession s p) (parseKey body) fun k =>
    [checkNotBlank s, checkRight s p Rights.read, checkKey k]

/-- The watch list takes a key at its tail, once (R92). -/
def Session.addWatch (x : Session) (k : Key) : Session :=
  { x with watch := if x.watch.contains k then x.watch else x.watch ++ [k] }

/-- A key in the list is OK, even when the list is full; a full list replies LIMIT; else the key is appended (R92). -/
def watchAct (p : Port) (r : Request) (k : Key) (s : State) : State :=
  if (s.session p).watch.contains k = false ∧ 16 ≤ (s.session p).watch.length then s.answer p r.tag .limit []
  else (s.setSession p ((s.session p).addWatch k)).answer p r.tag .ok (beBytes 6 (s.version k).toNat)

def watchRequest (p : Port) (r : Request) (s : State) : State :=
  s.settle p r (watchVerdict s p r.body) (watchAct p r)

/-- WATCH (R92). -/
def execWatch (s : State) : Host.Outcome State Fault Refusal := serve 0x0B watchRequest s

/-- Steps 1, 2, 3 and 5 (R93). -/
def unwatchVerdict (s : State) (p : Port) (body : List Byte) : Except Rejection Key :=
  judge (checkSession s p) (parseKey body) fun k => [checkNotBlank s, checkKey k]

/-- The changed flag of a key's entry is cleared; an entry with neither flag is removed (R93). -/
def clearChanged (k : Key) : List Notice → List Notice
  | [] => []
  | n :: ns =>
    if n.key = k then
      (if n.lapsed then { n with changed := false, version := 0 } :: ns else ns)
    else n :: clearChanged k ns

/-- A watched key leaves the watch list, and its changed flag is cleared; a key not in the list changes nothing (R93). -/
def Session.dropWatch (x : Session) (k : Key) : Session :=
  { x with
    watch := x.watch.filter fun y => y != k
    notices := if x.watch.contains k then clearChanged k x.notices else x.notices }

def unwatchAct (p : Port) (r : Request) (k : Key) (s : State) : State :=
  (s.setSession p ((s.session p).dropWatch k)).answer p r.tag .ok
    [BitVec.ofNat 8 (flagBit ((s.session p).watch.contains k))]

def unwatchRequest (p : Port) (r : Request) (s : State) : State :=
  s.settle p r (unwatchVerdict s p r.body) (unwatchAct p r)

/-- UNWATCH (R93). -/
def execUnwatch (s : State) : Host.Outcome State Fault Refusal := serve 0x0C unwatchRequest s

/-- Steps 1 to 3 (R98). -/
def takeNoticeVerdict (s : State) (p : Port) (body : List Byte) : Except Rejection Unit :=
  judge (checkSession s p) (parseEmpty body) fun _ => [checkNotBlank s]

/-- Key, flags, version, entries remaining (TABLE 82). -/
def noticeBody (n : Notice) (remaining : Nat) : List Byte :=
  beBytes 2 n.key.toNat ++ [noticeFlags n] ++ beBytes 6 n.version.toNat ++ [BitVec.ofNat 8 remaining]

/-- The oldest entry is removed and returned, or the reply is EMPTY (R98). -/
def takeNoticeAct (p : Port) (r : Request) (s : State) : State :=
  match (s.session p).notices with
  | [] => s.answer p r.tag .empty []
  | n :: rest =>
    (s.setSession p { s.session p with notices := rest }).answer p r.tag .ok (noticeBody n rest.length)

def takeNoticeRequest (p : Port) (r : Request) (s : State) : State :=
  s.settle p r (takeNoticeVerdict s p r.body) fun _ => takeNoticeAct p r

/-- TAKE_NOTICE (R98). -/
def execTakeNotice (s : State) : Host.Outcome State Fault Refusal := serve 0x0D takeNoticeRequest s

end Sys2Proof.Machine
end

