-- ==== Sys2Proof/Machine/Dispatch.lean ====
section
/-! DEFINITION. The dispatch: one arm for each command. -/

namespace Sys2Proof.Machine

/-- The effect of a command on everything but the queue. -/
def exec (i : Instr) (s : State) : Host.Outcome State Fault Refusal :=
  match i with
  | .powerOnResetHold => Sys2Proof.Machine.execPowerOnResetHold s
  | .resetHoldRelease => Sys2Proof.Machine.execResetHoldRelease s
  | .resetPinAssert => Sys2Proof.Machine.execResetPinAssert s
  | .resetPinRelease => Sys2Proof.Machine.execResetPinRelease s
  | .mountClose => Sys2Proof.Machine.execMountClose s
  | .dirtyErase => Sys2Proof.Machine.execDirtyErase s
  | .submit frame input partByte => Sys2Proof.Machine.execSubmit frame input partByte s
  | .fetch frame input => Sys2Proof.Machine.execFetch frame input s
  | .peek frame input => Sys2Proof.Machine.execPeek frame input s
  | .portReset frame input partByte => Sys2Proof.Machine.execPortReset frame input partByte s
  | .unknownKind frame kind input => Sys2Proof.Machine.execUnknownKind frame kind input s
  | .frameTimeout frame bytes => Sys2Proof.Machine.execFrameTimeout frame bytes s
  | .frameReleasedBeforeKind frame => Sys2Proof.Machine.execFrameReleasedBeforeKind frame s
  | .arbiterChoice => Sys2Proof.Machine.execArbiterChoice s
  | .sessionOpen => Sys2Proof.Machine.execOpen s
  | .sessionClose => Sys2Proof.Machine.execClose s
  | .read => Sys2Proof.Machine.execRead s
  | .readMeta => Sys2Proof.Machine.execReadMeta s
  | .list => Sys2Proof.Machine.execList s
  | .write => Sys2Proof.Machine.execWrite s
  | .delete => Sys2Proof.Machine.execDelete s
  | .claim => Sys2Proof.Machine.execClaim s
  | .renew => Sys2Proof.Machine.execRenew s
  | .release => Sys2Proof.Machine.execRelease s
  | .watch => Sys2Proof.Machine.execWatch s
  | .unwatch => Sys2Proof.Machine.execUnwatch s
  | .takeNotice => Sys2Proof.Machine.execTakeNotice s
  | .groupBegin => Sys2Proof.Machine.execGroupBegin s
  | .groupPut => Sys2Proof.Machine.execGroupPut s
  | .groupCommit => Sys2Proof.Machine.execGroupCommit s
  | .groupAbandon => Sys2Proof.Machine.execGroupAbandon s
  | .storeStatus => Sys2Proof.Machine.execStoreStatus s
  | .compact => Sys2Proof.Machine.execCompact s
  | .format => Sys2Proof.Machine.execFormat s
  | .unknownRequestCode => Sys2Proof.Machine.execUnknownRequestCode s
  | .teardown => Sys2Proof.Machine.execTeardown s
  | .reclaimMark => Sys2Proof.Machine.execReclaimMark s
  | .reclaimCopy => Sys2Proof.Machine.execReclaimCopy s
  | .reclaimErase => Sys2Proof.Machine.execReclaimErase s
  | .formatErase => Sys2Proof.Machine.execFormatErase s
  | .wipeRePlacement => Sys2Proof.Machine.execWipeRePlacement s
  | .lineProgramComplete result => Sys2Proof.Machine.execLineProgramComplete result s
  | .eraseComplete stuck => Sys2Proof.Machine.execEraseComplete stuck s
  | .leaseClockAdvance => Sys2Proof.Machine.execLeaseClockAdvance s
  | .leaseExpiry key => Sys2Proof.Machine.execLeaseExpiry key s
  | .waitExpiry port => Sys2Proof.Machine.execWaitExpiry port s
  | .guardArrival => Sys2Proof.Machine.execGuardArrival s
  | .normalArrival => Sys2Proof.Machine.execNormalArrival s

end Sys2Proof.Machine
end

