-- ==== Sys2Proof/WellFormed.lean ====
section
/-! DEFINITION. Which command terms stand for an event that can be: the operands' own ranges. The machine itself is
total, so an ill-formed command has a next state too; the checks say which operands a sender may give. -/

namespace Sys2Proof

/-- A frame's length is bounded by its time: at 10 MHz for 20 ms no more than 25,000 whole bytes are clocked
(R163, TABLE 89). -/
def maxFrameBytes : Nat := 25000

/-- A line holds 8 bytes (R1). -/
def LineResult.wellFormed : LineResult → Bool
  | .good => true
  | .faulty left => left.length == 8

/-- The kind byte is none of the four kinds (R175). -/
def unknownKindByte (kind : Byte) : Bool :=
  !(kind == 0x01 || kind == 0x02 || kind == 0x03 || kind == 0x04)

/-- The check of one command. -/
def Instr.wellFormed : Instr → Bool
  | .submit _ input _ => input.length < maxFrameBytes
  | .fetch _ input => input.length < maxFrameBytes
  | .peek _ input => input.length < maxFrameBytes
  | .portReset _ input _ => input.length < maxFrameBytes
  | .unknownKind _ kind input => unknownKindByte kind && input.length < maxFrameBytes
  | .frameTimeout _ bytes => bytes.length ≤ maxFrameBytes
  | .lineProgramComplete result => result.wellFormed
  | .eraseComplete stuck => stuck.all fun c => c.1 < 2048
  | .powerOnResetHold | .resetHoldRelease | .resetPinAssert | .resetPinRelease | .mountClose | .dirtyErase
  | .frameReleasedBeforeKind _ | .arbiterChoice | .sessionOpen | .sessionClose | .read | .readMeta | .list | .write
  | .delete | .claim | .renew | .release | .watch | .unwatch | .takeNotice | .groupBegin | .groupPut | .groupCommit
  | .groupAbandon | .storeStatus | .compact | .format | .unknownRequestCode | .teardown | .reclaimMark | .reclaimCopy
  | .reclaimErase | .formatErase | .wipeRePlacement | .leaseClockAdvance | .leaseExpiry _ | .waitExpiry _ | .guardArrival
  | .normalArrival => true

end Sys2Proof
end

