-- ==== Sys2Proof/Safety.lean ====
section
/-! DEFINITION. What a sound state of the AV320 is: the invariants that the statements speak of. Each is a property of one
state, and each rules out states that no run reaches. -/

namespace Sys2Proof.Machine

/-! ### The flash array (R1) -/

/-- The flash is in its canonical form. -/
def State.flashCanonical (s : State) : Prop := Memory.wf s.flash = true

/-! ### The key directory (R22, R23) -/

/-- Ascending key order, at most one entry for any key, valid keys only. -/
def directoryOrdered (d : List DirEntry) : Prop :=
  d.Pairwise (fun x y => x.key.toNat < y.key.toNat) ∧ ∀ e ∈ d, keyValid e.key = true

/-- The placement's first record is what enters the directory. -/
def Goal.entersFirst : Goal → Bool
  | .write _ _ => true
  | .copy _ => true
  | .delete _ _ => false
  | .commit _ _ => false
  | .wipe _ _ => false

/-- A record that will enter the directory names a valid key. -/
def Placement.keysSound (pl : Placement) : Prop :=
  ∀ r ∈ pl.records, pl.goal.entersFirst = true ∨ r.kind = .value → keyValid r.key = true

/-- What the engine has in hand for the directory is sound. -/
def Work.directorySound : Work → Prop
  | .place pl => pl.keysSound
  | .mount m => directoryOrdered m.working
  | _ => True

/-- Every staged member names a valid key (R102). -/
def Session.membersSound (x : Session) : Prop := ∀ m ∈ x.members, keyValid m.key = true

/-- The directory is an ordered map of valid keys, and so it will stay. -/
def State.directorySound (s : State) : Prop :=
  directoryOrdered s.directory ∧ s.work.directorySound ∧ ∀ p, (s.session p).membersSound

/-! ### Leases, waiters and sessions (R72, R170) -/

/-- The ports of all waiter records. -/
def State.waiterPorts (s : State) : List Port :=
  (s.leases.flatMap Lease.waiters).map Waiter.port

/-- One lease entry agrees with the sessions: the holder's is OPEN, no waiter is the holder, and each waiter's session
carries the marker of its parked claim. -/
def State.leaseSound (s : State) (e : Lease) : Prop :=
  (s.session e.holder).isOpen = true ∧
    ∀ w ∈ e.waiters, w.port ≠ e.holder ∧ (s.session w.port).parked = some (e.key, w.tag)

/-- A parked-claim marker stands for a waiter record. -/
def State.markerSound (s : State) (p : Port) : Prop :=
  ∀ mark, (s.session p).parked = some mark →
    ∃ e ∈ s.leases, e.key = mark.1 ∧ ∃ w ∈ e.waiters, w.port = p ∧ w.tag = mark.2

/-- A CLOSED session has no rights, empty lists, no group and no parked claim (R170). -/
def Session.tidy (x : Session) : Prop := x.isOpen = false → x = Session.closed

/-- The session for which FORMAT runs is OPEN (R155, R159). -/
def Work.formatPort : Work → Option Port
  | .place pl =>
    match pl.goal with
    | .wipe p _ => some p
    | _ => none
  | .format f => some f.port
  | _ => none

/-- The lease table and the sessions agree; the table is in ascending key order (DESIGN CHOICE, log 23). -/
def State.leasesSound (s : State) : Prop :=
  s.leases.Pairwise (fun x y => x.key.toNat < y.key.toNat) ∧ s.waiterPorts.Nodup ∧ (∀ e ∈ s.leases, s.leaseSound e) ∧
    (∀ p, s.markerSound p) ∧ (∀ p, (s.session p).tidy) ∧ ∀ p, s.work.formatPort = some p → (s.session p).isOpen = true

/-! ### The claim budget (R74) -/

/-- No port ties up more than four places. -/
def State.claimsWithinBudget (s : State) : Prop := ∀ p, s.claimCount p ≤ 4

/-! ### Lease-clock distances (R73) -/

/-- A clock value lies from 1 to 6,001 granules ahead of the lease clock. -/
def State.isAhead (s : State) (expiry : ClockValue) : Prop :=
  1 ≤ (expiry - s.leaseClock).toNat ∧ (expiry - s.leaseClock).toNat ≤ 6001

/-- Every stored expiry lies ahead of the clock, and every period that may be used is at most 6,000. -/
def State.leaseTimesSound (s : State) : Prop :=
  1 ≤ s.defaultPeriod ∧ s.defaultPeriod ≤ 6000 ∧
    ∀ e ∈ s.leases, e.period ≤ 6000 ∧ s.isAhead e.expiry ∧
      ∀ w ∈ e.waiters, w.period ≤ 6000 ∧ s.isAhead w.waitExpiry

/-! ### Credits and tags (R162) -/

/-- The port and tag of the request whose work the engine has in hand. -/
def Work.owner : Work → Option (Port × Byte)
  | .request p r => some (p, r.tag)
  | .place pl =>
    match pl.goal with
    | .write p tag => some (p, tag)
    | .delete p tag => some (p, tag)
    | .commit p tag => some (p, tag)
    | .copy _ => none
    | .wipe p tag => some (p, tag)
  | .format f => some (f.port, f.tag)
  | _ => none

/-- Each port uses at most four credits, under tags that are pairwise distinct and never 0xFF, and the request the engine
serves is its port's request in service. -/
def State.creditsSound (s : State) : Prop :=
  (∀ p, s.creditsInUse p ≤ 4) ∧ (∀ p, (s.tagsInUse p).Nodup) ∧ (∀ p, (0xFF : Byte) ∉ s.tagsInUse p) ∧
    ∀ p tag, s.work.owner = some (p, tag) → (s.port p).inService = some tag

/-! ### Values in force (R32 to R37) -/

/-- A WRITE of the rights key in hand leaves a port with ADMIN. -/
def Placement.keepsAdmin (pl : Placement) : Prop :=
  ∀ r ∈ pl.records, r.key = rightsKey → ∀ v, parseRights r.value = some v → grantsAdmin v = true

/-- The rights in force grant ADMIN to a port, and so will those being written. -/
def State.adminSound (s : State) : Prop :=
  grantsAdmin s.rightsInForce = true ∧
    ∀ pl, s.work = .place pl → (∃ p tag, pl.goal = .write p tag) → pl.keepsAdmin

/-- The freeze line and the default period in force are in the ranges of TABLE 23. -/
def State.valuesInRange (s : State) : Prop :=
  1 ≤ s.freezeLine.toNat ∧ s.freezeLine.toNat ≤ 0x0F00 ∧ 1 ≤ s.defaultPeriod ∧ s.defaultPeriod ≤ 6000

/-- A WRITE of the freeze line in hand does not raise it. -/
def State.freezeSound (s : State) : Prop :=
  ∀ pl, s.work = .place pl → (∃ p tag, pl.goal = .write p tag) →
    ∀ r ∈ pl.records, r.key = freezeKey → beNat r.value ≤ s.freezeLine.toNat

/-! ### The flash controller and the engine (R134) -/

/-- The operation that the engine waits for: none, a line program or an erase of a sector. -/
inductive Awaited where
  | nothing
  | line (sector : Nat)
  | erase (sector : Nat)
deriving DecidableEq, Repr

def PlacePhase.sector : PlacePhase → Nat
  | .closing i => i
  | .line0 i => i
  | .line1 i => i
  | .retiring i => i
  | .body i _ _ _ => i
  | .closingFailed i => i

def MountPhase.awaited : MountPhase → Awaited
  | .held => .nothing
  | .waiting => .nothing
  | .closing i => .line i
  | .erasing i => .erase i
  | .retiring i => .line i

def FormatPhase.awaited : FormatPhase → Awaited
  | .paused => .nothing
  | .firstErase i _ => .erase i
  | .firstRetire i => .line i
  | .sweep _ => .nothing
  | .sweepErase i _ => .erase i
  | .sweepRetire i => .line i

/-- What the work in hand waits for. -/
def Work.awaited : Work → Awaited
  | .idle => .nothing
  | .request _ _ => .nothing
  | .teardown _ => .nothing
  | .place pl => .line pl.phase.sector
  | .reclaimGrant => .nothing
  | .marking i => .line i
  | .tailErase i _ => .erase i
  | .tailRetire i => .line i
  | .mount m => m.phase.awaited
  | .format f => f.phase.awaited

/-- What the controller has in hand. -/
def FlashController.awaited : FlashController → Awaited
  | .idle => .nothing
  | .programming i _ _ => .line i
  | .erasing i => .erase i

/-- The controller runs the operation that the engine waits for, and no other; in reset the engine waits for none. -/
def State.controllerSound (s : State) : Prop :=
  s.controller.awaited = s.work.awaited ∧ (s.inReset = true → s.work = .mount .held)

/-! ### The limits of the lists (R23, R91, R94, R102) -/

/-- The keys of a directory once the record of a group's member is applied (R112). -/
def applyKey (keys : List Key) (r : RecordSpec) : List Key :=
  match r.kind with
  | .value => insertKeyed id r.key keys
  | .tombstone => removeKeyed id r.key keys
  | .commit => keys
  | .wipe => keys

/-- The keys of the directory that a placement leaves once its last record is verified, from those there are. -/
def Placement.keysAfter (pl : Placement) (keys : List Key) : List Key :=
  match pl.goal with
  | .write _ _ => pl.records.head?.elim keys fun r => insertKeyed id r.key keys
  | .copy _ => pl.records.head?.elim keys fun r => insertKeyed id r.key keys
  | .commit _ _ => pl.records.foldl applyKey keys
  | .delete _ _ => keys
  | .wipe _ _ => keys

/-- The work in hand leaves a directory of at most 1,024 entries. -/
def State.roomSound (s : State) : Prop :=
  ∀ pl, s.work = .place pl → (pl.keysAfter (s.directory.map DirEntry.key)).length ≤ 1024

/-- Every notice carries a flag, and one with the changed flag is of a watched key; no key has two (R94, R95). -/
def Session.noticesSound (x : Session) : Prop :=
  (x.notices.map Notice.key).Nodup ∧
    ∀ n ∈ x.notices, (n.changed = true ∧ n.key ∈ x.watch) ∨ (n.changed = false ∧ n.lapsed = true)

/-- The staging area is within its limits, its keys distinct, and empty while no group is open (R102). -/
def Session.stagingSound (x : Session) : Prop :=
  (x.members.map Member.key).Nodup ∧ x.members.length ≤ 6 ∧ stagedBytes x.members ≤ 768 ∧
    (x.groupOpen = false → x.members = [])

/-- The directory holds at most 1,024 entries and every watch list at most 16 keys; notice lists and staging areas are
sound. -/
def State.limitsSound (s : State) : Prop :=
  s.directory.length ≤ 1024 ∧ s.roomSound ∧
    ∀ p, (s.session p).watch.Nodup ∧ (s.session p).watch.length ≤ 16 ∧ (s.session p).noticesSound ∧
      (s.session p).stagingSound

/-! ### The head (R8, R11, R12) -/

/-- The sectors in state OPEN. -/
def State.openSectors (s : State) : List Nat :=
  (List.range s.sectors.length).filter fun i => decide ((s.sector i).state = .opened)

/-- While records are placed, the head is the sector in hand, and there is none while one is opened. -/
def State.placingSound (s : State) : PlacePhase → Prop
  | .closing h => s.openSectors = [h]
  | .line0 i => s.openSectors = [] ∧ i < s.sectors.length
  | .line1 i => s.openSectors = [] ∧ i < s.sectors.length
  | .retiring _ => s.openSectors = []
  | .body h _ _ _ => s.openSectors = [h]
  | .closingFailed h => s.openSectors = [h]

/-- At most one sector is OPEN, but for those that mount still has to close (R8, R151). -/
def State.headSound (s : State) : Prop :=
  match s.work with
  | .place pl => s.placingSound pl.phase
  | .mount m =>
    (s.openSectors.filter fun i => !m.toClose.contains i && !decide (m.phase = .closing i)).length ≤ 1
  | _ => s.openSectors.length ≤ 1

/-! ### The ring, the live bytes and the reclaim unit (R8, R9, R18, R118) -/

/-- The work in hand will set the directory and the live bytes anew: mount, or FORMAT. -/
def Work.setsStoreAnew : Work → Bool
  | .mount _ => true
  | .format _ => true
  | .place pl =>
    (match pl.goal with
     | .wipe _ _ => true
     | _ => false)
  | _ => false

/-- Every ring sector's generation is below the next generation (R9). -/
def State.generationsSound (s : State) : Prop :=
  ∀ i, (s.sector i).inRing = true → (s.sector i).generationNat < s.nextGen.toNat

/-- The live bytes of each sector are the sizes of the records that the directory points at in it (R18), all of them in
the ring (R23). -/
def State.liveExact (s : State) : Prop :=
  (∀ i, (s.sector i).live = liveOf s.directory i) ∧ ∀ e ∈ s.directory, (s.sector e.sector).inRing = true

/-- COPYING and ERASING are of a RECLAIMING tail, and ERASING of one with no live bytes (R118, TABLE 63). -/
def State.reclaimSound (s : State) : Prop :=
  match s.reclaim.state with
  | .copying => ∃ i, s.tail? = some i ∧ (s.sector i).state = .reclaiming
  | .erasing => ∃ i, s.tail? = some i ∧ (s.sector i).state = .reclaiming ∧ (s.sector i).live = 0
  | .idle => True
  | .marking => True

/-- The sector being opened is ERASED still, and its generation is above all of the ring's (R8, R9). -/
def State.openingSound (s : State) (i : Nat) : Prop :=
  (s.sector i).state = .erased ∧ (s.sector i).generationNat < s.nextGen.toNat ∧
    ∀ j, (s.sector j).inRing = true → (s.sector j).generationNat < (s.sector i).generationNat

/-- What the work in hand has to do with the ring. -/
def State.workRingSound (s : State) : Prop :=
  match s.work with
  | .place pl =>
    (∀ line, pl.goal = .copy line → s.reclaim.state = .copying) ∧
      (match pl.phase with
       | .line0 i => s.openingSound i
       | .line1 i => s.openingSound i
       | .retiring i => (s.sector i).state = .erased
       | _ => True)
  | .mount m =>
    (∀ e ∈ m.working, (s.sector e.sector).inRing = true) ∧
      (match m.phase with
       | .erasing i => (s.sector i).inRing = false
       | .retiring i => (s.sector i).inRing = false
       | _ => True)
  | .marking i => s.tail? = some i ∧ (s.sector i).state = .closed
  | .tailErase i _ => (s.sector i).live = 0
  | .tailRetire i => (s.sector i).live = 0
  | _ => True

/-- The RETIRED marker of the tail is being programmed: the tail is about to leave the ring. -/
def Work.retiresTail : Work → Bool
  | .tailRetire _ => true
  | _ => false

/-- The ring, the live bytes and the reclaim unit agree; mount and FORMAT bring the live bytes and the reclaim unit to
agree at their end, FORMAT in the mode FORMATTING throughout (R155). -/
def State.ringSound (s : State) : Prop :=
  (s.engineState = .format → s.mode = .formatting) ∧ s.generationsSound ∧ s.workRingSound ∧
    (s.work.setsStoreAnew = false → s.liveExact) ∧
    (s.work.setsStoreAnew = false → s.work.retiresTail = false → s.reclaimSound)

/-! ### Words of the statements -/

/-- `t` holds what the lease table of `s` becomes when every lease of port `p` ends as a release and its parked claim is
removed (R79, R87): a lease with a waiter passes to the oldest, who is answered OK GRANTED under the tag of its CLAIM; the
other ports' leases stand, without a waiter record of `p`; a port that is granted no lease keeps its session and its frame
unit. -/
def State.releasesOf (s t : State) (p : Port) : Prop :=
  (∀ k, s.leaseOf k = none → t.leaseOf k = none) ∧
  (∀ e ∈ s.leases, e.holder ≠ p →
    t.leaseOf e.key = some { e with waiters := e.waiters.filter fun w => decide (w.port ≠ p) }) ∧
  (∀ e ∈ s.leases, e.holder = p → e.waiters = [] → t.leaseOf e.key = none) ∧
  (∀ e ∈ s.leases, e.holder = p → ∀ w rest, e.waiters = w :: rest →
    let used := if w.period = 0 then s.defaultPeriod else w.period
    t.leaseOf e.key = some ⟨e.key, w.port, used, s.leaseClock + BitVec.ofNat 32 (used + 1), rest⟩ ∧
    t.session w.port = { s.session w.port with parked := none } ∧
    t.port w.port = { s.port w.port with
      replies := if (s.port w.port).state = .resetting then (s.port w.port).replies
                 else (s.port w.port).replies ++ [⟨w.tag, .ok, 1 :: beBytes 2 used⟩] }) ∧
  ∀ q, q ≠ p → (∀ e ∈ s.leases, e.holder = p → e.waiters.head?.map Waiter.port ≠ some q) →
    t.session q = s.session q ∧ t.port q = s.port q

/-- The engine has been granted request `r` of port `p`, and its code is `code` (R50). -/
def State.granted (s : State) (p : Port) (r : Request) (code : Byte) : Prop :=
  s.work = .request p r ∧ r.code = code

/-- Every block of the part stands in its reset state (R6, R23, R41, R47, R72, R118, R134, R138, R161, R170): the values
that the spec gives; and no frame runs (log 1). -/
def State.standsReset (t : State) : Prop :=
  t.supply = .guard ∧ t.mode = .mounting ∧ t.engineState = .mount ∧ t.pointer = .A ∧ t.lastGrant = .none ∧
    t.controller = .idle ∧ t.sectors = [] ∧ t.directory = [] ∧ t.reclaim = ⟨.idle, 0, 0, none, none⟩ ∧ t.leases = [] ∧
    t.leaseClock = 0 ∧
    ∀ p, (t.port p).state = .normal ∧ (t.port p).queue = [] ∧ (t.port p).inService = none ∧ (t.port p).replies = [] ∧
      (t.port p).headSent = false ∧ (t.port p).teardown = .none ∧ (t.port p).lastResult = .none ∧
      (t.port p).replyEnable = true ∧ (t.port p).noticeEnable = false ∧ (t.port p).selected = false ∧
      t.session p = ⟨false, ⟨false, false, false, false⟩, [], [], false, [], none⟩

/-- The command lets the frame of a port act, or resets the part (R163, R168; log 1). -/
def endsFrame (p : Port) : Instr → Bool
  | .submit e _ _ => decide (e = ⟨p, .acts⟩)
  | .fetch e _ => decide (e = ⟨p, .acts⟩)
  | .peek e _ => decide (e = ⟨p, .acts⟩)
  | .portReset e _ _ => decide (e = ⟨p, .acts⟩)
  | .unknownKind e _ _ => decide (e = ⟨p, .acts⟩)
  | .frameTimeout e _ => decide (e = ⟨p, .acts⟩)
  | .frameReleasedBeforeKind e => decide (e = ⟨p, .acts⟩)
  | .resetPinAssert => true
  | .powerOnResetHold => true
  | _ => false

/-- Reset is left from `s`, and `t` is what the release of the last hold answers (R139, R145). -/
def State.leavesResetTo (s t : State) : Prop :=
  (s.powerHold = true ∧ s.resetPin = false ∧ exec .resetHoldRelease s = .next t) ∨
    (s.powerHold = false ∧ s.resetPin = true ∧ exec .resetPinRelease s = .next t)

/-- Reading the good records of sector `i` from payload offset 0, one after another, comes to this line (R148). -/
inductive ReadsTo (m : List Host.Cell) (i : Nat) : Nat → Prop where
  | start : ReadsTo m i 0
  | past (line : Nat) (r : StoredRecord) : ReadsTo m i line → readRecord m i line = .record r →
    ReadsTo m i (line + (2 + (r.length + 7) / 8))

/-- The record at a payload line of sector `i` is live: a VALUE record, and the directory entry for its key points at this
sector and this payload offset (R121). -/
def State.recordLive (s : State) (i line : Nat) : Prop :=
  readByte s.flash (2048 * i + 40 + 8 * line) = 0x01 ∧
    ∃ e, s.entry (keyOfBytes (readByte s.flash (2048 * i + 40 + 8 * line + 2))
        (readByte s.flash (2048 * i + 40 + 8 * line + 3))) = some e ∧
      e.sector = i ∧ e.offset = 8 * line

/-- From line `first` of sector `i`, every record below the fill and before the line reached is not live, and is passed over by
its line count (R121). -/
inductive State.PassesOver (s : State) (i first : Nat) : Nat → Prop where
  | start : State.PassesOver s i first first
  | past (line : Nat) : State.PassesOver s i first line → line < (s.sector i).fill → ¬s.recordLive i line →
    State.PassesOver s i first
      (line + (2 + ((readByte s.flash (2048 * i + 40 + 8 * line + 4)).toNat + 7) / 8))

/-- `t` holds the compact target and limit of `s` as the end of an erase step leaves them (R131): both cleared when free meets
the target, when the tail's generation has reached the limit, or when the tail is the OPEN head or the ring is empty. -/
def State.compactTested (s t : State) : Prop :=
  (s.reclaim.target = none → t.reclaim.target = none) ∧
    ∀ n g, s.reclaim.target = some n → s.reclaim.limit = some g →
      let reached := n ≤ t.freeCount ∨ t.tail? = none ∨
        ∃ i, t.tail? = some i ∧ ((t.sector i).state = .opened ∨ g.toNat ≤ (t.sector i).generationNat)
      (reached → t.reclaim.target = none ∧ t.reclaim.limit = none) ∧
        (¬reached → t.reclaim.target = some n ∧ t.reclaim.limit = some g)

/-- A byte of line `l` of sector `i` (R1). -/
def inLine (i l a : Nat) : Prop := 2048 * i + 8 * l ≤ a ∧ a < 2048 * i + 8 * l + 8

/-- A byte of sector `i` (R1). -/
def inSector (i a : Nat) : Prop := 2048 * i ≤ a ∧ a < 2048 * i + 2048

/-- An erase of sector `i` that went some way from `m` to `m'`: nothing outside the sector changed, bits turned only to
one, and no payload byte changed before every header byte read 0xFF (R136). -/
def erasedSome (m m' : List Host.Cell) (i : Nat) : Prop :=
  (∀ a, ¬inSector i a → readByte m' a = readByte m a) ∧
    (∀ a, readByte m a ||| readByte m' a = readByte m' a) ∧
    ((∃ a, 2048 * i ≤ a ∧ a < 2048 * i + 40 ∧ readByte m' a ≠ 0xFF) →
      ∀ a, 2048 * i + 40 ≤ a → readByte m' a = readByte m a)

end Sys2Proof.Machine
end

