-- ==== Sys2Proof/Certificates/Slice0/Obligations.lean ====
section
/-! DEFINITION. The statements for the provers. Every effect is stated for every state and operands that meet the
hypotheses; `exec` then answers a next state, and an equation with a record update names all that changes. -/

open Sys2Proof Sys2Proof.Machine

/-! ### Steps and replies -/

/-- A step takes the command at the front of the queue and runs it on the state with the queue's rest. On an empty queue
the block idles (the model's choice, log 3). -/
def Obligations.StepRunsFrontCommand : Prop :=
  (∀ (c : Instr) (rest : List Instr) (s : State),
    step { s with pending := c :: rest } = exec c { s with pending := rest }) ∧
  ∀ s : State, s.pending = [] → step s = .next s

/-- A reply handed by the engine: the engine is IDLE, the port's request in service is none, and the reply joins the tail
of the reply queue, or is discarded in RESETTING; nothing else changes. -/
def Obligations.ReplyJoinsTailOrIsDiscarded : Prop :=
  ∀ (s : State) (p : Port) (tag : Byte) (st : Status) (body : List Byte),
    s.answer p tag st body = { s with work := .idle, ports := s.ports.set p ((s.answer p tag st body).port p) } ∧
    (s.answer p tag st body).port p = { s.port p with
      inService := none
      replies := if (s.port p).state = .resetting then (s.port p).replies
                 else (s.port p).replies ++ [⟨tag, st, body⟩] } ∧
    ∀ q, q ≠ p → (s.answer p tag st body).port q = s.port q

/-- Events that are not possible in the present state change nothing (the model's choice): the service of a request or a
teardown that has not been granted, or of another code, a reclaim step that is not the one chosen, the writes of mount and
FORMAT when not due or in GUARD, a flash outcome with no operation of its kind in flight, a release of a reset that is not
held, an arrival of the supply state there is, an expiry not reached, an UNKNOWN_KIND frame of one of the four kinds (log 2);
in reset, frames and the lease clock (log 25); an assertion of SEL# on a port whose SEL# is asserted already (log 1). -/
def Obligations.EventsNotPossibleChangeNothing : Prop :=
  (∀ s : State,
    (∀ x ∈ [(Instr.sessionOpen, (0x01 : Byte)), (.sessionClose, 0x02), (.read, 0x03), (.readMeta, 0x04), (.list, 0x05),
        (.write, 0x06), (.delete, 0x07), (.claim, 0x08), (.renew, 0x09), (.release, 0x0A), (.watch, 0x0B), (.unwatch, 0x0C),
        (.takeNotice, 0x0D), (.groupBegin, 0x0E), (.groupPut, 0x0F), (.groupCommit, 0x10), (.groupAbandon, 0x11),
        (.storeStatus, 0x12), (.compact, 0x13), (.format, 0x14)],
      (∀ p r, s.work = .request p r → r.code ≠ x.2) → exec x.1 s = .next s) ∧
    ((∀ p r, s.work = .request p r → 1 ≤ r.code.toNat ∧ r.code.toNat ≤ 0x14) →
      exec .unknownRequestCode s = .next s) ∧
    ((∀ p, s.work ≠ .teardown p) → exec .teardown s = .next s) ∧
    ((s.work = .reclaimGrant → s.reclaim.state = .idle → ∀ i, s.tail? = some i → (s.sector i).state ≠ .closed) →
      exec .reclaimMark s = .next s) ∧
    ((s.work = .reclaimGrant → s.reclaim.state = .copying → ∀ i, s.tail? = some i → (s.sector i).live = 0) →
      exec .reclaimCopy s = .next s) ∧
    ((s.work = .reclaimGrant → ∀ i, s.tail? = some i →
        s.reclaim.state ≠ .erasing ∧ (s.reclaim.state = .copying → (s.sector i).live ≠ 0)) →
      exec .reclaimErase s = .next s)) ∧
  (∀ s : State,
    ((∀ m, s.work = .mount m → m.phase = .waiting → s.supply = .normal → m.toClose = []) →
      exec .mountClose s = .next s) ∧
    ((∀ m, s.work = .mount m → m.phase = .waiting → s.supply = .normal → m.toClose = [] →
        ∀ e ∈ s.sectors, e.state ≠ .dirty) →
      exec .dirtyErase s = .next s) ∧
    ((∀ f i, s.work = .format f → f.phase = .sweep i → s.supply = .guard) → exec .formatErase s = .next s) ∧
    ((∀ f, s.work = .format f → f.phase = .paused → s.supply = .guard) → exec .wipeRePlacement s = .next s) ∧
    (∀ result, (∀ i l data, s.controller ≠ .programming i l data) → exec (.lineProgramComplete result) s = .next s) ∧
    (∀ stuck, (∀ i, s.controller ≠ .erasing i) → exec (.eraseComplete stuck) s = .next s) ∧
    (s.powerHold = false → exec .resetHoldRelease s = .next s) ∧
    (s.resetPin = false → exec .resetPinRelease s = .next s) ∧
    (s.inReset = false → s.supply = .guard → exec .guardArrival s = .next s) ∧
    (s.inReset = false → s.supply = .normal → s.supplyHigh = true → exec .normalArrival s = .next s)) ∧
  ∀ (s : State) (p : Port) (k : Key) (kind : Byte) (input : List Byte) (part : Bool) (xs : List Expiry),
    ((∀ e, s.leaseOf k = some e → e.expiry ≠ s.leaseClock + 1) → exec (.leaseExpiry ⟨k, xs⟩) s = .next s) ∧
    ((∀ w, s.waiterOf p = some w → w.waitExpiry ≠ s.leaseClock + 1) → exec (.waitExpiry ⟨p, xs⟩) s = .next s) ∧
    (1 ≤ kind.toNat → kind.toNat ≤ 4 → exec (.unknownKind ⟨p, .acts⟩ kind input) s = .next s) ∧
    (∀ e : FrameEvent, s.inReset = true ∨ (e = ⟨p, .asserted⟩ ∧ (s.port p).selected = true) →
      ∀ c ∈ [Instr.submit e input part, .fetch e input, .peek e input, .portReset e input part, .unknownKind e kind input,
          .frameTimeout e input, .frameReleasedBeforeKind e],
        exec c s = .next s) ∧
    (s.inReset = true → ∀ c ∈ [Instr.leaseClockAdvance, .leaseExpiry ⟨k, xs⟩,
        .waitExpiry ⟨p, xs⟩],
      exec c s = .next s)

/-! ### Resets and mount -/

/-- RESET# asserted, and VDD below 2.55 V, put every block in its reset state from any state; the queue of commands and
the other hold stay, and the flash keeps what it held, but for an operation in flight, which is cut off where it stands. What
that leaves is the model's choice: a line has some of the bits asked for turned to zero, and no other (log 8), a sector some
bits turned to one and none to zero, in the order of R136 (log 7). That a VDD above 2.95 V is kept over RESET#, and is not under
the hold, is log 28's; that a frame in course is over, log 1's. -/
def Obligations.ResetsCutOffAndTakeResetState : Prop :=
  ∀ s : State, s.flashCanonical →
    ∃ t u, exec .resetPinAssert s = .next t ∧ exec .powerOnResetHold s = .next u ∧
      t.standsReset ∧ t.resetPin = true ∧ t.powerHold = s.powerHold ∧ t.pending = s.pending ∧
      u.standsReset ∧ u.powerHold = true ∧ u.resetPin = s.resetPin ∧ u.pending = s.pending ∧
      t.supplyHigh = (s.supplyHigh && !s.powerHold) ∧ u.supplyHigh = false ∧
      ∀ m, m = t.flash ∨ m = u.flash → Memory.wf m = true ∧
        match s.controller with
        | .idle => m = s.flash
        | .programming i l data => data.length = 8 →
          (∀ a, ¬inLine i l a → readByte m a = readByte s.flash a) ∧
            (∀ a, readByte s.flash a &&& readByte m a = readByte m a) ∧
            ∀ k, k < 8 →
              let kept := readByte s.flash (2048 * i + 8 * l + k) &&& data.getD k 0xFF
              kept &&& readByte m (2048 * i + 8 * l + k) = kept
        | .erasing i => erasedSome s.flash m i

/-- Leaving reset begins mount, whose reading phase only reads: flash, controller, ports, sessions and the lease table
stand; a supply above 2.95 V already (a level the model holds as log 28 says) is taken as risen; the sector table has 64
entries; mount waits to write, or has ended. While the other hold lasts the part stays in reset. A part whose flash is erased
throughout mounts BLANK at the release, in either supply state: empty directory, every sector free, next sequence and next
generation 1, the defaults in force. -/
def Obligations.LeavingResetMounts : Prop :=
  (∀ s : State,
    (s.powerHold = true → s.resetPin = true → exec .resetHoldRelease s = .next { s with powerHold := false }) ∧
    (s.powerHold = true → s.resetPin = true → exec .resetPinRelease s = .next { s with resetPin := false }) ∧
    ((s.powerHold = true ∧ s.resetPin = false) ∨ (s.powerHold = false ∧ s.resetPin = true) →
      ∃ t, (if s.powerHold = true then exec .resetHoldRelease s else exec .resetPinRelease s) = .next t ∧
        t.inReset = false ∧ t.flash = s.flash ∧ t.controller = s.controller ∧ t.ports = s.ports ∧
        t.supply = (if s.supplyHigh = true then .normal else s.supply) ∧ t.supplyHigh = s.supplyHigh ∧
        t.sessions = s.sessions ∧ t.leases = s.leases ∧ t.leaseClock = s.leaseClock ∧ t.pending = s.pending ∧
        t.sectors.length = 64 ∧
        ((∃ m, t.work = .mount m ∧ m.phase = .waiting ∧ t.mode = .mounting) ∨
          (t.work = .idle ∧ t.mode ≠ .mounting ∧ t.mode ≠ .formatting)))) ∧
  ∀ s : State, s.flash = [] → s.powerHold = true → s.resetPin = false →
    ∃ t, exec .resetHoldRelease s = .next t ∧ t.mode = .blank ∧ t.work = .idle ∧ t.directory = [] ∧ t.freeCount = 64 ∧
      t.usable = 64 ∧ t.ring = [] ∧ t.nextSeq = 1 ∧ t.nextGen = 1 ∧ t.damaged = 0 ∧ t.freezeLine = 0x0F00 ∧
      t.defaultPeriod = 500 ∧ t.rightsInForce = ⟨Rights.ofByte 0x0F, Rights.ofByte 0x07, Rights.ofByte 0x07⟩

/-- The class of a sector at mount is the first row of TABLE 71 that applies, with its suspect flag (for a RETIRED sector
the table gives none, and the model has it clear: log 30). -/
def Obligations.ClassificationFollowsTable71 : Prop :=
  ∀ (m : List Host.Cell) (i : Nat),
    let erased := fun l => readBytes m (2048 * i + 8 * l) 8 = List.replicate 8 0xFF
    let valid := beNat (readBytes m (2048 * i) 2) = 0x4A52 ∧ beNat (readBytes m (2048 * i + 4) 4) ≠ 0 ∧
      (crc16 (readBytes m (2048 * i) 14)).toNat = beNat (readBytes m (2048 * i + 14) 2)
    let closed := readBytes m (2048 * i + 16) 8 = List.replicate 8 0x0C
    let reclaim := readBytes m (2048 * i + 24) 8 = List.replicate 8 0x0A
    (headerValid m i = true ↔ valid) ∧
    (Memory.wf m = true → (allErased m (2048 * i + 40) (2048 * i + 2048) = true ↔
      ∀ a, 2048 * i + 40 ≤ a → a < 2048 * i + 2048 → readByte m a = 0xFF)) ∧
    classify m i =
      (if ¬erased 4 then (.retired, false)
       else if erased 0 ∧ erased 1 ∧ erased 2 ∧ erased 3 then
         (if allErased m (2048 * i + 40) (2048 * i + 2048) = true then .erased else .dirty, false)
       else if valid ∧ erased 2 ∧ erased 3 then (.opened, false)
       else if valid ∧ erased 3 then (.closed, !decide closed)
       else if valid then (.reclaiming, !decide (closed ∧ reclaim))
       else (.dirty, false))

/-- Each record read at replay has the effect of TABLE 72 on the working directory and the pending run, and takes part in the
sequence count; where reading stops, the run is discarded, and a damaged record is counted. What stands at a line is the end of
records where the kind reads erased or the payload has ended, a record with the fields of TABLE 85 where its header is possible
and its check good, and else a damaged one (R149). -/
def Obligations.ReplayFollowsTable72 : Prop :=
  (∀ (m : List Host.Cell) (i line : Nat),
    let b := fun off => readByte m (2048 * i + 40 + 8 * line + off)
    let len := (b 4).toNat
    let position := (b 5).toNat / 16
    let count := (b 5).toNat % 16
    let copied := (b 1).getLsbD 0
    let keyed := b 0 = 0x01 ∨ b 0 = 0x02
    let possible := (keyed ∨ b 0 = 0x03 ∨ b 0 = 0x04) ∧ len ≤ 240 ∧ (b 0 ≠ 0x01 → len = 0) ∧
      (keyed → keyValid (keyOfBytes (b 2) (b 3)) = true) ∧ (¬keyed → keyOfBytes (b 2) (b 3) = 0) ∧
      (keyed → b 5 ≠ 0 → 1 ≤ position ∧ position ≤ count ∧ count ≤ 6) ∧ (b 0 = 0x03 → 1 ≤ count ∧ count ≤ 6) ∧
      (b 0 = 0x04 → b 5 = 0) ∧ (copied = true → b 0 = 0x01 ∧ b 5 = 0) ∧ line + (2 + (len + 7) / 8) ≤ 251
    let good := (crc16 (readBytes m (2048 * i + 40 + 8 * line) 14 ++
      readBytes m (2048 * i + 40 + 8 * line + 16) len)).toNat = beNat [b 14, b 15]
    (251 ≤ line ∨ b 0 = 0xFF → readRecord m i line = .finished) ∧
    (line < 251 → b 0 ≠ 0xFF → ¬(possible ∧ good) → readRecord m i line = .damaged) ∧
    ∀ k ∈ [(RecordKind.value, (0x01 : Byte)), (.tombstone, 0x02), (.commit, 0x03), (.wipe, 0x04)],
      line < 251 → b 0 = k.2 → possible → good →
      readRecord m i line = .record ⟨k.1, copied, keyOfBytes (b 2) (b 3), len, position, count, beNat [b 6, b 7],
        BitVec.ofNat 48 (beNat [b 8, b 9, b 10, b 11, b 12, b 13])⟩) ∧
  (∀ (i line : Nat) (r : StoredRecord) (a : Replay),
    let plain := r.position = 0 ∧ r.count = 0
    let member := (r.kind = .value ∨ r.kind = .tombstone) ∧ ¬plain
    (r.kind = .value → plain → replayRecord i r line a = { a with
      directory := insertKeyed DirEntry.key ⟨r.key, r.seq, r.length, i, 8 * line, false⟩ a.directory, run := [] }) ∧
    (r.kind = .tombstone → plain → replayRecord i r line a = { a with
      directory := a.directory.filter fun e => e.key != r.key, run := [] }) ∧
    (r.kind = .wipe → replayRecord i r line a = { a with directory := [], run := [] }) ∧
    (member → r.position = 1 → replayRecord i r line a = { a with run := [(r, line)] }) ∧
    (member → r.position ≠ 1 → ∀ rest q ln, a.run = rest ++ [(q, ln)] → replayRecord i r line a = { a with
      run := if q.position + 1 = r.position ∧ q.count = r.count ∧ q.reference = r.reference then a.run ++ [(r, line)]
             else [] }) ∧
    (member → r.position ≠ 1 → a.run = [] → replayRecord i r line a = { a with run := [] }) ∧
    (r.kind = .commit → replayRecord i r line a = { a with
      directory := if a.run.length = r.count ∧ ∀ x ∈ a.run, x.1.reference = r.reference then
          a.run.foldl (fun d x => if x.1.kind = .value then
            insertKeyed DirEntry.key ⟨x.1.key, x.1.seq, x.1.length, i, 8 * x.2, true⟩ d
            else if x.1.kind = .tombstone then d.filter fun e => e.key != x.1.key else d) a.directory
        else a.directory
      run := [] }) ∧
    countSequence r a = { a with afterHighest := max a.afterHighest (r.seq.toNat + 1) }) ∧
  ∀ (m : List Host.Cell) (i n line : Nat) (a : Replay),
    (∀ r, readRecord m i line = .record r → replaySector m i (n + 1) line a =
      replaySector m i n (line + (2 + (r.length + 7) / 8)) (countSequence r (replayRecord i r line a))) ∧
    (readRecord m i line = .damaged → replaySector m i (n + 1) line a =
      ({ a with run := [], damaged := min 65535 (a.damaged + 1) }, line, true)) ∧
    (readRecord m i line = .finished → replaySector m i (n + 1) line a = ({ a with run := [] }, line, false))

/-- The sector table that mount builds from the classes (R147): state, generation, erase count and flags of each sector, and the
next generation. Of two ring sectors with one generation the one of lower index stands first and the other is suspect; a
RECLAIMING sector that is not the first of the ring is held as CLOSED and suspect; a damaged record makes its sector suspect,
but for an OPEN last one (that R147's flag stands there is the model's choice, log 31). The generation of a RETIRED sector,
absent where its header is not valid, is the model's choice (log 30), and so is that a DIRTY sector has none (log 32). -/
def Obligations.MountBuildsSectorTable : Prop :=
  ∀ s t : State, s.leavesResetTo t →
    let m := s.flash
    let field := fun (i off n : Nat) => beNat (readBytes m (2048 * i + off) n)
    let cls := fun (i : Nat) => (classify m i).1
    let inRing := fun (i : Nat) => i < 64 ∧ (cls i = .opened ∨ cls i = .closed ∨ cls i = .reclaiming)
    let before := fun (j i : Nat) => field j 4 4 < field i 4 4 ∨ (field j 4 4 = field i 4 4 ∧ j < i)
    let highest := fun (off n v : Nat) => (∀ i, i < 64 → headerValid m i = true → field i off n ≤ v) ∧
      ((∃ i, i < 64 ∧ headerValid m i = true ∧ field i off n = v) ∨ (v = 0 ∧ ∀ i, i < 64 → headerValid m i = false))
    (∃ g, highest 4 4 g ∧ t.nextGen = BitVec.ofNat 32 (g + 1)) ∧
    ∀ i, i < 64 →
      let displaced := cls i = .reclaiming ∧ ∃ j, inRing j ∧ before j i
      let hurt := inRing i ∧ readRecord m i (t.sector i).fill = .damaged
      (displaced → (t.sector i).state = .closed) ∧ (¬displaced → (t.sector i).state = cls i) ∧
      (inRing i → (t.sector i).generation = some (BitVec.ofNat 32 (field i 4 4)) ∧ (t.sector i).eraseCount = field i 2 2) ∧
      (cls i = .erased ∨ cls i = .dirty → (t.sector i).generation = none ∧ highest 2 2 (t.sector i).eraseCount) ∧
      (cls i = .retired → headerValid m i = true →
        (t.sector i).generation = some (BitVec.ofNat 32 (field i 4 4)) ∧ (t.sector i).eraseCount = field i 2 2) ∧
      (cls i = .retired → headerValid m i = false → (t.sector i).generation = none) ∧
      (t.sector i).erasePending = decide (cls i = .dirty) ∧
      ((t.sector i).suspect = true ↔ (classify m i).2 = true ∨ (inRing i ∧ ∃ j, j < i ∧ inRing j ∧ field j 4 4 = field i 4 4) ∨
        displaced ∨ (hurt ∧ ¬(cls i = .opened ∧ ∀ j, inRing j → j = i ∨ before j i)))

/-- Mount replays the ring in ring order (R148): the fill of a ring sector is the line where reading its records stopped, at
their end or at a damaged record; the next sequence is one more than the highest of a good record read, or the highest mark of a
valid header, or 1; damaged records are counted. Mount has to close every OPEN sector that is not the last of the ring, or is
and holds a damaged record (R151); it waits while it has a close or a DIRTY erase to make. The live bytes are those of the
working directory while it waits. -/
def Obligations.MountReplaysRing : Prop :=
  ∀ s t : State, s.leavesResetTo t →
    let m := s.flash
    let hurt := fun (i : Nat) => readRecord m i (t.sector i).fill = .damaged
    let replayed := (t.ring.foldl (fun a i => (replaySector m i 126 0 a).1) ⟨[], [], 0, 0⟩).directory
    let toClose := fun (i : Nat) => i ∈ t.ring ∧ (t.sector i).state = .opened ∧ (t.ring.getLast? ≠ some i ∨ hurt i)
    let settled := (∀ i, ¬toClose i) ∧ ∀ i, i < 64 → (t.sector i).state ≠ .dirty
    (∀ i ∈ t.ring, ReadsTo m i (t.sector i).fill ∧ (readRecord m i (t.sector i).fill = .finished ∨ hurt i)) ∧
    (∃ n, t.nextSeq = BitVec.ofNat 48 n ∧ 1 ≤ n ∧
      (∀ i, i < 64 → headerValid m i = true → beNat (readBytes m (2048 * i + 8) 6) ≤ n) ∧
      (∀ i ∈ t.ring, ∀ (line : Nat) (r : StoredRecord), ReadsTo m i line → readRecord m i line = .record r →
        r.seq.toNat + 1 ≤ n) ∧
      (n = 1 ∨ (∃ i, i < 64 ∧ headerValid m i = true ∧ beNat (readBytes m (2048 * i + 8) 6) = n) ∨
        ∃ i ∈ t.ring, ∃ (line : Nat) (r : StoredRecord), ReadsTo m i line ∧ readRecord m i line = .record r ∧
          r.seq.toNat + 1 = n)) ∧
    t.damaged = (t.ring.filter fun i => decide (readRecord m i (t.sector i).fill = .damaged)).length ∧
    (settled → t.work = .idle ∧ ∃ (u : State) (w : MountWork), w.working = replayed ∧ t = u.mountEnd w) ∧
    (¬settled → ∃ w : MountWork, t.work = .mount w ∧ w.phase = .waiting ∧ w.working = replayed ∧
      (∀ i, i ∈ w.toClose ↔ toClose i) ∧ w.toClose.Nodup ∧
      ∀ i, i < 64 → (t.sector i).live = ((replayed.filter fun e => decide (e.sector = i)).map DirEntry.size).sum)

/-- The settling phase: with the supply NORMAL, MOUNT_CLOSE programs the CLOSED marker of the next sector to be closed, and
DIRTY_ERASE, once no close is left, erases the DIRTY sector of lowest index; in GUARD both wait. Mount ends with the
directory limited to 1,024 entries, those of the highest user keys left out; the live bytes of that directory; the first mode
of TABLE 73 that applies; the reclaim unit in COPYING when the tail is RECLAIMING; the values in force as the directory holds
them, or their defaults; and the engine IDLE. -/
def Obligations.SettlingPhaseAndMountEnd : Prop :=
  ∀ (s : State) (m : MountWork),
    (s.work = .mount m → m.phase = .waiting → s.supply = .guard →
      exec .mountClose s = .next s ∧ exec .dirtyErase s = .next s) ∧
    (s.work = .mount m → m.phase = .waiting → s.supply = .normal →
      (∀ i rest, m.toClose = i :: rest →
        exec .mountClose s = .next { s with
          work := .mount { m with phase := .closing i, toClose := rest }
          controller := .programming i 2 (List.replicate 8 0x0C) }) ∧
      (∀ i, m.toClose = [] → i < s.sectors.length → (s.sector i).state = .dirty →
        (∀ j, j < i → (s.sector j).state ≠ .dirty) →
        exec .dirtyErase s = .next { s with work := .mount { m with phase := .erasing i }, controller := .erasing i })) ∧
    let t := s.mountEnd m
    let stored := fun k => (t.entry k).map fun e => readBytes s.flash (2048 * e.sector + 40 + e.offset + 16) e.length
    t.work = .idle ∧ t.nextSeq = s.nextSeq ∧ t.nextGen = s.nextGen ∧ t.damaged = s.damaged ∧
    (directoryOrdered m.working →
      t.directory.length = min 1024 m.working.length ∧ t.directory.Sublist m.working ∧
      ∀ e ∈ m.working, e ∉ t.directory → systemKey e.key = false ∧
        ∀ x ∈ t.directory, systemKey x.key = false → x.key.toNat < e.key.toNat) ∧
    (∀ i, i < s.sectors.length → t.sector i = { s.sector i with
      live := ((t.directory.filter fun e => decide (e.sector = i)).map DirEntry.size).sum }) ∧
    t.mode =
      (if t.ring = [] then .blank
       else if t.usable < 8 ∨ t.liveBudget < t.storeLive ∨ t.freeCount = 0 then .readOnly
       else if 1024 < m.working.length then .readOnly
       else .ready) ∧
    t.reclaim = ⟨if (t.tail?.map fun i => (t.sector i).state) = some .reclaiming then .copying else .idle, 0, 0, none, none⟩ ∧
    t.rightsInForce = ((stored 0x0F01).bind fun v => (parseRights v).filter grantsAdmin).getD
      ⟨Rights.ofByte 0x0F, Rights.ofByte 0x07, Rights.ofByte 0x07⟩ ∧
    t.freezeLine = ((stored 0x0F02).bind parseFreezeLine).getD 0x0F00 ∧
    t.defaultPeriod = ((stored 0x0F03).bind parsePeriod).getD 500

/-- The outcomes of mount's writes. A CLOSED marker, verified or not, leaves its sector CLOSED, suspect if it failed. A
verified erase raises the count from the one that mount gave, and the sector joins the free pool or, at 60,000, has its
RETIRED marker programmed; the first failure is followed by one more erase, the second by the marker; an abort by GUARD counts
for nothing. The marker, verified or not, leaves the sector RETIRED. With nothing left to close or to erase mount ends. That the
count changes at the verify and the state with the marker is the model's choice (log 21); that the marker does not read the
supply is its reading (log 29). -/
def Obligations.MountWriteOutcomes : Prop :=
  (∀ (s : State) (m : MountWork) (i l : Nat) (data : List Byte) (res : LineResult), s.work = .mount m →
    s.controller = .programming i l data →
    let f := programBytes s.flash (lineAddress i l) (LineResult.bits data res)
    let failed := !decide (readLine f i l = data)
    let u := { s with controller := .idle, flash := f }
    (m.phase = .closing i → exec (.lineProgramComplete res) s = .next (({ u with
      sectors := s.sectors.set i { s.sector i with
        state := .closed, suspect := (s.sector i).suspect || failed } }).mountContinue m)) ∧
    (m.phase = .retiring i → exec (.lineProgramComplete res) s = .next (({ u with
      sectors := s.sectors.set i { s.sector i with
        state := .retired, suspect := (s.sector i).suspect || failed, erasePending := false } }).mountContinue
          { m with failures := 0 }))) ∧
  (∀ (s : State) (m : MountWork) (i : Nat), s.work = .mount m → m.phase = .erasing i → s.controller = .erasing i →
    i < s.sectors.length →
    (∀ stuck : List (Nat × Byte),
      let f := eraseSector (stuckBits stuck) i s.flash
      let u := { s with controller := .idle, flash := f }
      let worn := 60000 ≤ (s.sector i).eraseCount + 1
      let counted : Sector :=
        ⟨if worn then (s.sector i).state else .erased, none, (s.sector i).eraseCount + 1, 0, 0, false, false⟩
      let v := { u with sectors := s.sectors.set i counted }
      let toRetire := fun (x : State) =>
        { x with work := .mount { m with phase := .retiring i }, controller := .programming i 4 (List.replicate 8 0x00) }
      exec (.eraseComplete stuck) s = .next (
        if sectorErased f i = true then (if worn then toRetire v else v.mountContinue { m with failures := 0 })
        else if m.failures = 0 then { u with work := .mount { m with phase := .waiting, failures := 1 } }
        else toRetire u)) ∧
    (s.inReset = false → s.supply = .normal → ∃ f, exec .guardArrival s = .next { s with
      supply := .guard, supplyHigh := false, controller := .idle, flash := f, draws := s.draws + 1
      work := .mount { m with phase := .waiting } })) ∧
  ∀ (s : State) (m : MountWork), s.mountContinue m =
    if m.toClose = [] ∧ ∀ e ∈ s.sectors, e.state ≠ .dirty then s.mountEnd m
    else { s with work := .mount { m with phase := .waiting } }

/-! ### Frames -/

/-- ATN# of a port is asserted while a reply waits and the reply enable is on, or a notice waits and the notice enable is on;
after a reset it is released. The port status bytes hold the fields of TABLE 81 in their places, each store mode and each
frame result by its code there. The assertion of SEL# latches them, whatever frame follows, and from there to the point where
the frame acts, or a reset, no event changes what was latched (that a reset ends the frame is the model's choice, log 1). -/
def Obligations.AttentionAndStatusBytes : Prop :=
  (∀ (s : State) (p : Port), s.attention p = true ↔
    ((s.port p).replyEnable = true ∧ (s.port p).replies ≠ []) ∨
      ((s.port p).noticeEnable = true ∧ (s.session p).notices ≠ [])) ∧
  (∀ (s t : State) (p : Port), exec .resetPinAssert s = .next t ∨ exec .powerOnResetHold s = .next t →
    t.attention p = false) ∧
  (∀ x ∈ [(StoreMode.mounting, 0), (.blank, 1), (.ready, 2), (.readOnly, 3), (.formatting, 4)], x.1.code = x.2) ∧
  (∀ x ∈ [(FrameResult.none, 0), (.ok, 1), (.crcError, 2), (.lengthError, 3), (.full, 4), (.badTag, 5), (.resetting, 6),
    (.timeout, 7), (.unknownKind, 8)], x.1.code = x.2) ∧
  (∀ (s : State) (p : Port) (kind : Byte) (input : List Byte) (part : Bool), s.inReset = false →
    (s.port p).selected = false →
    ∀ c ∈ [Instr.submit ⟨p, .asserted⟩ input part, .fetch ⟨p, .asserted⟩ input, .peek ⟨p, .asserted⟩ input,
        .portReset ⟨p, .asserted⟩ input part, .unknownKind ⟨p, .asserted⟩ kind input, .frameTimeout ⟨p, .asserted⟩ input,
        .frameReleasedBeforeKind ⟨p, .asserted⟩],
      exec c s = .next (s.setPort p { s.port p with selected := true, latch := s.statusBytes p, sdo := [] })) ∧
  (∀ (s t : State) (p : Port) (c : Instr), exec c s = .next t → (s.port p).selected = true → endsFrame p c = false →
    (t.port p).selected = true ∧ (t.port p).latch = (s.port p).latch) ∧
  ∀ (s : State) (p : Port), (s.creditsInUse p ≤ 4) →
    ∃ b0 b1, s.statusBytes p = [b0, b1] ∧
      b0.toNat / 32 = s.mode.code ∧ b0.getLsbD 4 = decide (s.supply = .guard) ∧ b0.getLsbD 3 = (s.session p).isOpen ∧
      b0.getLsbD 2 = !(s.port p).replies.isEmpty ∧ b0.getLsbD 1 = !(s.session p).notices.isEmpty ∧
      b0.getLsbD 0 = decide ((s.port p).state = .resetting) ∧
      b1.toNat / 32 = 4 - s.creditsInUse p ∧ b1.toNat / 2 % 16 = (s.port p).lastResult.code ∧ b1.getLsbD 0 = false

/-- SUBMIT: the first failing test of TABLE 79 is the frame's result, and only a frame that fails none is admitted at the
tail of the request queue; a frame too short for a tag, a code and a length is a LENGTH_ERROR. The tests read the state at the
release; the status put out is the one latched when SEL# was asserted, be it older. -/
def Obligations.SubmitTestsThenAdmits : Prop :=
  (∀ (s : State) (p : Port) (input : List Byte) (part : Bool), s.inReset = false → input.length < 3 →
    let status := if (s.port p).selected = true then (s.port p).latch else s.statusBytes p
    exec (.submit ⟨p, .acts⟩ input part) s = .next (s.setPort p { s.port p with
      selected := false
      latch := status
      sdo := (status ++ List.replicate (input.length + 1) 0x00).take (input.length + 1)
      lastResult := .lengthError })) ∧
  ∀ (s : State) (p : Port) (tag code len : Byte) (rest : List Byte) (part : Bool), s.inReset = false →
    let status := if (s.port p).selected = true then (s.port p).latch else s.statusBytes p
    ∃ result : FrameResult,
      result =
        (if rest.length ≠ len.toNat + 1 ∨ part = true then .lengthError
         else if crc8 (0x01 :: tag :: code :: len :: rest.dropLast) ≠ rest.getLast?.getD 0 then .crcError
         else if (s.port p).state = .resetting then .resetting
         else if tag = 0xFF ∨ tag ∈ s.tagsInUse p then .badTag
         else if s.freeCredits p = 0 then .full
         else .ok) ∧
      exec (.submit ⟨p, .acts⟩ (tag :: code :: len :: rest) part) s = .next (s.setPort p { s.port p with
        selected := false
        latch := status
        sdo := (status ++ List.replicate (rest.length + 4) 0x00).take (rest.length + 4)
        lastResult := result
        queue := if result = .ok then (s.port p).queue ++ [⟨tag, code, rest.take len.toNat⟩] else (s.port p).queue })

/-- FETCH of a port in NORMAL: an acknowledgment of the head reply, once sent, removes it; the head of the queue as it then
stands is put out after the two status bytes latched when SEL# was asserted, or the marker 0xFF; head sent is set once all of it was clocked. In RESETTING
no acknowledgment is taken and the marker is put out. A FETCH that times out past its acknowledgment has done as much.
A reply is put out as its tag, its status code of TABLE 83, its body length, its body, and the CRC-8 over all of these; the
CRC-8 begins at 0x00 and takes each byte by eight shifts with the generator 0x2F. -/
def Obligations.FetchAcknowledgesAndPutsOutHead : Prop :=
  (∀ r : Reply,
    let covered := [r.tag, r.status.code, BitVec.ofNat 8 r.body.length] ++ r.body
    r.bytes = covered ++ [crc8 covered]) ∧
  (crc8 [] = 0x00 ∧ ∀ (bytes : List Byte) (b : Byte),
    let shift := fun (c : Byte) => if c.msb = true then c <<< 1 ^^^ 0x2F else c <<< 1
    crc8 (bytes ++ [b]) = (List.range 8).foldl (fun c _ => shift c) (crc8 bytes ^^^ b)) ∧
  (∀ x ∈ [(Status.ok, (0x00 : Byte)), (.empty, 0x01), (.notFound, 0x02), (.stale, 0x03), (.held, 0x04), (.notHeld, 0x05),
    (.frozen, 0x06), (.denied, 0x07), (.badKey, 0x08), (.tooLong, 0x09), (.noRoom, 0x0A), (.noSpace, 0x0B), (.hold, 0x0C),
    (.blank, 0x0D), (.noSession, 0x0E), (.noGroup, 0x0F), (.groupOpen, 0x10), (.groupFull, 0x11), (.limit, 0x12),
    (.waitBusy, 0x13), (.timeout, 0x14), (.aborted, 0x15), (.busySessions, 0x16), (.malformed, 0x17), (.retry, 0x18),
    (.readOnly, 0x19)], x.1.code = x.2) ∧
  ∀ (s : State) (p : Port) (ack : Byte) (rest : List Byte), s.inReset = false →
    let status := if (s.port p).selected = true then (s.port p).latch else s.statusBytes p
    ∃ removed : Bool, ∃ left : List Reply, ∃ bytes : List Byte,
      removed = ((s.port p).headSent && decide ((s.port p).replies.head?.map Reply.tag = some ack) &&
        decide ((s.port p).state = .normal)) ∧
      left = (if removed = true then (s.port p).replies.tail else (s.port p).replies) ∧
      bytes = (match (s.port p).state, left with | .normal, r :: _ => r.bytes | _, _ => [0xFF]) ∧
      let after := fun result => Host.Outcome.next (φ := Fault) (ρ := Refusal) (s.setPort p { s.port p with
        replies := left
        headSent := (!removed && (s.port p).headSent) ||
          (!left.isEmpty && decide ((s.port p).state = .normal) && decide (2 + bytes.length ≤ rest.length + 2))
        selected := false
        latch := status
        sdo := (status ++ bytes ++ List.replicate (rest.length + 2) 0x00).take (rest.length + 2)
        lastResult := result })
      exec (.fetch ⟨p, .acts⟩ (ack :: rest)) s = after .ok ∧ exec (.frameTimeout ⟨p, .acts⟩ (0x02 :: ack :: rest)) s = after .timeout

/-- PEEK, a frame of an unknown kind, a frame released before its kind and a FETCH released before its acknowledgment
change only the port's latch, output and result, and the status put out is the one latched when SEL# was asserted. A frame that times out changes no more, a FETCH before its acknowledgment
byte among them, unless it is a FETCH past that byte. A good PORT_RESET in NORMAL discards the queues and makes a teardown
pending; in RESETTING it changes nothing but the frame's own fields. A frame of another length, or with another check byte than
0xBC, does not act; that a part byte makes it one of another length is the model's reading (log 16). -/
def Obligations.OtherFramesAndPortReset : Prop :=
  (∀ (s : State) (p : Port) (kind : Byte) (input : List Byte), s.inReset = false →
    let status := if (s.port p).selected = true then (s.port p).latch else s.statusBytes p
    let plain := fun (n : Nat) (result : FrameResult) => Host.Outcome.next (φ := Fault) (ρ := Refusal)
      (s.setPort p { s.port p with
        selected := false
        latch := status
        sdo := (status ++ List.replicate n 0x00).take n
        lastResult := result })
    exec (.peek ⟨p, .acts⟩ input) s = plain (input.length + 1) .ok ∧
    (kind ≠ 0x01 → kind ≠ 0x02 → kind ≠ 0x03 → kind ≠ 0x04 →
      exec (.unknownKind ⟨p, .acts⟩ kind input) s = plain (input.length + 1) .unknownKind) ∧
    exec (.frameReleasedBeforeKind ⟨p, .acts⟩) s = plain 0 .lengthError ∧
    exec (.fetch ⟨p, .acts⟩ []) s = plain 1 .lengthError ∧
    (kind ≠ 0x02 ∨ input = [] → exec (.frameTimeout ⟨p, .acts⟩ (kind :: input)) s = plain (input.length + 1) .timeout) ∧
    exec (.frameTimeout ⟨p, .acts⟩ []) s = plain 0 .timeout) ∧
  ∀ (s : State) (p : Port), s.inReset = false →
    let status := if (s.port p).selected = true then (s.port p).latch else s.statusBytes p
    let out := fun n => (status ++ List.replicate n 0x00).take n
    ((s.port p).state = .normal →
      exec (.portReset ⟨p, .acts⟩ [0xBC] false) s = .next (s.setPort p { s.port p with
        state := .resetting, queue := [], replies := [], headSent := false, teardown := .pending, replyEnable := true,
        noticeEnable := false, selected := false, latch := status, sdo := out 2, lastResult := .ok })) ∧
    ((s.port p).state = .resetting →
      exec (.portReset ⟨p, .acts⟩ [0xBC] false) s = .next (s.setPort p { s.port p with
        selected := false, latch := status, sdo := out 2, lastResult := .ok })) ∧
    ∀ (input : List Byte) (part : Bool), ¬(input = [0xBC] ∧ part = false) →
      exec (.portReset ⟨p, .acts⟩ input part) s = .next (s.setPort p { s.port p with
        selected := false
        latch := status
        sdo := out (input.length + 1)
        lastResult := if input.length = 1 ∧ part = false then .crcError else .lengthError })

/-! ### The grant arbiter -/

/-- A port is a requester while its queue holds a request or its teardown is pending, whatever its session, its request in
service and its parked claim. The demand that reclaim presents is none without work, else the first row of TABLE 29 that
applies. -/
def Obligations.RequestersAndDemand : Prop :=
  (∀ (s : State) (p : Port),
    s.requester p = true ↔ (s.port p).queue ≠ [] ∨ (s.port p).teardown = .pending) ∧
  ∀ s : State,
    s.demand =
      (if ¬((∃ i ∈ s.ring, (s.sector i).state ≠ .opened) ∨ ∃ e ∈ s.sectors, e.erasePending = true) then Demand.none
       else if s.freeCount < 4 then .urgent
       else if s.freeCount < 8 then .background
       else if ∃ n, s.reclaim.target = some n ∧ s.freeCount < n then .background
       else if (∃ e ∈ s.sectors, e.erasePending = true) ∨
           (∃ i, s.tail? = some i ∧ (s.sector i).state = .reclaiming) then .background
       else .none)

/-- The arbiter's choice, made when the engine is IDLE: urgent reclaim in its turn, the first requester from the pointer,
background reclaim, or nothing; and what each grant leaves. While the engine is not IDLE, and in MOUNTING and FORMATTING, it
makes no choice (R39, R47, R48). The rotation is A, B, C and A again. -/
def Obligations.ArbiterChoiceByCases : Prop :=
  (Port.next .A = .B ∧ Port.next .B = .C ∧ Port.next .C = .A) ∧
  (∀ s : State, s.work ≠ .idle ∨ s.mode = .mounting ∨ s.mode = .formatting → exec .arbiterChoice s = .next s) ∧
  ∀ s : State, s.work = .idle → s.mode ≠ .mounting → s.mode ≠ .formatting →
    let eligible := s.mode = .ready ∧ s.supply = .normal
    let toReclaim := Host.Outcome.next (φ := Fault) (ρ := Refusal)
      { s with lastGrant := .reclaim, work := .reclaimGrant }
    (eligible ∧ s.demand = .urgent ∧ (s.lastGrant = .port ∨ ∀ p, s.requester p = false) →
      exec .arbiterChoice s = toReclaim) ∧
    (¬(eligible ∧ s.demand = .urgent ∧ (s.lastGrant = .port ∨ ∀ p, s.requester p = false)) →
      (∀ p, s.requester p = true →
        (p = s.pointer ∨ (p = Port.next s.pointer ∧ s.requester s.pointer = false) ∨
          (s.requester s.pointer = false ∧ s.requester (Port.next s.pointer) = false)) →
        ((s.port p).teardown = .pending →
          exec .arbiterChoice s = .next { s with
            pointer := Port.next p, lastGrant := .port, work := .teardown p
            ports := s.ports.set p { s.port p with teardown := .inService } }) ∧
        (∀ r rest, (s.port p).teardown ≠ .pending → (s.port p).queue = r :: rest →
          exec .arbiterChoice s = .next { s with
            pointer := Port.next p, lastGrant := .port, work := .request p r
            ports := s.ports.set p { s.port p with queue := rest, inService := some r.tag } })) ∧
      ((∀ p, s.requester p = false) →
        exec .arbiterChoice s = if eligible ∧ s.demand = .background then toReclaim else .next s))

/-! ### Sessions -/

/-- OPEN opens or rebinds the session with the port's rights in force, sets both enables from the body, and reports; any
other body is MALFORMED. A rights set is reported as its byte of R176. -/
def Obligations.OpenBindsRightsInForce : Prop :=
  (∀ r : Rights, r.toByte.toNat < 16 ∧ r.toByte.getLsbD 0 = r.read ∧ r.toByte.getLsbD 1 = r.write ∧
    r.toByte.getLsbD 2 = r.claim ∧ r.toByte.getLsbD 3 = r.admin) ∧
  ∀ (s : State) (p : Port) (r : Request), s.granted p r 0x01 →
    (∀ reply notice : Bool,
      (r.body = [] ∧ reply = true ∧ notice = true) ∨
        (∃ e : Byte, r.body = [e] ∧ e.toNat < 4 ∧ reply = e.getLsbD 0 ∧ notice = e.getLsbD 1) →
      exec .sessionOpen s = .next (({ s with
        sessions := s.sessions.set p { s.session p with isOpen := true, rights := s.rightsInForce.get p }
        ports := s.ports.set p { s.port p with replyEnable := reply, noticeEnable := notice } }).answer p r.tag .ok
          ([(s.rightsInForce.get p).toByte, BitVec.ofNat 8 s.mode.code] ++ beBytes 2 s.directory.length
            ++ beBytes 6 s.nextSeq.toNat))) ∧
    (r.body ≠ [] → (∀ e : Byte, r.body = [e] → 4 ≤ e.toNat) →
      exec .sessionOpen s = .next (s.answer p r.tag .malformed []))

/-- Steps 1 and 2. With no session open, every request but OPEN and STORE_STATUS is answered NO_SESSION. With a session OPEN, a
body that CLOSE, TAKE_NOTICE, GROUP_BEGIN, GROUP_COMMIT, GROUP_ABANDON or FORMAT may not carry, and a request code outside the
twenty, are MALFORMED. Only the reply is left. -/
def Obligations.NoSessionAndMalformed : Prop :=
  (∀ (s : State) (p : Port) (r : Request), s.work = .request p r → (s.session p).isOpen = false →
    r.code ≠ 0x01 → r.code ≠ 0x12 →
    ∀ c ∈ [(Instr.sessionClose, (0x02 : Byte)), (.read, 0x03), (.readMeta, 0x04), (.list, 0x05), (.write, 0x06),
        (.delete, 0x07), (.claim, 0x08), (.renew, 0x09), (.release, 0x0A), (.watch, 0x0B), (.unwatch, 0x0C),
        (.takeNotice, 0x0D), (.groupBegin, 0x0E), (.groupPut, 0x0F), (.groupCommit, 0x10), (.groupAbandon, 0x11),
        (.compact, 0x13), (.format, 0x14), (.unknownRequestCode, r.code)],
      c.2 = r.code → (c.1 = .unknownRequestCode → r.code = 0x00 ∨ 0x14 < r.code.toNat) →
      exec c.1 s = .next (s.answer p r.tag .noSession [])) ∧
  ∀ (s : State) (p : Port) (r : Request), s.work = .request p r → (s.session p).isOpen = true →
    (∀ c ∈ [(Instr.sessionClose, (0x02 : Byte)), (.takeNotice, 0x0D), (.groupBegin, 0x0E), (.groupCommit, 0x10),
        (.groupAbandon, 0x11), (.format, 0x14)],
      r.code = c.2 → r.body ≠ [] → exec c.1 s = .next (s.answer p r.tag .malformed [])) ∧
    (r.code = 0x00 ∨ 0x14 < r.code.toNat → exec .unknownRequestCode s = .next (s.answer p r.tag .malformed []))

/-- CLOSE and the teardown after a port reset: every lease of the port ends as a release and passes to its oldest waiter, who
is answered; the other ports' leases stand; the port's parked claim is removed (answered ABORTED for CLOSE alone); the session
is CLOSED and empty; a session that is granted no lease stands whole, and the store is untouched. After a port reset the port
is NORMAL again, with no reply. -/
def Obligations.TeardownEmptiesSession : Prop :=
  ∀ (s : State) (p : Port), s.leasesSound →
    (∀ r : Request, s.granted p r 0x02 → (s.session p).isOpen = true → r.body = [] →
      ∃ t, exec .sessionClose s = .next t ∧ s.releasesOf t p ∧ t.session p = Session.closed ∧
        (∀ e ∈ t.leases, e.holder ≠ p) ∧ p ∉ t.waiterPorts ∧ t.claimCount p = 0 ∧ t.work = .idle ∧
        t.directory = s.directory ∧ t.sectors = s.sectors ∧ t.flash = s.flash ∧ t.mode = s.mode ∧
        t.leaseClock = s.leaseClock ∧
        t.port p = { s.port p with
          inService := none
          replies := if (s.port p).state = .resetting then (s.port p).replies
            else (s.port p).replies ++
              (match (s.session p).parked with | some mark => [⟨mark.2, .aborted, []⟩] | none => []) ++
              [⟨r.tag, .ok, []⟩] }) ∧
    (s.work = .teardown p → (s.port p).state = .resetting →
      ∃ t, exec .teardown s = .next t ∧ s.releasesOf t p ∧ t.session p = Session.closed ∧
        (∀ e ∈ t.leases, e.holder ≠ p) ∧ p ∉ t.waiterPorts ∧ t.claimCount p = 0 ∧ t.work = .idle ∧
        t.directory = s.directory ∧ t.sectors = s.sectors ∧ t.flash = s.flash ∧ t.mode = s.mode ∧
        t.leaseClock = s.leaseClock ∧ t.port p = { s.port p with state := .normal, teardown := .none })

/-! ### Reading -/

/-- READ: the first check that fails decides; else NOT_FOUND, or the version, the length and the value as they stand in
flash. READ_META: the fields of TABLE 19, whether or not the key exists. LIST: up to eight entries above the start key, in
ascending order, with END set when none is above the last; none is above 0x0F03. Nothing but the reply changes. A field of
several bytes has its most significant byte first (R174), and a port is 1, 2 or 3 (R176). -/
def Obligations.ReadReadMetaAndListReport : Prop :=
  (∀ n v : Nat, beBytes 0 v = [] ∧ beBytes (n + 1) v = BitVec.ofNat 8 (v / 256 ^ n) :: beBytes n v) ∧
  (∀ hi lo : Byte, (keyOfBytes hi lo).toNat = hi.toNat * 256 + lo.toNat) ∧
  (∀ x ∈ [(Port.A, (1 : Byte)), (.B, 2), (.C, 3)], Port.code x.1 = x.2) ∧
  ((∀ (s : State) (p : Port) (r : Request), s.granted p r 0x03 →
    exec .read s = .next (
      if (s.session p).isOpen = false then s.answer p r.tag .noSession []
      else match r.body with
        | [hi, lo] =>
          if s.mode = .blank then s.answer p r.tag .blank []
          else if (s.session p).rights.read = false then s.answer p r.tag .denied []
          else if keyValid (keyOfBytes hi lo) = false then s.answer p r.tag .badKey []
          else match s.entry (keyOfBytes hi lo) with
            | none => s.answer p r.tag .notFound []
            | some e => s.answer p r.tag .ok (beBytes 6 e.version.toNat ++ [BitVec.ofNat 8 e.length] ++
                readBytes s.flash (2048 * e.sector + 40 + e.offset + 16) e.length)
        | _ => s.answer p r.tag .malformed [])) ∧
  ∀ (s : State) (p : Port) (r : Request), s.granted p r 0x04 →
    exec .readMeta s = .next (
      if (s.session p).isOpen = false then s.answer p r.tag .noSession []
      else match r.body with
        | [hi, lo] =>
          let k := keyOfBytes hi lo
          if s.mode = .blank then s.answer p r.tag .blank []
          else if (s.session p).rights.read = false then s.answer p r.tag .denied []
          else if keyValid k = false then s.answer p r.tag .badKey []
          else s.answer p r.tag .ok (
            beBytes 6 ((s.entry k).elim 0 fun e => e.version.toNat)
              ++ [BitVec.ofNat 8 ((s.entry k).elim 0 DirEntry.length),
                  (s.leaseOf k).elim 0 fun e => Port.code e.holder]
              ++ beBytes 2 ((s.leaseOf k).elim 0 fun e => (e.expiry - s.leaseClock).toNat)
              ++ [BitVec.ofNat 8 ((userKey k && decide (s.freezeLine.toNat ≤ k.toNat)).toNat
                    + 2 * (decide (k ∈ (s.session p).watch)).toNat
                    + 4 * ((s.entry k).elim false DirEntry.group).toNat)])
        | _ => s.answer p r.tag .malformed [])) ∧
  (∀ (s : State) (p : Port) (r : Request), s.granted p r 0x05 →
    exec .list s = .next (
      if (s.session p).isOpen = false then s.answer p r.tag .noSession []
      else match r.body with
        | [hi, lo] =>
          if s.mode = .blank then s.answer p r.tag .blank []
          else if (s.session p).rights.read = false then s.answer p r.tag .denied []
          else
            let above := s.directory.filter fun e => decide ((keyOfBytes hi lo).toNat < e.key.toNat)
            s.answer p r.tag (if above = [] then .empty else .ok)
              ([if above.length ≤ 8 then 1 else 0, BitVec.ofNat 8 (min 8 above.length)] ++
                (above.take 8).flatMap fun e =>
                  beBytes 2 e.key.toNat ++ beBytes 6 e.version.toNat ++ [BitVec.ofNat 8 e.length])
        | _ => s.answer p r.tag .malformed [])) ∧
  ∀ (s : State) (k : Key), s.directorySound →
    let above := s.directory.filter fun e => decide (k.toNat < e.key.toNat)
    above.Pairwise (fun x y => x.key.toNat < y.key.toNat) ∧ (0x0F03 ≤ k.toNat → above = [])

/-- STORE_STATUS takes step 2 alone, so that it is served with no session and in every mode, and its body is the 39 bytes
of TABLE 84. The free value for a store with no usable sector (log 15) is left open: only the count of draws moves. -/
def Obligations.StoreStatusReports : Prop :=
  (∀ x ∈ [(ReclaimState.idle, (0 : Byte)), (.copying, 2), (.erasing, 3)], x.1.code = x.2) ∧
  ∀ (s : State) (p : Port) (r : Request), s.granted p r 0x12 →
    (r.body ≠ [] → exec .storeStatus s = .next (s.answer p r.tag .malformed [])) ∧
    (r.body = [] →
      ∃ (lowest highest d : Nat),
        (∀ e ∈ s.sectors, e.state ≠ .retired → lowest ≤ e.eraseCount ∧ e.eraseCount ≤ highest) ∧
        ((∃ e ∈ s.sectors, e.state ≠ .retired) →
          d = s.draws ∧ (∃ e ∈ s.sectors, e.state ≠ .retired ∧ e.eraseCount = lowest) ∧
            ∃ e ∈ s.sectors, e.state ≠ .retired ∧ e.eraseCount = highest) ∧
        exec .storeStatus s = .next (({ s with draws := d }).answer p r.tag .ok
          ([BitVec.ofNat 8 s.mode.code, BitVec.ofNat 8 (if s.supply = Supply.guard then 1 else 0), BitVec.ofNat 8 s.usable,
              BitVec.ofNat 8 s.freeCount,
              BitVec.ofNat 8 (s.sectors.filter fun e : Sector => decide (e.state = SectorState.retired)).length]
            ++ beBytes 4 s.storeLive ++ beBytes 4 ((s.usable - 3) * 2008) ++ beBytes 2 s.directory.length
            ++ beBytes 6 s.nextSeq.toNat ++ beBytes 4 lowest ++ beBytes 4 highest
            ++ beBytes 4 (s.head?.elim 0 fun h => (s.sector h).generationNat)
            ++ [s.reclaim.state.code, BitVec.ofNat 8 (s.reclaim.target.getD 0)]
            ++ beBytes 2 s.damaged ++ beBytes 2 s.freezeLine.toNat)))

/-! ### Writing and deleting -/

/-- The bodies of WRITE, DELETE and GROUP_PUT: key, options, an expected version of 6 bytes when bit 0 asks for it, the
rest the value; an undefined option, a short body, a value where none may be, and a system-key value of the wrong length or
range do not parse. -/
def Obligations.ChangeBodiesParse : Prop :=
  ∀ (hi lo o : Byte) (rest : List Byte),
    let k := keyOfBytes hi lo
    let change := fun (del : Bool) => if o.getLsbD 0 = true then
        (if rest.length < 6 then none
         else some (⟨k, some (BitVec.ofNat 48 (beNat (rest.take 6))), del, rest.drop 6⟩ : Change))
      else some ⟨k, none, del, rest⟩
    (∀ body : List Byte, body.length < 3 → parseWrite body = none ∧ parseDelete body = none ∧ parseGroupPut body = none) ∧
    parseWrite (hi :: lo :: o :: rest) =
      (if 2 ≤ o.toNat then none else (change false).filter fun c => systemValueValid k c.value) ∧
    parseDelete (hi :: lo :: o :: rest) =
      (if 2 ≤ o.toNat then none else (change false).filter fun c => c.value.isEmpty) ∧
    parseGroupPut (hi :: lo :: o :: rest) =
      (if 4 ≤ o.toNat then none
       else (change (o.getLsbD 1)).filter fun c => !(o.getLsbD 1 && !c.value.isEmpty))

/-- What the checks compare. The key space (TABLE 16); the outcome of step 9 (TABLE 18); length, range and content of a
system-key value, the rights value apart from its ADMIN (TABLE 23, TABLE 87); a key frozen by the line; the other port that holds a lease (R86); the live
bytes and the directory count that a change would leave (R19, R26). -/
def Obligations.CheckedQuantities : Prop :=
  (∀ k : Key, (userKey k = true ↔ 0x0001 ≤ k.toNat ∧ k.toNat ≤ 0x0EFF) ∧
    (systemKey k = true ↔ k = 0x0F01 ∨ k = 0x0F02 ∨ k = 0x0F03) ∧
    (keyValid k = true ↔ userKey k = true ∨ systemKey k = true)) ∧
  (∀ (s : State) (k : Key),
    s.versionMatches k none = true ∧
    (s.entry k = none → ∀ v, s.versionMatches k (some v) = true ↔ v = 0) ∧
    (∀ e, s.entry k = some e → ∀ v, s.versionMatches k (some v) = true ↔ v ≠ 0 ∧ e.version = v) ∧
    s.version k = ((s.entry k).elim 0 fun e => e.version) ∧
    (s.frozen k = true ↔ userKey k = true ∧ s.freezeLine.toNat ≤ k.toNat)) ∧
  (∀ (k : Key) (v : List Byte),
    (k ≠ 0x0F01 → k ≠ 0x0F02 → k ≠ 0x0F03 → systemValueValid k v = true) ∧
    (systemValueValid 0x0F01 v = true ↔ v.length = 3 ∧ ∀ b ∈ v, b.toNat < 16) ∧
    (systemValueValid 0x0F02 v = true ↔ v.length = 2 ∧ 0x0001 ≤ beNat v ∧ beNat v ≤ 0x0F00) ∧
    (systemValueValid 0x0F03 v = true ↔ v.length = 2 ∧ 1 ≤ beNat v ∧ beNat v ≤ 6000)) ∧
  (∀ v : List Byte,
    ((∃ r, parseRights v = some r) ↔ v.length = 3 ∧ ∀ b ∈ v, b.toNat < 16) ∧
    (∀ k, parseFreezeLine v = some k ↔ v.length = 2 ∧ 0x0001 ≤ beNat v ∧ beNat v ≤ 0x0F00 ∧ k.toNat = beNat v) ∧
    (∀ n, parsePeriod v = some n ↔ v.length = 2 ∧ 1 ≤ beNat v ∧ beNat v ≤ 6000 ∧ n = beNat v) ∧
    beNat [] = 0 ∧ ∀ b, beNat (b :: v) = b.toNat * 256 ^ v.length + beNat v) ∧
  (∀ b : Byte, Rights.ofByte b = ⟨b.getLsbD 0, b.getLsbD 1, b.getLsbD 2, b.getLsbD 3⟩) ∧
  (∀ (a b c : Byte) (r : PerPort Rights), parseRights [a, b, c] = some r →
    ∀ x ∈ [(r.a, a), (r.b, b), (r.c, c)], x.1 = ⟨x.2.getLsbD 0, x.2.getLsbD 1, x.2.getLsbD 2, x.2.getLsbD 3⟩) ∧
  (∀ r : PerPort Rights, grantsAdmin r = true ↔ ∃ p, (r.get p).admin = true) ∧
  (∀ (s : State) (p q : Port) (k : Key),
    s.heldByOther p k = some q ↔ q ≠ p ∧ ∃ e, s.leaseOf k = some e ∧ e.holder = q) ∧
  ∀ (s : State),
    (∀ c : Change, s.liveAfterWrite c = s.storeLive + (16 + 8 * ((c.value.length + 7) / 8)) -
      ((s.entry c.key).elim 0 fun e => 16 + 8 * ((e.length + 7) / 8))) ∧
    (∀ ms : List Member, liveAfterGroup s ms = s.storeLive
      + ((ms.filter fun m => !m.delete).map fun m => 16 + 8 * ((m.value.length + 7) / 8)).sum
      - (ms.map fun m => (s.entry m.key).elim 0 fun e => 16 + 8 * ((e.length + 7) / 8)).sum) ∧
    ∀ m : Member, Member.countChange s m =
      if m.delete = false ∧ s.entry m.key = none then 1
      else if m.delete = true ∧ s.entry m.key ≠ none then -1
      else 0

/-- The quantities derived from the state. The head is the OPEN sector; the ring is the sectors OPEN, CLOSED and RECLAIMING by
ascending generation, and its first is the tail (R7); the free pool is the ERASED sectors with erase pending clear, and usable
is 64 less the retired (R8); live bytes, live budget, record sizes and lines (R14, R18, R19); what fits in the head (R15); the
claim count of a port (R74); the credits and the tags in use (R162); what a look-up in the directory and the lease table finds,
also after an element has been put in (R23, R72), and that putting one in keeps the ascending key order, which R23 gives the
directory, while that the lease table is held in it is the model's choice (log 23); which port, session and sector a letter or
an index names. -/
def Obligations.DerivedQuantities : Prop :=
  (∀ s : State,
    (∀ h, s.head? = some h → h < s.sectors.length ∧ (s.sector h).state = .opened) ∧
    (s.head? = none ↔ ∀ i, i < s.sectors.length → (s.sector i).state ≠ .opened) ∧
    (∀ i, i ∈ s.ring ↔ i < s.sectors.length ∧
      ((s.sector i).state = .opened ∨ (s.sector i).state = .closed ∨ (s.sector i).state = .reclaiming)) ∧
    s.ring.Nodup ∧
    s.ring.Pairwise (fun i j => (s.sector i).generationNat < (s.sector j).generationNat ∨
      ((s.sector i).generationNat = (s.sector j).generationNat ∧ i < j)) ∧
    s.tail? = s.ring.head? ∧
    (∀ i, i ∈ s.freePool ↔ i < s.sectors.length ∧ (s.sector i).state = .erased ∧ (s.sector i).erasePending = false) ∧
    s.freePool.Nodup ∧ s.freeCount = s.freePool.length ∧
    s.usable = 64 - (s.sectors.filter fun e => decide (e.state = .retired)).length ∧
    s.storeLive = (s.sectors.map Sector.live).sum ∧ s.liveBudget = (s.usable - 3) * 2008 ∧
    (∀ n, s.fitsHead n = true ↔ ∃ h, s.head? = some h ∧ n ≤ 251 - (s.sector h).fill) ∧
    (∀ k, s.entry k = (s.directory.find? fun e => decide (e.key = k)) ∧
      s.leaseOf k = s.leases.find? fun e => decide (e.key = k)) ∧
    ∀ p,
      let parked := (s.session p).parked.toList.map Prod.snd
      s.claimCount p = (s.leases.filter fun e => decide (e.holder = p)).length + parked.length +
        ((s.session p).notices.filter fun n => n.lapsed).length ∧
      s.waiterOf p = ((s.leases.flatMap Lease.waiters).find? fun w => decide (w.port = p)) ∧
      s.tagsInUse p = (s.port p).queue.map Request.tag ++ (s.port p).inService.toList ++ parked ++
        (s.port p).replies.map Reply.tag ∧
      s.creditsInUse p = (s.tagsInUse p).length ∧ s.freeCredits p = 4 - s.creditsInUse p) ∧
  (∀ (x : DirEntry) (l : List DirEntry),
    (∀ k, ((insertKeyed DirEntry.key x l).find? fun e => decide (e.key = k)) =
      if x.key = k then some x else l.find? fun e => decide (e.key = k)) ∧
    (l.Pairwise (fun a b => a.key.toNat < b.key.toNat) →
      (insertKeyed DirEntry.key x l).Pairwise fun a b => a.key.toNat < b.key.toNat)) ∧
  (∀ (x : Lease) (l : List Lease),
    (∀ k, ((insertKeyed Lease.key x l).find? fun e => decide (e.key = k)) =
      if x.key = k then some x else l.find? fun e => decide (e.key = k)) ∧
    (l.Pairwise (fun a b => a.key.toNat < b.key.toNat) →
      (insertKeyed Lease.key x l).Pairwise fun a b => a.key.toNat < b.key.toNat)) ∧
  (∀ (s : State) (p q : Port) (u : PortUnit) (x : Session) (i : Nat),
    (s.inReset = true ↔ s.resetPin = true ∨ s.powerHold = true) ∧
    (s.port .A = s.ports.a ∧ s.port .B = s.ports.b ∧ s.port .C = s.ports.c) ∧
    (s.session .A = s.sessions.a ∧ s.session .B = s.sessions.b ∧ s.session .C = s.sessions.c) ∧
    (s.setPort p u = { s with ports := s.ports.set p u } ∧ (s.setPort p u).port q = if q = p then u else s.port q) ∧
    (s.setSession p x = { s with sessions := s.sessions.set p x } ∧
      (s.setSession p x).session q = if q = p then x else s.session q) ∧
    ∀ h : i < s.sectors.length, s.sector i = s.sectors[i]) ∧
  (∀ e : Sector, e.generationNat = e.generation.elim 0 BitVec.toNat) ∧
  (∀ r : RecordSpec, r.lines = 2 + (r.value.length + 7) / 8) ∧
  (∀ rs : List RecordSpec, totalLines rs = (rs.map RecordSpec.lines).sum) ∧
  ∀ e : DirEntry, e.size = 16 + 8 * ((e.length + 7) / 8)

/-- WRITE takes steps 1 to 14 in order; the first that fails is its reply and nothing else changes; one that passes them
all begins the placement of a VALUE record. DELETE takes steps 1 to 9, 13 and 14 in order; one that passes them begins the
placement of a TOMBSTONE. -/
def Obligations.WriteAndDeleteTakeTheirSteps : Prop :=
  (∀ (s : State) (p : Port) (r : Request), s.granted p r 0x06 →
    exec .write s = .next (
      if (s.session p).isOpen = false then s.answer p r.tag .noSession []
      else match parseWrite r.body with
        | none => s.answer p r.tag .malformed []
        | some c =>
          if s.mode = .blank then s.answer p r.tag .blank []
          else if (s.session p).rights.write = false then s.answer p r.tag .denied []
          else if systemKey c.key = true ∧ ((s.session p).rights.admin = false ∨
              (c.key = 0x0F01 ∧ ¬∃ v, parseRights c.value = some v ∧ grantsAdmin v = true)) then
            s.answer p r.tag .denied []
          else if keyValid c.key = false then s.answer p r.tag .badKey []
          else if s.mode = .readOnly then s.answer p r.tag .readOnly []
          else if userKey c.key = true ∧ s.freezeLine.toNat ≤ c.key.toNat then s.answer p r.tag .frozen []
          else if c.key = 0x0F02 ∧ s.freezeLine.toNat < beNat c.value then s.answer p r.tag .frozen []
          else match s.heldByOther p c.key with
            | some q => s.answer p r.tag .held [Port.code q]
            | none =>
              if s.versionMatches c.key c.expected = false then
                s.answer p r.tag .stale (beBytes 6 (s.version c.key).toNat)
              else if s.entry c.key = none ∧ 1024 ≤ s.directory.length then s.answer p r.tag .noRoom []
              else if 240 < c.value.length then s.answer p r.tag .tooLong []
              else if s.liveBudget < s.liveAfterWrite c ∧ s.storeLive < s.liveAfterWrite c then
                s.answer p r.tag .noSpace []
              else if s.fitsHead (2 + (c.value.length + 7) / 8) = false ∧ s.freeCount < 3 then
                s.answer p r.tag .retry []
              else if s.supply = .guard then s.answer p r.tag .hold []
              else s.startPlacement
                ⟨.write p r.tag, [⟨.value, false, c.key, c.value, 0, 0⟩], none, 0, .closing 0⟩)) ∧
  ∀ (s : State) (p : Port) (r : Request), s.granted p r 0x07 →
    exec .delete s = .next (
      if (s.session p).isOpen = false then s.answer p r.tag .noSession []
      else match parseDelete r.body with
        | none => s.answer p r.tag .malformed []
        | some c =>
          if s.mode = .blank then s.answer p r.tag .blank []
          else if (s.session p).rights.write = false ∨ systemKey c.key = true then s.answer p r.tag .denied []
          else if keyValid c.key = false then s.answer p r.tag .badKey []
          else if s.mode = .readOnly then s.answer p r.tag .readOnly []
          else if userKey c.key = true ∧ s.freezeLine.toNat ≤ c.key.toNat then s.answer p r.tag .frozen []
          else match s.heldByOther p c.key with
            | some q => s.answer p r.tag .held [Port.code q]
            | none =>
              if s.versionMatches c.key c.expected = false then
                s.answer p r.tag .stale (beBytes 6 (s.version c.key).toNat)
              else if s.entry c.key = none then s.answer p r.tag .notFound []
              else if s.fitsHead 2 = false ∧ s.freeCount < 3 then s.answer p r.tag .retry []
              else if s.supply = .guard then s.answer p r.tag .hold []
              else s.startPlacement ⟨.delete p r.tag, [⟨.tombstone, false, c.key, [], 0, 0⟩], none, 0, .closing 0⟩)

/-- The first lines of a placement: at the fill of a head with room, the records taking the next sequences unless they have
theirs already (a reclaim copy, a retry, a WIPE placed again); else the head's CLOSED marker; else line 0 of the free sector of
lowest erase count and then lowest index, which takes the next generation. A verified header line 0 is followed by line 1, and
a verified line of a record by the record's next line. -/
def Obligations.PlacementProgramsLineByLine : Prop :=
  (∀ (s : State) (pl : Placement), pl.records ≠ [] →
    (∀ h, s.head? = some h → totalLines pl.records ≤ 251 - (s.sector h).fill →
      let first := pl.firstSeq.getD s.nextSeq
      s.startPlacement pl = { s with
        nextSeq := if pl.firstSeq = none then s.nextSeq + BitVec.ofNat 48 pl.records.length else s.nextSeq
        work := .place { pl with firstSeq := some first, phase := .body h (s.sector h).fill 0 0 }
        controller := .programming h (5 + (s.sector h).fill)
          ((pl.records.head?.elim [] fun r => r.bytes first first).take 8) }) ∧
    (∀ h, s.head? = some h → 251 - (s.sector h).fill < totalLines pl.records →
      s.startPlacement pl = { s with
        work := .place { pl with phase := .closing h }
        controller := .programming h 2 (List.replicate 8 0x0C) }) ∧
    ∀ i, s.head? = none → pl.threshold ≤ s.freeCount → i ∈ s.freePool →
      (∀ j ∈ s.freePool, (s.sector i).eraseCount < (s.sector j).eraseCount ∨
        ((s.sector i).eraseCount = (s.sector j).eraseCount ∧ i ≤ j)) →
      s.startPlacement pl = { s with
        sectors := s.sectors.set i { s.sector i with generation := some s.nextGen }
        nextGen := s.nextGen + 1
        work := .place { pl with phase := .line0 i }
        controller := .programming i 0
          (beBytes 2 0x4A52 ++ beBytes 2 (s.sector i).eraseCount ++ beBytes 4 s.nextGen.toNat) }) ∧
  ∀ (s : State) (pl : Placement) (i ln : Nat) (data : List Byte), s.work = .place pl →
    s.controller = .programming i ln data → readLine (programBytes s.flash (lineAddress i ln) data) i ln = data →
    (pl.phase = .line0 i →
      exec (.lineProgramComplete .good) s = .next { s with
        flash := programBytes s.flash (lineAddress i ln) data
        work := .place { pl with phase := .line1 i }
        controller := .programming i 1
          ((headerBytes (s.sector i).eraseCount ((s.sector i).generation.getD 0) s.nextSeq).drop 8) }) ∧
    ∀ (base k l : Nat) (r : RecordSpec) (q : SeqNo), pl.phase = .body i base k l → pl.records[k]? = some r →
      pl.firstSeq = some q → l + 1 < r.lines →
      exec (.lineProgramComplete .good) s = .next { s with
        flash := programBytes s.flash (lineAddress i ln) data
        work := .place { pl with phase := .body i base k (l + 1) }
        controller := .programming i (5 + (base + totalLines (pl.records.take k)) + (l + 1))
          (((r.bytes q (q + BitVec.ofNat 48 k)).drop (8 * (l + 1))).take 8) }

/-- The next head of a placement. The old head's CLOSED marker, verified or not, is followed by the open. A verified header
line 1 makes the sector the OPEN head with fill 0, and the first record line follows. A header line that fails flags the sector
suspect and has its RETIRED marker programmed; then comes the READ_ONLY entry test, and the threshold again (where that test
ends the placement with READ_ONLY is the model's reading, log 20; so is that the marker does not read the supply, log 29).
Before a group's next record the supply is read, and in GUARD the commit ends with HOLD. The thresholds are those of TABLE 12:
3 free sectors for a WRITE, a DELETE or a commit at its first attempt, 2 for its retries and for a reclaim copy, 1 for a WIPE.
The free sector chosen takes the next generation, and its line 0 is
programmed. A placement that loses its threshold ends as its kind asks: RETRY, READ_ONLY, or the erase of FORMAT's case 3. -/
def Obligations.PlacementOpensNextHead : Prop :=
  (∀ (s : State) (pl : Placement) (i ln : Nat) (data : List Byte) (res : LineResult), s.work = .place pl →
    s.controller = .programming i ln data →
    let f := programBytes s.flash (lineAddress i ln) (LineResult.bits data res)
    let ok := decide (readLine f i ln = data)
    let u := { s with controller := .idle, flash := f }
    let first := pl.firstSeq.getD s.nextSeq
    (pl.phase = .closing i → exec (.lineProgramComplete res) s = .next (({ u with
      sectors := s.sectors.set i { s.sector i with
        state := .closed, suspect := (s.sector i).suspect || !ok } }).tryOpen pl)) ∧
    (pl.phase = .line1 i → ok = true → exec (.lineProgramComplete res) s = .next { u with
      sectors := s.sectors.set i { s.sector i with state := .opened, fill := 0, live := 0 }
      nextSeq := if pl.firstSeq = none then s.nextSeq + BitVec.ofNat 48 pl.records.length else s.nextSeq
      work := .place { pl with firstSeq := some first, phase := .body i 0 0 0 }
      controller := .programming i 5 ((pl.records.head?.elim [] fun r => r.bytes first first).take 8) }) ∧
    (pl.phase = .line0 i ∨ pl.phase = .line1 i → ok = false → exec (.lineProgramComplete res) s = .next { u with
      sectors := s.sectors.set i { s.sector i with suspect := true }
      work := .place { pl with phase := .retiring i }
      controller := .programming i 4 (List.replicate 8 0x00) }) ∧
    (pl.phase = .retiring i →
      let v := { u with sectors := s.sectors.set i { s.sector i with
        state := .retired, suspect := (s.sector i).suspect || !ok, erasePending := false } }
      exec (.lineProgramComplete res) s = .next (
        if s.mode = .ready ∧ (v.usable < 8 ∨ v.liveBudget < v.storeLive ∨ v.freeCount = 0) then
          ({ v with mode := .readOnly }).endPlacement pl .readOnly
        else v.tryOpen pl)) ∧
    ∀ (base k l : Nat) (r next : RecordSpec) (q : SeqNo) (p : Port) (tag : Byte), pl.phase = .body i base k l →
      pl.goal = .commit p tag → pl.records[k]? = some r → pl.records[k + 1]? = some next → l + 1 = r.lines →
      pl.firstSeq = some q → ok = true →
      let v := { u with sectors := s.sectors.set i { s.sector i with fill := (s.sector i).fill + r.lines } }
      exec (.lineProgramComplete res) s = .next (
        if s.supply = .guard then v.answer p tag .hold []
        else { v with
          work := .place { pl with phase := .body i base (k + 1) 0 }
          controller := .programming i (5 + (base + totalLines (pl.records.take (k + 1))))
            ((next.bytes q (q + BitVec.ofNat 48 (k + 1))).take 8) })) ∧
  (∀ pl : Placement,
    (∀ p tag, pl.goal = .write p tag ∨ pl.goal = .delete p tag ∨ pl.goal = .commit p tag →
      pl.threshold = if pl.attempts = 0 then 3 else 2) ∧
    (∀ line, pl.goal = .copy line → pl.threshold = 2) ∧
    ∀ p tag, pl.goal = .wipe p tag → pl.threshold = 1) ∧
  ∀ (s : State) (pl : Placement),
    (∀ i, s.openSector pl i = { s with
      sectors := s.sectors.set i { s.sector i with generation := some s.nextGen }
      nextGen := s.nextGen + 1
      work := .place { pl with phase := .line0 i }
      controller := .programming i 0 (beBytes 2 0x4A52 ++ beBytes 2 (s.sector i).eraseCount ++ beBytes 4 s.nextGen.toNat) }) ∧
    (∀ i ∈ s.freePool, pl.threshold ≤ s.freeCount →
      (∀ j ∈ s.freePool, (s.sector i).eraseCount < (s.sector j).eraseCount ∨
        ((s.sector i).eraseCount = (s.sector j).eraseCount ∧ i ≤ j)) → s.tryOpen pl = s.openSector pl i) ∧
    (s.freeCount < pl.threshold →
      (∀ p tag, pl.goal = .write p tag ∨ pl.goal = .delete p tag ∨ pl.goal = .commit p tag →
        s.tryOpen pl = if pl.attempts = 0 then s.answer p tag .retry []
          else ({ s with mode := .readOnly }).answer p tag .readOnly []) ∧
      (∀ line, pl.goal = .copy line → s.tryOpen pl = { s with mode := .readOnly, work := .idle }) ∧
      ∀ p tag, pl.goal = .wipe p tag → s.tryOpen pl = s.wipeErase ⟨p, tag, .paused, pl.firstSeq, 0⟩) ∧
    (∀ p tag st, pl.goal = .write p tag ∨ pl.goal = .delete p tag ∨ pl.goal = .commit p tag →
      s.endPlacement pl st = s.answer p tag st []) ∧
    ∀ line st, pl.goal = .copy line → s.endPlacement pl st = { s with work := .idle }

/-- The last line of a WRITE's or a DELETE's record is verified: the fill rises, the entry is set or removed, the new record's
size joins the live bytes of its sector and the old one's leaves its own, a system key's value is put in force, the other
sessions get their postings, and the reply carries the sequence. Every other key keeps its entry, and every other value in
force stands. Of the sector table the entries move live bytes alone; an entry set or removed changes nothing else but the
directory, a value put in force nothing but the three values, and a posting nothing but the sessions. The last line of FORMAT's WIPE record is verified: the fill rises by its 2 lines and the erases of R157 begin,
from the first sector. -/
def Obligations.VerifiedRecordChangesDirectory : Prop :=
  (⟨.wipe, false, 0, [], 0, 0⟩ : RecordSpec).lines = 2 ∧
  (∀ (s : State) (p : Port) (tag : Byte) (rec : RecordSpec) (q : SeqNo) (pl : Placement) (h base l ln : Nat)
    (data : List Byte),
    s.work = .place pl → pl.records = [rec] → pl.firstSeq = some q → pl.phase = .body h base 0 l → l + 1 = rec.lines →
    s.controller = .programming h ln data →
    readLine (programBytes s.flash (lineAddress h ln) data) h ln = data →
    let u := { s with
      controller := .idle
      flash := programBytes s.flash (lineAddress h ln) data
      sectors := s.sectors.set h { s.sector h with fill := (s.sector h).fill + rec.lines } }
    (pl.goal = .write p tag →
      exec (.lineProgramComplete .good) s = .next ((((u.setEntry
        ⟨rec.key, q, rec.value.length, h, 8 * base, false⟩).setInForce rec.key rec.value).postChanged p rec.key q).answer p
          tag .ok (beBytes 6 q.toNat))) ∧
    (pl.goal = .delete p tag →
      exec (.lineProgramComplete .good) s = .next (((u.removeEntry rec.key).postChanged p rec.key 0).answer p tag .ok
        (beBytes 6 q.toNat))) ∧
    (pl.goal = .wipe p tag →
      exec (.lineProgramComplete .good) s = .next (u.sweepFrom ⟨p, tag, .paused, some q, 0⟩ 0))) ∧
  ∀ (s : State) (e : DirEntry) (k : Key) (value : List Byte),
    (s.setEntry e = { s with directory := (s.setEntry e).directory, sectors := (s.setEntry e).sectors } ∧
      s.removeEntry k = { s with directory := (s.removeEntry k).directory, sectors := (s.removeEntry k).sectors } ∧
      s.setInForce k value = { s with
        rightsInForce := (s.setInForce k value).rightsInForce
        freezeLine := (s.setInForce k value).freezeLine
        defaultPeriod := (s.setInForce k value).defaultPeriod } ∧
      (∀ p v, s.postChanged p k v = { s with sessions := (s.postChanged p k v).sessions }) ∧
      ∀ t, t = s.setEntry e ∨ t = s.removeEntry k → t.sectors.length = s.sectors.length ∧
        ∀ i, t.sector i = { s.sector i with live := (t.sector i).live }) ∧
    (s.setEntry e).entry e.key = some e ∧ (∀ j, j ≠ e.key → (s.setEntry e).entry j = s.entry j) ∧
    (s.removeEntry k).entry k = none ∧ (∀ j, j ≠ k → (s.removeEntry k).entry j = s.entry j) ∧
    (e.sector < s.sectors.length → s.entry e.key = none → (s.setEntry e).storeLive = s.storeLive + e.size) ∧
    (∀ o, s.entry k = some o → o.sector < s.sectors.length → o.size ≤ (s.sector o.sector).live →
      (s.removeEntry k).storeLive + o.size = s.storeLive ∧
      (e.key = k → e.sector < s.sectors.length → (s.setEntry e).storeLive + o.size = s.storeLive + e.size)) ∧
    (let old := fun (j : Key) (i : Nat) => (s.entry j).elim 0 fun o => if o.sector = i then o.size else 0;
      (∀ i, old k i ≤ (s.sector i).live) → e.key = k → e.sector < s.sectors.length → ∀ i,
        ((s.removeEntry k).sector i).live + old k i = (s.sector i).live ∧
        ((s.setEntry e).sector i).live + old k i = (s.sector i).live + if e.sector = i then e.size else 0) ∧
    (∀ (p : Port) (v : SeqNo), (s.postChanged p k v).session p = s.session p ∧ ∀ q, q ≠ p →
      let x := s.session q
      let posted := postNotice k (Notice.markChanged v) x.notices
      (s.postChanged p k v).session q =
        { x with notices := if x.isOpen = true ∧ k ∈ x.watch then posted else x.notices }) ∧
    (k ≠ 0x0F01 → (s.setInForce k value).rightsInForce = s.rightsInForce) ∧
    (k ≠ 0x0F02 → (s.setInForce k value).freezeLine = s.freezeLine) ∧
    (k ≠ 0x0F03 → (s.setInForce k value).defaultPeriod = s.defaultPeriod) ∧
    (∀ v, parseRights value = some v → (s.setInForce 0x0F01 value).rightsInForce = v) ∧
    (∀ hi lo, value = [hi, lo] → 1 ≤ beNat value → beNat value ≤ 0x0F00 →
      (s.setInForce 0x0F02 value).freezeLine.toNat = beNat value) ∧
    ∀ hi lo, value = [hi, lo] → 1 ≤ beNat value → beNat value ≤ 6000 →
      (s.setInForce 0x0F03 value).defaultPeriod = beNat value

/-- A record line fails its verify: the sector is flagged suspect, its CLOSED marker is programmed, the attempt is counted;
directory, fill and sequence stay; so it is also where good flash cannot give the line what was asked, its bits not being erased
(R135). Once that head is closed, a client append ends with READ_ONLY after its third failure,
with HOLD in GUARD, with READ_ONLY when free is below 2, and else opens the next head for the same records, in the free sector of
lowest erase count and then of lowest index; a reclaim copy
does the same and its step ends; a WIPE is placed again without limit, and in GUARD FORMAT pauses first. -/
def Obligations.FailedLineIsRetriedInNextHead : Prop :=
  (∀ (s : State) (pl : Placement) (h base k l ln : Nat) (data : List Byte) (res : LineResult),
    s.work = .place pl → pl.phase = .body h base k l → s.controller = .programming h ln data →
    let bits := match res with | .good => data | .faulty left => left.take 8
    readLine (programBytes s.flash (lineAddress h ln) bits) h ln ≠ data →
    exec (.lineProgramComplete res) s = .next { s with
      flash := programBytes s.flash (lineAddress h ln) bits
      sectors := s.sectors.set h { s.sector h with suspect := true }
      work := .place { pl with phase := .closingFailed h, attempts := pl.attempts + 1 }
      controller := .programming h 2 (List.replicate 8 0x0C) }) ∧
  (∀ (s : State) (pl : Placement) (h : Nat) (data : List Byte) (res : LineResult),
    s.work = .place pl → pl.phase = .closingFailed h → s.controller = .programming h 2 data →
    let m := programBytes s.flash (lineAddress h 2) (LineResult.bits data res)
    exec (.lineProgramComplete res) s = .next (({ s with
      controller := .idle
      flash := m
      sectors := s.sectors.set h { s.sector h with
        state := .closed, suspect := (s.sector h).suspect || !decide (readLine m h 2 = data) } }).afterFailure pl)) ∧
  (∀ (s : State) (pl : Placement) (line : Nat), pl.goal = .copy line →
    (3 ≤ pl.attempts → s.afterFailure pl = { s with mode := .readOnly, work := .idle }) ∧
    (pl.attempts < 3 → s.supply = .guard → s.afterFailure pl = { s with work := .idle }) ∧
    (pl.attempts < 3 → s.supply = .normal → s.freeCount < 2 →
      s.afterFailure pl = { s with mode := .readOnly, work := .idle }) ∧
    (pl.attempts < 3 → s.supply = .normal → 2 ≤ s.freeCount →
      s.afterFailure pl = s.tryOpen pl ∧ ∃ i ∈ s.freePool,
        (∀ j ∈ s.freePool, (s.sector i).eraseCount < (s.sector j).eraseCount ∨
          ((s.sector i).eraseCount = (s.sector j).eraseCount ∧ i ≤ j)) ∧ s.afterFailure pl = s.openSector pl i)) ∧
  (∀ (s : State) (pl : Placement) (p : Port) (tag : Byte), pl.goal = .wipe p tag →
    s.afterFailure pl = if s.supply = .normal then s.wipePlace ⟨p, tag, .paused, pl.firstSeq, 0⟩
      else { s with work := .format ⟨p, tag, .paused, pl.firstSeq, 0⟩ }) ∧
  ∀ (s : State) (pl : Placement) (p : Port) (tag : Byte),
    pl.goal = .write p tag ∨ pl.goal = .delete p tag ∨ pl.goal = .commit p tag → 1 ≤ pl.attempts →
    (3 ≤ pl.attempts → s.afterFailure pl = ({ s with mode := .readOnly }).answer p tag .readOnly []) ∧
    (pl.attempts < 3 → s.supply = .guard → s.afterFailure pl = s.answer p tag .hold []) ∧
    (pl.attempts < 3 → s.supply = .normal → s.freeCount < 2 →
      s.afterFailure pl = ({ s with mode := .readOnly }).answer p tag .readOnly []) ∧
    (pl.attempts < 3 → s.supply = .normal → 2 ≤ s.freeCount →
      s.afterFailure pl = s.tryOpen pl ∧ ∃ i ∈ s.freePool,
        (∀ j ∈ s.freePool, (s.sector i).eraseCount < (s.sector j).eraseCount ∨
          ((s.sector i).eraseCount = (s.sector j).eraseCount ∧ i ≤ j)) ∧ s.afterFailure pl = s.openSector pl i)

/-! ### Claims -/

/-- CLAIM: steps 1 to 5, then the outcomes of TABLE 44; where an entry stands in the lease table is the model's choice
(log 23). -/
def Obligations.ClaimOutcomesOfTable44 : Prop :=
  ∀ (s : State) (p : Port) (r : Request), s.granted p r 0x08 →
    exec .claim s = .next (
      if (s.session p).isOpen = false then s.answer p r.tag .noSession []
      else match r.body with
        | [hi, lo, p1, p0, w1, w0] =>
          let k := keyOfBytes hi lo
          let period := beNat [p1, p0]
          let wait := beNat [w1, w0]
          let used := if period = 0 then s.defaultPeriod else period
          if 6000 < period ∨ 6000 < wait then s.answer p r.tag .malformed []
          else if s.mode = .blank then s.answer p r.tag .blank []
          else if (s.session p).rights.claim = false then s.answer p r.tag .denied []
          else if keyValid k = false then s.answer p r.tag .badKey []
          else match s.leaseOf k with
            | none =>
              if 4 ≤ s.claimCount p then s.answer p r.tag .limit []
              else
                let e : Lease := ⟨k, p, used, s.leaseClock + BitVec.ofNat 32 (used + 1), []⟩
                ({ s with leases := insertKeyed Lease.key e s.leases }).answer p r.tag .ok (1 :: beBytes 2 used)
            | some e =>
              if e.holder = p then
                let e' := { e with period := used, expiry := s.leaseClock + BitVec.ofNat 32 (used + 1) }
                ({ s with leases := insertKeyed Lease.key e' s.leases }).answer p r.tag .ok (2 :: beBytes 2 used)
              else if wait = 0 then s.answer p r.tag .held [Port.code e.holder]
              else if (s.session p).parked ≠ none then s.answer p r.tag .waitBusy []
              else if 4 ≤ s.claimCount p then s.answer p r.tag .limit []
              else
                let w : Waiter := ⟨p, r.tag, period, s.leaseClock + BitVec.ofNat 32 (wait + 1)⟩
                { s with
                work := .idle
                leases := insertKeyed Lease.key { e with waiters := e.waiters ++ [w] } s.leases
                sessions := s.sessions.set p { s.session p with parked := some (k, r.tag) }
                ports := s.ports.set p { s.port p with inService := none } }
        | _ => s.answer p r.tag .malformed [])

/-- RENEW: the holder's period and expiry are replaced; any other port is told the present holder. RELEASE by the holder ends
the lease and names the new holder or none; any other port is told the present holder. A lease that ends passes to its oldest
waiter, who is answered OK GRANTED under the tag of its CLAIM, or is removed. -/
def Obligations.RenewAndReleaseOwnLease : Prop :=
  (∀ (s : State) (p : Port) (r : Request), s.granted p r 0x09 →
    exec .renew s = .next (
      if (s.session p).isOpen = false then s.answer p r.tag .noSession []
      else match r.body with
        | [hi, lo, p1, p0] =>
          let k := keyOfBytes hi lo
          let period := beNat [p1, p0]
          let used := if period = 0 then s.defaultPeriod else period
          if 6000 < period then s.answer p r.tag .malformed []
          else if s.mode = .blank then s.answer p r.tag .blank []
          else if (s.session p).rights.claim = false then s.answer p r.tag .denied []
          else if keyValid k = false then s.answer p r.tag .badKey []
          else match s.leaseOf k with
            | none => s.answer p r.tag .notHeld [0]
            | some e =>
              if e.holder = p then
                let e' := { e with period := used, expiry := s.leaseClock + BitVec.ofNat 32 (used + 1) }
                ({ s with leases := insertKeyed Lease.key e' s.leases }).answer p r.tag .ok (beBytes 2 used)
              else s.answer p r.tag .notHeld [Port.code e.holder]
        | _ => s.answer p r.tag .malformed [])) ∧
  (∀ (s : State) (p : Port) (r : Request), s.granted p r 0x0A →
    exec .release s = .next (
      if (s.session p).isOpen = false then s.answer p r.tag .noSession []
      else match r.body with
        | [hi, lo] =>
          let k := keyOfBytes hi lo
          if s.mode = .blank then s.answer p r.tag .blank []
          else if (s.session p).rights.claim = false then s.answer p r.tag .denied []
          else if keyValid k = false then s.answer p r.tag .badKey []
          else match s.leaseOf k with
            | none => s.answer p r.tag .notHeld [0]
            | some e =>
              if e.holder = p then
                (s.endLease k).answer p r.tag .ok [(e.waiters.head?.elim 0 fun w => Port.code w.port)]
              else s.answer p r.tag .notHeld [Port.code e.holder]
        | _ => s.answer p r.tag .malformed [])) ∧
  ∀ (s : State) (k : Key) (e : Lease), s.leaseOf k = some e →
    (e.waiters = [] → s.endLease k = { s with leases := s.leases.filter fun x => x.key != k }) ∧
    ∀ w rest, e.waiters = w :: rest →
      let used := if w.period = 0 then s.defaultPeriod else w.period
      let e' : Lease := ⟨e.key, w.port, used, s.leaseClock + BitVec.ofNat 32 (used + 1), rest⟩
      s.endLease k = ({ s with
        leases := insertKeyed Lease.key e' s.leases
        sessions := s.sessions.set w.port { s.session w.port with parked := none } }).handReply w.port
          ⟨w.tag, .ok, 1 :: beBytes 2 used⟩

/-- An advance of the lease clock raises it by one modulo 2^32 and takes every expiry it then stands at. LEASE_EXPIRY and
WAIT_EXPIRY are the advance that reaches that expiry (the model's reading, log 12), taken first, then those listed with it, then
the others in the order that LEASE_CLOCK_ADVANCE takes them all (the model's choice, log 13); where the next advance does not
reach it, or there is no such lease or waiter, they are no event (the model's choice, log 2). An expiry of a lease ends it with
a lapsed posting to its holder; one of a wait removes the parked claim and answers it TIMEOUT. With no expiry at the next value
nothing but the clock changes. -/
def Obligations.LeaseClockTakesExpiries : Prop :=
  (∀ s : State, s.inReset = false →
    let advance := fun (first : List Expiry) => (first ++ (s.leases.map fun (e : Lease) => Expiry.lease e.key) ++
      [Expiry.wait .A, Expiry.wait .B, Expiry.wait .C]).foldl State.takeExpiry { s with leaseClock := s.leaseClock + 1 }
    exec .leaseClockAdvance s = .next (advance []) ∧
    (∀ (k : Key) (others : List Expiry) (e : Lease), s.leaseOf k = some e → exec (.leaseExpiry ⟨k, others⟩) s =
      .next (if e.expiry = s.leaseClock + 1 then advance (.lease k :: others) else s)) ∧
    (∀ (k : Key) (others : List Expiry), s.leaseOf k = none → exec (.leaseExpiry ⟨k, others⟩) s = .next s) ∧
    (∀ (p : Port) (others : List Expiry) (w : Waiter), s.waiterOf p = some w → exec (.waitExpiry ⟨p, others⟩) s =
      .next (if w.waitExpiry = s.leaseClock + 1 then advance (.wait p :: others) else s)) ∧
    (∀ (p : Port) (others : List Expiry), s.waiterOf p = none → exec (.waitExpiry ⟨p, others⟩) s = .next s) ∧
    ∀ first : List Expiry, (advance first).leaseClock = s.leaseClock + 1 ∧ (advance first).directory = s.directory ∧
      (advance first).sectors = s.sectors ∧ (advance first).flash = s.flash ∧ (advance first).work = s.work ∧
      (advance first).mode = s.mode ∧ (advance first).supply = s.supply ∧ (advance first).controller = s.controller ∧
      ((∀ e ∈ s.leases, e.expiry ≠ s.leaseClock + 1 ∧ ∀ w ∈ e.waiters, w.waitExpiry ≠ s.leaseClock + 1) →
        advance first = { s with leaseClock := s.leaseClock + 1 })) ∧
  ∀ s : State,
    (∀ (k : Key) (e : Lease), s.leaseOf k = some e →
      let x := s.session e.holder
      s.takeExpiry (.lease k) = if e.expiry = s.leaseClock then
        (s.setSession e.holder { x with notices := postNotice k Notice.markLapsed x.notices }).endLease k
        else s) ∧
    (∀ k, s.leaseOf k = none → s.takeExpiry (.lease k) = s) ∧
    (∀ (p : Port) (w : Waiter), s.waiterOf p = some w →
      let drop : Lease → Lease := fun e => { e with waiters := e.waiters.filter fun x => !decide (x.port = p) }
      let t := { s with
        leases := s.leases.map drop
        sessions := s.sessions.set p { s.session p with parked := none } }
      s.takeExpiry (.wait p) = if w.waitExpiry = s.leaseClock then t.handReply p ⟨w.tag, .timeout, []⟩ else s) ∧
    ∀ p, s.waiterOf p = none → s.takeExpiry (.wait p) = s

/-! ### Watches and notices -/

/-- WATCH: a key already watched is OK; a full list is LIMIT; else the key is appended. UNWATCH: a watched key leaves the list
and its changed flag is cleared, if an entry is present, with the entry when no flag is left; the reply says whether the key was
there. -/
def Obligations.WatchAndUnwatchChangeList : Prop :=
  (∀ (s : State) (p : Port) (r : Request), s.granted p r 0x0B →
    exec .watch s = .next (
      if (s.session p).isOpen = false then s.answer p r.tag .noSession []
      else match r.body with
        | [hi, lo] =>
          let k := keyOfBytes hi lo
          if s.mode = .blank then s.answer p r.tag .blank []
          else if (s.session p).rights.read = false then s.answer p r.tag .denied []
          else if keyValid k = false then s.answer p r.tag .badKey []
          else if k ∈ (s.session p).watch then s.answer p r.tag .ok (beBytes 6 ((s.entry k).elim 0 fun e => e.version.toNat))
          else if 16 ≤ (s.session p).watch.length then s.answer p r.tag .limit []
          else (s.setSession p { s.session p with watch := (s.session p).watch ++ [k] }).answer p r.tag .ok
            (beBytes 6 ((s.entry k).elim 0 fun e => e.version.toNat))
        | _ => s.answer p r.tag .malformed [])) ∧
  (∀ (s : State) (p : Port) (r : Request), s.granted p r 0x0C →
    exec .unwatch s = .next (
      if (s.session p).isOpen = false then s.answer p r.tag .noSession []
      else match r.body with
        | [hi, lo] =>
          let k := keyOfBytes hi lo
          if s.mode = .blank then s.answer p r.tag .blank []
          else if keyValid k = false then s.answer p r.tag .badKey []
          else if k ∈ (s.session p).watch then
            (s.setSession p { s.session p with
              watch := (s.session p).watch.filter fun y => y != k
              notices := clearChanged k (s.session p).notices }).answer p r.tag .ok [1]
          else s.answer p r.tag .ok [0]
        | _ => s.answer p r.tag .malformed [])) ∧
  ∀ (k : Key) (before after : List Notice) (n : Notice), (∀ m ∈ before, m.key ≠ k) →
    clearChanged k before = before ∧
    (n.key = k → clearChanged k (before ++ n :: after) =
      before ++ (if n.lapsed = true then [{ n with changed := false, version := 0 }] else []) ++ after)

/-- A notice list takes a posting as TABLE 49 says: a key with an entry has it updated in place, one with none has an entry
created at the tail. TAKE_NOTICE removes and returns the oldest entry, or replies EMPTY; an entry with the lapsed flag frees a
place of the claim count. -/
def Obligations.NoticesArePostedAndTaken : Prop :=
  (∀ (k : Key) (v : SeqNo) (before after : List Notice), (∀ m ∈ before, m.key ≠ k) →
    (∀ (changed lapsed : Bool) (u : SeqNo),
      postNotice k (Notice.markChanged v) (before ++ ⟨k, changed, u, lapsed⟩ :: after) =
        before ++ ⟨k, true, v, lapsed⟩ :: after ∧
      postNotice k Notice.markLapsed (before ++ ⟨k, changed, u, lapsed⟩ :: after) =
        before ++ ⟨k, changed, u, true⟩ :: after ∧
      ((postNotice k Notice.markLapsed (before ++ ⟨k, changed, u, lapsed⟩ :: after)).filter fun n => n.lapsed).length =
        ((before ++ ⟨k, changed, u, lapsed⟩ :: after).filter fun n => n.lapsed).length + (!lapsed).toNat) ∧
    postNotice k (Notice.markChanged v) before = before ++ [⟨k, true, v, false⟩] ∧
    postNotice k Notice.markLapsed before = before ++ [⟨k, false, 0, true⟩]) ∧
  (∀ (s : State) (p : Port) (r : Request), s.granted p r 0x0D →
    exec .takeNotice s = .next (
      if (s.session p).isOpen = false then s.answer p r.tag .noSession []
      else if r.body ≠ [] then s.answer p r.tag .malformed []
      else if s.mode = .blank then s.answer p r.tag .blank []
      else match (s.session p).notices with
        | [] => s.answer p r.tag .empty []
        | n :: rest =>
          (s.setSession p { s.session p with notices := rest }).answer p r.tag .ok
            (beBytes 2 n.key.toNat ++ [BitVec.ofNat 8 (n.changed.toNat + 2 * n.lapsed.toNat)] ++ beBytes 6 n.version.toNat
              ++ [BitVec.ofNat 8 rest.length]))) ∧
  ∀ (s t : State) (p : Port) (r : Request) (n : Notice) (rest : List Notice), s.granted p r 0x0D →
    (s.session p).isOpen = true → r.body = [] → s.mode ≠ .blank → (s.session p).notices = n :: rest →
    exec .takeNotice s = .next t →
    t.claimCount p + n.lapsed.toNat = s.claimCount p ∧ (t.session p).watch = (s.session p).watch

/-! ### Groups -/

/-- GROUP_BEGIN opens a group with an empty member list, or replies GROUP_OPEN. GROUP_ABANDON discards the group and says how
many members it had, or replies NO_GROUP. GROUP_PUT: its checks in order, then the staging limits; a key already a member is
replaced in place, another is appended. -/
def Obligations.GroupIsStaged : Prop :=
  ((∀ (s : State) (p : Port) (r : Request), s.granted p r 0x0E →
    exec .groupBegin s = .next (
      if (s.session p).isOpen = false then s.answer p r.tag .noSession []
      else if r.body ≠ [] then s.answer p r.tag .malformed []
      else if s.mode = .blank then s.answer p r.tag .blank []
      else if (s.session p).rights.write = false then s.answer p r.tag .denied []
      else if (s.session p).groupOpen = true then s.answer p r.tag .groupOpen []
      else (s.setSession p { s.session p with groupOpen := true, members := [] }).answer p r.tag .ok [])) ∧
  ∀ (s : State) (p : Port) (r : Request), s.granted p r 0x11 →
    exec .groupAbandon s = .next (
      if (s.session p).isOpen = false then s.answer p r.tag .noSession []
      else if r.body ≠ [] then s.answer p r.tag .malformed []
      else if s.mode = .blank then s.answer p r.tag .blank []
      else if (s.session p).rights.write = false then s.answer p r.tag .denied []
      else if (s.session p).groupOpen = false then s.answer p r.tag .noGroup []
      else (s.setSession p { s.session p with groupOpen := false, members := [] }).answer p r.tag .ok
        [BitVec.ofNat 8 (s.session p).members.length])) ∧
  (∀ (s : State) (p : Port) (r : Request), s.granted p r 0x0F →
    exec .groupPut s = .next (
      if (s.session p).isOpen = false then s.answer p r.tag .noSession []
      else match parseGroupPut r.body with
        | none => s.answer p r.tag .malformed []
        | some c =>
          let ms := stageMember ⟨c.key, c.expected, c.delete, c.value⟩ (s.session p).members
          let staged := (ms.map fun m => m.value.length).sum
          if s.mode = .blank then s.answer p r.tag .blank []
          else if (s.session p).rights.write = false ∨ systemKey c.key = true then s.answer p r.tag .denied []
          else if (s.session p).groupOpen = false then s.answer p r.tag .noGroup []
          else if keyValid c.key = false then s.answer p r.tag .badKey []
          else if userKey c.key = true ∧ s.freezeLine.toNat ≤ c.key.toNat then s.answer p r.tag .frozen []
          else if 240 < c.value.length then s.answer p r.tag .tooLong []
          else if 6 < ms.length ∨ 768 < staged then s.answer p r.tag .groupFull []
          else (s.setSession p { s.session p with members := ms }).answer p r.tag .ok
            ([BitVec.ofNat 8 (memberPosition c.key ms), BitVec.ofNat 8 ms.length] ++ beBytes 2 staged))) ∧
  ∀ (m : Member) (before after : List Member), (∀ x ∈ before, x.key ≠ m.key) →
    (∀ x : Member, x.key = m.key → stageMember m (before ++ x :: after) = before ++ m :: after ∧
      memberPosition m.key (before ++ m :: after) = before.length + 1) ∧
    stageMember m before = before ++ [m]

/-- GROUP_COMMIT: steps 1 to 4 and NO_GROUP; an empty group is committed with no flash write; a group with members takes
steps 6 to 10 and 12 to 14, the members in staging order within a step, and one that passes begins its placement. The records
placed are those of the members in staging order, each with its position and the member count, a TOMBSTONE for a deletion, and
last the COMMIT record with the count and key 0 (R110). -/
def Obligations.GroupCommitTakesItsSteps : Prop :=
  (∀ ms : List Member,
    (groupRecords ms).length = ms.length + 1 ∧
    (groupRecords ms)[ms.length]? = some ⟨.commit, false, 0, [], 0, ms.length⟩ ∧
    ∀ (j : Nat) (m : Member), ms[j]? = some m → (groupRecords ms)[j]? = some
      (if m.delete = true then ⟨.tombstone, false, m.key, [], j + 1, ms.length⟩
       else ⟨.value, false, m.key, m.value, j + 1, ms.length⟩)) ∧
  ∀ (s : State) (p : Port) (r : Request), s.granted p r 0x10 →
    let ms := (s.session p).members
    exec .groupCommit s = .next (
      if (s.session p).isOpen = false then s.answer p r.tag .noSession []
      else if r.body ≠ [] then s.answer p r.tag .malformed []
      else if s.mode = .blank then s.answer p r.tag .blank []
      else if (s.session p).rights.write = false then s.answer p r.tag .denied []
      else if (s.session p).groupOpen = false then s.answer p r.tag .noGroup []
      else if ms = [] then
        (s.setSession p { s.session p with groupOpen := false, members := [] }).answer p r.tag .ok [0, 0, 0, 0, 0, 0, 0]
      else if s.mode = .readOnly then s.answer p r.tag .readOnly []
      else match ms.findIdx? fun m => s.frozen m.key with
        | some i => s.answer p r.tag .frozen [BitVec.ofNat 8 (i + 1)]
        | none => match ms.findIdx? fun m => (s.heldByOther p m.key).isSome with
          | some i => s.answer p r.tag .held
              [BitVec.ofNat 8 (i + 1), (ms[i]?.bind fun m => s.heldByOther p m.key).elim 0 Port.code]
          | none => match ms.findIdx? fun m => !s.versionMatches m.key m.expected with
            | some i => s.answer p r.tag .stale
                (BitVec.ofNat 8 (i + 1) :: beBytes 6 (ms[i]?.elim 0 fun m => (s.version m.key).toNat))
            | none =>
              if 1024 < (s.directory.length : Int) + (ms.map (Member.countChange s)).sum then
                s.answer p r.tag .noRoom []
              else if s.liveBudget < liveAfterGroup s ms ∧ s.storeLive < liveAfterGroup s ms then
                s.answer p r.tag .noSpace []
              else if s.fitsHead (totalLines (groupRecords ms)) = false ∧ s.freeCount < 3 then
                s.answer p r.tag .retry []
              else if s.supply = .guard then s.answer p r.tag .hold []
              else s.startPlacement ⟨.commit p r.tag, groupRecords ms, none, 0, .closing 0⟩)

/-- The last line of a group's COMMIT record is verified: each member enters or leaves the directory with its own sequence,
every other key keeps its entry; each sector's live bytes lose the records replaced, and the head's gain those written; the
head's fill rises by the COMMIT record's 2 lines; the group is closed; the other OPEN sessions that watch a member's key get its posting, in staging order, with the member's
sequence or 0 for a deletion; and the reply carries the member count and the first sequence. -/
def Obligations.CommittedGroupEntersWhole : Prop :=
  ∀ (s : State) (pl : Placement) (q : SeqNo) (h base ln : Nat) (data : List Byte) (p : Port) (tag : Byte)
    (ms : List Member), s.work = .place pl → pl.goal = .commit p tag → pl.records = groupRecords ms →
    pl.firstSeq = some q → pl.phase = .body h base ms.length 1 → s.controller = .programming h ln data →
    readLine (programBytes s.flash (lineAddress h ln) data) h ln = data → (ms.map Member.key).Nodup →
    ∃ t, exec (.lineProgramComplete .good) s = .next t ∧
      (∀ i m, ms[i]? = some m → t.entry m.key =
        if m.delete = true then none
        else some ⟨m.key, q + BitVec.ofNat 48 i, m.value.length, h,
          8 * (base + totalLines ((groupRecords ms).take i)), true⟩) ∧
      (∀ k, k ∉ ms.map Member.key → t.entry k = s.entry k) ∧
      (s.directorySound → s.liveExact → h < s.sectors.length → ∀ j,
        (t.sector j).live + (ms.map fun m => (s.entry m.key).elim 0 fun o => if o.sector = j then o.size else 0).sum =
          (s.sector j).live +
            if j = h then ((ms.filter fun m => !m.delete).map fun m => sizeForLength m.value.length).sum else 0) ∧
      (h < s.sectors.length → (t.sector h).fill = (s.sector h).fill + 2) ∧
      t.session p = { s.session p with groupOpen := false, members := [] } ∧
      (∀ o, o ≠ p →
        let x := s.session o
        let post := fun (l : List Notice) (y : Member × Nat) =>
          postNotice y.1.key (Notice.markChanged (if y.1.delete = true then 0 else q + BitVec.ofNat 48 y.2)) l
        t.session o = { x with notices :=
          (ms.zipIdx.filter fun y => x.isOpen && x.watch.contains y.1.key).foldl post x.notices }) ∧
      t.port p = ((s.port p).receive ⟨tag, .ok, BitVec.ofNat 8 ms.length :: beBytes 6 q.toNat⟩).endService ∧
      t.flash = programBytes s.flash (lineAddress h ln) data ∧ t.leases = s.leases ∧ t.nextSeq = s.nextSeq ∧
      t.mode = s.mode ∧ t.work = .idle ∧ t.controller = .idle

/-! ### COMPACT and FORMAT -/

/-- COMPACT sets the target and the limit, or clears both when free already meets the target. -/
def Obligations.CompactSetsTarget : Prop :=
  ∀ (s : State) (p : Port) (r : Request), s.granted p r 0x13 →
    exec .compact s = .next (
      if (s.session p).isOpen = false then s.answer p r.tag .noSession []
      else match r.body with
        | [hi, lo] =>
          let n := beNat [hi, lo]
          if n < 1 ∨ s.usable - 3 < n then s.answer p r.tag .malformed []
          else if s.mode = .blank then s.answer p r.tag .blank []
          else if (s.session p).rights.admin = false then s.answer p r.tag .denied []
          else if n ≤ s.freeCount then
            ({ s with reclaim := { s.reclaim with target := none, limit := none } }).answer p r.tag .ok
              [0, BitVec.ofNat 8 s.freeCount]
          else
            ({ s with reclaim := { s.reclaim with target := some n, limit := some s.nextGen } }).answer p r.tag .ok
              [BitVec.ofNat 8 n, BitVec.ofNat 8 s.freeCount]
        | _ => s.answer p r.tag .malformed [])

/-- FORMAT: its checks in order; one that passes sets FORMATTING and places its WIPE by the first case of R156 that applies: at
the fill of a head with room for 2 lines, in a new head when a sector is free, else after an erase of the ring's first sector,
whatever its state; with no sector left in the ring FORMAT goes on without a WIPE. The case-3 erase waits in GUARD, and
WIPE_RE_PLACEMENT and FORMAT_ERASE go on only in NORMAL. That the case-3 erase sets its sector's erase-pending flag is the
model's reading (log 19). -/
def Obligations.FormatChecksAndPauses : Prop :=
  (∀ (s : State) (p : Port) (r : Request), s.granted p r 0x14 →
    exec .format s = .next (
      if (s.session p).isOpen = false then s.answer p r.tag .noSession []
      else if r.body ≠ [] then s.answer p r.tag .malformed []
      else if (s.session p).rights.admin = false then s.answer p r.tag .denied []
      else if (s.session (Port.next p)).isOpen = true ∨ (s.session (Port.next (Port.next p))).isOpen = true then
        s.answer p r.tag .busySessions []
      else if s.supply = .guard then s.answer p r.tag .hold []
      else ({ s with mode := .formatting }).wipePlace ⟨p, r.tag, .paused, none, 0⟩)) ∧
  (∀ (s : State) (f : FormatWork),
    let wipe : Placement := ⟨.wipe f.port f.tag, [⟨.wipe, false, 0, [], 0, 0⟩], f.wipeSeq, 0, .closing 0⟩
    (∀ h, s.head? = some h → (s.sector h).fill ≤ 249 → s.wipePlace f = s.startPlacement wipe) ∧
    (0 < s.freeCount → s.wipePlace f = s.startPlacement wipe) ∧
    ((∀ h, s.head? = some h → 249 < (s.sector h).fill) → s.freeCount = 0 → s.wipePlace f = s.wipeErase f) ∧
    (s.tail? = none → s.wipeErase f = s.sweepFrom f 0) ∧
    ∀ i, s.tail? = some i → s.wipeErase f =
      if s.supply = .guard then { s with work := .format { f with phase := .paused } }
      else { s with
        sectors := s.sectors.set i { s.sector i with erasePending := true }
        work := .format { f with phase := .firstErase i (s.sector i).suspect }
        controller := .erasing i }) ∧
  ∀ (s : State) (f : FormatWork), s.work = .format f →
    (s.supply = .guard → exec .formatErase s = .next s ∧ exec .wipeRePlacement s = .next s) ∧
    (s.supply = .normal → f.phase = .paused → exec .wipeRePlacement s = .next (s.wipePlace f)) ∧
    ∀ i, s.supply = .normal → f.phase = .sweep i →
      exec .formatErase s = .next { s with
        sectors := if (s.sector i).inRing = true then s.sectors.set i { s.sector i with erasePending := true } else s.sectors
        work := .format { f with phase := .sweepErase i (s.sector i).suspect }
        controller := .erasing i }

/-- The outcomes of FORMAT's erases, of case 3 of R156 and of R157. A verified erase raises the count, and the sector joins the
free pool, or, suspect when the erase began or worn, has its RETIRED marker programmed; the first failure is followed by one
more erase, the second by the marker; an abort by GUARD leaves the erase to be made again. The marker, verified or not, leaves
the sector RETIRED. After case 3 the WIPE is placed, or the next ring sector taken; in R157 the sectors follow in ascending
index, the retired and the head left out, and after the last FORMAT completes. That case 3 retires a sector as a reclaim erase
does, and that a marker does not read the supply, are the model's readings (logs 19 and 29); that the count changes at the
verify and the state with the marker is its choice (log 21). -/
def Obligations.FormatEraseOutcomes : Prop :=
  (∀ (s : State) (f : FormatWork) (i : Nat) (suspect : Bool), s.work = .format f → s.controller = .erasing i →
    i < s.sectors.length →
    (∀ stuck : List (Nat × Byte),
      let m := eraseSector (stuckBits stuck) i s.flash
      let u := { s with controller := .idle, flash := m }
      let due := suspect = true ∨ 60000 ≤ (s.sector i).eraseCount + 1
      let counted : Sector :=
        ⟨if due then (s.sector i).state else .erased, none, (s.sector i).eraseCount + 1, 0, 0, false, false⟩
      let v := { u with sectors := s.sectors.set i counted }
      let toRetire := fun (phase : FormatPhase) (x : State) =>
        { x with work := .format { f with phase := phase }, controller := .programming i 4 (List.replicate 8 0x00) }
      (f.phase = .firstErase i suspect → exec (.eraseComplete stuck) s = .next (
        if sectorErased m i = true then
          (if due then toRetire (.firstRetire i) v else v.wipePlace { f with phase := .paused, failures := 0 })
        else if f.failures = 0 then u.wipeErase { f with failures := 1 }
        else toRetire (.firstRetire i) u)) ∧
      (f.phase = .sweepErase i suspect → exec (.eraseComplete stuck) s = .next (
        if sectorErased m i = true then (if due then toRetire (.sweepRetire i) v else v.sweepFrom f (i + 1))
        else if f.failures = 0 then { u with work := .format { f with phase := .sweep i, failures := 1 } }
        else toRetire (.sweepRetire i) u))) ∧
    (s.inReset = false → s.supply = .normal →
      f.phase = .firstErase i suspect ∨ f.phase = .sweepErase i suspect →
      ∃ m, exec .guardArrival s = .next { s with
        supply := .guard, supplyHigh := false, controller := .idle, flash := m, draws := s.draws + 1
        work := .format { f with phase := if f.phase = .firstErase i suspect then .paused else .sweep i } })) ∧
  (∀ (s : State) (f : FormatWork) (i l : Nat) (data : List Byte) (res : LineResult), s.work = .format f →
    s.controller = .programming i l data →
    let m := programBytes s.flash (lineAddress i l) (LineResult.bits data res)
    let v := { s with
      controller := .idle
      flash := m
      sectors := s.sectors.set i { s.sector i with
        state := .retired, suspect := (s.sector i).suspect || !decide (readLine m i l = data), erasePending := false } }
    (f.phase = .firstRetire i → exec (.lineProgramComplete res) s = .next (v.wipeErase { f with failures := 0 })) ∧
    (f.phase = .sweepRetire i → exec (.lineProgramComplete res) s = .next (v.sweepFrom f (i + 1)))) ∧
  ∀ (s : State) (f : FormatWork) (i : Nat),
    let due := fun j => i ≤ j ∧ (s.sector j).state ≠ .retired ∧ (s.sector j).state ≠ .opened
    (∀ j, j < s.sectors.length → due j → (∀ k, k < j → ¬due k) →
      s.sweepFrom f i = { s with work := .format { f with phase := .sweep j, failures := 0 } }) ∧
    ((∀ j, j < s.sectors.length → ¬due j) → s.sweepFrom f i = s.formatComplete f)

/-- FORMAT's completion, reached by the last erase or RETIRED marker of R157: empty directory, no live bytes, defaults in force,
reclaim IDLE; the requesting session stays OPEN with its default rights and empty lists and holds no lease; the counters, erase
counts and sector states stand; the mode is READY, or READ_ONLY below 8 usable sectors; the reply OK gives usable and free. -/
def Obligations.FormatCompletionEmptiesStore : Prop :=
  (∀ (s : State) (f : FormatWork) (i : Nat), s.work = .format f → i < s.sectors.length →
    (∀ j, i < j → j < s.sectors.length → (s.sector j).state = .retired ∨ (s.sector j).state = .opened) →
    (∀ stuck, f.phase = .sweepErase i false → s.controller = .erasing i →
      sectorErased (eraseSector (stuckBits stuck) i s.flash) i = true → (s.sector i).eraseCount + 1 < 60000 →
      exec (.eraseComplete stuck) s = .next (({ s with
        controller := .idle
        flash := eraseSector (stuckBits stuck) i s.flash
        sectors := s.sectors.set i (Sector.erased ((s.sector i).eraseCount + 1)) }).formatComplete f)) ∧
    ∀ data, f.phase = .sweepRetire i → s.controller = .programming i 4 data →
      ∃ u : State, exec (.lineProgramComplete .good) s = .next (u.formatComplete f) ∧ (u.sector i).state = .retired ∧
        ∀ j, j ≠ i → u.sector j = s.sector j) ∧
  ∀ (s : State) (f : FormatWork), s.leasesSound → (s.session f.port).isOpen = true →
    let t := s.formatComplete f
    t.directory = [] ∧ t.storeLive = 0 ∧ t.freezeLine = 0x0F00 ∧ t.defaultPeriod = 500 ∧
    t.rightsInForce = ⟨Rights.ofByte 0x0F, Rights.ofByte 0x07, Rights.ofByte 0x07⟩ ∧
    t.reclaim = ⟨.idle, 0, 0, none, none⟩ ∧ (∀ e ∈ t.leases, e.holder ≠ f.port) ∧
    t.session f.port = { s.session f.port with
      rights := t.rightsInForce.get f.port, watch := [], notices := [], groupOpen := false, members := [] } ∧
    t.nextSeq = s.nextSeq ∧ t.nextGen = s.nextGen ∧ t.damaged = s.damaged ∧
    t.sectors.map Sector.eraseCount = s.sectors.map Sector.eraseCount ∧
    t.sectors.map Sector.state = s.sectors.map Sector.state ∧ t.usable = s.usable ∧ t.freeCount = s.freeCount ∧
    t.mode = (if s.usable < 8 then .readOnly else .ready) ∧ t.work = .idle ∧
    t.port f.port = { s.port f.port with
      inService := none
      replies := if (s.port f.port).state = .resetting then (s.port f.port).replies
        else (s.port f.port).replies ++ [⟨f.tag, .ok, [BitVec.ofNat 8 s.usable, BitVec.ofNat 8 s.freeCount]⟩] }

/-! ### Reclaim -/

/-- The mark step programs the RECLAIM marker of a CLOSED tail; verified or not, the tail is then RECLAIMING, suspect if the
marker failed, and is to be copied, or erased when it holds no live bytes. A line 3 found programmed already is not programmed
again. -/
def Obligations.ReclaimMarksTail : Prop :=
  ∀ (s : State) (i : Nat),
    (s.work = .reclaimGrant → s.reclaim.state = .idle → s.tail? = some i → (s.sector i).state = .closed →
      readLine s.flash i 3 = List.replicate 8 0xFF →
      exec .reclaimMark s = .next { s with
        work := .marking i
        reclaim := { s.reclaim with state := .marking }
        controller := .programming i 3 (List.replicate 8 0x0A) }) ∧
    (s.work = .reclaimGrant → s.reclaim.state = .idle → s.tail? = some i → (s.sector i).state = .closed →
      readLine s.flash i 3 ≠ List.replicate 8 0xFF →
      exec .reclaimMark s = .next { s with
        work := .idle
        sectors := s.sectors.set i { s.sector i with
          state := .reclaiming
          erasePending := (s.sector i).erasePending || decide ((s.sector i).live = 0) }
        reclaim := { s.reclaim with
          state := if (s.sector i).live = 0 then .erasing else .copying, cursor := 0, failures := 0 } }) ∧
    ∀ (res : LineResult) (data bits : List Byte), s.work = .marking i → s.controller = .programming i 3 data →
      bits = LineResult.bits data res →
      let m := programBytes s.flash (lineAddress i 3) bits
      exec (.lineProgramComplete res) s = .next { s with
        controller := .idle
        flash := m
        work := .idle
        sectors := s.sectors.set i { s.sector i with
          state := .reclaiming
          suspect := (s.sector i).suspect || !decide (readLine m i 3 = data)
          erasePending := (s.sector i).erasePending || decide ((s.sector i).live = 0) }
        reclaim := { s.reclaim with
          state := if (s.sector i).live = 0 then .erasing else .copying, cursor := 0, failures := 0 } }

/-- The copy step scans from the cursor to the fill, passing over the records that are not live by their line counts, and a
record is live when it is a VALUE that the directory entry of its key points at. It places a copy of the first live record,
or, when that needs a head that may not be opened, leaves it and sets READ_ONLY; the copy carries its original's key, value
and sequence, COPIED set and no group. Once verified, the copy is what the entry points at, with the group marker clear, its
size has left the live bytes of the original's sector and joined the head's, the head's fill has risen by its lines, its last
line is in flash with the controller idle, and the cursor passes the original; a tail left
with no live bytes has its erase pending and is to be erased. Live bytes with no live record, which R121 says cannot be,
stop the model (log 18). -/
def Obligations.ReclaimCopyMovesLiveRecord : Prop :=
  (∀ (s : State) (i line : Nat), s.work = .reclaimGrant → s.reclaim.state = .copying → s.tail? = some i →
    (s.sector i).live ≠ 0 → s.PassesOver i s.reclaim.cursor line → line < (s.sector i).fill → s.recordLive i line →
    let at' := fun off => readByte s.flash (2048 * i + 40 + 8 * line + off)
    let rec' : RecordSpec := ⟨.value, true, keyOfBytes (at' 2) (at' 3),
      readBytes s.flash (2048 * i + 40 + (8 * line + 16)) (at' 4).toNat, 0, 0⟩
    let seq : SeqNo := BitVec.ofNat 48 (beNat (readBytes s.flash (2048 * i + 40 + (8 * line + 8)) 6))
    let u := { s with reclaim := { s.reclaim with cursor := line } }
    (s.fitsHead rec'.lines = true ∨ 2 ≤ s.freeCount →
      exec .reclaimCopy s = .next (u.startPlacement ⟨.copy line, [rec'], some seq, 0, .closing 0⟩)) ∧
    (s.fitsHead rec'.lines = false → s.freeCount < 2 →
      exec .reclaimCopy s = .next { u with mode := .readOnly, work := .idle })) ∧
  (∀ (s : State) (i : Nat), s.work = .reclaimGrant → s.reclaim.state = .copying → s.tail? = some i →
    (s.sector i).live ≠ 0 →
    (∀ line, s.PassesOver i s.reclaim.cursor line → line < (s.sector i).fill → ¬s.recordLive i line) →
    exec .reclaimCopy s = .fault .noLiveRecord) ∧
  ∀ (s : State) (pl : Placement) (r : RecordSpec) (q : SeqNo) (h base line l ln i : Nat) (data : List Byte),
    s.work = .place pl → pl.goal = .copy line → pl.records = [r] → pl.firstSeq = some q → pl.phase = .body h base 0 l →
    l + 1 = r.lines → s.controller = .programming h ln data →
    readLine (programBytes s.flash (lineAddress h ln) data) h ln = data → s.tail? = some i →
    ∃ t, exec (.lineProgramComplete .good) s = .next t ∧
    t.entry r.key = some ⟨r.key, q, r.value.length, h, 8 * base, false⟩ ∧
    (∀ k, k ≠ r.key → t.entry k = s.entry k) ∧ t.work = .idle ∧ t.reclaim.cursor = line + r.lines ∧
    t.reclaim.state = (if (t.sector i).live = 0 then .erasing else s.reclaim.state) ∧
    (t.sector i).erasePending = ((s.sector i).erasePending || decide ((t.sector i).live = 0)) ∧
    (∀ o, s.entry r.key = some o → o.size ≤ (s.sector o.sector).live → h < s.sectors.length → ∀ j,
      (t.sector j).live + (if o.sector = j then o.size else 0) =
        (s.sector j).live + if h = j then sizeForLength r.value.length else 0) ∧
    (h < s.sectors.length → (t.sector h).fill = (s.sector h).fill + r.lines) ∧
    t.flash = programBytes s.flash (lineAddress h ln) data ∧ t.controller = .idle ∧
    t.nextSeq = s.nextSeq ∧ t.sessions = s.sessions ∧ t.leases = s.leases ∧ t.ports = s.ports ∧
    t.rightsInForce = s.rightsInForce ∧ t.freezeLine = s.freezeLine ∧ t.defaultPeriod = s.defaultPeriod

/-- The erase step sets the tail's erase pending and the state ERASING and begins the erase; asked for in GUARD the erase is
ABORTED at once. Its outcomes: verified and not due for retirement, the sector is ERASED with one erase more; failed once, it
waits to be erased again; due for retirement or failed twice, its RETIRED marker is programmed. Once that has ended, verified or
not, the sector is RETIRED, and the READ_ONLY entry test is made in READY (that both come with the marker's end is the model's
choice, log 21; that the marker does not read the supply is its reading, log 29). At the end of the step a compact target that
is reached is cleared with its limit. -/
def Obligations.TailEraseOutcomes : Prop :=
  (∀ (s : State) (i : Nat), s.work = .reclaimGrant → s.tail? = some i →
    s.reclaim.state = .erasing ∨ (s.reclaim.state = .copying ∧ (s.sector i).live = 0) →
    exec .reclaimErase s = .next { s with
      sectors := s.sectors.set i { s.sector i with erasePending := true }
      reclaim := { s.reclaim with state := .erasing }
      work := if s.supply = .normal then .tailErase i (s.sector i).suspect else .idle
      controller := if s.supply = .normal then .erasing i else s.controller }) ∧
  (∀ (s : State) (i : Nat) (res : LineResult) (data : List Byte), s.work = .tailRetire i →
    s.controller = .programming i 4 data →
    let f := programBytes s.flash (lineAddress i 4) (LineResult.bits data res)
    ∃ t, exec (.lineProgramComplete res) s = .next t ∧ t.work = .idle ∧ t.controller = .idle ∧ t.flash = f ∧
      t.sectors = s.sectors.set i { s.sector i with
        state := .retired, suspect := (s.sector i).suspect || !decide (readLine f i 4 = data), erasePending := false } ∧
      t.reclaim.state = .idle ∧ t.reclaim.cursor = 0 ∧ t.reclaim.failures = 0 ∧ s.compactTested t ∧
      t.directory = s.directory ∧ t.ports = s.ports ∧
      t.mode = (if s.mode = .ready ∧ (t.usable < 8 ∨ t.liveBudget < t.storeLive ∨ t.freeCount = 0) then .readOnly
        else s.mode)) ∧
  ∀ (s : State) (i : Nat) (suspect : Bool) (stuck : List (Nat × Byte)),
    s.work = .tailErase i suspect → s.controller = .erasing i → i < s.sectors.length →
    ∃ t, exec (.eraseComplete stuck) s = .next t ∧ t.flash = eraseSector (stuckBits stuck) i s.flash ∧
      t.directory = s.directory ∧ t.ports = s.ports ∧ t.sessions = s.sessions ∧ t.leases = s.leases ∧
      (∀ j, j ≠ i → t.sector j = s.sector j) ∧ (t.work = .idle → s.compactTested t) ∧
      (sectorErased t.flash i = true →
        (t.sector i).eraseCount = (s.sector i).eraseCount + 1 ∧ (t.sector i).fill = 0 ∧ (t.sector i).live = 0 ∧
        (t.sector i).suspect = false ∧ (t.sector i).erasePending = false ∧ (t.sector i).generation = none ∧
        (if suspect = true ∨ 60000 ≤ (s.sector i).eraseCount + 1 then
          t.work = .tailRetire i ∧ t.controller = .programming i 4 (List.replicate 8 0x00)
         else (t.sector i).state = .erased ∧ t.work = .idle ∧ t.controller = .idle ∧ t.reclaim.state = .idle ∧
          t.reclaim.cursor = 0 ∧ t.reclaim.failures = 0)) ∧
      (sectorErased t.flash i = false → t.sectors = s.sectors ∧
        (if s.reclaim.failures = 0 then
          t.work = .idle ∧ t.controller = .idle ∧ t.reclaim.failures = 1 ∧ t.reclaim.state = s.reclaim.state
         else t.work = .tailRetire i ∧ t.controller = .programming i 4 (List.replicate 8 0x00)))

/-! ### The flash controller and the supply -/

/-- A line program leaves in its line the bits that were one and stay one, and no other byte changes; an erase on good flash
leaves every byte of its sector 0xFF, and on any flash goes some way in the order of R136. That a failed erase turns bits
only to one, and keeps that order, is the model's choice (log 10). A byte that is not listed reads 0xFF, a line is 8 bytes at
its place of TABLE 6, and a sector is erased when each of its bytes reads 0xFF. -/
def Obligations.FlashOperationsChangeTheirOwnBytes : Prop :=
  (∀ (m : List Host.Cell) (a b i l n : Nat) (x : Byte),
    readByte [] a = 0xFF ∧ readByte ((b, x) :: m) a = (if b = a then x else readByte m a) ∧
    readBytes m a n = ((List.range n).map fun k => readByte m (a + k)) ∧
    lineAddress i l = 2048 * i + 8 * l ∧ readLine m i l = readBytes m (2048 * i + 8 * l) 8 ∧
    (Memory.wf m = true → (sectorErased m i = true ↔ ∀ c, inSector i c → readByte m c = 0xFF))) ∧
  ∀ s : State, s.flashCanonical →
    (∀ (i l : Nat) (data : List Byte) (res : LineResult), s.controller = .programming i l data → data.length = 8 →
      res.wellFormed = true →
      ∃ t, exec (.lineProgramComplete res) s = .next t ∧
        (∀ a, ¬inLine i l a → readByte t.flash a = readByte s.flash a) ∧
        ∀ k, k < 8 → readByte t.flash (2048 * i + 8 * l + k) =
          readByte s.flash (2048 * i + 8 * l + k) &&&
            (match res with | .good => data | .faulty left => left).getD k 0xFF) ∧
    ∀ (i : Nat) (stuck : List (Nat × Byte)), s.controller = .erasing i →
      ∃ t, exec (.eraseComplete stuck) s = .next t ∧ erasedSome s.flash t.flash i ∧
        (stuck = [] → ∀ a, inSector i a → readByte t.flash a = 0xFF)

/-- GUARD and NORMAL arrivals: the supply state changes and, but for an erase in flight, nothing else. An erase that GUARD
meets is ABORTED: the controller is IDLE, the sector is left some way on, and the sector table, the directory and the
erase-failure count stand; that bits turn only to one is the model's choice (log 7). GUARD in GUARD is no event (the model's
choice, log 2). While RESET# is asserted the state stays GUARD, and the level above 2.95 V that leaving reset will take is
kept or lost (log 28). -/
def Obligations.SupplyArrivals : Prop :=
  (∀ s : State, s.inReset = false →
    exec .normalArrival s = .next { s with supply := .normal, supplyHigh := true } ∧
    (s.supply = .guard → exec .guardArrival s = .next s) ∧
    (s.supply = .normal → (∀ i, s.controller ≠ .erasing i) →
      exec .guardArrival s = .next { s with supply := .guard, supplyHigh := false }) ∧
    ∀ i, s.supply = .normal → s.controller = .erasing i → s.flashCanonical →
      ∃ t, exec .guardArrival s = .next t ∧ t.supply = .guard ∧ t.supplyHigh = false ∧ t.controller = .idle ∧
        t.sectors = s.sectors ∧ t.directory = s.directory ∧ t.reclaim = s.reclaim ∧ t.mode = s.mode ∧ t.ports = s.ports ∧
        erasedSome s.flash t.flash i ∧ (∀ suspect, s.work = .tailErase i suspect → t.work = .idle)) ∧
  ∀ s : State, s.inReset = true →
    exec .guardArrival s = .next { s with supplyHigh := false } ∧
    (s.powerHold = false → exec .normalArrival s = .next { s with supplyHigh := true }) ∧
    (s.powerHold = true → exec .normalArrival s = .next s)

/-- What is programmed is what mount reads. Record lines programmed over erased bytes read back as the same record, its
check good, with the same value, padded with 0xFF to its last line (R59), and no flag bit set but COPIED (R177); header lines 0 and 1 programmed over erased bytes are valid, with the same erase count,
generation and sequence mark. The CRC-16 of both begins at 0xFFFF and takes each byte by eight shifts with the generator
0x1021. -/
def Obligations.RecordsAndHeadersReadBack : Prop :=
  (crc16 [] = 0xFFFF ∧ ∀ (bytes : List Byte) (b : Byte),
    let shift := fun (c : BitVec 16) => if c.msb = true then c <<< 1 ^^^ 0x1021 else c <<< 1
    crc16 (bytes ++ [b]) = (List.range 8).foldl (fun c _ => shift c) (crc16 bytes ^^^ b.setWidth 16 <<< 8)) ∧
  ∀ (m : List Host.Cell) (i : Nat), Memory.wf m = true →
    (∀ (line : Nat) (r : RecordSpec) (first q : SeqNo),
      let a := 2048 * i + 40 + 8 * line
      let m' := programBytes m a (r.bytes first q)
      (∀ b, a ≤ b → b < a + 8 * r.lines → readByte m b = 0xFF) → line + r.lines ≤ 251 → r.value.length ≤ 240 →
      (r.kind = .value ∧ keyValid r.key = true ∨ r.kind = .tombstone ∧ keyValid r.key = true ∧ r.value = [] ∨
        r.kind = .commit ∧ r.key = 0 ∧ r.value = [] ∨ r.kind = .wipe ∧ r.key = 0 ∧ r.value = []) →
      (r.position = 0 ∧ r.count = 0 ∧ r.kind ≠ .commit ∧ (r.copied = true → r.kind = .value) ∨
        1 ≤ r.position ∧ r.position ≤ r.count ∧ r.count ≤ 6 ∧ r.copied = false ∧ (r.kind = .value ∨ r.kind = .tombstone) ∨
        r.position = 0 ∧ 1 ≤ r.count ∧ r.count ≤ 6 ∧ r.copied = false ∧ r.kind = .commit) →
      readRecord m' i line = .record ⟨r.kind, r.copied, r.key, r.value.length, r.position, r.count,
        if r.count = 0 then 0 else first.toNat % 65536, q⟩ ∧
      readBytes m' (a + 16) r.value.length = r.value ∧
      (∀ b, a + 16 + r.value.length ≤ b → b < a + 8 * r.lines → readByte m' b = 0xFF) ∧
      readByte m' (a + 1) = if r.copied = true then 0x01 else 0x00) ∧
    ∀ (count : Nat) (gen : Generation) (mark : SeqNo),
      let m' := programBytes m (2048 * i) (headerBytes count gen mark)
      (∀ b, 2048 * i ≤ b → b < 2048 * i + 16 → readByte m b = 0xFF) → count < 65536 → gen ≠ 0 →
      headerValid m' i = true ∧ beNat (readBytes m' (2048 * i + 2) 2) = count ∧
        beNat (readBytes m' (2048 * i + 4) 4) = gen.toNat ∧ beNat (readBytes m' (2048 * i + 8) 6) = mark.toNat

/-! ### Invariants -/

/-- Every step keeps the flash in its canonical form. -/
def Obligations.StepKeepsFlashCanonical : Prop :=
  ∀ s t : State, s.flashCanonical → step s = .next t → t.flashCanonical

/-- Every step keeps the directory an ordered map of valid keys. -/
def Obligations.StepKeepsDirectoryOrdered : Prop :=
  ∀ s t : State, s.directorySound → step s = .next t → t.directorySound

/-- Every step keeps the directory within 1,024 entries, every watch list within 16 keys, every staging area within 6 members of
distinct keys and 768 bytes, and every notice list such that, with the claim budget, it holds at most 20 entries. -/
def Obligations.StepKeepsListLimits : Prop :=
  (∀ s t : State, s.directorySound → s.limitsSound → step s = .next t → t.limitsSound) ∧
  ∀ (s : State) (p : Port), s.limitsSound → s.claimsWithinBudget → (s.session p).notices.length ≤ 20

/-- Every step keeps at most one sector OPEN, apart from those that mount has still to close. -/
def Obligations.StepKeepsOneHead : Prop :=
  ∀ s t : State, s.headSound → step s = .next t → t.headSound

/-- Every step keeps the live bytes of each sector equal to the sizes of the entries that point at it, all of them in ring
sectors, and reclaim on its tail, with no live bytes once it is ERASING; mount and FORMAT bring both about at their end. Premise:
the generation counter has not run out, as R9 says that it cannot. -/
def Obligations.StepKeepsLiveBytes : Prop :=
  ∀ s t : State, s.directorySound → s.headSound → s.ringSound → step s = .next t → (t.nextGen = 0 → t.sectors = []) →
    t.ringSound

/-- Every step keeps the lease table and the sessions in agreement, a CLOSED session empty, and every port within its claim
budget; and the lease table in ascending key order, which is the model's choice (log 23). -/
def Obligations.StepKeepsLeasesAndBudget : Prop :=
  ∀ s t : State, s.leasesSound → s.claimsWithinBudget → step s = .next t → t.leasesSound ∧ t.claimsWithinBudget

/-- Every step keeps each stored expiry from 1 to 6,001 granules ahead of the lease clock, so that no lease or wait outlasts the
advance that reaches its expiry, and the lease remaining of a held lease is never 0. -/
def Obligations.StepKeepsExpiriesAhead : Prop :=
  ∀ s t : State, s.leasesSound → s.leaseTimesSound → step s = .next t → t.leaseTimesSound

/-- Every step keeps each port within four credits, with pairwise distinct tags in use, none of them 0xFF. -/
def Obligations.StepKeepsCreditsAndTags : Prop :=
  ∀ s t : State, s.leasesSound → s.creditsSound → step s = .next t → t.creditsSound

/-- Every step keeps the rights in force granting ADMIN to a port, and the freeze line and the default period in the ranges of
TABLE 23. -/
def Obligations.StepKeepsValuesInForce : Prop :=
  ∀ s t : State, step s = .next t → (s.adminSound → t.adminSound) ∧ (s.valuesInRange → t.valuesInRange)

/-- The freeze line in force never rises, but to 0x0F00 by a FORMAT or a reset, which leave the directory empty, and at
mount. That a reset leaves it at 0x0F00, until mount sets it, is the model's choice (log 6). -/
def Obligations.FreezeLineNeverRises : Prop :=
  ∀ s t : State, s.freezeSound → s.controllerSound → step s = .next t →
    t.freezeSound ∧ (t.freezeLine.toNat ≤ s.freezeLine.toNat ∨ (t.freezeLine = 0x0F00 ∧ t.directory = []) ∨
      s.engineState = .mount)

/-- Every step keeps the flash controller on the one operation that the engine waits for. -/
def Obligations.StepKeepsControllerWithEngine : Prop :=
  ∀ s t : State, s.controllerSound → step s = .next t → t.controllerSound

/-- The state after reset holds the values that the spec gives, and meets every invariant (that no SEL# is asserted in it is the
model's choice, logs 1 and 6). -/
def Obligations.ResetMeetsInvariants : Prop :=
  State.reset.standsReset ∧ State.reset.flashCanonical ∧ State.reset.directorySound ∧ State.reset.leasesSound ∧
    State.reset.claimsWithinBudget ∧ State.reset.leaseTimesSound ∧ State.reset.creditsSound ∧ State.reset.adminSound ∧
    State.reset.valuesInRange ∧ State.reset.freezeSound ∧ State.reset.controllerSound ∧ State.reset.limitsSound ∧
    State.reset.headSound ∧ State.reset.ringSound
end

