-- ==== Sys2Proof/Laws/Bytes.lean ====
section
/-! SUPPORT. The byte order and the two checks: what each does with one byte more, and a key from its two bytes. -/

namespace Sys2Proof.Machine

/-- A first byte weighs 256 for each byte behind it. -/
theorem beNat_from (v : List Byte) : ∀ n, v.foldl (fun acc b => acc * 256 + b.toNat) n = n * 256 ^ v.length + beNat v := by
  induction v with
  | nil => intro n; simp [beNat]
  | cons b v ih =>
    intro n
    show List.foldl _ (n * 256 + b.toNat) v = n * 256 ^ (v.length + 1) + List.foldl _ (0 * 256 + b.toNat) v
    rw [ih, ih, pow_succ]; ring

@[simp] theorem beNat_nil : beNat [] = 0 := rfl

theorem beNat_cons (b : Byte) (v : List Byte) : beNat (b :: v) = b.toNat * 256 ^ v.length + beNat v :=
  (beNat_from v (0 * 256 + b.toNat)).trans (by simp)

theorem keyOfBytes_toNat (hi lo : Byte) : (keyOfBytes hi lo).toNat = hi.toNat * 256 + lo.toNat := by
  simp only [keyOfBytes, beNat_cons, beNat_nil, BitVec.toNat_ofNat, List.length_cons, List.length_nil]
  omega

/-- One bit of the CRC-8 by its top bit. -/
theorem crc8Bit_msb (c : Byte) : crc8Bit c = if c.msb = true then c <<< 1 ^^^ 0x2F else c <<< 1 := by
  unfold crc8Bit; rw [BitVec.msb_eq_decide]; simp

@[simp] theorem crc8_nil : crc8 [] = 0x00 := rfl

theorem crc8_snoc (bytes : List Byte) (b : Byte) : crc8 (bytes ++ [b]) = iterateTimes crc8Bit 8 (crc8 bytes ^^^ b) := by
  simp only [crc8, List.foldl_append, List.foldl_cons, List.foldl_nil]

/-- One bit of the CRC-16 by its top bit. -/
theorem crc16Bit_msb (c : BitVec 16) : crc16Bit c = if c.msb = true then c <<< 1 ^^^ 0x1021 else c <<< 1 := by
  unfold crc16Bit; rw [BitVec.msb_eq_decide]; simp

@[simp] theorem crc16_nil : crc16 [] = 0xFFFF := rfl

theorem crc16_snoc (bytes : List Byte) (b : Byte) :
    crc16 (bytes ++ [b]) = iterateTimes crc16Bit 8 (crc16 bytes ^^^ b.setWidth 16 <<< 8) := by
  have placed : BitVec.ofNat 16 (b.toNat * 256) = b.setWidth 16 <<< 8 := by
    apply BitVec.eq_of_toNat_eq; simp [Nat.shiftLeft_eq]
  simp only [crc16, List.foldl_append, List.foldl_cons, List.foldl_nil, placed]

end Sys2Proof.Machine
end

