-- ==== Sys2Proof/Laws/Checks.lean ====
section
/-! SUPPORT. The common check order: the first test that fails decides, and what a judged request does (R52). -/

namespace Sys2Proof.Machine

@[simp] theorem firstFailing_nil : firstFailing [] = none := rfl

@[simp] theorem firstFailing_none (t : List (Option Rejection)) : firstFailing (none :: t) = firstFailing t := rfl

@[simp] theorem firstFailing_some (r : Rejection) (t : List (Option Rejection)) :
    firstFailing (some r :: t) = some r := rfl

@[simp] theorem failUnless_true (st : Status) (body : List Byte) : failUnless true st body = none := rfl

@[simp] theorem failUnless_false (st : Status) (body : List Byte) : failUnless false st body = some (st, body) := rfl

/-- No test fails when each of them passes. -/
theorem firstFailing_eq_none {l : List (Option Rejection)} : firstFailing l = none ↔ ∀ x ∈ l, x = none := by
  induction l with
  | nil => simp
  | cons x t ih => cases x <;> simp [ih]

section
variable {α : Type}

/-- Step 1 decides before the body is read. -/
@[simp] theorem judge_first (rej : Rejection) (parsed : Option α) (later : α → List (Option Rejection)) :
    judge (some rej) parsed later = .error rej := rfl

/-- A body that does not parse is MALFORMED. -/
@[simp] theorem judge_malformed (later : α → List (Option Rejection)) :
    judge none none later = .error (.malformed, []) := rfl

/-- A body that parses leaves the verdict to the later tests. -/
@[simp] theorem judge_later (a : α) (later : α → List (Option Rejection)) :
    judge none (some a) later = verdictOf a (later a) := rfl

@[simp] theorem verdictOf_nil (a : α) : verdictOf a [] = .ok a := rfl

@[simp] theorem verdictOf_none (a : α) (t : List (Option Rejection)) : verdictOf a (none :: t) = verdictOf a t := rfl

@[simp] theorem verdictOf_some (a : α) (rej : Rejection) (t : List (Option Rejection)) :
    verdictOf a (some rej :: t) = .error rej := rfl

/-- A request passes when its body parses and no test fails. -/
theorem judge_ok_iff {first : Option Rejection} {parsed : Option α} {later : α → List (Option Rejection)} {a : α} :
    judge first parsed later = .ok a ↔ first = none ∧ parsed = some a ∧ firstFailing (later a) = none := by
  cases first with
  | some r => simp
  | none =>
    cases parsed with
    | none => simp
    | some b =>
      rw [judge_later, verdictOf]
      cases hf : firstFailing (later b) with
      | some r =>
        simp only [reduceCtorEq, true_and, Option.some.injEq, false_iff, not_and]
        rintro rfl h
        rw [hf] at h
        cases h
      | none =>
        simp only [Except.ok.injEq, true_and, Option.some.injEq]
        exact ⟨fun h => ⟨h, h ▸ hf⟩, fun h => h.1⟩

/-- A refused request is answered with its status and body, and nothing else is done (R52). -/
@[simp] theorem settle_error (s : State) (p : Port) (r : Request) (rej : Rejection) (act : α → State → State) :
    s.settle p r (.error rej) act = s.answer p r.tag rej.1 rej.2 := rfl

@[simp] theorem settle_ok (s : State) (p : Port) (r : Request) (a : α) (act : α → State → State) :
    s.settle p r (.ok a) act = act a s := rfl

/-- Step 1 of a request that has it: the session's refusal, or step 2 (R52). -/
theorem settle_first (s : State) (p : Port) (r : Request) (act : α → State → State) (b : Bool) (st : Status)
    (body : List Byte) (parsed : Option α) (later : α → List (Option Rejection)) :
    s.settle p r (judge (failUnless b st body) parsed later) act
      = if b = false then s.answer p r.tag st body else s.settle p r (judge none parsed later) act := by
  cases b <;> rfl

/-- Step 2: MALFORMED, or the later tests (R52). -/
theorem settle_parsed (s : State) (p : Port) (r : Request) (act : α → State → State) (parsed : Option α)
    (later : α → List (Option Rejection)) :
    s.settle p r (judge none parsed later) act
      = match parsed with
        | none => s.answer p r.tag .malformed []
        | some a => s.settle p r (verdictOf a (later a)) act := by
  cases parsed <;> rfl

/-- A later step: its refusal, or the steps after it (R52). -/
theorem settle_step (s : State) (p : Port) (r : Request) (act : α → State → State) (a : α) (b : Bool) (st : Status)
    (body : List Byte) (t : List (Option Rejection)) :
    s.settle p r (verdictOf a (failUnless b st body :: t)) act
      = if b = false then s.answer p r.tag st body else s.settle p r (verdictOf a t) act := by
  cases b <;> rfl

/-- With no step left the request does its work (R52). -/
theorem settle_end (s : State) (p : Port) (r : Request) (act : α → State → State) (a : α) :
    s.settle p r (verdictOf a []) act = act a s := rfl

/-- A step that is not a plain condition: its refusal, or the steps after it (R52). -/
theorem settle_optional (s : State) (p : Port) (r : Request) (act : α → State → State) (a : α) (o : Option Rejection)
    (t : List (Option Rejection)) :
    s.settle p r (verdictOf a (o :: t)) act
      = match o with
        | some rej => s.answer p r.tag rej.1 rej.2
        | none => s.settle p r (verdictOf a t) act := by
  cases o <;> rfl

end

end Sys2Proof.Machine
end

