-- ==== Sys2Proof/Laws/Clock.lean ====
section
/-! SUPPORT. The lease clock: when an expiry is taken, and that an advance which reaches none changes only the clock. -/

namespace Sys2Proof.Machine

variable {s : State}

/-- No stored expiry stands at the clock's value. -/
def State.noneDue (s : State) : Prop :=
  ∀ e ∈ s.leases, e.expiry ≠ s.leaseClock ∧ ∀ w ∈ e.waiters, w.waitExpiry ≠ s.leaseClock

/-- A lease that `leaseOf` finds stands in the table. -/
theorem mem_of_leaseOf {k : Key} {e : Lease} (h : s.leaseOf k = some e) : e ∈ s.leases :=
  List.mem_of_find?_eq_some h

/-- A waiter that `waiterOf` finds stands in the list of some lease. -/
theorem mem_of_waiterOf {p : Port} {w : Waiter} (h : s.waiterOf p = some w) : ∃ e ∈ s.leases, w ∈ e.waiters :=
  List.mem_flatMap.mp (List.mem_of_find?_eq_some h)

/-- With none due, taking an expiry is no event. -/
theorem takeExpiry_of_noneDue (h : s.noneDue) (x : Expiry) : s.takeExpiry x = s := by
  cases x with
  | lease k =>
    simp only [State.takeExpiry, State.expireLease]
    split
    · rfl
    · next e he => rw [if_neg (h e (mem_of_leaseOf he)).1]
  | wait p =>
    simp only [State.takeExpiry, State.expireWait]
    split
    · rfl
    · next w hw =>
      obtain ⟨e, he, hm⟩ := mem_of_waiterOf hw
      rw [if_neg ((h e he).2 w hm)]

/-- With none due, taking any expiries changes nothing. -/
theorem foldl_takeExpiry_of_noneDue (h : s.noneDue) (xs : List Expiry) : xs.foldl State.takeExpiry s = s := by
  induction xs with
  | nil => rfl
  | cons x xs ih => rw [List.foldl_cons, takeExpiry_of_noneDue h, ih]

/-- LEASE_EXPIRY and WAIT_EXPIRY of an expiry that the next advance reaches are that advance. -/
theorem reachExpiry_reached {x : Expiry} (others : List Expiry) (h : s.reachesNext x = true) :
    s.reachExpiry x others = s.advanceClock (x :: others) :=
  if_pos h

theorem reachExpiry_not_reached {x : Expiry} (others : List Expiry) (h : s.reachesNext x = false) :
    s.reachExpiry x others = s := by
  rw [State.reachExpiry, h]; rfl

end Sys2Proof.Machine
end

