-- ==== Sys2Proof/Laws/Flash.lean ====
section
/-! SUPPORT. The flash array: what each operation leaves at each address, and that each keeps the canonical form. -/

namespace Sys2Proof.Machine

/-! ### The canonical form, unfolded -/

/-- Addresses strictly rising from `lo` on, and no erased byte listed. -/
def risingFrom (lo : Nat) : List Host.Cell → Prop
  | [] => True
  | (a, b) :: t => lo ≤ a ∧ b ≠ erasedByte ∧ risingFrom (a + 1) t

theorem risingFrom_mono {lo lo' : Nat} (h : lo' ≤ lo) : ∀ {m : List Host.Cell}, risingFrom lo m → risingFrom lo' m
  | [], _ => trivial
  | (_, _) :: _, ⟨hl, hb, ht⟩ => ⟨Nat.le_trans h hl, hb, ht⟩

theorem wf_cons {a : Nat} {b : Byte} : ∀ {t : List Host.Cell},
    Memory.wf ((a, b) :: t) = true ↔ b ≠ erasedByte ∧ Memory.wf t = true ∧ ∀ c ∈ t.head?, a < c.1
  | [] => by simp [Memory.wf]
  | (a', b') :: t => by simp [Memory.wf, and_comm, and_left_comm, and_assoc]

/-- The canonical form is a rising list from 0. -/
theorem wf_iff_rising : ∀ (m : List Host.Cell), Memory.wf m = true ↔ risingFrom 0 m := by
  have key : ∀ (m : List Host.Cell) (lo : Nat),
      (Memory.wf m = true ∧ ∀ c ∈ m.head?, lo ≤ c.1) ↔ risingFrom lo m := by
    intro m
    induction m with
    | nil => simp [Memory.wf, risingFrom]
    | cons c t ih =>
      obtain ⟨a, b⟩ := c
      intro lo
      rw [wf_cons, risingFrom, ← ih (a + 1)]
      constructor
      · rintro ⟨⟨hb, ht, hn⟩, hl⟩
        exact ⟨hl _ rfl, hb, ht, fun c hc => Nat.succ_le_of_lt (hn c hc)⟩
      · rintro ⟨hl, hb, ht, hn⟩
        refine ⟨⟨hb, ht, fun c hc => Nat.lt_of_succ_le (hn c hc)⟩, fun c hc => ?_⟩
        cases hc
        exact hl
  intro m
  rw [← key m 0]
  simp

/-! ### Writing one byte -/

theorem readByte_below {lo a : Nat} : ∀ {m : List Host.Cell}, risingFrom lo m → a < lo → readByte m a = erasedByte
  | [], _, _ => rfl
  | (x, y) :: t, ⟨hl, _, ht⟩, ha => by
    have hx : x ≠ a := by omega
    simp only [readByte, hx, if_false]
    exact readByte_below ht (by omega)

theorem risingFrom_writeByte {a : Nat} {b : Byte} : ∀ {lo : Nat} {m : List Host.Cell},
    risingFrom lo m → lo ≤ a → risingFrom lo (writeByte m a b)
  | lo, [], _, hl => by
    unfold writeByte
    split
    · trivial
    · rename_i hb
      exact ⟨hl, hb, trivial⟩
  | lo, (x, y) :: t, ⟨hx, hy, ht⟩, hl => by
    unfold writeByte
    split
    · rename_i hax
      split
      · exact ⟨hx, hy, ht⟩
      · rename_i hb
        exact ⟨hl, hb, Nat.succ_le_of_lt hax, hy, ht⟩
    · split
      · rename_i heq
        split
        · exact risingFrom_mono (by omega) ht
        · rename_i hb
          exact ⟨hl, hb, heq ▸ ht⟩
      · exact ⟨hx, hy, risingFrom_writeByte ht (by omega)⟩

theorem readByte_writeByte {a c : Nat} {b : Byte} : ∀ {lo : Nat} {m : List Host.Cell}, risingFrom lo m →
    readByte (writeByte m a b) c = if c = a then b else readByte m c
  | _, [], _ => by
    unfold writeByte
    split
    · rename_i hb
      by_cases hc : c = a <;> simp [readByte, hc, hb]
    · by_cases hc : c = a
      · simp [readByte, hc]
      · simp [readByte, hc, Ne.symm hc]
  | lo, (x, y) :: t, ⟨hx, hy, ht⟩ => by
    unfold writeByte
    split
    · rename_i hax
      split
      · rename_i hb
        by_cases hc : c = a
        · have : readByte ((x, y) :: t) a = erasedByte :=
            readByte_below (lo := x) ⟨Nat.le_refl x, hy, ht⟩ hax
          rw [hc, this]
          simp [hb]
        · simp [hc]
      · by_cases hc : c = a
        · simp [readByte, hc]
        · simp [readByte, hc, Ne.symm hc]
    · split
      · rename_i heq
        subst heq
        split
        · rename_i hb
          by_cases hc : c = a
          · subst hc
            rw [readByte_below ht (Nat.lt_succ_self c)]
            simp [hb]
          · simp [readByte, hc, Ne.symm hc]
        · by_cases hc : c = a
          · simp [readByte, hc]
          · simp [readByte, hc, Ne.symm hc]
      · rename_i hlt hne
        by_cases hc : x = c
        · have hca : c ≠ a := by omega
          simp [readByte, hc, hca]
        · simp only [readByte, hc, if_false]
          exact readByte_writeByte ht

/-- A write keeps the canonical form. -/
theorem wf_writeByte {m : List Host.Cell} (a : Nat) (b : Byte) (h : Memory.wf m = true) :
    Memory.wf (writeByte m a b) = true :=
  (wf_iff_rising _).2 (risingFrom_writeByte ((wf_iff_rising m).1 h) (Nat.zero_le a))

/-- A byte written is read back, and every other byte reads as before. -/
theorem read_after_write {m : List Host.Cell} (a c : Nat) (b : Byte) (h : Memory.wf m = true) :
    readByte (writeByte m a b) c = if c = a then b else readByte m c :=
  readByte_writeByte ((wf_iff_rising m).1 h)

/-! ### Programming -/

/-- Programming keeps the canonical form. -/
theorem wf_programBytes : ∀ (bs : List Byte) {m : List Host.Cell} (a : Nat), Memory.wf m = true →
    Memory.wf (programBytes m a bs) = true
  | [], _, _, h => h
  | b :: bs, m, a, h => wf_programBytes bs (a + 1) (wf_writeByte a (readByte m a &&& b) h)

/-- Programming leaves in each byte named the bits that were one and were asked for as one, and every other byte as it was
(R135). -/
theorem read_programBytes : ∀ (bs : List Byte) {m : List Host.Cell} (a c : Nat), Memory.wf m = true →
    readByte (programBytes m a bs) c =
      if a ≤ c ∧ c < a + bs.length then readByte m c &&& bs.getD (c - a) erasedByte else readByte m c
  | [], m, a, c, _ => by
    simp [programBytes]
  | b :: bs, m, a, c, h => by
    simp only [programBytes]
    rw [read_programBytes bs (a + 1) c (wf_writeByte a _ h), read_after_write a c _ h]
    by_cases hc : c = a
    · subst hc
      simp
    · by_cases hr : a + 1 ≤ c ∧ c < a + 1 + bs.length
      · have hr' : a ≤ c ∧ c < a + (b :: bs).length := by simp; omega
        have hi : c - a = (c - (a + 1)) + 1 := by omega
        simp [hc, hr, hr', hi]
        omega
      · have hr' : ¬(a ≤ c ∧ c < a + (b :: bs).length) := by simp; omega
        simp only [hc, hr, hr', if_false]

/-! ### Erasing -/

theorem risingFrom_raise (bits : Nat → Byte) (base lo hi : Nat) : ∀ {n : Nat} {m : List Host.Cell},
    risingFrom n m → risingFrom n (raiseBytes bits base lo hi m)
  | _, [], _ => trivial
  | n, (a, b) :: t, ⟨hn, hb, ht⟩ => by
    simp only [raiseBytes]
    split
    · split
      · exact risingFrom_mono (by omega) (risingFrom_raise bits base lo hi ht)
      · rename_i hne
        exact ⟨hn, hne, risingFrom_raise bits base lo hi ht⟩
    · exact ⟨hn, hb, risingFrom_raise bits base lo hi ht⟩

theorem or_erased (b : Byte) : erasedByte ||| b = erasedByte := by
  ext i
  simp [erasedByte]
  interval_cases i <;> simp

theorem readByte_raise (bits : Nat → Byte) (base lo hi c : Nat) : ∀ {n : Nat} {m : List Host.Cell}, risingFrom n m →
    readByte (raiseBytes bits base lo hi m) c =
      if lo ≤ c ∧ c < hi then readByte m c ||| bits (c - base) else readByte m c
  | _, [], _ => by
    simp only [raiseBytes, readByte, or_erased, ite_self]
  | n, (a, b) :: t, ⟨hn, hb, ht⟩ => by
    simp only [raiseBytes]
    by_cases hc : a = c
    · subst hc
      by_cases hr : lo ≤ a ∧ a < hi
      · rw [if_pos hr]
        split
        · rename_i he
          rw [readByte_raise bits base lo hi a ht, readByte_below ht (Nat.lt_succ_self a), or_erased, ite_self]
          simp [readByte, he]
        · simp [readByte]
      · simp [readByte, hr]
    · split
      · split
        · rw [readByte_raise bits base lo hi c ht]
          simp [readByte, hc]
        · simp only [readByte, hc, if_false]
          exact readByte_raise bits base lo hi c ht
      · simp only [readByte, hc, if_false]
        exact readByte_raise bits base lo hi c ht

theorem wf_raiseBytes (bits : Nat → Byte) (base lo hi : Nat) {m : List Host.Cell} (h : Memory.wf m = true) :
    Memory.wf (raiseBytes bits base lo hi m) = true :=
  (wf_iff_rising _).2 (risingFrom_raise bits base lo hi ((wf_iff_rising m).1 h))

/-- A sector erase keeps the canonical form. -/
theorem wf_eraseSector (bits : Nat → Byte) (i : Nat) {m : List Host.Cell} (h : Memory.wf m = true) :
    Memory.wf (eraseSector bits i m) = true := by
  unfold eraseSector
  split
  · exact wf_raiseBytes _ _ _ _ (wf_raiseBytes _ _ _ _ h)
  · exact wf_raiseBytes _ _ _ _ h

/-- A sector erase leaves every byte outside its sector as it was (R136). -/
theorem read_eraseSector_outside (bits : Nat → Byte) (i c : Nat) {m : List Host.Cell} (h : Memory.wf m = true)
    (hc : c < sectorBase i ∨ sectorBase i + sectorBytes ≤ c) : readByte (eraseSector bits i m) c = readByte m c := by
  have h1 := (wf_iff_rising m).1 h
  have h2 := (wf_iff_rising _).1 (wf_raiseBytes bits (sectorBase i) (sectorBase i) (sectorBase i + 40) h)
  have hs : sectorBytes = 2048 := rfl
  unfold eraseSector
  split
  · rw [readByte_raise _ _ _ _ _ h2, readByte_raise _ _ _ _ _ h1, if_neg (by omega), if_neg (by omega)]
  · rw [readByte_raise _ _ _ _ _ h1, if_neg (by omega)]

/-- No byte of the range is other than 0xFF. -/
theorem allErased_iff {m : List Host.Cell} (h : Memory.wf m = true) (lo hi : Nat) :
    allErased m lo hi = true ↔ ∀ a, lo ≤ a → a < hi → readByte m a = erasedByte := by
  have key : ∀ {n : Nat} {m : List Host.Cell}, risingFrom n m →
      (allErased m lo hi = true ↔ ∀ a, lo ≤ a → a < hi → readByte m a = erasedByte) := by
    intro n m
    induction m generalizing n with
    | nil => simp [allErased, readByte]
    | cons c t ih =>
      obtain ⟨x, y⟩ := c
      rintro ⟨hn, hy, ht⟩
      have hstep : allErased ((x, y) :: t) lo hi = true ↔ ¬(lo ≤ x ∧ x < hi) ∧ allErased t lo hi = true := by
        simp only [allErased, List.all_cons, Bool.and_eq_true, Bool.not_eq_true', Bool.and_eq_false_iff,
          decide_eq_false_iff_not]
        tauto
      rw [hstep, ih ht]
      constructor
      · rintro ⟨hx, hall⟩ a hl hh
        have hxa : x ≠ a := fun he => hx (he ▸ ⟨hl, hh⟩)
        simp only [readByte, hxa, if_false]
        exact hall a hl hh
      · intro hall
        have hx : ¬(lo ≤ x ∧ x < hi) := by
          rintro ⟨hl, hh⟩
          have := hall x hl hh
          simp only [readByte, if_true] at this
          exact hy this
        refine ⟨hx, fun a hl hh => ?_⟩
        by_cases hxa : x = a
        · exact absurd (hxa ▸ ⟨hl, hh⟩) hx
        · have := hall a hl hh
          simpa only [readByte, hxa, if_false] using this
  exact key ((wf_iff_rising m).1 h)

/-- On good flash an erase leaves every byte of its sector 0xFF (R136). -/
theorem read_eraseSector_good (i c : Nat) {m : List Host.Cell} (h : Memory.wf m = true)
    (hc : sectorBase i ≤ c ∧ c < sectorBase i + sectorBytes) :
    readByte (eraseSector (stuckBits []) i m) c = erasedByte := by
  have hor : ∀ b : Byte, b ||| stuckBits [] 0 = erasedByte := fun b => by
    rw [BitVec.or_comm]
    exact or_erased b
  have hbits : ∀ k, stuckBits [] k = stuckBits [] 0 := fun _ => rfl
  have h1 := (wf_iff_rising m).1 h
  have hw := wf_raiseBytes (stuckBits []) (sectorBase i) (sectorBase i) (sectorBase i + 40) h
  have h2 := (wf_iff_rising _).1 hw
  have hhead : allErased (raiseBytes (stuckBits []) (sectorBase i) (sectorBase i) (sectorBase i + 40) m)
      (sectorBase i) (sectorBase i + 40) = true :=
    (allErased_iff hw _ _).2 fun a hl hh => by
      rw [readByte_raise _ _ _ _ _ h1, if_pos ⟨hl, hh⟩, hbits, hor]
  unfold eraseSector
  rw [if_pos hhead, readByte_raise _ _ _ _ _ h2, readByte_raise _ _ _ _ _ h1]
  by_cases hp : sectorBase i + 40 ≤ c ∧ c < sectorBase i + sectorBytes
  · rw [if_pos hp, hbits, hor]
  · rw [if_neg hp, if_pos (by omega), hbits, hor]

/-- A byte of the payload changes only once the whole header reads 0xFF (R136). -/
theorem read_eraseSector_payload (bits : Nat → Byte) (i c : Nat) {m : List Host.Cell} (h : Memory.wf m = true)
    (hh : ∃ a, sectorBase i ≤ a ∧ a < sectorBase i + 40 ∧ readByte (eraseSector bits i m) a ≠ erasedByte)
    (hc : sectorBase i + 40 ≤ c) : readByte (eraseSector bits i m) c = readByte m c := by
  have h1 := (wf_iff_rising m).1 h
  have hw := wf_raiseBytes bits (sectorBase i) (sectorBase i) (sectorBase i + 40) h
  have h2 := (wf_iff_rising _).1 hw
  unfold eraseSector at hh ⊢
  split
  · rename_i hall
    obtain ⟨a, hl, hu, hne⟩ := hh
    rw [if_pos hall, readByte_raise _ _ _ _ _ h2, if_neg (by omega)] at hne
    exact absurd ((allErased_iff hw _ _).1 hall a hl hu) hne
  · rw [readByte_raise _ _ _ _ _ h1, if_neg (by omega)]

/-! ### A reset, and the state after it -/

/-- An operation cut off by a reset keeps the canonical form (R134). -/
theorem wf_cutFlash (c : FlashController) (draw : Nat) {m : List Host.Cell} (h : Memory.wf m = true) :
    Memory.wf (cutFlash c draw m) = true := by
  cases c with
  | idle => exact h
  | programming i l data => exact wf_programBytes _ _ h
  | erasing i => exact wf_eraseSector _ i h

theorem reset_flash_wf : Memory.wf State.reset.flash = true := rfl

end Sys2Proof.Machine
end

