-- ==== Sys2Proof/Laws/State.lean ====
section
/-! SUPPORT. What each update of the state leaves in each field: one lemma for each field and update, true by rfl, so that no
later proof unfolds a record update. -/

namespace Sys2Proof.Machine

variable (s : State)

/-! ### State.setPort -/

@[simp] theorem setPort_pending (p : Port) (u : PortUnit) : (s.setPort p u).pending = s.pending := rfl
@[simp] theorem setPort_resetPin (p : Port) (u : PortUnit) : (s.setPort p u).resetPin = s.resetPin := rfl
@[simp] theorem setPort_powerHold (p : Port) (u : PortUnit) : (s.setPort p u).powerHold = s.powerHold := rfl
@[simp] theorem setPort_supply (p : Port) (u : PortUnit) : (s.setPort p u).supply = s.supply := rfl
@[simp] theorem setPort_supplyHigh (p : Port) (u : PortUnit) : (s.setPort p u).supplyHigh = s.supplyHigh := rfl
@[simp] theorem setPort_mode (p : Port) (u : PortUnit) : (s.setPort p u).mode = s.mode := rfl
@[simp] theorem setPort_work (p : Port) (u : PortUnit) : (s.setPort p u).work = s.work := rfl
@[simp] theorem setPort_pointer (p : Port) (u : PortUnit) : (s.setPort p u).pointer = s.pointer := rfl
@[simp] theorem setPort_lastGrant (p : Port) (u : PortUnit) : (s.setPort p u).lastGrant = s.lastGrant := rfl
@[simp] theorem setPort_controller (p : Port) (u : PortUnit) : (s.setPort p u).controller = s.controller := rfl
@[simp] theorem setPort_flash (p : Port) (u : PortUnit) : (s.setPort p u).flash = s.flash := rfl
@[simp] theorem setPort_sectors (p : Port) (u : PortUnit) : (s.setPort p u).sectors = s.sectors := rfl
@[simp] theorem setPort_nextSeq (p : Port) (u : PortUnit) : (s.setPort p u).nextSeq = s.nextSeq := rfl
@[simp] theorem setPort_nextGen (p : Port) (u : PortUnit) : (s.setPort p u).nextGen = s.nextGen := rfl
@[simp] theorem setPort_directory (p : Port) (u : PortUnit) : (s.setPort p u).directory = s.directory := rfl
@[simp] theorem setPort_rightsInForce (p : Port) (u : PortUnit) : (s.setPort p u).rightsInForce = s.rightsInForce := rfl
@[simp] theorem setPort_freezeLine (p : Port) (u : PortUnit) : (s.setPort p u).freezeLine = s.freezeLine := rfl
@[simp] theorem setPort_defaultPeriod (p : Port) (u : PortUnit) : (s.setPort p u).defaultPeriod = s.defaultPeriod := rfl
@[simp] theorem setPort_damaged (p : Port) (u : PortUnit) : (s.setPort p u).damaged = s.damaged := rfl
@[simp] theorem setPort_reclaim (p : Port) (u : PortUnit) : (s.setPort p u).reclaim = s.reclaim := rfl
@[simp] theorem setPort_leases (p : Port) (u : PortUnit) : (s.setPort p u).leases = s.leases := rfl
@[simp] theorem setPort_leaseClock (p : Port) (u : PortUnit) : (s.setPort p u).leaseClock = s.leaseClock := rfl
@[simp] theorem setPort_ports (p : Port) (u : PortUnit) : (s.setPort p u).ports = s.ports.set p u := rfl
@[simp] theorem setPort_sessions (p : Port) (u : PortUnit) : (s.setPort p u).sessions = s.sessions := rfl
@[simp] theorem setPort_draws (p : Port) (u : PortUnit) : (s.setPort p u).draws = s.draws := rfl

/-! ### State.setSession -/

@[simp] theorem setSession_pending (p : Port) (x : Session) : (s.setSession p x).pending = s.pending := rfl
@[simp] theorem setSession_resetPin (p : Port) (x : Session) : (s.setSession p x).resetPin = s.resetPin := rfl
@[simp] theorem setSession_powerHold (p : Port) (x : Session) : (s.setSession p x).powerHold = s.powerHold := rfl
@[simp] theorem setSession_supply (p : Port) (x : Session) : (s.setSession p x).supply = s.supply := rfl
@[simp] theorem setSession_supplyHigh (p : Port) (x : Session) : (s.setSession p x).supplyHigh = s.supplyHigh := rfl
@[simp] theorem setSession_mode (p : Port) (x : Session) : (s.setSession p x).mode = s.mode := rfl
@[simp] theorem setSession_work (p : Port) (x : Session) : (s.setSession p x).work = s.work := rfl
@[simp] theorem setSession_pointer (p : Port) (x : Session) : (s.setSession p x).pointer = s.pointer := rfl
@[simp] theorem setSession_lastGrant (p : Port) (x : Session) : (s.setSession p x).lastGrant = s.lastGrant := rfl
@[simp] theorem setSession_controller (p : Port) (x : Session) : (s.setSession p x).controller = s.controller := rfl
@[simp] theorem setSession_flash (p : Port) (x : Session) : (s.setSession p x).flash = s.flash := rfl
@[simp] theorem setSession_sectors (p : Port) (x : Session) : (s.setSession p x).sectors = s.sectors := rfl
@[simp] theorem setSession_nextSeq (p : Port) (x : Session) : (s.setSession p x).nextSeq = s.nextSeq := rfl
@[simp] theorem setSession_nextGen (p : Port) (x : Session) : (s.setSession p x).nextGen = s.nextGen := rfl
@[simp] theorem setSession_directory (p : Port) (x : Session) : (s.setSession p x).directory = s.directory := rfl
@[simp] theorem setSession_rightsInForce (p : Port) (x : Session) : (s.setSession p x).rightsInForce = s.rightsInForce := rfl
@[simp] theorem setSession_freezeLine (p : Port) (x : Session) : (s.setSession p x).freezeLine = s.freezeLine := rfl
@[simp] theorem setSession_defaultPeriod (p : Port) (x : Session) : (s.setSession p x).defaultPeriod = s.defaultPeriod := rfl
@[simp] theorem setSession_damaged (p : Port) (x : Session) : (s.setSession p x).damaged = s.damaged := rfl
@[simp] theorem setSession_reclaim (p : Port) (x : Session) : (s.setSession p x).reclaim = s.reclaim := rfl
@[simp] theorem setSession_leases (p : Port) (x : Session) : (s.setSession p x).leases = s.leases := rfl
@[simp] theorem setSession_leaseClock (p : Port) (x : Session) : (s.setSession p x).leaseClock = s.leaseClock := rfl
@[simp] theorem setSession_ports (p : Port) (x : Session) : (s.setSession p x).ports = s.ports := rfl
@[simp] theorem setSession_sessions (p : Port) (x : Session) : (s.setSession p x).sessions = s.sessions.set p x := rfl
@[simp] theorem setSession_draws (p : Port) (x : Session) : (s.setSession p x).draws = s.draws := rfl

/-! ### State.setSector -/

@[simp] theorem setSector_pending (i : Nat) (e : Sector) : (s.setSector i e).pending = s.pending := rfl
@[simp] theorem setSector_resetPin (i : Nat) (e : Sector) : (s.setSector i e).resetPin = s.resetPin := rfl
@[simp] theorem setSector_powerHold (i : Nat) (e : Sector) : (s.setSector i e).powerHold = s.powerHold := rfl
@[simp] theorem setSector_supply (i : Nat) (e : Sector) : (s.setSector i e).supply = s.supply := rfl
@[simp] theorem setSector_supplyHigh (i : Nat) (e : Sector) : (s.setSector i e).supplyHigh = s.supplyHigh := rfl
@[simp] theorem setSector_mode (i : Nat) (e : Sector) : (s.setSector i e).mode = s.mode := rfl
@[simp] theorem setSector_work (i : Nat) (e : Sector) : (s.setSector i e).work = s.work := rfl
@[simp] theorem setSector_pointer (i : Nat) (e : Sector) : (s.setSector i e).pointer = s.pointer := rfl
@[simp] theorem setSector_lastGrant (i : Nat) (e : Sector) : (s.setSector i e).lastGrant = s.lastGrant := rfl
@[simp] theorem setSector_controller (i : Nat) (e : Sector) : (s.setSector i e).controller = s.controller := rfl
@[simp] theorem setSector_flash (i : Nat) (e : Sector) : (s.setSector i e).flash = s.flash := rfl
@[simp] theorem setSector_sectors (i : Nat) (e : Sector) : (s.setSector i e).sectors = s.sectors.set i e := rfl
@[simp] theorem setSector_nextSeq (i : Nat) (e : Sector) : (s.setSector i e).nextSeq = s.nextSeq := rfl
@[simp] theorem setSector_nextGen (i : Nat) (e : Sector) : (s.setSector i e).nextGen = s.nextGen := rfl
@[simp] theorem setSector_directory (i : Nat) (e : Sector) : (s.setSector i e).directory = s.directory := rfl
@[simp] theorem setSector_rightsInForce (i : Nat) (e : Sector) : (s.setSector i e).rightsInForce = s.rightsInForce := rfl
@[simp] theorem setSector_freezeLine (i : Nat) (e : Sector) : (s.setSector i e).freezeLine = s.freezeLine := rfl
@[simp] theorem setSector_defaultPeriod (i : Nat) (e : Sector) : (s.setSector i e).defaultPeriod = s.defaultPeriod := rfl
@[simp] theorem setSector_damaged (i : Nat) (e : Sector) : (s.setSector i e).damaged = s.damaged := rfl
@[simp] theorem setSector_reclaim (i : Nat) (e : Sector) : (s.setSector i e).reclaim = s.reclaim := rfl
@[simp] theorem setSector_leases (i : Nat) (e : Sector) : (s.setSector i e).leases = s.leases := rfl
@[simp] theorem setSector_leaseClock (i : Nat) (e : Sector) : (s.setSector i e).leaseClock = s.leaseClock := rfl
@[simp] theorem setSector_ports (i : Nat) (e : Sector) : (s.setSector i e).ports = s.ports := rfl
@[simp] theorem setSector_sessions (i : Nat) (e : Sector) : (s.setSector i e).sessions = s.sessions := rfl
@[simp] theorem setSector_draws (i : Nat) (e : Sector) : (s.setSector i e).draws = s.draws := rfl

/-! ### State.handReply -/

@[simp] theorem handReply_pending (p : Port) (r : Reply) : (s.handReply p r).pending = s.pending := rfl
@[simp] theorem handReply_resetPin (p : Port) (r : Reply) : (s.handReply p r).resetPin = s.resetPin := rfl
@[simp] theorem handReply_powerHold (p : Port) (r : Reply) : (s.handReply p r).powerHold = s.powerHold := rfl
@[simp] theorem handReply_supply (p : Port) (r : Reply) : (s.handReply p r).supply = s.supply := rfl
@[simp] theorem handReply_supplyHigh (p : Port) (r : Reply) : (s.handReply p r).supplyHigh = s.supplyHigh := rfl
@[simp] theorem handReply_mode (p : Port) (r : Reply) : (s.handReply p r).mode = s.mode := rfl
@[simp] theorem handReply_work (p : Port) (r : Reply) : (s.handReply p r).work = s.work := rfl
@[simp] theorem handReply_pointer (p : Port) (r : Reply) : (s.handReply p r).pointer = s.pointer := rfl
@[simp] theorem handReply_lastGrant (p : Port) (r : Reply) : (s.handReply p r).lastGrant = s.lastGrant := rfl
@[simp] theorem handReply_controller (p : Port) (r : Reply) : (s.handReply p r).controller = s.controller := rfl
@[simp] theorem handReply_flash (p : Port) (r : Reply) : (s.handReply p r).flash = s.flash := rfl
@[simp] theorem handReply_sectors (p : Port) (r : Reply) : (s.handReply p r).sectors = s.sectors := rfl
@[simp] theorem handReply_nextSeq (p : Port) (r : Reply) : (s.handReply p r).nextSeq = s.nextSeq := rfl
@[simp] theorem handReply_nextGen (p : Port) (r : Reply) : (s.handReply p r).nextGen = s.nextGen := rfl
@[simp] theorem handReply_directory (p : Port) (r : Reply) : (s.handReply p r).directory = s.directory := rfl
@[simp] theorem handReply_rightsInForce (p : Port) (r : Reply) : (s.handReply p r).rightsInForce = s.rightsInForce := rfl
@[simp] theorem handReply_freezeLine (p : Port) (r : Reply) : (s.handReply p r).freezeLine = s.freezeLine := rfl
@[simp] theorem handReply_defaultPeriod (p : Port) (r : Reply) : (s.handReply p r).defaultPeriod = s.defaultPeriod := rfl
@[simp] theorem handReply_damaged (p : Port) (r : Reply) : (s.handReply p r).damaged = s.damaged := rfl
@[simp] theorem handReply_reclaim (p : Port) (r : Reply) : (s.handReply p r).reclaim = s.reclaim := rfl
@[simp] theorem handReply_leases (p : Port) (r : Reply) : (s.handReply p r).leases = s.leases := rfl
@[simp] theorem handReply_leaseClock (p : Port) (r : Reply) : (s.handReply p r).leaseClock = s.leaseClock := rfl
@[simp] theorem handReply_ports (p : Port) (r : Reply) : (s.handReply p r).ports = s.ports.set p ((s.port p).receive r) := rfl
@[simp] theorem handReply_sessions (p : Port) (r : Reply) : (s.handReply p r).sessions = s.sessions := rfl
@[simp] theorem handReply_draws (p : Port) (r : Reply) : (s.handReply p r).draws = s.draws := rfl

/-! ### State.answer -/

@[simp] theorem answer_pending (p : Port) (tag : Byte) (st : Status) (body : List Byte) : (s.answer p tag st body).pending = s.pending := rfl
@[simp] theorem answer_resetPin (p : Port) (tag : Byte) (st : Status) (body : List Byte) : (s.answer p tag st body).resetPin = s.resetPin := rfl
@[simp] theorem answer_powerHold (p : Port) (tag : Byte) (st : Status) (body : List Byte) : (s.answer p tag st body).powerHold = s.powerHold := rfl
@[simp] theorem answer_supply (p : Port) (tag : Byte) (st : Status) (body : List Byte) : (s.answer p tag st body).supply = s.supply := rfl
@[simp] theorem answer_supplyHigh (p : Port) (tag : Byte) (st : Status) (body : List Byte) : (s.answer p tag st body).supplyHigh = s.supplyHigh := rfl
@[simp] theorem answer_mode (p : Port) (tag : Byte) (st : Status) (body : List Byte) : (s.answer p tag st body).mode = s.mode := rfl
@[simp] theorem answer_work (p : Port) (tag : Byte) (st : Status) (body : List Byte) : (s.answer p tag st body).work = .idle := rfl
@[simp] theorem answer_pointer (p : Port) (tag : Byte) (st : Status) (body : List Byte) : (s.answer p tag st body).pointer = s.pointer := rfl
@[simp] theorem answer_lastGrant (p : Port) (tag : Byte) (st : Status) (body : List Byte) : (s.answer p tag st body).lastGrant = s.lastGrant := rfl
@[simp] theorem answer_controller (p : Port) (tag : Byte) (st : Status) (body : List Byte) : (s.answer p tag st body).controller = s.controller := rfl
@[simp] theorem answer_flash (p : Port) (tag : Byte) (st : Status) (body : List Byte) : (s.answer p tag st body).flash = s.flash := rfl
@[simp] theorem answer_sectors (p : Port) (tag : Byte) (st : Status) (body : List Byte) : (s.answer p tag st body).sectors = s.sectors := rfl
@[simp] theorem answer_nextSeq (p : Port) (tag : Byte) (st : Status) (body : List Byte) : (s.answer p tag st body).nextSeq = s.nextSeq := rfl
@[simp] theorem answer_nextGen (p : Port) (tag : Byte) (st : Status) (body : List Byte) : (s.answer p tag st body).nextGen = s.nextGen := rfl
@[simp] theorem answer_directory (p : Port) (tag : Byte) (st : Status) (body : List Byte) : (s.answer p tag st body).directory = s.directory := rfl
@[simp] theorem answer_rightsInForce (p : Port) (tag : Byte) (st : Status) (body : List Byte) : (s.answer p tag st body).rightsInForce = s.rightsInForce := rfl
@[simp] theorem answer_freezeLine (p : Port) (tag : Byte) (st : Status) (body : List Byte) : (s.answer p tag st body).freezeLine = s.freezeLine := rfl
@[simp] theorem answer_defaultPeriod (p : Port) (tag : Byte) (st : Status) (body : List Byte) : (s.answer p tag st body).defaultPeriod = s.defaultPeriod := rfl
@[simp] theorem answer_damaged (p : Port) (tag : Byte) (st : Status) (body : List Byte) : (s.answer p tag st body).damaged = s.damaged := rfl
@[simp] theorem answer_reclaim (p : Port) (tag : Byte) (st : Status) (body : List Byte) : (s.answer p tag st body).reclaim = s.reclaim := rfl
@[simp] theorem answer_leases (p : Port) (tag : Byte) (st : Status) (body : List Byte) : (s.answer p tag st body).leases = s.leases := rfl
@[simp] theorem answer_leaseClock (p : Port) (tag : Byte) (st : Status) (body : List Byte) : (s.answer p tag st body).leaseClock = s.leaseClock := rfl
@[simp] theorem answer_ports (p : Port) (tag : Byte) (st : Status) (body : List Byte) : (s.answer p tag st body).ports = s.ports.set p ((s.port p).receive ⟨tag, st, body⟩).endService := rfl
@[simp] theorem answer_sessions (p : Port) (tag : Byte) (st : Status) (body : List Byte) : (s.answer p tag st body).sessions = s.sessions := rfl
@[simp] theorem answer_draws (p : Port) (tag : Byte) (st : Status) (body : List Byte) : (s.answer p tag st body).draws = s.draws := rfl

/-! ### State.setEntry -/

@[simp] theorem setEntry_pending (e : DirEntry) : (s.setEntry e).pending = s.pending := rfl
@[simp] theorem setEntry_resetPin (e : DirEntry) : (s.setEntry e).resetPin = s.resetPin := rfl
@[simp] theorem setEntry_powerHold (e : DirEntry) : (s.setEntry e).powerHold = s.powerHold := rfl
@[simp] theorem setEntry_supply (e : DirEntry) : (s.setEntry e).supply = s.supply := rfl
@[simp] theorem setEntry_supplyHigh (e : DirEntry) : (s.setEntry e).supplyHigh = s.supplyHigh := rfl
@[simp] theorem setEntry_mode (e : DirEntry) : (s.setEntry e).mode = s.mode := rfl
@[simp] theorem setEntry_work (e : DirEntry) : (s.setEntry e).work = s.work := rfl
@[simp] theorem setEntry_pointer (e : DirEntry) : (s.setEntry e).pointer = s.pointer := rfl
@[simp] theorem setEntry_lastGrant (e : DirEntry) : (s.setEntry e).lastGrant = s.lastGrant := rfl
@[simp] theorem setEntry_controller (e : DirEntry) : (s.setEntry e).controller = s.controller := rfl
@[simp] theorem setEntry_flash (e : DirEntry) : (s.setEntry e).flash = s.flash := rfl
@[simp] theorem setEntry_sectors (e : DirEntry) : (s.setEntry e).sectors = dropLive (addLive s.sectors e.sector e.size) (s.entry e.key) := rfl
@[simp] theorem setEntry_nextSeq (e : DirEntry) : (s.setEntry e).nextSeq = s.nextSeq := rfl
@[simp] theorem setEntry_nextGen (e : DirEntry) : (s.setEntry e).nextGen = s.nextGen := rfl
@[simp] theorem setEntry_directory (e : DirEntry) : (s.setEntry e).directory = insertKeyed DirEntry.key e s.directory := rfl
@[simp] theorem setEntry_rightsInForce (e : DirEntry) : (s.setEntry e).rightsInForce = s.rightsInForce := rfl
@[simp] theorem setEntry_freezeLine (e : DirEntry) : (s.setEntry e).freezeLine = s.freezeLine := rfl
@[simp] theorem setEntry_defaultPeriod (e : DirEntry) : (s.setEntry e).defaultPeriod = s.defaultPeriod := rfl
@[simp] theorem setEntry_damaged (e : DirEntry) : (s.setEntry e).damaged = s.damaged := rfl
@[simp] theorem setEntry_reclaim (e : DirEntry) : (s.setEntry e).reclaim = s.reclaim := rfl
@[simp] theorem setEntry_leases (e : DirEntry) : (s.setEntry e).leases = s.leases := rfl
@[simp] theorem setEntry_leaseClock (e : DirEntry) : (s.setEntry e).leaseClock = s.leaseClock := rfl
@[simp] theorem setEntry_ports (e : DirEntry) : (s.setEntry e).ports = s.ports := rfl
@[simp] theorem setEntry_sessions (e : DirEntry) : (s.setEntry e).sessions = s.sessions := rfl
@[simp] theorem setEntry_draws (e : DirEntry) : (s.setEntry e).draws = s.draws := rfl

/-! ### State.removeEntry -/

@[simp] theorem removeEntry_pending (k : Key) : (s.removeEntry k).pending = s.pending := rfl
@[simp] theorem removeEntry_resetPin (k : Key) : (s.removeEntry k).resetPin = s.resetPin := rfl
@[simp] theorem removeEntry_powerHold (k : Key) : (s.removeEntry k).powerHold = s.powerHold := rfl
@[simp] theorem removeEntry_supply (k : Key) : (s.removeEntry k).supply = s.supply := rfl
@[simp] theorem removeEntry_supplyHigh (k : Key) : (s.removeEntry k).supplyHigh = s.supplyHigh := rfl
@[simp] theorem removeEntry_mode (k : Key) : (s.removeEntry k).mode = s.mode := rfl
@[simp] theorem removeEntry_work (k : Key) : (s.removeEntry k).work = s.work := rfl
@[simp] theorem removeEntry_pointer (k : Key) : (s.removeEntry k).pointer = s.pointer := rfl
@[simp] theorem removeEntry_lastGrant (k : Key) : (s.removeEntry k).lastGrant = s.lastGrant := rfl
@[simp] theorem removeEntry_controller (k : Key) : (s.removeEntry k).controller = s.controller := rfl
@[simp] theorem removeEntry_flash (k : Key) : (s.removeEntry k).flash = s.flash := rfl
@[simp] theorem removeEntry_sectors (k : Key) : (s.removeEntry k).sectors = dropLive s.sectors (s.entry k) := rfl
@[simp] theorem removeEntry_nextSeq (k : Key) : (s.removeEntry k).nextSeq = s.nextSeq := rfl
@[simp] theorem removeEntry_nextGen (k : Key) : (s.removeEntry k).nextGen = s.nextGen := rfl
@[simp] theorem removeEntry_directory (k : Key) : (s.removeEntry k).directory = removeKeyed DirEntry.key k s.directory := rfl
@[simp] theorem removeEntry_rightsInForce (k : Key) : (s.removeEntry k).rightsInForce = s.rightsInForce := rfl
@[simp] theorem removeEntry_freezeLine (k : Key) : (s.removeEntry k).freezeLine = s.freezeLine := rfl
@[simp] theorem removeEntry_defaultPeriod (k : Key) : (s.removeEntry k).defaultPeriod = s.defaultPeriod := rfl
@[simp] theorem removeEntry_damaged (k : Key) : (s.removeEntry k).damaged = s.damaged := rfl
@[simp] theorem removeEntry_reclaim (k : Key) : (s.removeEntry k).reclaim = s.reclaim := rfl
@[simp] theorem removeEntry_leases (k : Key) : (s.removeEntry k).leases = s.leases := rfl
@[simp] theorem removeEntry_leaseClock (k : Key) : (s.removeEntry k).leaseClock = s.leaseClock := rfl
@[simp] theorem removeEntry_ports (k : Key) : (s.removeEntry k).ports = s.ports := rfl
@[simp] theorem removeEntry_sessions (k : Key) : (s.removeEntry k).sessions = s.sessions := rfl
@[simp] theorem removeEntry_draws (k : Key) : (s.removeEntry k).draws = s.draws := rfl

/-! ### State.postChanged -/

@[simp] theorem postChanged_pending (p : Port) (k : Key) (v : SeqNo) : (s.postChanged p k v).pending = s.pending := rfl
@[simp] theorem postChanged_resetPin (p : Port) (k : Key) (v : SeqNo) : (s.postChanged p k v).resetPin = s.resetPin := rfl
@[simp] theorem postChanged_powerHold (p : Port) (k : Key) (v : SeqNo) : (s.postChanged p k v).powerHold = s.powerHold := rfl
@[simp] theorem postChanged_supply (p : Port) (k : Key) (v : SeqNo) : (s.postChanged p k v).supply = s.supply := rfl
@[simp] theorem postChanged_supplyHigh (p : Port) (k : Key) (v : SeqNo) : (s.postChanged p k v).supplyHigh = s.supplyHigh := rfl
@[simp] theorem postChanged_mode (p : Port) (k : Key) (v : SeqNo) : (s.postChanged p k v).mode = s.mode := rfl
@[simp] theorem postChanged_work (p : Port) (k : Key) (v : SeqNo) : (s.postChanged p k v).work = s.work := rfl
@[simp] theorem postChanged_pointer (p : Port) (k : Key) (v : SeqNo) : (s.postChanged p k v).pointer = s.pointer := rfl
@[simp] theorem postChanged_lastGrant (p : Port) (k : Key) (v : SeqNo) : (s.postChanged p k v).lastGrant = s.lastGrant := rfl
@[simp] theorem postChanged_controller (p : Port) (k : Key) (v : SeqNo) : (s.postChanged p k v).controller = s.controller := rfl
@[simp] theorem postChanged_flash (p : Port) (k : Key) (v : SeqNo) : (s.postChanged p k v).flash = s.flash := rfl
@[simp] theorem postChanged_sectors (p : Port) (k : Key) (v : SeqNo) : (s.postChanged p k v).sectors = s.sectors := rfl
@[simp] theorem postChanged_nextSeq (p : Port) (k : Key) (v : SeqNo) : (s.postChanged p k v).nextSeq = s.nextSeq := rfl
@[simp] theorem postChanged_nextGen (p : Port) (k : Key) (v : SeqNo) : (s.postChanged p k v).nextGen = s.nextGen := rfl
@[simp] theorem postChanged_directory (p : Port) (k : Key) (v : SeqNo) : (s.postChanged p k v).directory = s.directory := rfl
@[simp] theorem postChanged_rightsInForce (p : Port) (k : Key) (v : SeqNo) : (s.postChanged p k v).rightsInForce = s.rightsInForce := rfl
@[simp] theorem postChanged_freezeLine (p : Port) (k : Key) (v : SeqNo) : (s.postChanged p k v).freezeLine = s.freezeLine := rfl
@[simp] theorem postChanged_defaultPeriod (p : Port) (k : Key) (v : SeqNo) : (s.postChanged p k v).defaultPeriod = s.defaultPeriod := rfl
@[simp] theorem postChanged_damaged (p : Port) (k : Key) (v : SeqNo) : (s.postChanged p k v).damaged = s.damaged := rfl
@[simp] theorem postChanged_reclaim (p : Port) (k : Key) (v : SeqNo) : (s.postChanged p k v).reclaim = s.reclaim := rfl
@[simp] theorem postChanged_leases (p : Port) (k : Key) (v : SeqNo) : (s.postChanged p k v).leases = s.leases := rfl
@[simp] theorem postChanged_leaseClock (p : Port) (k : Key) (v : SeqNo) : (s.postChanged p k v).leaseClock = s.leaseClock := rfl
@[simp] theorem postChanged_ports (p : Port) (k : Key) (v : SeqNo) : (s.postChanged p k v).ports = s.ports := rfl
@[simp] theorem postChanged_sessions (p : Port) (k : Key) (v : SeqNo) : (s.postChanged p k v).sessions = s.sessions.mapOthers p (Session.takeChanged k v) := rfl
@[simp] theorem postChanged_draws (p : Port) (k : Key) (v : SeqNo) : (s.postChanged p k v).draws = s.draws := rfl

/-! ### State.postLapsed -/

@[simp] theorem postLapsed_pending (p : Port) (k : Key) : (s.postLapsed p k).pending = s.pending := rfl
@[simp] theorem postLapsed_resetPin (p : Port) (k : Key) : (s.postLapsed p k).resetPin = s.resetPin := rfl
@[simp] theorem postLapsed_powerHold (p : Port) (k : Key) : (s.postLapsed p k).powerHold = s.powerHold := rfl
@[simp] theorem postLapsed_supply (p : Port) (k : Key) : (s.postLapsed p k).supply = s.supply := rfl
@[simp] theorem postLapsed_supplyHigh (p : Port) (k : Key) : (s.postLapsed p k).supplyHigh = s.supplyHigh := rfl
@[simp] theorem postLapsed_mode (p : Port) (k : Key) : (s.postLapsed p k).mode = s.mode := rfl
@[simp] theorem postLapsed_work (p : Port) (k : Key) : (s.postLapsed p k).work = s.work := rfl
@[simp] theorem postLapsed_pointer (p : Port) (k : Key) : (s.postLapsed p k).pointer = s.pointer := rfl
@[simp] theorem postLapsed_lastGrant (p : Port) (k : Key) : (s.postLapsed p k).lastGrant = s.lastGrant := rfl
@[simp] theorem postLapsed_controller (p : Port) (k : Key) : (s.postLapsed p k).controller = s.controller := rfl
@[simp] theorem postLapsed_flash (p : Port) (k : Key) : (s.postLapsed p k).flash = s.flash := rfl
@[simp] theorem postLapsed_sectors (p : Port) (k : Key) : (s.postLapsed p k).sectors = s.sectors := rfl
@[simp] theorem postLapsed_nextSeq (p : Port) (k : Key) : (s.postLapsed p k).nextSeq = s.nextSeq := rfl
@[simp] theorem postLapsed_nextGen (p : Port) (k : Key) : (s.postLapsed p k).nextGen = s.nextGen := rfl
@[simp] theorem postLapsed_directory (p : Port) (k : Key) : (s.postLapsed p k).directory = s.directory := rfl
@[simp] theorem postLapsed_rightsInForce (p : Port) (k : Key) : (s.postLapsed p k).rightsInForce = s.rightsInForce := rfl
@[simp] theorem postLapsed_freezeLine (p : Port) (k : Key) : (s.postLapsed p k).freezeLine = s.freezeLine := rfl
@[simp] theorem postLapsed_defaultPeriod (p : Port) (k : Key) : (s.postLapsed p k).defaultPeriod = s.defaultPeriod := rfl
@[simp] theorem postLapsed_damaged (p : Port) (k : Key) : (s.postLapsed p k).damaged = s.damaged := rfl
@[simp] theorem postLapsed_reclaim (p : Port) (k : Key) : (s.postLapsed p k).reclaim = s.reclaim := rfl
@[simp] theorem postLapsed_leases (p : Port) (k : Key) : (s.postLapsed p k).leases = s.leases := rfl
@[simp] theorem postLapsed_leaseClock (p : Port) (k : Key) : (s.postLapsed p k).leaseClock = s.leaseClock := rfl
@[simp] theorem postLapsed_ports (p : Port) (k : Key) : (s.postLapsed p k).ports = s.ports := rfl
@[simp] theorem postLapsed_draws (p : Port) (k : Key) : (s.postLapsed p k).draws = s.draws := rfl

/-! ### State.program -/

@[simp] theorem program_pending (i l : Nat) (data : List Byte) : (s.program i l data).pending = s.pending := rfl
@[simp] theorem program_resetPin (i l : Nat) (data : List Byte) : (s.program i l data).resetPin = s.resetPin := rfl
@[simp] theorem program_powerHold (i l : Nat) (data : List Byte) : (s.program i l data).powerHold = s.powerHold := rfl
@[simp] theorem program_supply (i l : Nat) (data : List Byte) : (s.program i l data).supply = s.supply := rfl
@[simp] theorem program_supplyHigh (i l : Nat) (data : List Byte) : (s.program i l data).supplyHigh = s.supplyHigh := rfl
@[simp] theorem program_mode (i l : Nat) (data : List Byte) : (s.program i l data).mode = s.mode := rfl
@[simp] theorem program_work (i l : Nat) (data : List Byte) : (s.program i l data).work = s.work := rfl
@[simp] theorem program_pointer (i l : Nat) (data : List Byte) : (s.program i l data).pointer = s.pointer := rfl
@[simp] theorem program_lastGrant (i l : Nat) (data : List Byte) : (s.program i l data).lastGrant = s.lastGrant := rfl
@[simp] theorem program_controller (i l : Nat) (data : List Byte) : (s.program i l data).controller = .programming i l data := rfl
@[simp] theorem program_flash (i l : Nat) (data : List Byte) : (s.program i l data).flash = s.flash := rfl
@[simp] theorem program_sectors (i l : Nat) (data : List Byte) : (s.program i l data).sectors = s.sectors := rfl
@[simp] theorem program_nextSeq (i l : Nat) (data : List Byte) : (s.program i l data).nextSeq = s.nextSeq := rfl
@[simp] theorem program_nextGen (i l : Nat) (data : List Byte) : (s.program i l data).nextGen = s.nextGen := rfl
@[simp] theorem program_directory (i l : Nat) (data : List Byte) : (s.program i l data).directory = s.directory := rfl
@[simp] theorem program_rightsInForce (i l : Nat) (data : List Byte) : (s.program i l data).rightsInForce = s.rightsInForce := rfl
@[simp] theorem program_freezeLine (i l : Nat) (data : List Byte) : (s.program i l data).freezeLine = s.freezeLine := rfl
@[simp] theorem program_defaultPeriod (i l : Nat) (data : List Byte) : (s.program i l data).defaultPeriod = s.defaultPeriod := rfl
@[simp] theorem program_damaged (i l : Nat) (data : List Byte) : (s.program i l data).damaged = s.damaged := rfl
@[simp] theorem program_reclaim (i l : Nat) (data : List Byte) : (s.program i l data).reclaim = s.reclaim := rfl
@[simp] theorem program_leases (i l : Nat) (data : List Byte) : (s.program i l data).leases = s.leases := rfl
@[simp] theorem program_leaseClock (i l : Nat) (data : List Byte) : (s.program i l data).leaseClock = s.leaseClock := rfl
@[simp] theorem program_ports (i l : Nat) (data : List Byte) : (s.program i l data).ports = s.ports := rfl
@[simp] theorem program_sessions (i l : Nat) (data : List Byte) : (s.program i l data).sessions = s.sessions := rfl
@[simp] theorem program_draws (i l : Nat) (data : List Byte) : (s.program i l data).draws = s.draws := rfl

/-! ### State.erase -/

@[simp] theorem erase_pending (i : Nat) : (s.erase i).pending = s.pending := rfl
@[simp] theorem erase_resetPin (i : Nat) : (s.erase i).resetPin = s.resetPin := rfl
@[simp] theorem erase_powerHold (i : Nat) : (s.erase i).powerHold = s.powerHold := rfl
@[simp] theorem erase_supply (i : Nat) : (s.erase i).supply = s.supply := rfl
@[simp] theorem erase_supplyHigh (i : Nat) : (s.erase i).supplyHigh = s.supplyHigh := rfl
@[simp] theorem erase_mode (i : Nat) : (s.erase i).mode = s.mode := rfl
@[simp] theorem erase_work (i : Nat) : (s.erase i).work = s.work := rfl
@[simp] theorem erase_pointer (i : Nat) : (s.erase i).pointer = s.pointer := rfl
@[simp] theorem erase_lastGrant (i : Nat) : (s.erase i).lastGrant = s.lastGrant := rfl
@[simp] theorem erase_controller (i : Nat) : (s.erase i).controller = .erasing i := rfl
@[simp] theorem erase_flash (i : Nat) : (s.erase i).flash = s.flash := rfl
@[simp] theorem erase_sectors (i : Nat) : (s.erase i).sectors = s.sectors := rfl
@[simp] theorem erase_nextSeq (i : Nat) : (s.erase i).nextSeq = s.nextSeq := rfl
@[simp] theorem erase_nextGen (i : Nat) : (s.erase i).nextGen = s.nextGen := rfl
@[simp] theorem erase_directory (i : Nat) : (s.erase i).directory = s.directory := rfl
@[simp] theorem erase_rightsInForce (i : Nat) : (s.erase i).rightsInForce = s.rightsInForce := rfl
@[simp] theorem erase_freezeLine (i : Nat) : (s.erase i).freezeLine = s.freezeLine := rfl
@[simp] theorem erase_defaultPeriod (i : Nat) : (s.erase i).defaultPeriod = s.defaultPeriod := rfl
@[simp] theorem erase_damaged (i : Nat) : (s.erase i).damaged = s.damaged := rfl
@[simp] theorem erase_reclaim (i : Nat) : (s.erase i).reclaim = s.reclaim := rfl
@[simp] theorem erase_leases (i : Nat) : (s.erase i).leases = s.leases := rfl
@[simp] theorem erase_leaseClock (i : Nat) : (s.erase i).leaseClock = s.leaseClock := rfl
@[simp] theorem erase_ports (i : Nat) : (s.erase i).ports = s.ports := rfl
@[simp] theorem erase_sessions (i : Nat) : (s.erase i).sessions = s.sessions := rfl
@[simp] theorem erase_draws (i : Nat) : (s.erase i).draws = s.draws := rfl

/-! ### State.closeSession -/

@[simp] theorem closeSession_pending (p : Port) : (s.closeSession p).pending = s.pending := rfl
@[simp] theorem closeSession_resetPin (p : Port) : (s.closeSession p).resetPin = s.resetPin := rfl
@[simp] theorem closeSession_powerHold (p : Port) : (s.closeSession p).powerHold = s.powerHold := rfl
@[simp] theorem closeSession_supply (p : Port) : (s.closeSession p).supply = s.supply := rfl
@[simp] theorem closeSession_supplyHigh (p : Port) : (s.closeSession p).supplyHigh = s.supplyHigh := rfl
@[simp] theorem closeSession_mode (p : Port) : (s.closeSession p).mode = s.mode := rfl
@[simp] theorem closeSession_work (p : Port) : (s.closeSession p).work = s.work := rfl
@[simp] theorem closeSession_pointer (p : Port) : (s.closeSession p).pointer = s.pointer := rfl
@[simp] theorem closeSession_lastGrant (p : Port) : (s.closeSession p).lastGrant = s.lastGrant := rfl
@[simp] theorem closeSession_controller (p : Port) : (s.closeSession p).controller = s.controller := rfl
@[simp] theorem closeSession_flash (p : Port) : (s.closeSession p).flash = s.flash := rfl
@[simp] theorem closeSession_sectors (p : Port) : (s.closeSession p).sectors = s.sectors := rfl
@[simp] theorem closeSession_nextSeq (p : Port) : (s.closeSession p).nextSeq = s.nextSeq := rfl
@[simp] theorem closeSession_nextGen (p : Port) : (s.closeSession p).nextGen = s.nextGen := rfl
@[simp] theorem closeSession_directory (p : Port) : (s.closeSession p).directory = s.directory := rfl
@[simp] theorem closeSession_rightsInForce (p : Port) : (s.closeSession p).rightsInForce = s.rightsInForce := rfl
@[simp] theorem closeSession_freezeLine (p : Port) : (s.closeSession p).freezeLine = s.freezeLine := rfl
@[simp] theorem closeSession_defaultPeriod (p : Port) : (s.closeSession p).defaultPeriod = s.defaultPeriod := rfl
@[simp] theorem closeSession_damaged (p : Port) : (s.closeSession p).damaged = s.damaged := rfl
@[simp] theorem closeSession_reclaim (p : Port) : (s.closeSession p).reclaim = s.reclaim := rfl
@[simp] theorem closeSession_leases (p : Port) : (s.closeSession p).leases = s.leases := rfl
@[simp] theorem closeSession_leaseClock (p : Port) : (s.closeSession p).leaseClock = s.leaseClock := rfl
@[simp] theorem closeSession_ports (p : Port) : (s.closeSession p).ports = s.ports := rfl
@[simp] theorem closeSession_sessions (p : Port) : (s.closeSession p).sessions = s.sessions.set p .closed := rfl
@[simp] theorem closeSession_draws (p : Port) : (s.closeSession p).draws = s.draws := rfl

/-! ### State.clearGroup -/

@[simp] theorem clearGroup_pending (p : Port) : (s.clearGroup p).pending = s.pending := rfl
@[simp] theorem clearGroup_resetPin (p : Port) : (s.clearGroup p).resetPin = s.resetPin := rfl
@[simp] theorem clearGroup_powerHold (p : Port) : (s.clearGroup p).powerHold = s.powerHold := rfl
@[simp] theorem clearGroup_supply (p : Port) : (s.clearGroup p).supply = s.supply := rfl
@[simp] theorem clearGroup_supplyHigh (p : Port) : (s.clearGroup p).supplyHigh = s.supplyHigh := rfl
@[simp] theorem clearGroup_mode (p : Port) : (s.clearGroup p).mode = s.mode := rfl
@[simp] theorem clearGroup_work (p : Port) : (s.clearGroup p).work = s.work := rfl
@[simp] theorem clearGroup_pointer (p : Port) : (s.clearGroup p).pointer = s.pointer := rfl
@[simp] theorem clearGroup_lastGrant (p : Port) : (s.clearGroup p).lastGrant = s.lastGrant := rfl
@[simp] theorem clearGroup_controller (p : Port) : (s.clearGroup p).controller = s.controller := rfl
@[simp] theorem clearGroup_flash (p : Port) : (s.clearGroup p).flash = s.flash := rfl
@[simp] theorem clearGroup_sectors (p : Port) : (s.clearGroup p).sectors = s.sectors := rfl
@[simp] theorem clearGroup_nextSeq (p : Port) : (s.clearGroup p).nextSeq = s.nextSeq := rfl
@[simp] theorem clearGroup_nextGen (p : Port) : (s.clearGroup p).nextGen = s.nextGen := rfl
@[simp] theorem clearGroup_directory (p : Port) : (s.clearGroup p).directory = s.directory := rfl
@[simp] theorem clearGroup_rightsInForce (p : Port) : (s.clearGroup p).rightsInForce = s.rightsInForce := rfl
@[simp] theorem clearGroup_freezeLine (p : Port) : (s.clearGroup p).freezeLine = s.freezeLine := rfl
@[simp] theorem clearGroup_defaultPeriod (p : Port) : (s.clearGroup p).defaultPeriod = s.defaultPeriod := rfl
@[simp] theorem clearGroup_damaged (p : Port) : (s.clearGroup p).damaged = s.damaged := rfl
@[simp] theorem clearGroup_reclaim (p : Port) : (s.clearGroup p).reclaim = s.reclaim := rfl
@[simp] theorem clearGroup_leases (p : Port) : (s.clearGroup p).leases = s.leases := rfl
@[simp] theorem clearGroup_leaseClock (p : Port) : (s.clearGroup p).leaseClock = s.leaseClock := rfl
@[simp] theorem clearGroup_ports (p : Port) : (s.clearGroup p).ports = s.ports := rfl
@[simp] theorem clearGroup_draws (p : Port) : (s.clearGroup p).draws = s.draws := rfl

/-! ### State.markPending -/

@[simp] theorem markPending_pending (i : Nat) : (s.markPending i).pending = s.pending := rfl
@[simp] theorem markPending_resetPin (i : Nat) : (s.markPending i).resetPin = s.resetPin := rfl
@[simp] theorem markPending_powerHold (i : Nat) : (s.markPending i).powerHold = s.powerHold := rfl
@[simp] theorem markPending_supply (i : Nat) : (s.markPending i).supply = s.supply := rfl
@[simp] theorem markPending_supplyHigh (i : Nat) : (s.markPending i).supplyHigh = s.supplyHigh := rfl
@[simp] theorem markPending_mode (i : Nat) : (s.markPending i).mode = s.mode := rfl
@[simp] theorem markPending_work (i : Nat) : (s.markPending i).work = s.work := rfl
@[simp] theorem markPending_pointer (i : Nat) : (s.markPending i).pointer = s.pointer := rfl
@[simp] theorem markPending_lastGrant (i : Nat) : (s.markPending i).lastGrant = s.lastGrant := rfl
@[simp] theorem markPending_controller (i : Nat) : (s.markPending i).controller = s.controller := rfl
@[simp] theorem markPending_flash (i : Nat) : (s.markPending i).flash = s.flash := rfl
@[simp] theorem markPending_nextSeq (i : Nat) : (s.markPending i).nextSeq = s.nextSeq := rfl
@[simp] theorem markPending_nextGen (i : Nat) : (s.markPending i).nextGen = s.nextGen := rfl
@[simp] theorem markPending_directory (i : Nat) : (s.markPending i).directory = s.directory := rfl
@[simp] theorem markPending_rightsInForce (i : Nat) : (s.markPending i).rightsInForce = s.rightsInForce := rfl
@[simp] theorem markPending_freezeLine (i : Nat) : (s.markPending i).freezeLine = s.freezeLine := rfl
@[simp] theorem markPending_defaultPeriod (i : Nat) : (s.markPending i).defaultPeriod = s.defaultPeriod := rfl
@[simp] theorem markPending_damaged (i : Nat) : (s.markPending i).damaged = s.damaged := rfl
@[simp] theorem markPending_reclaim (i : Nat) : (s.markPending i).reclaim = s.reclaim := rfl
@[simp] theorem markPending_leases (i : Nat) : (s.markPending i).leases = s.leases := rfl
@[simp] theorem markPending_leaseClock (i : Nat) : (s.markPending i).leaseClock = s.leaseClock := rfl
@[simp] theorem markPending_ports (i : Nat) : (s.markPending i).ports = s.ports := rfl
@[simp] theorem markPending_sessions (i : Nat) : (s.markPending i).sessions = s.sessions := rfl
@[simp] theorem markPending_draws (i : Nat) : (s.markPending i).draws = s.draws := rfl

/-! ### State.countErase -/

@[simp] theorem countErase_pending (i : Nat) : (s.countErase i).pending = s.pending := rfl
@[simp] theorem countErase_resetPin (i : Nat) : (s.countErase i).resetPin = s.resetPin := rfl
@[simp] theorem countErase_powerHold (i : Nat) : (s.countErase i).powerHold = s.powerHold := rfl
@[simp] theorem countErase_supply (i : Nat) : (s.countErase i).supply = s.supply := rfl
@[simp] theorem countErase_supplyHigh (i : Nat) : (s.countErase i).supplyHigh = s.supplyHigh := rfl
@[simp] theorem countErase_mode (i : Nat) : (s.countErase i).mode = s.mode := rfl
@[simp] theorem countErase_work (i : Nat) : (s.countErase i).work = s.work := rfl
@[simp] theorem countErase_pointer (i : Nat) : (s.countErase i).pointer = s.pointer := rfl
@[simp] theorem countErase_lastGrant (i : Nat) : (s.countErase i).lastGrant = s.lastGrant := rfl
@[simp] theorem countErase_controller (i : Nat) : (s.countErase i).controller = s.controller := rfl
@[simp] theorem countErase_flash (i : Nat) : (s.countErase i).flash = s.flash := rfl
@[simp] theorem countErase_nextSeq (i : Nat) : (s.countErase i).nextSeq = s.nextSeq := rfl
@[simp] theorem countErase_nextGen (i : Nat) : (s.countErase i).nextGen = s.nextGen := rfl
@[simp] theorem countErase_directory (i : Nat) : (s.countErase i).directory = s.directory := rfl
@[simp] theorem countErase_rightsInForce (i : Nat) : (s.countErase i).rightsInForce = s.rightsInForce := rfl
@[simp] theorem countErase_freezeLine (i : Nat) : (s.countErase i).freezeLine = s.freezeLine := rfl
@[simp] theorem countErase_defaultPeriod (i : Nat) : (s.countErase i).defaultPeriod = s.defaultPeriod := rfl
@[simp] theorem countErase_damaged (i : Nat) : (s.countErase i).damaged = s.damaged := rfl
@[simp] theorem countErase_reclaim (i : Nat) : (s.countErase i).reclaim = s.reclaim := rfl
@[simp] theorem countErase_leases (i : Nat) : (s.countErase i).leases = s.leases := rfl
@[simp] theorem countErase_leaseClock (i : Nat) : (s.countErase i).leaseClock = s.leaseClock := rfl
@[simp] theorem countErase_ports (i : Nat) : (s.countErase i).ports = s.ports := rfl
@[simp] theorem countErase_sessions (i : Nat) : (s.countErase i).sessions = s.sessions := rfl
@[simp] theorem countErase_draws (i : Nat) : (s.countErase i).draws = s.draws := rfl

/-! ### State.freeSector -/

@[simp] theorem freeSector_pending (i : Nat) : (s.freeSector i).pending = s.pending := rfl
@[simp] theorem freeSector_resetPin (i : Nat) : (s.freeSector i).resetPin = s.resetPin := rfl
@[simp] theorem freeSector_powerHold (i : Nat) : (s.freeSector i).powerHold = s.powerHold := rfl
@[simp] theorem freeSector_supply (i : Nat) : (s.freeSector i).supply = s.supply := rfl
@[simp] theorem freeSector_supplyHigh (i : Nat) : (s.freeSector i).supplyHigh = s.supplyHigh := rfl
@[simp] theorem freeSector_mode (i : Nat) : (s.freeSector i).mode = s.mode := rfl
@[simp] theorem freeSector_work (i : Nat) : (s.freeSector i).work = s.work := rfl
@[simp] theorem freeSector_pointer (i : Nat) : (s.freeSector i).pointer = s.pointer := rfl
@[simp] theorem freeSector_lastGrant (i : Nat) : (s.freeSector i).lastGrant = s.lastGrant := rfl
@[simp] theorem freeSector_controller (i : Nat) : (s.freeSector i).controller = s.controller := rfl
@[simp] theorem freeSector_flash (i : Nat) : (s.freeSector i).flash = s.flash := rfl
@[simp] theorem freeSector_nextSeq (i : Nat) : (s.freeSector i).nextSeq = s.nextSeq := rfl
@[simp] theorem freeSector_nextGen (i : Nat) : (s.freeSector i).nextGen = s.nextGen := rfl
@[simp] theorem freeSector_directory (i : Nat) : (s.freeSector i).directory = s.directory := rfl
@[simp] theorem freeSector_rightsInForce (i : Nat) : (s.freeSector i).rightsInForce = s.rightsInForce := rfl
@[simp] theorem freeSector_freezeLine (i : Nat) : (s.freeSector i).freezeLine = s.freezeLine := rfl
@[simp] theorem freeSector_defaultPeriod (i : Nat) : (s.freeSector i).defaultPeriod = s.defaultPeriod := rfl
@[simp] theorem freeSector_damaged (i : Nat) : (s.freeSector i).damaged = s.damaged := rfl
@[simp] theorem freeSector_reclaim (i : Nat) : (s.freeSector i).reclaim = s.reclaim := rfl
@[simp] theorem freeSector_leases (i : Nat) : (s.freeSector i).leases = s.leases := rfl
@[simp] theorem freeSector_leaseClock (i : Nat) : (s.freeSector i).leaseClock = s.leaseClock := rfl
@[simp] theorem freeSector_ports (i : Nat) : (s.freeSector i).ports = s.ports := rfl
@[simp] theorem freeSector_sessions (i : Nat) : (s.freeSector i).sessions = s.sessions := rfl
@[simp] theorem freeSector_draws (i : Nat) : (s.freeSector i).draws = s.draws := rfl

/-! ### State.retireSector -/

@[simp] theorem retireSector_pending (i : Nat) (ok : Bool) : (s.retireSector i ok).pending = s.pending := rfl
@[simp] theorem retireSector_resetPin (i : Nat) (ok : Bool) : (s.retireSector i ok).resetPin = s.resetPin := rfl
@[simp] theorem retireSector_powerHold (i : Nat) (ok : Bool) : (s.retireSector i ok).powerHold = s.powerHold := rfl
@[simp] theorem retireSector_supply (i : Nat) (ok : Bool) : (s.retireSector i ok).supply = s.supply := rfl
@[simp] theorem retireSector_supplyHigh (i : Nat) (ok : Bool) : (s.retireSector i ok).supplyHigh = s.supplyHigh := rfl
@[simp] theorem retireSector_mode (i : Nat) (ok : Bool) : (s.retireSector i ok).mode = s.mode := rfl
@[simp] theorem retireSector_work (i : Nat) (ok : Bool) : (s.retireSector i ok).work = s.work := rfl
@[simp] theorem retireSector_pointer (i : Nat) (ok : Bool) : (s.retireSector i ok).pointer = s.pointer := rfl
@[simp] theorem retireSector_lastGrant (i : Nat) (ok : Bool) : (s.retireSector i ok).lastGrant = s.lastGrant := rfl
@[simp] theorem retireSector_controller (i : Nat) (ok : Bool) : (s.retireSector i ok).controller = s.controller := rfl
@[simp] theorem retireSector_flash (i : Nat) (ok : Bool) : (s.retireSector i ok).flash = s.flash := rfl
@[simp] theorem retireSector_nextSeq (i : Nat) (ok : Bool) : (s.retireSector i ok).nextSeq = s.nextSeq := rfl
@[simp] theorem retireSector_nextGen (i : Nat) (ok : Bool) : (s.retireSector i ok).nextGen = s.nextGen := rfl
@[simp] theorem retireSector_directory (i : Nat) (ok : Bool) : (s.retireSector i ok).directory = s.directory := rfl
@[simp] theorem retireSector_rightsInForce (i : Nat) (ok : Bool) : (s.retireSector i ok).rightsInForce = s.rightsInForce := rfl
@[simp] theorem retireSector_freezeLine (i : Nat) (ok : Bool) : (s.retireSector i ok).freezeLine = s.freezeLine := rfl
@[simp] theorem retireSector_defaultPeriod (i : Nat) (ok : Bool) : (s.retireSector i ok).defaultPeriod = s.defaultPeriod := rfl
@[simp] theorem retireSector_damaged (i : Nat) (ok : Bool) : (s.retireSector i ok).damaged = s.damaged := rfl
@[simp] theorem retireSector_reclaim (i : Nat) (ok : Bool) : (s.retireSector i ok).reclaim = s.reclaim := rfl
@[simp] theorem retireSector_leases (i : Nat) (ok : Bool) : (s.retireSector i ok).leases = s.leases := rfl
@[simp] theorem retireSector_leaseClock (i : Nat) (ok : Bool) : (s.retireSector i ok).leaseClock = s.leaseClock := rfl
@[simp] theorem retireSector_ports (i : Nat) (ok : Bool) : (s.retireSector i ok).ports = s.ports := rfl
@[simp] theorem retireSector_sessions (i : Nat) (ok : Bool) : (s.retireSector i ok).sessions = s.sessions := rfl
@[simp] theorem retireSector_draws (i : Nat) (ok : Bool) : (s.retireSector i ok).draws = s.draws := rfl

/-! ### State.markClosed -/

@[simp] theorem markClosed_pending (h : Nat) (ok : Bool) : (s.markClosed h ok).pending = s.pending := rfl
@[simp] theorem markClosed_resetPin (h : Nat) (ok : Bool) : (s.markClosed h ok).resetPin = s.resetPin := rfl
@[simp] theorem markClosed_powerHold (h : Nat) (ok : Bool) : (s.markClosed h ok).powerHold = s.powerHold := rfl
@[simp] theorem markClosed_supply (h : Nat) (ok : Bool) : (s.markClosed h ok).supply = s.supply := rfl
@[simp] theorem markClosed_supplyHigh (h : Nat) (ok : Bool) : (s.markClosed h ok).supplyHigh = s.supplyHigh := rfl
@[simp] theorem markClosed_mode (h : Nat) (ok : Bool) : (s.markClosed h ok).mode = s.mode := rfl
@[simp] theorem markClosed_work (h : Nat) (ok : Bool) : (s.markClosed h ok).work = s.work := rfl
@[simp] theorem markClosed_pointer (h : Nat) (ok : Bool) : (s.markClosed h ok).pointer = s.pointer := rfl
@[simp] theorem markClosed_lastGrant (h : Nat) (ok : Bool) : (s.markClosed h ok).lastGrant = s.lastGrant := rfl
@[simp] theorem markClosed_controller (h : Nat) (ok : Bool) : (s.markClosed h ok).controller = s.controller := rfl
@[simp] theorem markClosed_flash (h : Nat) (ok : Bool) : (s.markClosed h ok).flash = s.flash := rfl
@[simp] theorem markClosed_nextSeq (h : Nat) (ok : Bool) : (s.markClosed h ok).nextSeq = s.nextSeq := rfl
@[simp] theorem markClosed_nextGen (h : Nat) (ok : Bool) : (s.markClosed h ok).nextGen = s.nextGen := rfl
@[simp] theorem markClosed_directory (h : Nat) (ok : Bool) : (s.markClosed h ok).directory = s.directory := rfl
@[simp] theorem markClosed_rightsInForce (h : Nat) (ok : Bool) : (s.markClosed h ok).rightsInForce = s.rightsInForce := rfl
@[simp] theorem markClosed_freezeLine (h : Nat) (ok : Bool) : (s.markClosed h ok).freezeLine = s.freezeLine := rfl
@[simp] theorem markClosed_defaultPeriod (h : Nat) (ok : Bool) : (s.markClosed h ok).defaultPeriod = s.defaultPeriod := rfl
@[simp] theorem markClosed_damaged (h : Nat) (ok : Bool) : (s.markClosed h ok).damaged = s.damaged := rfl
@[simp] theorem markClosed_reclaim (h : Nat) (ok : Bool) : (s.markClosed h ok).reclaim = s.reclaim := rfl
@[simp] theorem markClosed_leases (h : Nat) (ok : Bool) : (s.markClosed h ok).leases = s.leases := rfl
@[simp] theorem markClosed_leaseClock (h : Nat) (ok : Bool) : (s.markClosed h ok).leaseClock = s.leaseClock := rfl
@[simp] theorem markClosed_ports (h : Nat) (ok : Bool) : (s.markClosed h ok).ports = s.ports := rfl
@[simp] theorem markClosed_sessions (h : Nat) (ok : Bool) : (s.markClosed h ok).sessions = s.sessions := rfl
@[simp] theorem markClosed_draws (h : Nat) (ok : Bool) : (s.markClosed h ok).draws = s.draws := rfl

/-! ### State.becomeHead -/

@[simp] theorem becomeHead_pending (i : Nat) : (s.becomeHead i).pending = s.pending := rfl
@[simp] theorem becomeHead_resetPin (i : Nat) : (s.becomeHead i).resetPin = s.resetPin := rfl
@[simp] theorem becomeHead_powerHold (i : Nat) : (s.becomeHead i).powerHold = s.powerHold := rfl
@[simp] theorem becomeHead_supply (i : Nat) : (s.becomeHead i).supply = s.supply := rfl
@[simp] theorem becomeHead_supplyHigh (i : Nat) : (s.becomeHead i).supplyHigh = s.supplyHigh := rfl
@[simp] theorem becomeHead_mode (i : Nat) : (s.becomeHead i).mode = s.mode := rfl
@[simp] theorem becomeHead_work (i : Nat) : (s.becomeHead i).work = s.work := rfl
@[simp] theorem becomeHead_pointer (i : Nat) : (s.becomeHead i).pointer = s.pointer := rfl
@[simp] theorem becomeHead_lastGrant (i : Nat) : (s.becomeHead i).lastGrant = s.lastGrant := rfl
@[simp] theorem becomeHead_controller (i : Nat) : (s.becomeHead i).controller = s.controller := rfl
@[simp] theorem becomeHead_flash (i : Nat) : (s.becomeHead i).flash = s.flash := rfl
@[simp] theorem becomeHead_nextSeq (i : Nat) : (s.becomeHead i).nextSeq = s.nextSeq := rfl
@[simp] theorem becomeHead_nextGen (i : Nat) : (s.becomeHead i).nextGen = s.nextGen := rfl
@[simp] theorem becomeHead_directory (i : Nat) : (s.becomeHead i).directory = s.directory := rfl
@[simp] theorem becomeHead_rightsInForce (i : Nat) : (s.becomeHead i).rightsInForce = s.rightsInForce := rfl
@[simp] theorem becomeHead_freezeLine (i : Nat) : (s.becomeHead i).freezeLine = s.freezeLine := rfl
@[simp] theorem becomeHead_defaultPeriod (i : Nat) : (s.becomeHead i).defaultPeriod = s.defaultPeriod := rfl
@[simp] theorem becomeHead_damaged (i : Nat) : (s.becomeHead i).damaged = s.damaged := rfl
@[simp] theorem becomeHead_reclaim (i : Nat) : (s.becomeHead i).reclaim = s.reclaim := rfl
@[simp] theorem becomeHead_leases (i : Nat) : (s.becomeHead i).leases = s.leases := rfl
@[simp] theorem becomeHead_leaseClock (i : Nat) : (s.becomeHead i).leaseClock = s.leaseClock := rfl
@[simp] theorem becomeHead_ports (i : Nat) : (s.becomeHead i).ports = s.ports := rfl
@[simp] theorem becomeHead_sessions (i : Nat) : (s.becomeHead i).sessions = s.sessions := rfl
@[simp] theorem becomeHead_draws (i : Nat) : (s.becomeHead i).draws = s.draws := rfl

/-! ### State.tickClock -/

@[simp] theorem tickClock_pending : (s.tickClock).pending = s.pending := rfl
@[simp] theorem tickClock_resetPin : (s.tickClock).resetPin = s.resetPin := rfl
@[simp] theorem tickClock_powerHold : (s.tickClock).powerHold = s.powerHold := rfl
@[simp] theorem tickClock_supply : (s.tickClock).supply = s.supply := rfl
@[simp] theorem tickClock_supplyHigh : (s.tickClock).supplyHigh = s.supplyHigh := rfl
@[simp] theorem tickClock_mode : (s.tickClock).mode = s.mode := rfl
@[simp] theorem tickClock_work : (s.tickClock).work = s.work := rfl
@[simp] theorem tickClock_pointer : (s.tickClock).pointer = s.pointer := rfl
@[simp] theorem tickClock_lastGrant : (s.tickClock).lastGrant = s.lastGrant := rfl
@[simp] theorem tickClock_controller : (s.tickClock).controller = s.controller := rfl
@[simp] theorem tickClock_flash : (s.tickClock).flash = s.flash := rfl
@[simp] theorem tickClock_sectors : (s.tickClock).sectors = s.sectors := rfl
@[simp] theorem tickClock_nextSeq : (s.tickClock).nextSeq = s.nextSeq := rfl
@[simp] theorem tickClock_nextGen : (s.tickClock).nextGen = s.nextGen := rfl
@[simp] theorem tickClock_directory : (s.tickClock).directory = s.directory := rfl
@[simp] theorem tickClock_rightsInForce : (s.tickClock).rightsInForce = s.rightsInForce := rfl
@[simp] theorem tickClock_freezeLine : (s.tickClock).freezeLine = s.freezeLine := rfl
@[simp] theorem tickClock_defaultPeriod : (s.tickClock).defaultPeriod = s.defaultPeriod := rfl
@[simp] theorem tickClock_damaged : (s.tickClock).damaged = s.damaged := rfl
@[simp] theorem tickClock_reclaim : (s.tickClock).reclaim = s.reclaim := rfl
@[simp] theorem tickClock_leases : (s.tickClock).leases = s.leases := rfl
@[simp] theorem tickClock_leaseClock : (s.tickClock).leaseClock = s.leaseClock + 1 := rfl
@[simp] theorem tickClock_ports : (s.tickClock).ports = s.ports := rfl
@[simp] theorem tickClock_sessions : (s.tickClock).sessions = s.sessions := rfl
@[simp] theorem tickClock_draws : (s.tickClock).draws = s.draws := rfl

/-! ### State.takeRise -/

@[simp] theorem takeRise_pending : (s.takeRise).pending = s.pending := rfl
@[simp] theorem takeRise_resetPin : (s.takeRise).resetPin = s.resetPin := rfl
@[simp] theorem takeRise_powerHold : (s.takeRise).powerHold = s.powerHold := rfl
@[simp] theorem takeRise_supply : (s.takeRise).supply = if s.supplyHigh = true then .normal else s.supply := rfl
@[simp] theorem takeRise_supplyHigh : (s.takeRise).supplyHigh = s.supplyHigh := rfl
@[simp] theorem takeRise_mode : (s.takeRise).mode = s.mode := rfl
@[simp] theorem takeRise_work : (s.takeRise).work = s.work := rfl
@[simp] theorem takeRise_pointer : (s.takeRise).pointer = s.pointer := rfl
@[simp] theorem takeRise_lastGrant : (s.takeRise).lastGrant = s.lastGrant := rfl
@[simp] theorem takeRise_controller : (s.takeRise).controller = s.controller := rfl
@[simp] theorem takeRise_flash : (s.takeRise).flash = s.flash := rfl
@[simp] theorem takeRise_sectors : (s.takeRise).sectors = s.sectors := rfl
@[simp] theorem takeRise_nextSeq : (s.takeRise).nextSeq = s.nextSeq := rfl
@[simp] theorem takeRise_nextGen : (s.takeRise).nextGen = s.nextGen := rfl
@[simp] theorem takeRise_directory : (s.takeRise).directory = s.directory := rfl
@[simp] theorem takeRise_rightsInForce : (s.takeRise).rightsInForce = s.rightsInForce := rfl
@[simp] theorem takeRise_freezeLine : (s.takeRise).freezeLine = s.freezeLine := rfl
@[simp] theorem takeRise_defaultPeriod : (s.takeRise).defaultPeriod = s.defaultPeriod := rfl
@[simp] theorem takeRise_damaged : (s.takeRise).damaged = s.damaged := rfl
@[simp] theorem takeRise_reclaim : (s.takeRise).reclaim = s.reclaim := rfl
@[simp] theorem takeRise_leases : (s.takeRise).leases = s.leases := rfl
@[simp] theorem takeRise_leaseClock : (s.takeRise).leaseClock = s.leaseClock := rfl
@[simp] theorem takeRise_ports : (s.takeRise).ports = s.ports := rfl
@[simp] theorem takeRise_sessions : (s.takeRise).sessions = s.sessions := rfl
@[simp] theorem takeRise_draws : (s.takeRise).draws = s.draws := rfl

/-! ### State.raiseFill -/

@[simp] theorem raiseFill_pending (h n : Nat) : (s.raiseFill h n).pending = s.pending := rfl
@[simp] theorem raiseFill_resetPin (h n : Nat) : (s.raiseFill h n).resetPin = s.resetPin := rfl
@[simp] theorem raiseFill_powerHold (h n : Nat) : (s.raiseFill h n).powerHold = s.powerHold := rfl
@[simp] theorem raiseFill_supply (h n : Nat) : (s.raiseFill h n).supply = s.supply := rfl
@[simp] theorem raiseFill_supplyHigh (h n : Nat) : (s.raiseFill h n).supplyHigh = s.supplyHigh := rfl
@[simp] theorem raiseFill_mode (h n : Nat) : (s.raiseFill h n).mode = s.mode := rfl
@[simp] theorem raiseFill_work (h n : Nat) : (s.raiseFill h n).work = s.work := rfl
@[simp] theorem raiseFill_pointer (h n : Nat) : (s.raiseFill h n).pointer = s.pointer := rfl
@[simp] theorem raiseFill_lastGrant (h n : Nat) : (s.raiseFill h n).lastGrant = s.lastGrant := rfl
@[simp] theorem raiseFill_controller (h n : Nat) : (s.raiseFill h n).controller = s.controller := rfl
@[simp] theorem raiseFill_flash (h n : Nat) : (s.raiseFill h n).flash = s.flash := rfl
@[simp] theorem raiseFill_nextSeq (h n : Nat) : (s.raiseFill h n).nextSeq = s.nextSeq := rfl
@[simp] theorem raiseFill_nextGen (h n : Nat) : (s.raiseFill h n).nextGen = s.nextGen := rfl
@[simp] theorem raiseFill_directory (h n : Nat) : (s.raiseFill h n).directory = s.directory := rfl
@[simp] theorem raiseFill_rightsInForce (h n : Nat) : (s.raiseFill h n).rightsInForce = s.rightsInForce := rfl
@[simp] theorem raiseFill_freezeLine (h n : Nat) : (s.raiseFill h n).freezeLine = s.freezeLine := rfl
@[simp] theorem raiseFill_defaultPeriod (h n : Nat) : (s.raiseFill h n).defaultPeriod = s.defaultPeriod := rfl
@[simp] theorem raiseFill_damaged (h n : Nat) : (s.raiseFill h n).damaged = s.damaged := rfl
@[simp] theorem raiseFill_reclaim (h n : Nat) : (s.raiseFill h n).reclaim = s.reclaim := rfl
@[simp] theorem raiseFill_leases (h n : Nat) : (s.raiseFill h n).leases = s.leases := rfl
@[simp] theorem raiseFill_leaseClock (h n : Nat) : (s.raiseFill h n).leaseClock = s.leaseClock := rfl
@[simp] theorem raiseFill_ports (h n : Nat) : (s.raiseFill h n).ports = s.ports := rfl
@[simp] theorem raiseFill_sessions (h n : Nat) : (s.raiseFill h n).sessions = s.sessions := rfl
@[simp] theorem raiseFill_draws (h n : Nat) : (s.raiseFill h n).draws = s.draws := rfl

/-! ### State.moveCursor -/

@[simp] theorem moveCursor_pending (line : Nat) : (s.moveCursor line).pending = s.pending := rfl
@[simp] theorem moveCursor_resetPin (line : Nat) : (s.moveCursor line).resetPin = s.resetPin := rfl
@[simp] theorem moveCursor_powerHold (line : Nat) : (s.moveCursor line).powerHold = s.powerHold := rfl
@[simp] theorem moveCursor_supply (line : Nat) : (s.moveCursor line).supply = s.supply := rfl
@[simp] theorem moveCursor_supplyHigh (line : Nat) : (s.moveCursor line).supplyHigh = s.supplyHigh := rfl
@[simp] theorem moveCursor_mode (line : Nat) : (s.moveCursor line).mode = s.mode := rfl
@[simp] theorem moveCursor_work (line : Nat) : (s.moveCursor line).work = s.work := rfl
@[simp] theorem moveCursor_pointer (line : Nat) : (s.moveCursor line).pointer = s.pointer := rfl
@[simp] theorem moveCursor_lastGrant (line : Nat) : (s.moveCursor line).lastGrant = s.lastGrant := rfl
@[simp] theorem moveCursor_controller (line : Nat) : (s.moveCursor line).controller = s.controller := rfl
@[simp] theorem moveCursor_flash (line : Nat) : (s.moveCursor line).flash = s.flash := rfl
@[simp] theorem moveCursor_sectors (line : Nat) : (s.moveCursor line).sectors = s.sectors := rfl
@[simp] theorem moveCursor_nextSeq (line : Nat) : (s.moveCursor line).nextSeq = s.nextSeq := rfl
@[simp] theorem moveCursor_nextGen (line : Nat) : (s.moveCursor line).nextGen = s.nextGen := rfl
@[simp] theorem moveCursor_directory (line : Nat) : (s.moveCursor line).directory = s.directory := rfl
@[simp] theorem moveCursor_rightsInForce (line : Nat) : (s.moveCursor line).rightsInForce = s.rightsInForce := rfl
@[simp] theorem moveCursor_freezeLine (line : Nat) : (s.moveCursor line).freezeLine = s.freezeLine := rfl
@[simp] theorem moveCursor_defaultPeriod (line : Nat) : (s.moveCursor line).defaultPeriod = s.defaultPeriod := rfl
@[simp] theorem moveCursor_damaged (line : Nat) : (s.moveCursor line).damaged = s.damaged := rfl
@[simp] theorem moveCursor_leases (line : Nat) : (s.moveCursor line).leases = s.leases := rfl
@[simp] theorem moveCursor_leaseClock (line : Nat) : (s.moveCursor line).leaseClock = s.leaseClock := rfl
@[simp] theorem moveCursor_ports (line : Nat) : (s.moveCursor line).ports = s.ports := rfl
@[simp] theorem moveCursor_sessions (line : Nat) : (s.moveCursor line).sessions = s.sessions := rfl
@[simp] theorem moveCursor_draws (line : Nat) : (s.moveCursor line).draws = s.draws := rfl

/-! ### State.setInForce -/

@[simp] theorem setInForce_pending (k : Key) (value : List Byte) : (s.setInForce k value).pending = s.pending := rfl
@[simp] theorem setInForce_resetPin (k : Key) (value : List Byte) : (s.setInForce k value).resetPin = s.resetPin := rfl
@[simp] theorem setInForce_powerHold (k : Key) (value : List Byte) : (s.setInForce k value).powerHold = s.powerHold := rfl
@[simp] theorem setInForce_supply (k : Key) (value : List Byte) : (s.setInForce k value).supply = s.supply := rfl
@[simp] theorem setInForce_supplyHigh (k : Key) (value : List Byte) : (s.setInForce k value).supplyHigh = s.supplyHigh := rfl
@[simp] theorem setInForce_mode (k : Key) (value : List Byte) : (s.setInForce k value).mode = s.mode := rfl
@[simp] theorem setInForce_work (k : Key) (value : List Byte) : (s.setInForce k value).work = s.work := rfl
@[simp] theorem setInForce_pointer (k : Key) (value : List Byte) : (s.setInForce k value).pointer = s.pointer := rfl
@[simp] theorem setInForce_lastGrant (k : Key) (value : List Byte) : (s.setInForce k value).lastGrant = s.lastGrant := rfl
@[simp] theorem setInForce_controller (k : Key) (value : List Byte) : (s.setInForce k value).controller = s.controller := rfl
@[simp] theorem setInForce_flash (k : Key) (value : List Byte) : (s.setInForce k value).flash = s.flash := rfl
@[simp] theorem setInForce_sectors (k : Key) (value : List Byte) : (s.setInForce k value).sectors = s.sectors := rfl
@[simp] theorem setInForce_nextSeq (k : Key) (value : List Byte) : (s.setInForce k value).nextSeq = s.nextSeq := rfl
@[simp] theorem setInForce_nextGen (k : Key) (value : List Byte) : (s.setInForce k value).nextGen = s.nextGen := rfl
@[simp] theorem setInForce_directory (k : Key) (value : List Byte) : (s.setInForce k value).directory = s.directory := rfl
@[simp] theorem setInForce_damaged (k : Key) (value : List Byte) : (s.setInForce k value).damaged = s.damaged := rfl
@[simp] theorem setInForce_reclaim (k : Key) (value : List Byte) : (s.setInForce k value).reclaim = s.reclaim := rfl
@[simp] theorem setInForce_leases (k : Key) (value : List Byte) : (s.setInForce k value).leases = s.leases := rfl
@[simp] theorem setInForce_leaseClock (k : Key) (value : List Byte) : (s.setInForce k value).leaseClock = s.leaseClock := rfl
@[simp] theorem setInForce_ports (k : Key) (value : List Byte) : (s.setInForce k value).ports = s.ports := rfl
@[simp] theorem setInForce_sessions (k : Key) (value : List Byte) : (s.setInForce k value).sessions = s.sessions := rfl
@[simp] theorem setInForce_draws (k : Key) (value : List Byte) : (s.setInForce k value).draws = s.draws := rfl

/-! ### State.removeParked -/

@[simp] theorem removeParked_pending (p : Port) : (s.removeParked p).pending = s.pending := rfl
@[simp] theorem removeParked_resetPin (p : Port) : (s.removeParked p).resetPin = s.resetPin := rfl
@[simp] theorem removeParked_powerHold (p : Port) : (s.removeParked p).powerHold = s.powerHold := rfl
@[simp] theorem removeParked_supply (p : Port) : (s.removeParked p).supply = s.supply := rfl
@[simp] theorem removeParked_supplyHigh (p : Port) : (s.removeParked p).supplyHigh = s.supplyHigh := rfl
@[simp] theorem removeParked_mode (p : Port) : (s.removeParked p).mode = s.mode := rfl
@[simp] theorem removeParked_work (p : Port) : (s.removeParked p).work = s.work := rfl
@[simp] theorem removeParked_pointer (p : Port) : (s.removeParked p).pointer = s.pointer := rfl
@[simp] theorem removeParked_lastGrant (p : Port) : (s.removeParked p).lastGrant = s.lastGrant := rfl
@[simp] theorem removeParked_controller (p : Port) : (s.removeParked p).controller = s.controller := rfl
@[simp] theorem removeParked_flash (p : Port) : (s.removeParked p).flash = s.flash := rfl
@[simp] theorem removeParked_sectors (p : Port) : (s.removeParked p).sectors = s.sectors := rfl
@[simp] theorem removeParked_nextSeq (p : Port) : (s.removeParked p).nextSeq = s.nextSeq := rfl
@[simp] theorem removeParked_nextGen (p : Port) : (s.removeParked p).nextGen = s.nextGen := rfl
@[simp] theorem removeParked_directory (p : Port) : (s.removeParked p).directory = s.directory := rfl
@[simp] theorem removeParked_rightsInForce (p : Port) : (s.removeParked p).rightsInForce = s.rightsInForce := rfl
@[simp] theorem removeParked_freezeLine (p : Port) : (s.removeParked p).freezeLine = s.freezeLine := rfl
@[simp] theorem removeParked_defaultPeriod (p : Port) : (s.removeParked p).defaultPeriod = s.defaultPeriod := rfl
@[simp] theorem removeParked_damaged (p : Port) : (s.removeParked p).damaged = s.damaged := rfl
@[simp] theorem removeParked_reclaim (p : Port) : (s.removeParked p).reclaim = s.reclaim := rfl
@[simp] theorem removeParked_leaseClock (p : Port) : (s.removeParked p).leaseClock = s.leaseClock := rfl
@[simp] theorem removeParked_ports (p : Port) : (s.removeParked p).ports = s.ports := rfl
@[simp] theorem removeParked_draws (p : Port) : (s.removeParked p).draws = s.draws := rfl

/-! ### State.restartLease -/

@[simp] theorem restartLease_pending (e : Lease) (period : Nat) : (s.restartLease e period).pending = s.pending := rfl
@[simp] theorem restartLease_resetPin (e : Lease) (period : Nat) : (s.restartLease e period).resetPin = s.resetPin := rfl
@[simp] theorem restartLease_powerHold (e : Lease) (period : Nat) : (s.restartLease e period).powerHold = s.powerHold := rfl
@[simp] theorem restartLease_supply (e : Lease) (period : Nat) : (s.restartLease e period).supply = s.supply := rfl
@[simp] theorem restartLease_supplyHigh (e : Lease) (period : Nat) : (s.restartLease e period).supplyHigh = s.supplyHigh := rfl
@[simp] theorem restartLease_mode (e : Lease) (period : Nat) : (s.restartLease e period).mode = s.mode := rfl
@[simp] theorem restartLease_work (e : Lease) (period : Nat) : (s.restartLease e period).work = s.work := rfl
@[simp] theorem restartLease_pointer (e : Lease) (period : Nat) : (s.restartLease e period).pointer = s.pointer := rfl
@[simp] theorem restartLease_lastGrant (e : Lease) (period : Nat) : (s.restartLease e period).lastGrant = s.lastGrant := rfl
@[simp] theorem restartLease_controller (e : Lease) (period : Nat) : (s.restartLease e period).controller = s.controller := rfl
@[simp] theorem restartLease_flash (e : Lease) (period : Nat) : (s.restartLease e period).flash = s.flash := rfl
@[simp] theorem restartLease_sectors (e : Lease) (period : Nat) : (s.restartLease e period).sectors = s.sectors := rfl
@[simp] theorem restartLease_nextSeq (e : Lease) (period : Nat) : (s.restartLease e period).nextSeq = s.nextSeq := rfl
@[simp] theorem restartLease_nextGen (e : Lease) (period : Nat) : (s.restartLease e period).nextGen = s.nextGen := rfl
@[simp] theorem restartLease_directory (e : Lease) (period : Nat) : (s.restartLease e period).directory = s.directory := rfl
@[simp] theorem restartLease_rightsInForce (e : Lease) (period : Nat) : (s.restartLease e period).rightsInForce = s.rightsInForce := rfl
@[simp] theorem restartLease_freezeLine (e : Lease) (period : Nat) : (s.restartLease e period).freezeLine = s.freezeLine := rfl
@[simp] theorem restartLease_defaultPeriod (e : Lease) (period : Nat) : (s.restartLease e period).defaultPeriod = s.defaultPeriod := rfl
@[simp] theorem restartLease_damaged (e : Lease) (period : Nat) : (s.restartLease e period).damaged = s.damaged := rfl
@[simp] theorem restartLease_reclaim (e : Lease) (period : Nat) : (s.restartLease e period).reclaim = s.reclaim := rfl
@[simp] theorem restartLease_leases (e : Lease) (period : Nat) : (s.restartLease e period).leases = insertKeyed Lease.key (e.restart period s.leaseClock) s.leases := rfl
@[simp] theorem restartLease_leaseClock (e : Lease) (period : Nat) : (s.restartLease e period).leaseClock = s.leaseClock := rfl
@[simp] theorem restartLease_ports (e : Lease) (period : Nat) : (s.restartLease e period).ports = s.ports := rfl
@[simp] theorem restartLease_sessions (e : Lease) (period : Nat) : (s.restartLease e period).sessions = s.sessions := rfl
@[simp] theorem restartLease_draws (e : Lease) (period : Nat) : (s.restartLease e period).draws = s.draws := rfl

/-! ### State.lineProgrammed -/

@[simp] theorem lineProgrammed_pending (i l : Nat) (bits : List Byte) : (s.lineProgrammed i l bits).pending = s.pending := rfl
@[simp] theorem lineProgrammed_resetPin (i l : Nat) (bits : List Byte) : (s.lineProgrammed i l bits).resetPin = s.resetPin := rfl
@[simp] theorem lineProgrammed_powerHold (i l : Nat) (bits : List Byte) : (s.lineProgrammed i l bits).powerHold = s.powerHold := rfl
@[simp] theorem lineProgrammed_supply (i l : Nat) (bits : List Byte) : (s.lineProgrammed i l bits).supply = s.supply := rfl
@[simp] theorem lineProgrammed_supplyHigh (i l : Nat) (bits : List Byte) : (s.lineProgrammed i l bits).supplyHigh = s.supplyHigh := rfl
@[simp] theorem lineProgrammed_mode (i l : Nat) (bits : List Byte) : (s.lineProgrammed i l bits).mode = s.mode := rfl
@[simp] theorem lineProgrammed_work (i l : Nat) (bits : List Byte) : (s.lineProgrammed i l bits).work = s.work := rfl
@[simp] theorem lineProgrammed_pointer (i l : Nat) (bits : List Byte) : (s.lineProgrammed i l bits).pointer = s.pointer := rfl
@[simp] theorem lineProgrammed_lastGrant (i l : Nat) (bits : List Byte) : (s.lineProgrammed i l bits).lastGrant = s.lastGrant := rfl
@[simp] theorem lineProgrammed_controller (i l : Nat) (bits : List Byte) : (s.lineProgrammed i l bits).controller = .idle := rfl
@[simp] theorem lineProgrammed_flash (i l : Nat) (bits : List Byte) : (s.lineProgrammed i l bits).flash = programBytes s.flash (lineAddress i l) bits := rfl
@[simp] theorem lineProgrammed_sectors (i l : Nat) (bits : List Byte) : (s.lineProgrammed i l bits).sectors = s.sectors := rfl
@[simp] theorem lineProgrammed_nextSeq (i l : Nat) (bits : List Byte) : (s.lineProgrammed i l bits).nextSeq = s.nextSeq := rfl
@[simp] theorem lineProgrammed_nextGen (i l : Nat) (bits : List Byte) : (s.lineProgrammed i l bits).nextGen = s.nextGen := rfl
@[simp] theorem lineProgrammed_directory (i l : Nat) (bits : List Byte) : (s.lineProgrammed i l bits).directory = s.directory := rfl
@[simp] theorem lineProgrammed_rightsInForce (i l : Nat) (bits : List Byte) : (s.lineProgrammed i l bits).rightsInForce = s.rightsInForce := rfl
@[simp] theorem lineProgrammed_freezeLine (i l : Nat) (bits : List Byte) : (s.lineProgrammed i l bits).freezeLine = s.freezeLine := rfl
@[simp] theorem lineProgrammed_defaultPeriod (i l : Nat) (bits : List Byte) : (s.lineProgrammed i l bits).defaultPeriod = s.defaultPeriod := rfl
@[simp] theorem lineProgrammed_damaged (i l : Nat) (bits : List Byte) : (s.lineProgrammed i l bits).damaged = s.damaged := rfl
@[simp] theorem lineProgrammed_reclaim (i l : Nat) (bits : List Byte) : (s.lineProgrammed i l bits).reclaim = s.reclaim := rfl
@[simp] theorem lineProgrammed_leases (i l : Nat) (bits : List Byte) : (s.lineProgrammed i l bits).leases = s.leases := rfl
@[simp] theorem lineProgrammed_leaseClock (i l : Nat) (bits : List Byte) : (s.lineProgrammed i l bits).leaseClock = s.leaseClock := rfl
@[simp] theorem lineProgrammed_ports (i l : Nat) (bits : List Byte) : (s.lineProgrammed i l bits).ports = s.ports := rfl
@[simp] theorem lineProgrammed_sessions (i l : Nat) (bits : List Byte) : (s.lineProgrammed i l bits).sessions = s.sessions := rfl
@[simp] theorem lineProgrammed_draws (i l : Nat) (bits : List Byte) : (s.lineProgrammed i l bits).draws = s.draws := rfl

/-! ### State.sectorErasedTo -/

@[simp] theorem sectorErasedTo_pending (i : Nat) (bits : Nat → Byte) : (s.sectorErasedTo i bits).pending = s.pending := rfl
@[simp] theorem sectorErasedTo_resetPin (i : Nat) (bits : Nat → Byte) : (s.sectorErasedTo i bits).resetPin = s.resetPin := rfl
@[simp] theorem sectorErasedTo_powerHold (i : Nat) (bits : Nat → Byte) : (s.sectorErasedTo i bits).powerHold = s.powerHold := rfl
@[simp] theorem sectorErasedTo_supply (i : Nat) (bits : Nat → Byte) : (s.sectorErasedTo i bits).supply = s.supply := rfl
@[simp] theorem sectorErasedTo_supplyHigh (i : Nat) (bits : Nat → Byte) : (s.sectorErasedTo i bits).supplyHigh = s.supplyHigh := rfl
@[simp] theorem sectorErasedTo_mode (i : Nat) (bits : Nat → Byte) : (s.sectorErasedTo i bits).mode = s.mode := rfl
@[simp] theorem sectorErasedTo_work (i : Nat) (bits : Nat → Byte) : (s.sectorErasedTo i bits).work = s.work := rfl
@[simp] theorem sectorErasedTo_pointer (i : Nat) (bits : Nat → Byte) : (s.sectorErasedTo i bits).pointer = s.pointer := rfl
@[simp] theorem sectorErasedTo_lastGrant (i : Nat) (bits : Nat → Byte) : (s.sectorErasedTo i bits).lastGrant = s.lastGrant := rfl
@[simp] theorem sectorErasedTo_controller (i : Nat) (bits : Nat → Byte) : (s.sectorErasedTo i bits).controller = .idle := rfl
@[simp] theorem sectorErasedTo_flash (i : Nat) (bits : Nat → Byte) : (s.sectorErasedTo i bits).flash = eraseSector bits i s.flash := rfl
@[simp] theorem sectorErasedTo_sectors (i : Nat) (bits : Nat → Byte) : (s.sectorErasedTo i bits).sectors = s.sectors := rfl
@[simp] theorem sectorErasedTo_nextSeq (i : Nat) (bits : Nat → Byte) : (s.sectorErasedTo i bits).nextSeq = s.nextSeq := rfl
@[simp] theorem sectorErasedTo_nextGen (i : Nat) (bits : Nat → Byte) : (s.sectorErasedTo i bits).nextGen = s.nextGen := rfl
@[simp] theorem sectorErasedTo_directory (i : Nat) (bits : Nat → Byte) : (s.sectorErasedTo i bits).directory = s.directory := rfl
@[simp] theorem sectorErasedTo_rightsInForce (i : Nat) (bits : Nat → Byte) : (s.sectorErasedTo i bits).rightsInForce = s.rightsInForce := rfl
@[simp] theorem sectorErasedTo_freezeLine (i : Nat) (bits : Nat → Byte) : (s.sectorErasedTo i bits).freezeLine = s.freezeLine := rfl
@[simp] theorem sectorErasedTo_defaultPeriod (i : Nat) (bits : Nat → Byte) : (s.sectorErasedTo i bits).defaultPeriod = s.defaultPeriod := rfl
@[simp] theorem sectorErasedTo_damaged (i : Nat) (bits : Nat → Byte) : (s.sectorErasedTo i bits).damaged = s.damaged := rfl
@[simp] theorem sectorErasedTo_reclaim (i : Nat) (bits : Nat → Byte) : (s.sectorErasedTo i bits).reclaim = s.reclaim := rfl
@[simp] theorem sectorErasedTo_leases (i : Nat) (bits : Nat → Byte) : (s.sectorErasedTo i bits).leases = s.leases := rfl
@[simp] theorem sectorErasedTo_leaseClock (i : Nat) (bits : Nat → Byte) : (s.sectorErasedTo i bits).leaseClock = s.leaseClock := rfl
@[simp] theorem sectorErasedTo_ports (i : Nat) (bits : Nat → Byte) : (s.sectorErasedTo i bits).ports = s.ports := rfl
@[simp] theorem sectorErasedTo_sessions (i : Nat) (bits : Nat → Byte) : (s.sectorErasedTo i bits).sessions = s.sessions := rfl
@[simp] theorem sectorErasedTo_draws (i : Nat) (bits : Nat → Byte) : (s.sectorErasedTo i bits).draws = s.draws := rfl

end Sys2Proof.Machine
end

