-- ==== Sys2Proof/Laws/Keeps.lean ====
section
/-! SUPPORT. What the engine's work and the lease table never touch. `Keeps s t` says that going from `s` to `t` leaves
alone the flash array, the queue of commands, the pins, the supply, the arbiter, the lease clock and the count of
damaged records; each operation has one lemma that says so. -/

namespace Sys2Proof.Machine

structure Keeps (s t : State) : Prop where
  flash : t.flash = s.flash
  pending : t.pending = s.pending
  resetPin : t.resetPin = s.resetPin
  powerHold : t.powerHold = s.powerHold
  supply : t.supply = s.supply
  supplyHigh : t.supplyHigh = s.supplyHigh
  pointer : t.pointer = s.pointer
  lastGrant : t.lastGrant = s.lastGrant
  leaseClock : t.leaseClock = s.leaseClock
  damaged : t.damaged = s.damaged

theorem Keeps.refl (s : State) : Keeps s s := ⟨rfl, rfl, rfl, rfl, rfl, rfl, rfl, rfl, rfl, rfl⟩

theorem Keeps.trans {s t u : State} (h : Keeps s t) (k : Keeps t u) : Keeps s u where
  flash := k.flash.trans h.flash
  pending := k.pending.trans h.pending
  resetPin := k.resetPin.trans h.resetPin
  powerHold := k.powerHold.trans h.powerHold
  supply := k.supply.trans h.supply
  supplyHigh := k.supplyHigh.trans h.supplyHigh
  pointer := k.pointer.trans h.pointer
  lastGrant := k.lastGrant.trans h.lastGrant
  leaseClock := k.leaseClock.trans h.leaseClock
  damaged := k.damaged.trans h.damaged

/-- A fold of operations that keep the outside keeps it. -/
theorem keeps_foldl {α : Type} {f : State → α → State} (h : ∀ s x, Keeps s (f s x)) :
    ∀ (l : List α) (s : State), Keeps s (l.foldl f s)
  | [], s => .refl s
  | x :: t, s => (h s x).trans (keeps_foldl h t (f s x))

section
variable (s : State)

/-! ### The lease table -/

theorem endLease_keeps (k : Key) : Keeps s (s.endLease k) := by
  unfold State.endLease
  split
  · exact .refl s
  · split <;> (constructor <;> rfl)

theorem expireLease_keeps (k : Key) : Keeps s (s.expireLease k) := by
  unfold State.expireLease
  split
  · exact .refl s
  · split
    · exact .trans (by constructor <;> rfl) (endLease_keeps _ k)
    · exact .refl s

theorem expireWait_keeps (p : Port) : Keeps s (s.expireWait p) := by
  unfold State.expireWait
  split
  · exact .refl s
  · split
    · constructor <;> rfl
    · exact .refl s

theorem takeExpiry_keeps (x : Expiry) : Keeps s (s.takeExpiry x) := by
  cases x
  · exact expireLease_keeps s _
  · exact expireWait_keeps s _

/-- An advance of the lease clock touches nothing outside the lease table and the sessions but the clock, which it raises
by one. -/
theorem advanceClock_keeps (first : List Expiry) : Keeps s.tickClock (s.advanceClock first) :=
  keeps_foldl takeExpiry_keeps _ _

theorem releaseAll_keeps (p : Port) : Keeps s (s.releaseAll p) :=
  keeps_foldl (fun s k => endLease_keeps s k) _ s

theorem dropParked_keeps (p : Port) (answered : Bool) : Keeps s (s.dropParked p answered) := by
  unfold State.dropParked
  split
  · exact .refl s
  · split <;> (constructor <;> rfl)

theorem tearDown_keeps (p : Port) (answered : Bool) : Keeps s (s.tearDown p answered) :=
  ((releaseAll_keeps s p).trans (dropParked_keeps _ p answered)).trans (by constructor <;> rfl)

/-! ### FORMAT -/

theorem formatComplete_keeps (f : FormatWork) : Keeps s (s.formatComplete f) :=
  .trans (.trans (by constructor <;> rfl) (releaseAll_keeps s.formatStore f.port)) (by constructor <;> rfl)

theorem sweepFrom_keeps (f : FormatWork) (i : Nat) : Keeps s (s.sweepFrom f i) := by
  unfold State.sweepFrom
  split
  · constructor <;> rfl
  · exact formatComplete_keeps s f

theorem wipeErase_keeps (f : FormatWork) : Keeps s (s.wipeErase f) := by
  unfold State.wipeErase
  split
  · exact sweepFrom_keeps s f 0
  · split <;> (constructor <;> rfl)

theorem startSweep_keeps (f : FormatWork) (i : Nat) : Keeps s (s.startSweep f i) := by
  unfold State.startSweep
  split <;> (constructor <;> rfl)

/-! ### Placements -/

theorem endPlacement_keeps (pl : Placement) (st : Status) : Keeps s (s.endPlacement pl st) := by
  unfold State.endPlacement
  split <;> (constructor <;> rfl)

theorem endReadOnly_keeps (pl : Placement) : Keeps s (s.endReadOnly pl) :=
  .trans (t := { s with mode := .readOnly }) (by constructor <;> rfl) (endPlacement_keeps _ pl _)

theorem enterBody_keeps (pl : Placement) (h : Nat) : Keeps s (s.enterBody pl h) := by
  constructor <;> rfl

theorem loseThreshold_keeps (pl : Placement) : Keeps s (s.loseThreshold pl) := by
  unfold State.loseThreshold
  split
  · exact wipeErase_keeps s _
  · split
    · exact endPlacement_keeps s pl _
    · exact endReadOnly_keeps s pl

theorem tryOpen_keeps (pl : Placement) : Keeps s (s.tryOpen pl) := by
  unfold State.tryOpen
  split
  · split
    · constructor <;> rfl
    · exact loseThreshold_keeps s pl
  · exact loseThreshold_keeps s pl

theorem startPlacement_keeps (pl : Placement) : Keeps s (s.startPlacement pl) := by
  unfold State.startPlacement
  split
  · split <;> (constructor <;> rfl)
  · exact tryOpen_keeps s pl

theorem wipePlace_keeps (f : FormatWork) : Keeps s (s.wipePlace f) := by
  unfold State.wipePlace
  split
  · exact startPlacement_keeps s _
  · exact wipeErase_keeps s f

theorem wipeAgain_keeps (f : FormatWork) : Keeps s (s.wipeAgain f) := by
  unfold State.wipeAgain
  split
  · exact wipePlace_keeps s f
  · constructor <;> rfl

theorem applyMember_keeps (r : RecordSpec) (q : SeqNo) (h line : Nat) : Keeps s (s.applyMember r q h line) := by
  unfold State.applyMember
  split <;> (constructor <;> rfl)

theorem applyMembers_keeps (h : Nat) : ∀ (rs : List RecordSpec) (s : State) (q : SeqNo) (line : Nat),
    Keeps s (s.applyMembers h rs q line)
  | [], s, _, _ => .refl s
  | r :: rs, s, q, line => (applyMember_keeps s r q h line).trans (applyMembers_keeps h rs _ _ _)

theorem postMembers_keeps (p : Port) : ∀ (rs : List RecordSpec) (s : State) (q : SeqNo),
    Keeps s (s.postMembers p rs q)
  | [], s, _ => .refl s
  | r :: rs, s, q => by
    unfold State.postMembers
    split <;> exact .trans (by constructor <;> rfl) (postMembers_keeps p rs _ _)

theorem commitDone_keeps (pl : Placement) (q : SeqNo) (h base : Nat) (p : Port) (tag : Byte) :
    Keeps s (s.commitDone pl q h base p tag) :=
  have h1 := applyMembers_keeps h pl.records s q base
  have h2 : Keeps (s.applyMembers h pl.records q base) ((s.applyMembers h pl.records q base).clearGroup p) := ((by constructor <;> rfl))
  have h3 := postMembers_keeps p pl.records ((s.applyMembers h pl.records q base).clearGroup p) q
  ((h1.trans h2).trans h3).trans (t := ((s.applyMembers h pl.records q base).clearGroup p).postMembers p pl.records q) (by constructor <;> rfl)

theorem copyDone_keeps (r : RecordSpec) (q : SeqNo) (h base line : Nat) : Keeps s (s.copyDone r q h base line) := by
  unfold State.copyDone
  split
  · constructor <;> rfl
  · dsimp only
    split <;> (constructor <;> rfl)

theorem finishPlacement_keeps (pl : Placement) (h base : Nat) : Keeps s (s.finishPlacement pl h base) := by
  unfold State.finishPlacement
  split
  · constructor <;> rfl
  · split
    · constructor <;> rfl
    · constructor <;> rfl
    · exact commitDone_keeps s pl _ h base _ _
    · exact copyDone_keeps s _ _ h base _
    · exact sweepFrom_keeps s _ 0

theorem recordVerified_keeps (pl : Placement) (h base k : Nat) : Keeps s (s.recordVerified pl h base k) := by
  unfold State.recordVerified
  split
  · split
    · constructor <;> rfl
    · exact endPlacement_keeps s pl _
  · exact finishPlacement_keeps s pl h base

theorem afterFailure_keeps (pl : Placement) : Keeps s (s.afterFailure pl) := by
  unfold State.afterFailure
  split
  · exact wipeAgain_keeps s _
  · split
    · exact endReadOnly_keeps s pl
    · split
      · exact tryOpen_keeps s pl
      · exact endPlacement_keeps s pl _

theorem afterHeaderFailure_keeps (pl : Placement) : Keeps s (s.afterHeaderFailure pl) := by
  unfold State.afterHeaderFailure
  split
  · exact endReadOnly_keeps s pl
  · exact tryOpen_keeps s pl

/-- The outcome of a placement's line program. -/
theorem placementLine_keeps (pl : Placement) (ok : Bool) : Keeps s (s.placementLine pl ok) := by
  unfold State.placementLine
  split
  · exact .trans (by constructor <;> rfl) (tryOpen_keeps _ pl)
  · split <;> (constructor <;> rfl)
  · split <;> (constructor <;> rfl)
  · exact .trans (by constructor <;> rfl) (afterHeaderFailure_keeps _ pl)
  · split
    · split
      · constructor <;> rfl
      · exact .trans (by constructor <;> rfl) (recordVerified_keeps _ pl _ _ _)
    · constructor <;> rfl
  · exact .trans (by constructor <;> rfl) (afterFailure_keeps _ pl)

/-! ### Reclaim -/

theorem copyFrom_keeps (i line : Nat) : Keeps s (s.copyFrom i line) := by
  unfold State.copyFrom
  split
  · exact .trans (by constructor <;> rfl) (startPlacement_keeps _ _)
  · exact .trans (by constructor <;> rfl) (endReadOnly_keeps _ _)

theorem markTail_keeps (i : Nat) : Keeps s (s.markTail i) := by
  unfold State.markTail
  split <;> (constructor <;> rfl)

theorem eraseTail_keeps (i : Nat) : Keeps s (s.eraseTail i) := by
  unfold State.eraseTail
  split <;> (constructor <;> rfl)

theorem tailErased_keeps (i : Nat) (suspect : Bool) : Keeps s (s.tailErased i suspect) := by
  unfold State.tailErased
  split <;> (constructor <;> rfl)

theorem tailFailed_keeps (i : Nat) : Keeps s (s.tailFailed i) := by
  unfold State.tailFailed
  split <;> (constructor <;> rfl)

theorem tailEraseEnded_keeps (i : Nat) (suspect : Bool) (o : EraseOutcome) :
    Keeps s (s.tailEraseEnded i suspect o) := by
  unfold State.tailEraseEnded
  split
  · exact tailErased_keeps s i suspect
  · exact tailFailed_keeps s i
  · constructor <;> rfl

/-! ### Mount's settling phase -/

theorem mountContinue_keeps (m : MountWork) : Keeps s (s.mountContinue m) := by
  unfold State.mountContinue
  split <;> (constructor <;> rfl)

theorem mountLine_keeps (m : MountWork) (ok : Bool) : Keeps s (s.mountLine m ok) := by
  unfold State.mountLine
  split
  · exact .trans (by constructor <;> rfl) (mountContinue_keeps _ m)
  · exact .trans (by constructor <;> rfl) (mountContinue_keeps _ _)
  all_goals exact .refl s

theorem mountErased_keeps (m : MountWork) (i : Nat) (o : EraseOutcome) : Keeps s (s.mountErased m i o) := by
  unfold State.mountErased
  split
  · split
    · constructor <;> rfl
    · exact .trans (by constructor <;> rfl) (mountContinue_keeps _ _)
  · split <;> (constructor <;> rfl)
  · constructor <;> rfl

/-! ### The outcomes of flash operations -/

theorem formatLine_keeps (f : FormatWork) (ok : Bool) : Keeps s (s.formatLine f ok) := by
  unfold State.formatLine
  split
  · exact .trans (by constructor <;> rfl) (wipeErase_keeps _ _)
  · exact .trans (by constructor <;> rfl) (sweepFrom_keeps _ f _)
  all_goals exact .refl s

theorem firstErased_keeps (f : FormatWork) (i : Nat) (suspect : Bool) (o : EraseOutcome) :
    Keeps s (s.firstErased f i suspect o) := by
  unfold State.firstErased
  split
  · split
    · constructor <;> rfl
    · exact .trans (by constructor <;> rfl) (wipePlace_keeps _ _)
  · split
    · exact wipeErase_keeps s _
    · constructor <;> rfl
  · constructor <;> rfl

theorem sweepErased_keeps (f : FormatWork) (i : Nat) (suspect : Bool) (o : EraseOutcome) :
    Keeps s (s.sweepErased f i suspect o) := by
  unfold State.sweepErased
  split
  · split
    · constructor <;> rfl
    · exact .trans (by constructor <;> rfl) (sweepFrom_keeps _ f _)
  · split <;> (constructor <;> rfl)
  · constructor <;> rfl

theorem formatErased_keeps (f : FormatWork) (o : EraseOutcome) : Keeps s (s.formatErased f o) := by
  unfold State.formatErased
  split
  · exact firstErased_keeps s f _ _ o
  · exact sweepErased_keeps s f _ _ o
  all_goals exact .refl s

/-- What the engine does at the outcome of a line program touches nothing outside it. -/
theorem lineEnded_keeps (ok : Bool) : Keeps s (s.lineEnded ok) := by
  unfold State.lineEnded
  split
  · exact placementLine_keeps s _ ok
  · constructor <;> rfl
  · constructor <;> rfl
  · exact mountLine_keeps s _ ok
  · exact formatLine_keeps s _ ok
  all_goals exact .refl s

/-- What the engine does at the outcome of an erase touches nothing outside it. -/
theorem eraseEnded_keeps (o : EraseOutcome) : Keeps s (s.eraseEnded o) := by
  unfold State.eraseEnded
  split
  · exact tailEraseEnded_keeps s _ _ o
  · exact formatErased_keeps s _ o
  · split
    · exact mountErased_keeps s _ _ o
    all_goals exact .refl s
  all_goals exact .refl s

end

end Sys2Proof.Machine
end

