-- ==== Sys2Proof/Laws/Keyed.lean ====
section
/-! SUPPORT. Keyed tables in ascending key order (R23; log 23 for the lease table): what is found after
an insertion or a removal, and that both keep the order. -/

namespace Sys2Proof.Machine

variable {α : Type} (key : α → Key)

/-- Strictly ascending keys. -/
def keysAscending (l : List α) : Prop := l.Pairwise fun x y => (key x).toNat < (key y).toNat

theorem mem_insertKeyed {x y : α} {l : List α} (h : y ∈ insertKeyed key x l) : y = x ∨ y ∈ l := by
  induction l with
  | nil => simpa [insertKeyed] using h
  | cons z zs ih =>
    simp only [insertKeyed] at h
    split at h
    · simpa using h
    · split at h
      · rcases List.mem_cons.1 h with h | h
        · exact .inl h
        · exact .inr (List.mem_cons_of_mem _ h)
      · rcases List.mem_cons.1 h with h | h
        · exact .inr (h ▸ List.mem_cons_self)
        · rcases ih h with h | h
          · exact .inl h
          · exact .inr (List.mem_cons_of_mem _ h)

theorem insertKeyed_ascending {x : α} {l : List α} (h : keysAscending key l) :
    keysAscending key (insertKeyed key x l) := by
  induction l with
  | nil => simp [insertKeyed, keysAscending]
  | cons z zs ih =>
    have hz : ∀ y ∈ zs, (key z).toNat < (key y).toNat := (List.pairwise_cons.1 h).1
    have hzs : keysAscending key zs := (List.pairwise_cons.1 h).2
    simp only [insertKeyed]
    split
    · rename_i hlt
      refine List.pairwise_cons.2 ⟨fun y hy => ?_, h⟩
      rcases List.mem_cons.1 hy with rfl | hy
      · exact hlt
      · exact Nat.lt_trans hlt (hz y hy)
    · split
      · rename_i heq
        exact List.pairwise_cons.2 ⟨fun y hy => heq ▸ hz y hy, hzs⟩
      · rename_i hge hne
        refine List.pairwise_cons.2 ⟨fun y hy => ?_, ih hzs⟩
        rcases mem_insertKeyed key hy with rfl | hy
        · exact Nat.lt_of_le_of_ne (Nat.not_lt.1 hge) fun he => hne (BitVec.eq_of_toNat_eq he).symm
        · exact hz y hy

theorem removeKeyed_ascending {k : Key} {l : List α} (h : keysAscending key l) :
    keysAscending key (removeKeyed key k l) :=
  List.Pairwise.filter _ h

theorem mem_removeKeyed {k : Key} {y : α} {l : List α} : y ∈ removeKeyed key k l ↔ y ∈ l ∧ key y ≠ k := by
  simp [removeKeyed]

/-- The inserted element is found under its key. -/
theorem find_insert_self {x : α} {l : List α} : findKeyed key (key x) (insertKeyed key x l) = some x := by
  induction l with
  | nil => simp [insertKeyed, findKeyed]
  | cons z zs ih =>
    simp only [insertKeyed]
    split
    · simp [findKeyed]
    · split
      · simp [findKeyed]
      · rename_i hne
        simp only [findKeyed, List.find?_cons] at ih ⊢
        rw [show (key z == key x) = false by simpa using fun h => hne h.symm]
        exact ih

/-- An insertion leaves what is found under another key. -/
theorem find_insert_other {x : α} {k : Key} {l : List α} (h : key x ≠ k) :
    findKeyed key k (insertKeyed key x l) = findKeyed key k l := by
  induction l with
  | nil => simp [insertKeyed, findKeyed, h]
  | cons z zs ih =>
    simp only [insertKeyed]
    split
    · simp [findKeyed, h]
    · split
      · rename_i heq
        have hz : key z ≠ k := heq ▸ h
        simp [findKeyed, h, hz]
      · simp only [findKeyed, List.find?_cons] at ih ⊢
        rw [ih]

/-- After a removal nothing is found under the key. -/
theorem find_remove_self {k : Key} {l : List α} : findKeyed key k (removeKeyed key k l) = none := by
  simp [findKeyed, removeKeyed]

/-- A removal leaves what is found under another key. -/
theorem find_remove_other {k j : Key} {l : List α} (h : j ≠ k) :
    findKeyed key j (removeKeyed key k l) = findKeyed key j l := by
  induction l with
  | nil => rfl
  | cons z zs ih =>
    simp only [findKeyed, removeKeyed] at ih ⊢
    by_cases hz : key z = k
    · simp [hz, Ne.symm h, ih]
    · by_cases hj : key z = j
      · simp [hj, h]
      · simp [hz, hj, ih]

theorem find_mem {k : Key} {l : List α} {x : α} (h : findKeyed key k l = some x) : x ∈ l ∧ key x = k := by
  refine ⟨List.mem_of_find?_eq_some h, ?_⟩
  simpa using List.find?_some h

end Sys2Proof.Machine
end

