-- ==== Sys2Proof/Laws/Ports.lean ====
section
/-! SUPPORT. The three ports and the three sessions: what is read after an update, and the handing over of replies. -/

namespace Sys2Proof.Machine

/-! ### One thing for each port -/

section
variable {α : Type} (x : PerPort α)

@[simp] theorem get_set_self (p : Port) (v : α) : (x.set p v).get p = v := by
  cases p <;> rfl

@[simp] theorem get_set_other {p q : Port} (v : α) (h : q ≠ p) : (x.set p v).get q = x.get q := by
  cases p <;> cases q <;> first | rfl | exact absurd rfl h

theorem get_set (p q : Port) (v : α) : (x.set p v).get q = if q = p then v else x.get q := by
  cases p <;> cases q <;> rfl

@[simp] theorem set_get (p : Port) : x.set p (x.get p) = x := by
  cases p <;> rfl

@[simp] theorem set_set (p : Port) (v w : α) : (x.set p v).set p w = x.set p w := by
  cases p <;> rfl

@[simp] theorem get_mapOthers_self (p : Port) (f : α → α) : (x.mapOthers p f).get p = x.get p := by
  cases p <;> rfl

@[simp] theorem get_mapOthers_other {p q : Port} (f : α → α) (h : q ≠ p) : (x.mapOthers p f).get q = f (x.get q) := by
  cases p <;> cases q <;> first | rfl | exact absurd rfl h

theorem perPort_ext {y : PerPort α} (h : ∀ p, x.get p = y.get p) : x = y := by
  have ha := h .A
  have hb := h .B
  have hc := h .C
  cases x
  cases y
  simp only [PerPort.get] at ha hb hc
  simp [ha, hb, hc]

end

/-! ### Ports and sessions of a state -/

section
variable (s : State)

@[simp] theorem port_setPort_self (p : Port) (u : PortUnit) : (s.setPort p u).port p = u := by
  simp [State.port]

@[simp] theorem port_setPort_other {p q : Port} (u : PortUnit) (h : q ≠ p) : (s.setPort p u).port q = s.port q := by
  simp [State.port, h]

@[simp] theorem session_setPort (p q : Port) (u : PortUnit) : (s.setPort p u).session q = s.session q := rfl

@[simp] theorem session_setSession_self (p : Port) (x : Session) : (s.setSession p x).session p = x := by
  simp [State.session]

@[simp] theorem session_setSession_other {p q : Port} (x : Session) (h : q ≠ p) :
    (s.setSession p x).session q = s.session q := by
  simp [State.session, h]

@[simp] theorem port_setSession (p q : Port) (x : Session) : (s.setSession p x).port q = s.port q := rfl

@[simp] theorem setPort_port (p : Port) : s.setPort p (s.port p) = s := by
  simp [State.setPort, State.port]

/-! ### Replies -/

/-- A reply waits at the tail of the queue of a port in NORMAL (R166). -/
theorem receive_normal {u : PortUnit} (r : Reply) (h : u.state = .normal) :
    u.receive r = { u with replies := u.replies ++ [r] } := by
  simp [PortUnit.receive, h]

/-- A reply to a port in RESETTING is discarded (R169). -/
theorem receive_resetting {u : PortUnit} (r : Reply) (h : u.state = .resetting) : u.receive r = u := by
  cases u
  simp_all [PortUnit.receive]

/-- The engine's reply touches the work in hand and the port, and nothing else. -/
theorem answer_touches (p : Port) (tag : Byte) (st : Status) (body : List Byte) :
    ∃ u : PortUnit, s.answer p tag st body = { s with work := .idle, ports := s.ports.set p u } ∧
      u.inService = none ∧ u.queue = (s.port p).queue ∧ u.state = (s.port p).state :=
  ⟨_, rfl, rfl, rfl, rfl⟩

@[simp] theorem session_answer (p q : Port) (tag : Byte) (st : Status) (body : List Byte) :
    (s.answer p tag st body).session q = s.session q := rfl

@[simp] theorem port_answer_self (p : Port) (tag : Byte) (st : Status) (body : List Byte) :
    (s.answer p tag st body).port p = ((s.port p).receive ⟨tag, st, body⟩).endService := by
  simp [State.port]

@[simp] theorem port_answer_other {p q : Port} (tag : Byte) (st : Status) (body : List Byte) (h : q ≠ p) :
    (s.answer p tag st body).port q = s.port q := by
  simp [State.port, h]

@[simp] theorem session_handReply (p q : Port) (r : Reply) : (s.handReply p r).session q = s.session q := rfl

@[simp] theorem port_handReply_self (p : Port) (r : Reply) : (s.handReply p r).port p = (s.port p).receive r := by
  simp [State.port]

@[simp] theorem port_handReply_other {p q : Port} (r : Reply) (h : q ≠ p) : (s.handReply p r).port q = s.port q := by
  simp [State.port, h]

/-! ### Notices -/

@[simp] theorem session_postChanged_self (p : Port) (k : Key) (v : SeqNo) :
    (s.postChanged p k v).session p = s.session p := by
  simp [State.session]

@[simp] theorem session_postChanged_other {p q : Port} (k : Key) (v : SeqNo) (h : q ≠ p) :
    (s.postChanged p k v).session q = (s.session q).takeChanged k v := by
  simp [State.session, h]

@[simp] theorem port_postChanged (p q : Port) (k : Key) (v : SeqNo) : (s.postChanged p k v).port q = s.port q := rfl

/-- A changed posting touches a notice list and nothing else of a session (R95). -/
theorem takeChanged_touches (x : Session) (k : Key) (v : SeqNo) :
    ∃ ns, x.takeChanged k v = { x with notices := ns } := ⟨_, rfl⟩

/-- A lapsed posting touches the notice list of one session (R82). -/
theorem postLapsed_touches (p : Port) (k : Key) :
    ∃ ns, s.postLapsed p k = s.setSession p { s.session p with notices := ns } := ⟨_, rfl⟩

end

end Sys2Proof.Machine
end

