-- ==== Sys2Proof/Laws/Reading.lean ====
section
/-! SUPPORT. Mount reads each sector from its own cells alone: that is what the whole flash reads there. -/

namespace Sys2Proof.Machine

variable {m : List Host.Cell} {i : Nat}

/-- A byte of the sector reads the same from the sector's own cells. -/
theorem readByte_sectorCells {a : Nat} (lo : sectorBase i ≤ a) (hi : a < sectorBase i + sectorBytes) :
    readByte (sectorCells m i) a = readByte m a := by
  induction m with
  | nil => rfl
  | cons c t ih =>
    obtain ⟨x, b⟩ := c
    unfold sectorCells at ih ⊢
    by_cases hx : x = a
    · subst hx
      rw [List.filter_cons_of_pos (by simp [lo, hi])]
      simp [readByte]
    · rw [show readByte ((x, b) :: t) a = readByte t a by simp [readByte, hx], ← ih, List.filter_cons]
      split
      · simp [readByte, hx]
      · rfl

/-- Bytes within the sector read the same from the sector's own cells. -/
theorem readBytes_sectorCells {a n : Nat} (lo : sectorBase i ≤ a) (hi : a + n ≤ sectorBase i + sectorBytes) :
    readBytes (sectorCells m i) a n = readBytes m a n := by
  induction n generalizing a with
  | zero => rfl
  | succ n ih =>
    rw [readBytes, readBytes, readByte_sectorCells lo (by omega), ih (by omega) (by omega)]

/-- So does the test that a part of the sector is erased. -/
theorem allErased_sectorCells {lo hi : Nat} (hlo : sectorBase i ≤ lo) (hhi : hi ≤ sectorBase i + sectorBytes) :
    allErased (sectorCells m i) lo hi = allErased m lo hi := by
  unfold allErased sectorCells
  rw [Bool.eq_iff_iff, List.all_eq_true, List.all_eq_true]
  refine ⟨fun h c hc => ?_, fun h c hc => h c (List.mem_of_mem_filter hc)⟩
  by_cases hin : lo ≤ c.1 ∧ c.1 < hi
  · exact h c (List.mem_filter.2 ⟨hc, by simp; omega⟩)
  · simpa [imp_iff_not_or, not_and_or] using hin

end Sys2Proof.Machine
end

