-- ==== Sys2Proof/Laws/Scanning.lean ====
section
/-! SUPPORT. The scan of a tail (R121): what it finds, and that it finds the first live record that there is. -/

namespace Sys2Proof.Machine

variable {s : State} {i : Nat}

/-- A byte of a payload line, by its place in the flash (R1). -/
theorem payloadAddress_line (i line k : Nat) : payloadAddress i (8 * line + k) = 2048 * i + 40 + 8 * line + k := by
  simp only [payloadAddress, sectorBase, sectorBytes]; omega

/-- The model's test of one record is R121's. -/
theorem liveAt_iff (line : Nat) : s.liveAt i line = true ↔ s.recordLive i line := by
  unfold State.liveAt State.recordLive
  rw [show payloadAddress i (8 * line) = 2048 * i + 40 + 8 * line from payloadAddress_line i line 0,
    payloadAddress_line, payloadAddress_line, Bool.and_eq_true, decide_eq_true_eq]
  refine and_congr Iff.rfl ?_
  split
  · next e he => simp [he]
  · next he => simp [he]

/-- The lines of the record at a payload line. -/
def State.linesAt (s : State) (i line : Nat) : Nat :=
  2 + ((readByte s.flash (2048 * i + 40 + 8 * line + 4)).toNat + 7) / 8

theorem scanTail_succ (n line : Nat) : s.scanTail i (n + 1) line =
    if (s.sector i).fill ≤ line then none
    else if s.liveAt i line then some line
    else s.scanTail i n (line + s.linesAt i line) := by
  rw [State.scanTail, payloadAddress_line]; rfl

/-- A scan goes forward. -/
theorem State.PassesOver.le {first line : Nat} (h : s.PassesOver i first line) : first ≤ line := by
  induction h with
  | start => exact Nat.le_refl _
  | past l _ _ _ ih => exact Nat.le_trans ih (Nat.le_add_right _ _)

/-- A scan that goes past its first line goes on from the line behind the first record. -/
theorem State.PassesOver.step {first line : Nat} (h : s.PassesOver i first line) :
    line = first ∨ s.PassesOver i (first + s.linesAt i first) line := by
  induction h with
  | start => exact Or.inl rfl
  | past l _ hf hl ih =>
    rcases ih with rfl | k
    · exact Or.inr .start
    · exact Or.inr (.past l k hf hl)

/-- What the scan finds is a live record below the fill, and every record before it is passed over. -/
theorem scanTail_sound {first line : Nat} : ∀ (n start : Nat), s.PassesOver i first start →
    s.scanTail i n start = some line → s.PassesOver i first line ∧ line < (s.sector i).fill ∧ s.recordLive i line := by
  intro n
  induction n with
  | zero => intro start _ h; cases h
  | succ n ih =>
    intro start hp h
    rw [scanTail_succ] at h
    by_cases hf : (s.sector i).fill ≤ start
    · rw [if_pos hf] at h; cases h
    · rw [if_neg hf] at h
      by_cases hl : s.liveAt i start = true
      · rw [if_pos hl] at h
        cases h
        exact ⟨hp, Nat.lt_of_not_le hf, (liveAt_iff line).1 hl⟩
      · rw [if_neg hl] at h
        exact ih _ (.past start hp (Nat.lt_of_not_le hf) fun k => hl ((liveAt_iff start).2 k)) h

/-- Where the scan finds nothing with as many records to read as the fill leaves lines, no record that it comes to is live. -/
theorem scanTail_complete : ∀ (n start : Nat), (s.sector i).fill ≤ start + n → s.scanTail i n start = none →
    ∀ line, s.PassesOver i start line → line < (s.sector i).fill → ¬s.recordLive i line := by
  intro n
  induction n with
  | zero => intro start hn _ line hp hlt; have := hp.le; omega
  | succ n ih =>
    intro start hn h line hp hlt
    have hle := hp.le
    rw [scanTail_succ, if_neg (by omega)] at h
    by_cases hl : s.liveAt i start = true
    · rw [if_pos hl] at h; cases h
    · rw [if_neg hl] at h
      rcases hp.step with rfl | k
      · exact fun k => hl ((liveAt_iff line).2 k)
      · exact ih _ (by unfold State.linesAt; omega) h line k hlt

end Sys2Proof.Machine
end

