-- ==== Sys2Proof/Laws/Sectors.lean ====
section
/-! SUPPORT. What an entry of the sector table is after an update of the table, and what moves its live bytes alone or leaves its
fill. -/

namespace Sys2Proof.Machine

variable {s : State} {i j : Nat}

/-- Beyond the table an entry reads as an ERASED one. -/
theorem sector_beyond (h : s.sectors.length ≤ i) : s.sector i = Sector.erased 0 :=
  List.getD_eq_default _ _ h

/-- A sector that is not ERASED stands in the table. -/
theorem lt_length_of_state (h : (s.sector i).state ≠ .erased) : i < s.sectors.length := by
  by_contra hi
  exact h (by rw [sector_beyond (Nat.le_of_not_lt hi)]; rfl)

/-- Entry `i` is replaced, if the table has it, and no other entry changes. -/
theorem sector_setSector (e : Sector) :
    (s.setSector i e).sector j = if j = i ∧ i < s.sectors.length then e else s.sector j := by
  unfold State.sector sectorAt
  rw [setSector_sectors]
  by_cases hji : j = i
  · subst hji
    by_cases hj : j < s.sectors.length
    · rw [if_pos ⟨rfl, hj⟩, List.getD_eq_getElem?_getD, List.getElem?_set_self hj]; rfl
    · rw [if_neg (fun h => hj h.2), List.set_eq_of_length_le (Nat.le_of_not_lt hj)]
  · rw [if_neg (fun h => hji h.1), List.getD_eq_getElem?_getD, List.getD_eq_getElem?_getD,
      List.getElem?_set_ne (Ne.symm hji)]

theorem sector_setSector_self {e : Sector} (h : i < s.sectors.length) : (s.setSector i e).sector i = e := by
  rw [sector_setSector, if_pos ⟨rfl, h⟩]

theorem sector_setSector_other {e : Sector} (h : j ≠ i) : (s.setSector i e).sector j = s.sector j := by
  rw [sector_setSector, if_neg fun k => h k.1]

/-- A retired sector: RETIRED, no erase pending, and suspect if it was or if its marker failed; every other field stands. -/
theorem sector_retireSector (ok : Bool) (h : i < s.sectors.length) :
    (s.retireSector i ok).sector i = { s.sector i with
      state := .retired, suspect := (s.sector i).suspect || !ok, erasePending := false } :=
  sector_setSector_self h

/-! ### Entries set and removed move live bytes alone (R18) -/

/-- An entry that differs from the one it replaces in its live bytes alone leaves every other field of the table. -/
theorem liveOnly_set {t : List Sector} {n : Nat} :
    ∃ v, sectorAt (t.set j { sectorAt t j with live := n }) i = { sectorAt t i with live := v } := by
  unfold sectorAt
  by_cases hji : j = i
  · subst hji
    by_cases hj : j < t.length
    · exact ⟨n, by rw [List.getD_eq_getElem?_getD, List.getElem?_set_self hj]; rfl⟩
    · exact ⟨(t.getD j (Sector.erased 0)).live, by rw [List.set_eq_of_length_le (Nat.le_of_not_lt hj)]⟩
  · exact ⟨(t.getD i (Sector.erased 0)).live, by
      rw [List.getD_eq_getElem?_getD, List.getElem?_set_ne hji, ← List.getD_eq_getElem?_getD]⟩

theorem liveOnly_dropLive (t : List Sector) (o : Option DirEntry) :
    ∃ v, sectorAt (dropLive t o) i = { sectorAt t i with live := v } := by
  cases o with
  | none => exact ⟨_, rfl⟩
  | some e => exact liveOnly_set

theorem liveOnly_setEntry (e : DirEntry) : ∃ v, (s.setEntry e).sector i = { s.sector i with live := v } := by
  obtain ⟨v, hv⟩ := liveOnly_dropLive (i := i) (addLive s.sectors e.sector e.size) (s.entry e.key)
  obtain ⟨w, hw⟩ := liveOnly_set (t := s.sectors) (j := e.sector) (i := i) (n := (sectorAt s.sectors e.sector).live + e.size)
  exact ⟨v, hv.trans (by rw [show sectorAt (addLive s.sectors e.sector e.size) i = _ from hw]; rfl)⟩

theorem liveOnly_removeEntry (k : Key) : ∃ v, (s.removeEntry k).sector i = { s.sector i with live := v } :=
  liveOnly_dropLive _ _

theorem length_dropLive (t : List Sector) (o : Option DirEntry) : (dropLive t o).length = t.length := by
  cases o with
  | none => rfl
  | some e => exact List.length_set

theorem length_setEntry (e : DirEntry) : (s.setEntry e).sectors.length = s.sectors.length :=
  (length_dropLive _ _).trans List.length_set

theorem length_removeEntry (k : Key) : (s.removeEntry k).sectors.length = s.sectors.length :=
  length_dropLive _ _

/-! ### The fill, while live bytes move (R14, R18) -/

/-- An entry whose fill is that of the one it replaces leaves every fill. -/
theorem fill_set {t : List Sector} {e : Sector} (h : e.fill = (sectorAt t j).fill) :
    (sectorAt (t.set j e) i).fill = (sectorAt t i).fill := by
  unfold sectorAt at h ⊢
  rw [List.getD_eq_getElem?_getD, List.getD_eq_getElem?_getD, List.getElem?_set]
  split
  · next hji =>
    subst hji
    split
    · rw [← List.getD_eq_getElem?_getD, ← h]; rfl
    · next hj => rw [List.getElem?_eq_none (Nat.le_of_not_lt hj)]
  · rfl

/-- Entries set and removed, members applied and notices posted leave every fill. -/
@[simp] theorem fill_setEntry (e : DirEntry) : ((s.setEntry e).sector i).fill = (s.sector i).fill := by
  obtain ⟨v, hv⟩ := liveOnly_setEntry (s := s) (i := i) e
  rw [hv]

@[simp] theorem fill_removeEntry (k : Key) : ((s.removeEntry k).sector i).fill = (s.sector i).fill := by
  obtain ⟨v, hv⟩ := liveOnly_removeEntry (s := s) (i := i) k
  rw [hv]

@[simp] theorem fill_markPending : ((s.markPending j).sector i).fill = (s.sector i).fill :=
  fill_set rfl

theorem fill_applyMembers (h : Nat) (rs : List RecordSpec) :
    ∀ (s : State) (q : SeqNo) (line : Nat), ((s.applyMembers h rs q line).sector i).fill = (s.sector i).fill := by
  induction rs with
  | nil => intros; rfl
  | cons r rs ih =>
    intro s q line
    rw [State.applyMembers, ih]
    unfold State.applyMember
    split <;> simp

theorem sectors_postMembers (p : Port) (rs : List RecordSpec) :
    ∀ (s : State) (q : SeqNo), (s.postMembers p rs q).sectors = s.sectors := by
  induction rs with
  | nil => intros; rfl
  | cons r rs ih =>
    intro s q
    rw [State.postMembers, ih]
    split <;> rfl

/-- The head's fill rises by the lines of the record that has been verified. -/
theorem fill_raiseFill (n : Nat) (h : i < s.sectors.length) : ((s.raiseFill i n).sector i).fill = (s.sector i).fill + n := by
  unfold State.raiseFill; rw [sector_setSector_self h]

end Sys2Proof.Machine
end

