-- ==== Sys2Proof/Laws/Service.lean ====
section
/-! SUPPORT. The service of a granted request: a command of a request acts when its code has been granted, and leaves the
state as it is otherwise (R50; log 2). -/

namespace Sys2Proof.Machine

/-- The request that the engine has been granted is served. -/
theorem serve_granted {code : Byte} {act : Port → Request → State → State} {s : State} {p : Port} {r : Request}
    (hw : s.work = .request p r) (hc : r.code = code) : serve code act s = .next (act p r s) := by
  simp [serve, hw, hc]

/-- Work of another kind, or a request of another code, is not served (log 2). -/
theorem serve_other {code : Byte} {act : Port → Request → State → State} {s : State}
    (h : ∀ p r, s.work = .request p r → r.code ≠ code) : serve code act s = .next s := by
  unfold serve
  split
  · rename_i p r hw
    exact if_neg (h p r hw)
  · rfl

/-- A command of a request always answers a next state. -/
theorem serve_next (code : Byte) (act : Port → Request → State → State) (s : State) :
    ∃ t, serve code act s = .next t ∧
      (t = s ∨ ∃ p r, s.work = .request p r ∧ r.code = code ∧ t = act p r s) := by
  unfold serve
  split
  · rename_i p r hw
    split
    · rename_i hc
      exact ⟨_, rfl, .inr ⟨p, r, hw, hc, rfl⟩⟩
    · exact ⟨_, rfl, .inl rfl⟩
  · exact ⟨_, rfl, .inl rfl⟩

/-- A command of the block outside reset acts. -/
theorem whenRunning_next {act : State → State} {s : State} (h : s.inReset = false) :
    whenRunning act s = .next (act s) := by
  simp [whenRunning, h]

/-- In reset it leaves the state as it is. -/
theorem whenRunning_reset {act : State → State} {s : State} (h : s.inReset = true) : whenRunning act s = .next s := by
  simp [whenRunning, h]

/-- The status a frame puts out is the one latched at the assertion of SEL#, or is latched where the frame acts (R163). -/
theorem frameStatus_selected {s : State} {p : Port} (h : (s.port p).selected = true) :
    s.frameStatus p = (s.port p).latch := if_pos h

theorem frameStatus_released {s : State} {p : Port} (h : (s.port p).selected = false) :
    s.frameStatus p = s.statusBytes p := if_neg (by simp [h])

/-- The assertion of SEL# (R163). -/
theorem atMoment_asserted (p : Port) {act : State → Port → State} {s : State} (h : s.inReset = false) :
    atMoment ⟨p, .asserted⟩ act s = .next (s.select p) :=
  whenRunning_next h

/-- The frame acts. -/
theorem atMoment_acts (p : Port) {act : State → Port → State} {s : State} (h : s.inReset = false) :
    atMoment ⟨p, .acts⟩ act s = .next (act s p) :=
  whenRunning_next h

/-- In reset there is no frame (log 25). -/
theorem atMoment_reset (e : FrameEvent) {act : State → Port → State} {s : State} (h : s.inReset = true) :
    atMoment e act s = .next s :=
  whenRunning_reset h

theorem whenRunning_cases (act : State → State) (s : State) :
    whenRunning act s = .next s ∨ whenRunning act s = .next (act s) := by
  unfold whenRunning
  split
  · exact .inl rfl
  · exact .inr rfl

end Sys2Proof.Machine
end

