-- ==== Sys2Proof/Tests/Slice0.lean ====
section
/-! SUPPORT. Tests on small states: the well-formedness checks, the checks of the wire and of the flash, one step of each
kind of command, and, for every statement with hypotheses, a state and operands that meet them. -/

namespace Sys2Proof.Tests

set_option Elab.async false

open Sys2Proof Sys2Proof.Machine

/-! ### Well-formedness: each check refuses an ill-formed term -/

theorem test_wf_submit : (Instr.submit ⟨.A, .acts⟩ (List.replicate 25000 0) false).wellFormed = false := by
  rw [Instr.wellFormed, List.length_replicate]; rfl
theorem test_wf_fetch : (Instr.fetch ⟨.A, .acts⟩ (List.replicate 25000 0)).wellFormed = false := by
  rw [Instr.wellFormed, List.length_replicate]; rfl
theorem test_wf_peek : (Instr.peek ⟨.B, .acts⟩ (List.replicate 25000 0)).wellFormed = false := by
  rw [Instr.wellFormed, List.length_replicate]; rfl
theorem test_wf_portReset : (Instr.portReset ⟨.B, .acts⟩ (List.replicate 25000 0) true).wellFormed = false := by
  rw [Instr.wellFormed, List.length_replicate]; rfl
theorem test_wf_unknownKind : (Instr.unknownKind ⟨.C, .acts⟩ 0x05 (List.replicate 25000 0)).wellFormed = false := by
  rw [Instr.wellFormed, List.length_replicate]; rfl
theorem test_wf_known_kind : (Instr.unknownKind ⟨.C, .acts⟩ 0x01 []).wellFormed = false := by decide
theorem test_wf_frameTimeout : (Instr.frameTimeout ⟨.C, .acts⟩ (List.replicate 25001 0)).wellFormed = false := by
  rw [Instr.wellFormed, List.length_replicate]; rfl
theorem test_wf_short_line : (Instr.lineProgramComplete (.faulty [0, 0, 0, 0, 0, 0, 0])).wellFormed = false := by decide
theorem test_wf_stuck_offset : (Instr.eraseComplete [(2048, 0)]).wellFormed = false := by decide
theorem test_wf_good : (Instr.lineProgramComplete (.faulty [0, 0, 0, 0, 0, 0, 0, 0])).wellFormed = true := by decide

/-! ### Checks and layouts -/

/-- The CRC-16 of R174 over the nine characters "123456789". -/
theorem test_crc16 : crc16 [0x31, 0x32, 0x33, 0x34, 0x35, 0x36, 0x37, 0x38, 0x39] = 0x29B1 := by decide +kernel

/-- The CRC-8 of a PORT_RESET frame (R168). -/
theorem test_crc8 : crc8 [0x04] = 0xBC := by decide +kernel

theorem test_big_endian : beBytes 4 0x01020304 = [1, 2, 3, 4] ∧ beNat [1, 2, 3, 4] = 0x01020304 := by decide

/-! ### A small store -/

/-- A VALUE record of key 0x0100, one byte 0xAA, sequence 5. -/
def record : RecordSpec := ⟨.value, false, 0x0100, [0xAA], 0, 0⟩

/-- Sector 0: header of generation 1, CLOSED marker, the record. -/
def flashOfRecord : List Host.Cell :=
  programBytes (programBytes (programBytes [] (lineAddress 0 0) (headerBytes 7 1 5)) (lineAddress 0 2) closedMarker)
    (payloadAddress 0 0) (record.bytes 5 5)

def fullRights : Rights := ⟨true, true, true, true⟩

def openSession : Session := { Session.closed with isOpen := true, rights := fullRights }

/-- A lease of A on the key, on which B waits. -/
def leaseOfA : Lease := ⟨0x0100, .A, 500, 501, [⟨.B, 9, 0, 101⟩]⟩

/-- A store in READY: a CLOSED tail with one live record, an OPEN head, eight free sectors; A and B have their sessions
OPEN, A holds a lease and B waits for it. -/
def store : State :=
  { State.reset with
    powerHold := false
    supply := .normal
    supplyHigh := true
    mode := .ready
    work := .idle
    flash := flashOfRecord
    sectors := [⟨.closed, some 1, 7, 3, 24, false, false⟩, ⟨.opened, some 2, 7, 0, 0, false, false⟩]
      ++ List.replicate 8 (Sector.erased 7)
    nextSeq := 6
    nextGen := 3
    directory := [⟨0x0100, 5, 1, 0, 0, false⟩]
    leases := [leaseOfA]
    sessions := ⟨openSession, { openSession with parked := some (0x0100, 9) }, .closed⟩ }

/-- The store with a request of a port granted. -/
def granted (p : Port) (code : Byte) (body : List Byte) : State :=
  { store with work := .request p ⟨3, code, body⟩, ports := store.ports.set p { PortUnit.reset with inService := some 3 } }

/-- What a command leaves of a state. -/
def after {α : Type} (o : Host.Outcome State Fault Refusal) (f : State → α) : Option α :=
  match o with
  | .next t => some (f t)
  | .fault _ => none
  | .refused _ => none

/-- The replies that wait at a port. -/
def repliesOf (p : Port) (t : State) : List Reply := (t.port p).replies

/-! ### One step of each kind -/

theorem test_read : after (exec .read (granted .A 0x03 [1, 0])) (repliesOf .A)
    = some [⟨3, .ok, [0, 0, 0, 0, 0, 5, 1, 0xAA]⟩] := by decide +kernel

theorem test_read_absent : after (exec .read (granted .A 0x03 [1, 1])) (repliesOf .A)
    = some [⟨3, .notFound, []⟩] := by decide +kernel

theorem test_readMeta : after (exec .readMeta (granted .A 0x04 [1, 0])) (repliesOf .A)
    = some [⟨3, .ok, [0, 0, 0, 0, 0, 5, 1, 1, 1, 0xF5, 0]⟩] := by decide +kernel

theorem test_list : after (exec .list (granted .A 0x05 [0, 0])) (repliesOf .A)
    = some [⟨3, .ok, [1, 1, 1, 0, 0, 0, 0, 0, 0, 5, 1]⟩] := by decide +kernel

theorem test_open : after (exec .sessionOpen (granted .C 0x01 [])) (fun t => (repliesOf .C t, (t.port .C).noticeEnable))
    = some ([⟨3, .ok, [0x07, 2, 0, 1, 0, 0, 0, 0, 0, 6]⟩], true) := by decide +kernel

theorem test_close : after (exec .sessionClose (granted .A 0x02 []))
      (fun t => (t.leases, repliesOf .B t, t.session .A, (t.session .B).parked))
    = some ([⟨0x0100, .B, 500, 501, []⟩], [⟨9, .ok, [1, 1, 0xF4]⟩], .closed, none) := by decide +kernel

theorem test_write : after (exec .write (granted .A 0x06 [1, 0, 0, 0xBB])) (fun t => (t.nextSeq, t.controller))
    = some (7, .programming 1 5 [0x01, 0, 1, 0, 1, 0, 0, 0]) := by decide +kernel

theorem test_write_held : after (exec .write (granted .B 0x06 [1, 0, 0, 0xBB])) (repliesOf .B)
    = some [⟨3, .held, [1]⟩] := by decide +kernel

theorem test_delete_stale : after (exec .delete (granted .A 0x07 [1, 0, 1, 0, 0, 0, 0, 0, 4])) (repliesOf .A)
    = some [⟨3, .stale, [0, 0, 0, 0, 0, 5]⟩] := by decide +kernel

theorem test_claim_free : after (exec .claim (granted .A 0x08 [1, 1, 0, 5, 0, 0])) (fun t => (repliesOf .A t, t.leases))
    = some ([⟨3, .ok, [1, 0, 5]⟩], [leaseOfA, ⟨0x0101, .A, 5, 6, []⟩]) := by decide +kernel

theorem test_renew : after (exec .renew (granted .A 0x09 [1, 0, 0, 5])) (fun t => (t.leaseOf 0x0100).map Lease.expiry)
    = some (some 6) := by decide +kernel

theorem test_release : after (exec .release (granted .A 0x0A [1, 0])) (fun t => (repliesOf .A t, repliesOf .B t))
    = some ([⟨3, .ok, [2]⟩], [⟨9, .ok, [1, 1, 0xF4]⟩]) := by decide +kernel

theorem test_watch : after (exec .watch (granted .A 0x0B [1, 0])) (fun t => (repliesOf .A t, (t.session .A).watch))
    = some ([⟨3, .ok, [0, 0, 0, 0, 0, 5]⟩], [0x0100]) := by decide +kernel

theorem test_unwatch : after (exec .unwatch (granted .A 0x0C [1, 0])) (repliesOf .A) = some [⟨3, .ok, [0]⟩] := by
  decide +kernel

theorem test_takeNotice_empty : after (exec .takeNotice (granted .A 0x0D [])) (repliesOf .A)
    = some [⟨3, .empty, []⟩] := by decide +kernel

theorem test_groupBegin : after (exec .groupBegin (granted .A 0x0E [])) (fun t => (t.session .A).groupOpen)
    = some true := by decide +kernel

theorem test_groupPut_none : after (exec .groupPut (granted .A 0x0F [1, 0, 0, 1])) (repliesOf .A)
    = some [⟨3, .noGroup, []⟩] := by decide +kernel

theorem test_groupCommit_none : after (exec .groupCommit (granted .A 0x10 [])) (repliesOf .A)
    = some [⟨3, .noGroup, []⟩] := by decide +kernel

theorem test_groupAbandon_none : after (exec .groupAbandon (granted .A 0x11 [])) (repliesOf .A)
    = some [⟨3, .noGroup, []⟩] := by decide +kernel

theorem test_storeStatus : after (exec .storeStatus (granted .C 0x12 [])) (fun t => (repliesOf .C t).map Reply.body)
    = some [[2, 0, 64, 8, 0, 0, 0, 0, 24, 0, 1, 0xDE, 0x78, 0, 1, 0, 0, 0, 0, 0, 6, 0, 0, 0, 7, 0, 0, 0, 7, 0, 0, 0, 2, 0, 0,
        0, 0, 0x0F, 0]] := by decide +kernel

theorem test_compact : after (exec .compact (granted .A 0x13 [0, 9])) (fun t => (repliesOf .A t, t.reclaim.limit))
    = some ([⟨3, .ok, [9, 8]⟩], some 3) := by decide +kernel

theorem test_format_busy : after (exec .format (granted .A 0x14 [])) (repliesOf .A)
    = some [⟨3, .busySessions, []⟩] := by decide +kernel

theorem test_unknown_code : after (exec .unknownRequestCode (granted .A 0x15 [])) (repliesOf .A)
    = some [⟨3, .malformed, []⟩] := by decide +kernel

theorem test_no_session : after (exec .read (granted .C 0x03 [1, 0])) (repliesOf .C)
    = some [⟨3, .noSession, []⟩] := by decide +kernel

theorem test_submit : after (exec (.submit ⟨.A, .acts⟩ [5, 0x03, 2, 1, 0, crc8 [1, 5, 3, 2, 1, 0]] false) store)
      (fun t => ((t.port .A).queue, (t.port .A).lastResult, (t.port .A).sdo))
    = some ([⟨5, 0x03, [1, 0]⟩], .ok, [0x48, 0x80, 0, 0, 0, 0, 0]) := by decide +kernel

theorem test_fetch_empty : after (exec (.fetch ⟨.A, .acts⟩ [0xFF, 0, 0]) store) (fun t => (t.port .A).sdo)
    = some [0x48, 0x80, 0xFF, 0] := by decide +kernel

/-- SEL# of port B is asserted while it is RESETTING; the teardown ends; then the SUBMIT is admitted, under the status latched
before. -/
def resettingB : State :=
  { store with
    work := .teardown .B
    ports := store.ports.set .B { PortUnit.reset with state := .resetting, teardown := .inService } }

theorem test_stale_status : after (exec (.submit ⟨.B, .asserted⟩ [] false) resettingB) (fun t =>
    after (exec .teardown t) fun u =>
      after (exec (.submit ⟨.B, .acts⟩ [9, 0x01, 0, crc8 [1, 9, 0x01, 0]] false) u) fun v =>
        decide ((v.port .B).queue.length = 1 ∧ (v.port .B).lastResult = .ok ∧
          (v.port .B).sdo = resettingB.statusBytes .B ++ [0, 0, 0] ∧ u.statusBytes .B ≠ resettingB.statusBytes .B ∧
          (u.port .B).selected = true ∧ (v.port .B).selected = false)) = some (some (some true)) := by
  decide +kernel

theorem test_portReset : after (exec (.portReset ⟨.B, .acts⟩ [0xBC] false) store)
      (fun t => ((t.port .B).state, (t.port .B).teardown)) = some (.resetting, .pending) := by decide +kernel

theorem test_arbiter : after (exec .arbiterChoice { store with
      ports := store.ports.set .B { PortUnit.reset with queue := [⟨1, 3, [1, 0]⟩] } })
      (fun t => (t.work, t.pointer, t.lastGrant)) = some (.request .B ⟨1, 3, [1, 0]⟩, .C, .port) := by decide +kernel

theorem test_mark : after (exec .reclaimMark { store with work := .reclaimGrant }) State.controller
    = some (.programming 0 3 [10, 10, 10, 10, 10, 10, 10, 10]) := by decide +kernel

theorem test_copy : after (exec .reclaimCopy { store with
      work := .reclaimGrant
      sectors := store.sectors.set 0 { store.sector 0 with state := .reclaiming }
      reclaim := { Reclaim.reset with state := .copying } }) State.controller
    = some (.programming 1 5 [0x01, 1, 1, 0, 1, 0, 0, 0]) := by decide +kernel

/-- The record is verified with its last line: the entry points at it, and the live bytes have moved. -/
theorem test_line_complete : after (exec (.lineProgramComplete .good) { store with
      work := .place ⟨.write .A 3, [record], some 6, 0, .body 1 0 0 2⟩
      controller := .programming 1 7 [0xAA, 0xFF, 0xFF, 0xFF, 0xFF, 0xFF, 0xFF, 0xFF] })
      (fun t => (t.directory, (t.sector 0).live, (t.sector 1).live, (t.sector 1).fill))
    = some ([⟨0x0100, 6, 1, 1, 0, false⟩], 0, 24, 3) := by decide +kernel

theorem test_erase_complete : after (exec (.eraseComplete []) { store with
      work := .tailErase 0 false, controller := .erasing 0, reclaim := { Reclaim.reset with state := .erasing } })
      (fun t => (t.flash, (t.sector 0).state, (t.sector 0).eraseCount)) = some ([], .erased, 8) := by decide +kernel

/-- A reset, and the mount that reads the record back. -/
theorem test_mount : after (exec .resetHoldRelease { State.reset with flash := flashOfRecord })
      (fun t => (t.mode, t.directory, t.nextSeq, (t.sector 0).state, (t.sector 0).live))
    = some (.ready, [⟨0x0100, 5, 1, 0, 0, false⟩], 6, .closed, 24) := by decide +kernel

theorem test_mount_blank : after (exec .resetHoldRelease State.reset) (fun t => (t.mode, t.freeCount, t.nextSeq))
    = some (.blank, 64, 1) := by decide +kernel

/-- The next advance reaches the lease's expiry: the clock stands at it, and B is granted. -/
theorem test_lease_expiry : after (exec (.leaseExpiry ⟨0x0100, []⟩) { store with leaseClock := 500 })
      (fun t => (t.leaseClock, (t.session .A).notices, t.leases, repliesOf .B t))
    = some (501, [⟨0x0100, false, 0, true⟩], [⟨0x0100, .B, 500, 1002, []⟩], [⟨9, .ok, [1, 1, 0xF4]⟩]) := by decide +kernel

theorem test_wait_expiry : after (exec (.waitExpiry ⟨.B, []⟩) { store with leaseClock := 100 }) (repliesOf .B)
    = some [⟨9, .timeout, []⟩] := by decide +kernel

/-- The expiry of a lease and the wait expiry of its oldest waiter at one advance: each order (R85). -/
theorem test_expiry_orders :
    let s := { store with leaseClock := 500, leases := [{ leaseOfA with waiters := [⟨.B, 9, 0, 501⟩] }] }
    after (exec (.leaseExpiry ⟨0x0100, []⟩) s) (fun t => ((t.leaseOf 0x0100).map Lease.holder, repliesOf .B t))
      = some (some .B, [⟨9, .ok, [1, 1, 0xF4]⟩]) ∧
    after (exec (.waitExpiry ⟨.B, []⟩) s) (fun t => (t.leases, repliesOf .B t)) = some ([], [⟨9, .timeout, []⟩]) := by
  decide +kernel

/-- An advance takes the expiry it reaches with no command of its own; one short of it, the expiry is no event. -/
theorem test_clock_takes_expiry : after (exec .leaseClockAdvance { store with leaseClock := 500 })
      (fun t => (t.leaseClock, (t.leaseOf 0x0100).map Lease.holder)) = some (501, some .B) ∧
    after (exec (.leaseExpiry ⟨0x0100, []⟩) { store with leaseClock := 499 }) State.leaseClock = some 499 := by decide +kernel

/-- A RETIRED marker that fails its verify flags the sector suspect, and so does a failed header line. -/
theorem test_failed_retirement : after (exec (.lineProgramComplete (.faulty (List.replicate 8 0xFF))) { store with
      work := .tailRetire 0, controller := .programming 0 4 retiredMarker })
      (fun t => ((t.sector 0).state, (t.sector 0).suspect)) = some (.retired, true) ∧
    after (exec (.lineProgramComplete (.faulty (List.replicate 8 0xFF))) { store with
      work := .place ⟨.write .A 3, [record], none, 0, .line0 2⟩
      controller := .programming 2 0 [0x4A, 0x52, 0, 7, 0, 0, 0, 3] })
      (fun t => ((t.sector 2).suspect, t.controller)) = some (true, .programming 2 4 retiredMarker) := by decide +kernel

/-- A supply above 2.95 V at the release of RESET#: NORMAL_ARRIVAL came in the reset, and leaving it takes the rise. -/
theorem test_rise_in_reset : (∀ s : State, s.resetPin = true → s.powerHold = false →
      exec .normalArrival s = .next { s with supplyHigh := true }) ∧
    after (exec .resetPinRelease { State.reset with resetPin := true, powerHold := false, supplyHigh := true })
      State.supply = some .normal ∧
    after (exec .resetPinRelease { State.reset with resetPin := true, powerHold := false }) State.supply = some .guard := by
  refine ⟨fun s h1 h2 => ?_, ?_⟩
  · simp [exec, execNormalArrival, h1, h2]
  · decide +kernel

/-! ### Witnesses: a state and operands that meet the hypotheses of each statement -/

/-- Every request of a port, granted in the store: the statements about the twenty requests. -/
theorem test_granted_any (p : Port) (code : Byte) (body : List Byte) :
    (granted p code body).granted p ⟨3, code, body⟩ code := ⟨rfl, rfl⟩

theorem test_idle_queue : State.reset.pending = [] := rfl

theorem test_events_not_possible : store.work = .idle ∧ store.controller = .idle ∧ State.reset.inReset = true ∧
    store.inReset = false ∧ store.powerHold = false ∧ store.resetPin = false := by decide

/-- A request of another code than the command's, and codes at the ends of the twenty. -/
theorem test_other_code : (∀ p r, (granted .A 0x02 []).work = .request p r → r.code ≠ 0x01) ∧
    (∀ p r, (granted .A 0x14 []).work = .request p r → 1 ≤ r.code.toNat ∧ r.code.toNat ≤ 0x14) := by
  refine ⟨?_, ?_⟩ <;> (intro p r h; cases h; decide)

/-- Frames of the four kinds, at the ends of their range. -/
theorem test_known_kinds : 1 ≤ (0x01 : Byte).toNat ∧ (0x01 : Byte).toNat ≤ 4 ∧ 1 ≤ (0x04 : Byte).toNat ∧
    (0x04 : Byte).toNat ≤ 4 := by decide

theorem test_reset_cut : store.flashCanonical ∧
    ({ store with controller := .programming 0 3 reclaimMarker }).flashCanonical ∧ reclaimMarker.length = 8 ∧
    ({ store with controller := .erasing 0 }).flashCanonical := by
  refine ⟨?_, ?_, ?_, ?_⟩ <;> (try unfold State.flashCanonical) <;> decide +kernel

theorem test_leaving_reset : (State.reset.powerHold = true ∧ State.reset.resetPin = false) ∧
    ({ State.reset with resetPin := true }).resetPin = true ∧
    ({ State.reset with powerHold := false, resetPin := true }).powerHold = false := by decide

theorem test_leaving_with_rise : ({ State.reset with resetPin := true, supplyHigh := true } : State).supplyHigh = true ∧
    ({ State.reset with resetPin := true } : State).powerHold = true := by decide

/-- Two sectors of one generation, the second with a RECLAIM marker: it is the later of the ring, held as CLOSED, suspect. -/
theorem test_mount_displaced :
    let twin := programBytes (programBytes (programBytes flashOfRecord (lineAddress 1 0) (headerBytes 9 1 5))
      (lineAddress 1 2) closedMarker) (lineAddress 1 3) reclaimMarker
    after (exec .resetHoldRelease { State.reset with flash := twin })
      (fun t => (t.ring, (t.sector 1).state, (t.sector 1).suspect, (t.sector 0).suspect, (t.sector 2).eraseCount, t.nextGen))
      = some ([0, 1], .closed, true, false, 9, 2) := by decide +kernel

/-- A reset can be left by either hold's release. -/
theorem test_leaves_reset : (∃ t, State.reset.leavesResetTo t) ∧
    ∃ t, ({ State.reset with powerHold := false, resetPin := true } : State).leavesResetTo t :=
  ⟨⟨_, .inl ⟨rfl, rfl, rfl⟩⟩, ⟨_, .inr ⟨rfl, rfl, rfl⟩⟩⟩

theorem test_erased_flash : State.reset.flash = [] ∧ State.reset.powerHold = true ∧ State.reset.resetPin = false := by
  decide

/-- One sector of each row of TABLE 71, and of both cases of its suspect column. -/
theorem test_classes :
    let header := programBytes [] (lineAddress 0 0) (headerBytes 7 1 5)
    let closed := programBytes header (lineAddress 0 2) closedMarker
    classify (programBytes header (lineAddress 0 4) retiredMarker) 0 = (.retired, false) ∧
    classify [] 0 = (.erased, false) ∧ classify (programBytes [] (lineAddress 0 255) [0]) 0 = (.dirty, false) ∧
    classify header 0 = (.opened, false) ∧ classify closed 0 = (.closed, false) ∧
    classify (programBytes header (lineAddress 0 2) [0]) 0 = (.closed, true) ∧
    classify (programBytes closed (lineAddress 0 3) reclaimMarker) 0 = (.reclaiming, false) ∧
    classify (programBytes header (lineAddress 0 3) reclaimMarker) 0 = (.reclaiming, true) ∧
    classify (programBytes [] (lineAddress 0 0) [0]) 0 = (.dirty, false) := by decide +kernel

/-- A good record, a damaged one, and the end of what is written. -/
theorem test_stored_records : readRecord flashOfRecord 0 0 = .record ⟨.value, false, 0x0100, 1, 0, 0, 0, 5⟩ ∧
    readRecord (programBytes flashOfRecord (payloadAddress 0 16) [0xA8]) 0 0 = .damaged ∧
    readRecord flashOfRecord 0 3 = .finished := by decide +kernel

/-- Members of a group as they are read, and a pending run of one. -/
def member (position : Nat) (kind : RecordKind) : StoredRecord := ⟨kind, false, 0x0100, 0, position, 2, 5, 5⟩

theorem test_replay_members : (member 1 .value).position = 1 ∧ (member 2 .tombstone).position ≠ 1 ∧
    ([(member 1 .value, 0)] : List (StoredRecord × Nat)) = [] ++ [(member 1 .value, 0)] ∧
    (member 1 .value).position + 1 = (member 2 .tombstone).position ∧
    ¬((member 1 .value).position = 0 ∧ (member 1 .value).count = 0) ∧
    (⟨.value, false, 0x0100, 1, 0, 0, 0, 5⟩ : StoredRecord).count = 0 ∧ (member 0 .commit).kind = .commit := by decide

/-- Mount in its settling phase with a sector to close, and with a DIRTY sector. -/
def settling (close : List Nat) (supply : Supply) : State :=
  { store with
    supply := supply
    mode := .mounting
    work := .mount ⟨.waiting, close, [], 0⟩
    sectors := store.sectors.set 2 { Sector.erased 7 with state := .dirty, erasePending := true } }

theorem test_settling : (settling [1] .guard).supply = .guard ∧ (settling [1] .normal).supply = .normal ∧
    (settling [] .normal).work = .mount ⟨.waiting, [], [], 0⟩ ∧ 2 < (settling [] .normal).sectors.length ∧
    ((settling [] .normal).sector 2).state = .dirty ∧ ∀ j, j < 2 → ((settling [] .normal).sector j).state ≠ .dirty := by
  decide +kernel

/-- Mount with a line program or an erase of sector 2 in flight. -/
def mounting (phase : MountPhase) (c : FlashController) : State :=
  { settling [1] .normal with work := .mount ⟨phase, [1], [⟨0x0100, 5, 1, 0, 0, false⟩], 0⟩, controller := c }

theorem test_mount_writes :
    (mounting (.closing 1) (.programming 1 2 closedMarker)).work
      = .mount ⟨.closing 1, [1], [⟨0x0100, 5, 1, 0, 0, false⟩], 0⟩ ∧
    (mounting (.retiring 2) (.programming 2 4 retiredMarker)).controller = .programming 2 4 retiredMarker ∧
    2 < (mounting (.erasing 2) (.erasing 2)).sectors.length ∧ (mounting (.erasing 2) (.erasing 2)).inReset = false ∧
    (mounting (.erasing 2) (.erasing 2)).supply = .normal ∧
    sectorErased (eraseSector (stuckBits []) 2 flashOfRecord) 2 = true ∧
    sectorErased (eraseSector (stuckBits [(0, 1)]) 0 flashOfRecord) 0 = false := by decide +kernel

theorem test_working_ordered : directoryOrdered store.directory := ⟨by decide, by decide⟩

theorem test_running : store.inReset = false ∧ store.creditsInUse .A ≤ 4 ∧ store.creditsInUse .B = 1 := by decide

/-- The four credits all used: no free credit is left, and the status byte still holds its fields. -/
theorem test_credits_full : ({ store with ports := store.ports.set .A { PortUnit.reset with
    queue := [⟨1, 3, []⟩, ⟨2, 3, []⟩, ⟨3, 3, []⟩, ⟨4, 3, []⟩] } }).creditsInUse .A = 4 := by decide

theorem test_short_submit : store.inReset = false ∧ ([1, 2] : List Byte).length < 3 := by decide

theorem test_unknown_kind_bytes : (0x00 : Byte) ≠ 0x01 ∧ (0x05 : Byte) ≠ 0x04 ∧ (0x05 : Byte) ≠ 0x01 ∧
    (0x05 : Byte) ≠ 0x02 ∧ (0x05 : Byte) ≠ 0x03 := by decide

theorem test_port_states : (store.port .A).state = .normal ∧
    (({ store with ports := store.ports.set .A { PortUnit.reset with state := .resetting } }).port .A).state = .resetting ∧
    ¬(([0xBC] : List Byte) = [0xBC] ∧ true = false) ∧ ¬(([0xBD] : List Byte) = [0xBC] ∧ false = false) := by decide

/-- A granted request on a port with no session, of a known and of an unknown code, below and above the twenty. -/
theorem test_no_session_grant : ((granted .C 0x14 []).session .C).isOpen = false ∧
    (granted .C 0x00 []).work = .request .C ⟨3, 0x00, []⟩ ∧ (0x14 : Nat) < (0x15 : Byte).toNat ∧
    (0x15 : Byte) ≠ 0x01 ∧ (0x15 : Byte) ≠ 0x12 := by decide

/-- The arbiter's states: urgent demand after a port grant, a request, a teardown, and no requester. -/
def choosing (free : Nat) (u : PortUnit) (marker : GrantMarker) : State :=
  { store with
    sectors := store.sectors.take (2 + free)
    ports := ⟨.reset, u, .reset⟩
    lastGrant := marker }

theorem test_arbiter_urgent : (choosing 3 { PortUnit.reset with queue := [⟨1, 3, []⟩] } .port).demand = .urgent ∧
    (choosing 3 .reset .none).demand = .urgent ∧ (choosing 4 .reset .none).demand = .background ∧
    (choosing 8 .reset .none).demand = .none := by decide +kernel

theorem test_arbiter_requesters :
    (choosing 8 { PortUnit.reset with queue := [⟨1, 3, []⟩] } .port).requester .B = true ∧
    (choosing 8 { PortUnit.reset with teardown := .pending } .port).requester .B = true ∧
    (choosing 8 .reset .none).requester .A = false ∧ (choosing 8 .reset .none).requester .B = false ∧
    (choosing 8 .reset .none).requester .C = false ∧ (choosing 8 .reset .none).mode = .ready ∧
    (choosing 8 .reset .none).work = .idle := by decide +kernel

theorem test_enables_bodies : (0x03 : Byte).toNat < 4 ∧ (0x00 : Byte).toNat < 4 ∧ ¬(0x04 : Byte).toNat < 4 := by decide

theorem test_open_session_grant : ((granted .A 0x02 [0]).session .A).isOpen = true ∧ ([0] : List Byte) ≠ [] ∧
    ((granted .A 0x02 []).session .A).isOpen = true ∧ ((granted .A 0x02 []).port .A).state = .normal := by decide

/-- The store's lease table and sessions agree, whatever the engine does outside FORMAT, the ports and the clock. -/
theorem test_leases_sound (w : Work) (u : PerPort PortUnit) (hw : w.formatPort = none) :
    ({ store with work := w, ports := u }).leasesSound := by
  refine ⟨show store.leases.Pairwise (fun x y => x.key.toNat < y.key.toNat) by decide,
    show store.waiterPorts.Nodup by decide, ?_, ?_, ?_, ?_⟩
  · intro e he
    obtain rfl : e = leaseOfA := by simpa [store] using he
    refine ⟨rfl, fun w hw => ?_⟩
    obtain rfl : w = ⟨.B, 9, 0, 101⟩ := by simpa [leaseOfA] using hw
    exact ⟨by decide, rfl⟩
  · intro p mark h
    cases p
    · cases h
    · obtain rfl : ((0x0100 : Key), (9 : Byte)) = mark := Option.some.inj h
      exact ⟨leaseOfA, by simp [store], rfl, ⟨.B, 9, 0, 101⟩, by simp [leaseOfA], rfl, rfl⟩
    · cases h
  · intro p h
    cases p
    · cases h
    · cases h
    · rfl
  · intro p h
    rw [show ({ store with work := w, ports := u } : State).work = w from rfl, hw] at h
    cases h

theorem test_teardown_state : (granted .A 0x02 []).leasesSound ∧
    ({ store with work := .teardown .B, ports := store.ports.set .B { PortUnit.reset with
      state := .resetting, teardown := .inService } }).leasesSound :=
  ⟨test_leases_sound _ _ rfl, test_leases_sound _ _ rfl⟩

theorem test_store_status_body : ([] : List Byte) = [] ∧ ([0] : List Byte) ≠ [] ∧
    ∃ e ∈ store.sectors, e.state ≠ .retired := ⟨rfl, by decide, _, List.mem_cons_self, by decide⟩

/-- A store with no usable sector: the erase counts that STORE_STATUS reports there are left open (log 15). -/
theorem test_no_usable : ¬∃ e ∈ ({ store with sectors := [{ Sector.erased 0 with state := .retired }] } : State).sectors,
    e.state ≠ .retired := by decide

theorem test_directory_sound : store.directorySound := by
  refine ⟨⟨by decide, by decide⟩, trivial, fun p => ?_⟩
  cases p <;> intro m hm <;> cases hm

/-- The key, the values and the leases that the checks compare. -/
theorem test_compared : store.entry 0x0101 = none ∧ (store.entry 0x0100).isSome = true ∧
    (∃ r, parseRights [0x0F, 0x07, 0x07] = some r) ∧ (0x0100 : Key) ≠ 0x0F01 ∧ (0x0100 : Key) ≠ 0x0F02 ∧
    (0x0100 : Key) ≠ 0x0F03 := ⟨by decide, by decide, ⟨_, rfl⟩, by decide, by decide, by decide⟩

/-- Placements: a head with room to the last line and with one line too few, and no head with a free sector. -/
theorem test_placement_head (n : Nat) (h : n = 248 ∨ n = 249) :
    ({ store with sectors := [{ Sector.erased 7 with state := .opened, fill := n }] }).head? = some 0 ∧
    (totalLines [record] ≤ 251 - n ↔ n = 248) := by
  rcases h with rfl | rfl <;> decide

theorem test_placement_no_head : ({ store with sectors := List.replicate 3 (Sector.erased 7) }).head? = none ∧
    ({ store with sectors := List.replicate 3 (Sector.erased 7) }).freePool = [0, 1, 2] ∧
    (⟨.write .A 3, [record], none, 0, .closing 0⟩ : Placement).threshold = 3 := by decide

/-- The last line of a record, and a first line with a second behind it, verified and not. -/
def placing (l : Nat) (data : List Byte) : State :=
  { store with
    work := .place ⟨.write .A 3, [record], some 6, 0, .body 1 0 0 l⟩
    controller := .programming 1 (5 + l) data }

theorem test_placing_last : (2 : Nat) + 1 = record.lines ∧
    readLine (programBytes (placing 2 [0xAA, 0xFF, 0xFF, 0xFF, 0xFF, 0xFF, 0xFF, 0xFF]).flash (lineAddress 1 7)
      [0xAA, 0xFF, 0xFF, 0xFF, 0xFF, 0xFF, 0xFF, 0xFF]) 1 7 = [0xAA, 0xFF, 0xFF, 0xFF, 0xFF, 0xFF, 0xFF, 0xFF] := by
  decide +kernel

/-- Header line 0 of a sector being opened, verified and not, and the markers of a head and of a failed one. -/
theorem test_placing_header :
    readLine (programBytes store.flash (lineAddress 2 0) [0x4A, 0x52, 0, 7, 0, 0, 0, 3]) 2 0
      = [0x4A, 0x52, 0, 7, 0, 0, 0, 3] ∧
    readLine (programBytes store.flash (lineAddress 2 0) (List.replicate 8 0xFF)) 2 0 ≠ [0x4A, 0x52, 0, 7, 0, 0, 0, 3] ∧
    (⟨.write .A 3, [record], none, 0, .line1 2⟩ : Placement).phase = .line1 2 ∧
    (⟨.write .A 3, [record], none, 0, .closing 1⟩ : Placement).phase = .closing 1 ∧
    (⟨.write .A 3, [record], none, 0, .retiring 2⟩ : Placement).phase = .retiring 2 := by decide +kernel

/-- A group's first record ended, with its second to follow. -/
theorem test_placing_group :
    let records := groupRecords [⟨0x0100, none, false, [1]⟩, ⟨0x0101, none, true, []⟩]
    (∃ r, records[0]? = some r ∧ r.lines = 2 + 1) ∧ ∃ r, records[0 + 1]? = some r := by
  exact ⟨⟨_, rfl, rfl⟩, ⟨_, rfl⟩⟩

/-- Free counts at and below the thresholds of a client's first attempt and retry, of a reclaim copy and of a WIPE. -/
theorem test_thresholds : ({ store with sectors := store.sectors.take 5 } : State).freeCount = 3 ∧
    2 ∈ ({ store with sectors := store.sectors.take 5 } : State).freePool ∧
    ({ store with sectors := store.sectors.take 4 } : State).freeCount = 2 ∧
    ({ store with sectors := store.sectors.take 3 } : State).freeCount = 1 ∧
    ({ store with sectors := store.sectors.take 2 } : State).freeCount = 0 ∧
    (⟨.write .A 3, [record], none, 0, .closing 0⟩ : Placement).threshold = 3 ∧
    (⟨.write .A 3, [record], some 5, 1, .closing 0⟩ : Placement).threshold = 2 ∧
    (⟨.copy 0, [record], some 5, 0, .closing 0⟩ : Placement).threshold = 2 ∧
    (⟨.wipe .A 3, [⟨.wipe, false, 0, [], 0, 0⟩], none, 0, .closing 0⟩ : Placement).threshold = 1 := by decide +kernel

theorem test_placing_next : (0 : Nat) + 1 < record.lines ∧
    readLine (programBytes (placing 0 [1, 0, 1, 0, 1, 0, 0, 0]).flash (lineAddress 1 5) [1, 0, 1, 0, 1, 0, 0, 0]) 1 5
      = [1, 0, 1, 0, 1, 0, 0, 0] := by decide +kernel

theorem test_placing_failed :
    readLine (programBytes (placing 0 [1, 0, 1, 0, 1, 0, 0, 0]).flash (lineAddress 1 5)
      (([0xFF, 0, 1, 0, 1, 0, 0, 0] : List Byte).take 8)) 1 5 ≠ [1, 0, 1, 0, 1, 0, 0, 0] := by decide +kernel

/-- Good flash, and a line that is not erased: it does not read back as asked. -/
theorem test_placing_not_erased :
    readLine (programBytes store.flash (lineAddress 0 5) (List.replicate 8 0xFF)) 0 5 ≠ List.replicate 8 0xFF := by
  decide +kernel

/-- The last line of a COMMIT record, and of a reclaim copy, verified. -/
theorem test_committing : readLine (programBytes store.flash (lineAddress 1 9) [0, 0, 0, 0, 0, 7, 1, 2]) 1 9
    = [0, 0, 0, 0, 0, 7, 1, 2] ∧ store.tail? = some 0 := by decide +kernel

/-- The last line of FORMAT's WIPE record, verified: the head is in the table, and FORMAT waits for its first erase. -/
def wiping : State :=
  { store with
    mode := .formatting
    work := .place ⟨.wipe .A 3, [⟨.wipe, false, 0, [], 0, 0⟩], some 6, 0, .body 1 0 0 1⟩
    controller := .programming 1 6 [0, 0, 0, 0, 0, 6, 1, 2] }

theorem test_wiping : (1 : Nat) + 1 = (⟨.wipe, false, 0, [], 0, 0⟩ : RecordSpec).lines ∧ 1 < wiping.sectors.length ∧
    readLine (programBytes wiping.flash (lineAddress 1 6) [0, 0, 0, 0, 0, 6, 1, 2]) 1 6 = [0, 0, 0, 0, 0, 6, 1, 2] ∧
    after (exec (.lineProgramComplete .good) wiping) (fun t => decide (
      t.work = .format ⟨.A, 3, .sweep 0, some 6, 0⟩ ∧ (t.sector 1).fill = (wiping.sector 1).fill + 2)) = some true := by
  decide +kernel

theorem test_retry_counts : (1 : Nat) ≤ 1 ∧ (2 : Nat) < 3 ∧ (3 : Nat) ≤ 3 ∧ 2 ≤ store.freeCount ∧
    ({ store with sectors := store.sectors.take 3 }).freeCount < 2 := by decide +kernel

theorem test_entry_present : store.entry 0x0100 = some ⟨0x0100, 5, 1, 0, 0, false⟩ ∧ store.entry 0x0101 = none ∧
    (⟨0x0100, 5, 1, 0, 0, false⟩ : DirEntry).size ≤ (store.sector 0).live := by decide

/-- Beyond the ten sectors of the store an entry reads as an ERASED one. -/
theorem store_beyond (i : Nat) (h : 10 ≤ i) : store.sector i = Sector.erased 0 :=
  List.getD_eq_default _ _ h

/-- The live bytes of the store are exact, and those of a replaced entry are in its sector. -/
theorem test_live_exact : store.liveExact ∧ ∀ i, ((store.entry 0x0100).elim 0 fun o => if o.sector = i then o.size else 0)
    ≤ (store.sector i).live := by
  have exact' : ∀ i, (store.sector i).live = liveOf store.directory i := fun i => by
    by_cases h : i < 10
    · exact (by decide +kernel : ∀ j, j < 10 → (store.sector j).live = liveOf store.directory j) i h
    · rw [store_beyond i (by omega)]
      simp [store, liveOf, Sector.erased, show ¬(0 = i) by omega]
  refine ⟨⟨exact', by decide +kernel⟩, fun i => ?_⟩
  by_cases h : i < 10
  · exact (by decide +kernel : ∀ j, j < 10 → ((store.entry 0x0100).elim 0 fun o => if o.sector = j then o.size else 0)
      ≤ (store.sector j).live) i h
  · show (if 0 = i then _ else 0) ≤ _
    rw [if_neg (by omega)]; exact Nat.zero_le _

theorem test_values_in_force : (∃ v, parseRights [0x0F, 0x00, 0x00] = some v) ∧ 1 ≤ beNat [0x00, 0x01] ∧
    beNat [0x0F, 0x00] = 0x0F00 ∧ beNat [0x17, 0x70] = 6000 := ⟨⟨_, rfl⟩, by decide, by decide, by decide⟩

theorem test_lease_present : store.leaseOf 0x0100 = some leaseOfA ∧ leaseOfA.waiters = ⟨.B, 9, 0, 101⟩ :: [] ∧
    store.leaseOf 0x0101 = none ∧ store.waiterOf .B = some ⟨.B, 9, 0, 101⟩ ∧ store.waiterOf .A = none := by decide

/-- Leases of A with and without a waiter, and one of B, at A's CLOSE. -/
theorem test_close_releases :
    let s := { granted .A 0x02 [] with leases := [leaseOfA, ⟨0x0101, .A, 5, 6, []⟩, ⟨0x0102, .B, 5, 6, []⟩] }
    s.leaseOf 0x0101 = some ⟨0x0101, .A, 5, 6, []⟩ ∧
    after (exec .sessionClose s) State.leases = some [⟨0x0100, .B, 500, 501, []⟩, ⟨0x0102, .B, 5, 6, []⟩] := by
  decide +kernel

theorem test_no_expiry_due : ∀ e ∈ store.leases, e.expiry ≠ store.leaseClock + 1 ∧
    ∀ w ∈ e.waiters, w.waitExpiry ≠ store.leaseClock + 1 := by decide

theorem test_notice_list : (∀ m ∈ ([⟨0x0101, true, 4, false⟩] : List Notice), m.key ≠ 0x0100) ∧
    (⟨0x0100, false, 0, true⟩ : Notice).key = 0x0100 := by decide

/-- A notice with the lapsed flag, taken by its session. -/
theorem test_take_lapsed : ∃ t, exec .takeNotice { granted .A 0x0D [] with
    sessions := store.sessions.set .A { openSession with notices := [⟨0x0100, false, 0, true⟩] } } = .next t := ⟨_, rfl⟩

theorem test_staged_members : (∀ x ∈ ([⟨0x0101, none, false, [1]⟩] : List Member), x.key ≠ 0x0100) ∧
    (⟨0x0100, none, true, []⟩ : Member).key = 0x0100 := by decide

theorem test_group_records :
    (([⟨0x0100, none, false, [1]⟩, ⟨0x0101, none, true, []⟩] : List Member).map Member.key).Nodup := by decide

def formatting (phase : FormatPhase) (supply : Supply) : State :=
  { store with supply := supply, mode := .formatting, work := .format ⟨.A, 3, phase, none, 0⟩ }

theorem test_formatting : (formatting .paused .guard).supply = .guard ∧ (formatting .paused .normal).supply = .normal ∧
    (formatting (.sweep 0) .normal).work = .format ⟨.A, 3, .sweep 0, none, 0⟩ := by decide

/-- WIPE placements: a head with 2 lines left and with 1, no free sector, and no ring. -/
theorem test_wipe_cases :
    ({ store with sectors := [{ Sector.erased 7 with state := .opened, fill := 249 }] } : State).head? = some 0 ∧
    (∀ h, ({ store with sectors := [{ Sector.erased 7 with state := .opened, fill := 250 }] } : State).head? = some h →
      249 < (({ store with sectors := [{ Sector.erased 7 with state := .opened, fill := 250 }] } : State).sector h).fill) ∧
    ({ store with sectors := [{ Sector.erased 7 with state := .opened, fill := 250 }] } : State).freeCount = 0 ∧
    ({ store with sectors := [] } : State).tail? = none ∧ store.tail? = some 0 := by
  refine ⟨by decide, fun h e => ?_, by decide, by decide, by decide⟩
  obtain rfl : 0 = h := Option.some.inj ((by decide : _ = some 0).symm.trans e)
  decide

/-- FORMAT's erases, their markers, the next sector of the sweep, and the last. -/
theorem test_format_erases : (formatting (.firstErase 0 false) .normal).inReset = false ∧
    0 < (formatting (.sweepErase 0 true) .normal).sectors.length ∧
    ({ formatting (.firstRetire 0) .normal with controller := .programming 0 4 retiredMarker }).controller
      = .programming 0 4 retiredMarker ∧
    ((2 ≤ 2 ∧ (store.sector 2).state ≠ .retired ∧ (store.sector 2).state ≠ .opened) ∧
      ∀ k, k < 2 → ¬(2 ≤ k ∧ (store.sector k).state ≠ .retired ∧ (store.sector k).state ≠ .opened)) ∧
    (∀ j, j < store.sectors.length → ¬(10 ≤ j ∧ (store.sector j).state ≠ .retired ∧ (store.sector j).state ≠ .opened)) ∧
    (∀ j, j < store.sectors.length → 9 < j → (store.sector j).state = .retired ∨ (store.sector j).state = .opened) ∧
    sectorErased (eraseSector (stuckBits []) 9 store.flash) 9 = true ∧ (store.sector 9).eraseCount + 1 < 60000 := by
  decide +kernel

theorem test_format_complete : store.leasesSound ∧
    (store.session (⟨.A, 3, .sweep 0, none, 0⟩ : FormatWork).port).isOpen = true :=
  ⟨test_leases_sound _ _ rfl, rfl⟩

/-- The reclaim steps: a CLOSED tail, its marker in flight and found programmed, a tail to copy and to erase. -/
def reclaiming (st : SectorState) (live : Nat) (unit : ReclaimState) (work : Work) : State :=
  { store with
    work := work
    sectors := store.sectors.set 0 { store.sector 0 with state := st, live := live }
    reclaim := { Reclaim.reset with state := unit } }

/-- A reclaim grant whose step is another: no mark of an OPEN tail, no copy without live bytes, no erase with some. -/
theorem test_other_step : (reclaiming .opened 0 .idle .reclaimGrant).tail? = some 0 ∧
    ((reclaiming .opened 0 .idle .reclaimGrant).sector 0).state ≠ .closed ∧
    ((reclaiming .reclaiming 0 .copying .reclaimGrant).sector 0).live = 0 ∧
    (reclaiming .reclaiming 24 .copying .reclaimGrant).reclaim.state ≠ .erasing ∧
    ((reclaiming .reclaiming 24 .copying .reclaimGrant).sector 0).live ≠ 0 := by decide +kernel

/-- The writes of mount and FORMAT not due, or in GUARD; outcomes of the other kind; an expiry not reached. -/
theorem test_not_due : (settling [1] .guard).supply ≠ .normal ∧
    (settling [] .normal).work = .mount ⟨.waiting, [], [], 0⟩ ∧ (settling [1] .normal).work ≠ .idle ∧
    (∀ e ∈ ({ settling [] .normal with sectors := [] } : State).sectors, e.state ≠ .dirty) ∧
    (formatting (.sweep 2) .guard).supply = .guard ∧ (formatting .paused .guard).supply = .guard ∧
    (∀ i l d, ({ store with controller := .erasing 2 } : State).controller ≠ .programming i l d) ∧
    (∀ i, ({ store with controller := .programming 2 0 [] } : State).controller ≠ .erasing i) ∧
    ({ store with supplyHigh := true } : State).supply = .normal ∧
    store.leaseOf 0x0200 = none ∧ (∀ e, store.leaseOf 0x0100 = some e → e.expiry ≠ store.leaseClock + 1) ∧
    ∀ w, store.waiterOf .B = some w → w.waitExpiry ≠ store.leaseClock + 1 := by
  refine ⟨by decide, rfl, nofun, nofun, rfl, rfl, nofun, nofun, rfl, by decide, ?_, ?_⟩ <;>
    (intro x h; revert x; decide)

/-- The arbiter makes no choice: a granted request, and the two modes with the engine IDLE. -/
theorem test_no_choice : (granted .A 0x03 []).work ≠ .idle ∧ ({ store with mode := .mounting } : State).work = .idle ∧
    ({ store with mode := .formatting } : State).mode = .formatting := ⟨nofun, rfl, rfl⟩

theorem test_reclaim_mark : (reclaiming .closed 24 .idle .reclaimGrant).tail? = some 0 ∧
    readLine (reclaiming .closed 24 .idle .reclaimGrant).flash 0 3 = List.replicate 8 0xFF ∧
    readLine (programBytes (reclaiming .closed 24 .idle .reclaimGrant).flash (lineAddress 0 3) [0, 0, 0, 0, 0, 0, 0, 0]) 0 3
      ≠ List.replicate 8 0xFF := by decide +kernel

theorem test_reclaim_copy : (reclaiming .reclaiming 24 .copying .reclaimGrant).tail? = some 0 ∧
    (reclaiming .reclaiming 24 .copying .reclaimGrant).scanTail 0 3 0 = some 0 ∧
    (reclaiming .reclaiming 24 .copying .reclaimGrant).scanTail 0 3 3 = none ∧
    (reclaiming .reclaiming 24 .copying .reclaimGrant).fitsHead 3 = true ∧
    ({ reclaiming .reclaiming 24 .copying .reclaimGrant with
        sectors := (reclaiming .reclaiming 24 .copying .reclaimGrant).sectors.take 1 }).fitsHead 3 = false := by
  decide +kernel

/-- The scan of a tail: its first record live; a record passed over before a live one; none live from the fill on. -/
theorem test_scan_tail :
    let s := reclaiming .reclaiming 24 .copying .reclaimGrant
    (s.PassesOver 0 0 0 ∧ 0 < (s.sector 0).fill ∧ s.recordLive 0 0) ∧
    (∀ line, s.PassesOver 0 3 line → line < (s.sector 0).fill → ¬s.recordLive 0 line) ∧
    ({ s with directory := [] } : State).PassesOver 0 0 3 := by
  intro s
  have lines : 2 + ((readByte s.flash (2048 * 0 + 40 + 8 * 0 + 4)).toNat + 7) / 8 = 3 := by decide +kernel
  refine ⟨⟨.start, by decide, by decide +kernel, ⟨0x0100, 5, 1, 0, 0, false⟩, by decide +kernel, rfl, rfl⟩, ?_, ?_⟩
  · intro line h hl
    exact absurd (show 3 ≤ line by clear hl; induction h <;> omega) (Nat.not_le.2 hl)
  · have := State.PassesOver.past (s := { s with directory := [] }) (i := 0) (first := 0) 0 .start (by decide)
      (fun h => by obtain ⟨_, e, he, _⟩ := h; cases he)
    rwa [show ({ s with directory := [] } : State).flash = s.flash from rfl, lines] at this

theorem test_reclaim_erase : (reclaiming .reclaiming 0 .copying .reclaimGrant).tail? = some 0 ∧
    ((reclaiming .reclaiming 0 .copying .reclaimGrant).sector 0).live = 0 ∧
    (reclaiming .reclaiming 0 .erasing .reclaimGrant).reclaim.state = .erasing ∧
    0 < (reclaiming .reclaiming 0 .erasing (.tailErase 0 false)).sectors.length ∧
    ({ reclaiming .reclaiming 0 .erasing (.tailRetire 0) with controller := .programming 0 4 retiredMarker }).controller
      = .programming 0 4 retiredMarker := by decide +kernel

/-- A compact target that the end of the step reaches by its limit, and one that it does not. -/
theorem test_compact_target : ({ store with reclaim := { Reclaim.reset with target := some 9, limit := some 1 } } : State).tail?
      = some 0 ∧ (1 : Generation).toNat ≤ (store.sector 0).generationNat ∧
    ¬(3 : Generation).toNat ≤ (store.sector 0).generationNat ∧ ¬9 ≤ store.freeCount ∧ (store.sector 0).state ≠ .opened := by
  decide +kernel

theorem test_flash_operations : ({ store with controller := .programming 1 5 [1, 0, 1, 0, 1, 0, 0, 0] }).flashCanonical ∧
    (LineResult.faulty [0, 0, 0, 0, 0, 0, 0, 0]).wellFormed = true := by
  unfold State.flashCanonical; decide +kernel

theorem test_supply_states : store.supply = .normal ∧ ({ store with supply := .guard } : State).supply = .guard ∧
    (∀ i, store.controller ≠ .erasing i) ∧ ({ store with controller := .erasing 0 } : State).controller = .erasing 0 :=
  ⟨rfl, rfl, (fun _ h => by cases h), rfl⟩

theorem test_read_back : Memory.wf flashOfRecord = true ∧ (∀ k, k < 24 → readByte flashOfRecord (2048 + 40 + k) = 0xFF) ∧
    keyValid record.key = true ∧ record.value.length ≤ 240 ∧ 248 + record.lines ≤ 251 ∧
    (∀ k, k < 16 → readByte flashOfRecord (2048 + k) = 0xFF) := by decide +kernel

/-- The store, idle, meets the hypotheses of the invariants and steps to itself. -/
theorem test_store_steps : step store = .next store := rfl

theorem test_store_invariants : store.flashCanonical ∧ store.directorySound ∧ store.leasesSound ∧
    store.claimsWithinBudget ∧ store.leaseTimesSound ∧ store.creditsSound ∧ store.adminSound ∧ store.valuesInRange ∧
    store.freezeSound ∧ store.controllerSound := by
  refine ⟨?_, test_directory_sound, test_leases_sound _ _ rfl, ?_, ?_, ⟨?_, ?_, ?_, ?_⟩, ⟨rfl, ?_⟩, ?_, ?_, rfl, ?_⟩
  · unfold State.flashCanonical; decide +kernel
  · intro p; cases p <;> decide
  · unfold State.leaseTimesSound State.isAhead; decide
  · intro p; cases p <;> decide
  · intro p; cases p <;> decide
  · intro p; cases p <;> decide
  · intro p tag h; cases h
  · intro pl h; cases h
  · unfold State.valuesInRange; decide
  · intro pl h; cases h
  · intro h; cases h

theorem test_store_limits : store.limitsSound := by
  refine ⟨by decide, fun pl h => (by cases h), fun p => ?_⟩
  cases p <;> exact ⟨by decide, by decide, ⟨by decide, by decide⟩, by decide, by decide, by decide, fun _ => rfl⟩

theorem test_store_head : store.headSound := show store.openSectors.length ≤ 1 by decide

theorem test_store_ring : store.ringSound ∧ store.nextGen ≠ 0 := by
  have generations : store.generationsSound := fun i h => by
    by_cases hi : i < 10
    · exact (by decide +kernel : ∀ j, j < 10 → (store.sector j).generationNat < store.nextGen.toNat) i hi
    · rw [store_beyond i (by omega)] at h; cases h
  exact ⟨⟨fun h => (by cases h), generations, trivial, fun _ => test_live_exact.1, fun _ _ => trivial⟩, by decide⟩

end Sys2Proof.Tests
end

