-- ==== Sys2Proof/Proofs/RequestersAndDemand.lean ====
section
/-! PROOF. The requesters and the demand of reclaim (03_the_journal_engine.md R44, R45, TABLE 29): each test of the arbiter
says what the rule says of the state, and the rows of the demand follow from the tests. -/

namespace Sys2Proof.Machine

variable {s : State}

/-- R44. -/
theorem requester_iff {p : Port} : s.requester p = true ↔ (s.port p).queue ≠ [] ∨ (s.port p).teardown = .pending := by
  simp [State.requester]

theorem anyPending_iff : s.anyPending = true ↔ ∃ e ∈ s.sectors, e.erasePending = true := by
  simp [State.anyPending]

/-- R45: the ring holds a sector other than an OPEN head, or an erase is pending. -/
theorem reclaimHasWork_iff : s.reclaimHasWork = true ↔
    (∃ i ∈ s.ring, (s.sector i).state ≠ .opened) ∨ s.anyPending = true := by
  simp [State.reclaimHasWork]

theorem tailReclaiming_iff : s.tailReclaiming = true ↔ ∃ i, s.tail? = some i ∧ (s.sector i).state = .reclaiming := by
  unfold State.tailReclaiming
  cases s.tail? <;> simp

/-- R45: a target that is clear takes no part in the test. -/
theorem belowTarget_iff : s.belowTarget = true ↔ ∃ n, s.reclaim.target = some n ∧ s.freeCount < n := by
  unfold State.belowTarget
  cases s.reclaim.target <;> simp

theorem demand_of_no_work (idle : ¬s.reclaimHasWork = true) : s.demand = .none :=
  if_pos (Bool.eq_false_iff.mpr idle)

/-- The first row of TABLE 29. -/
theorem demand_of_scarce (work : s.reclaimHasWork = true) (scarce : s.freeCount < 4) : s.demand = .urgent := by
  simp [State.demand, work, scarce]

/-- The middle rows of TABLE 29 share one demand, so that their order does not matter. -/
theorem demand_of_not_scarce (work : s.reclaimHasWork = true) (enough : ¬s.freeCount < 4) :
    s.demand = if s.freeCount < 8 ∨ s.belowTarget = true ∨ s.anyPending = true ∨ s.tailReclaiming = true
      then .background else .none := by
  simp [State.demand, work, enough]

/-- Settles O16: the demand by the rows of TABLE 29, taken in order. -/
theorem requestersAndDemand : Obligations.RequestersAndDemand := by
  refine ⟨fun s p => requester_iff, fun s => ?_⟩
  simp only [← anyPending_iff, ← reclaimHasWork_iff, ← belowTarget_iff, ← tailReclaiming_iff]
  by_cases work : s.reclaimHasWork = true
  · rw [if_neg (not_not_intro work)]
    by_cases scarce : s.freeCount < 4
    · rw [demand_of_scarce work scarce, if_pos scarce]
    · rw [demand_of_not_scarce work scarce, if_neg scarce, ite_or, ite_or]
  · rw [demand_of_no_work work, if_pos work]

end Sys2Proof.Machine
end

