-- ==== Sys2Proof/Proofs/ReadReadMetaAndListReport.lean ====
section
/-! PROOF. READ, READ_META and LIST (04_reading_writing_and_deleting.md R55; 02_keys_versions_and_the_directory.md R29, R30):
the three share steps 1 to 4 of the common check order, and each then reports fields that the state holds. -/

namespace Sys2Proof.Machine

/-! ### The checks of a request that reads -/

section
variable {s : State} {p : Port} {r : Request} {act : Key → State → State}

/-- Steps 3 and 4 with the READ right. -/
theorem settle_mayRead (k : Key) (t : List (Option Rejection)) :
    s.settle p r (verdictOf k (checkNotBlank s :: checkRight s p Rights.read :: t)) act
      = if s.mode = .blank then s.answer p r.tag .blank []
        else if (s.session p).rights.read = false then s.answer p r.tag .denied []
        else s.settle p r (verdictOf k t) act := by
  simp only [checkNotBlank, checkRight, settle_step, decide_eq_false_iff_not, not_not]

/-- Step 5 as the last one. -/
theorem settle_validKey (k : Key) :
    s.settle p r (verdictOf k [checkKey k]) act
      = if keyValid k = false then s.answer p r.tag .badKey [] else act k s := by
  rw [checkKey, settle_step, settle_end]

/-- Steps 1 to 4 of READ, READ_META and LIST, before the reply that the rest of the request comes to. -/
theorem settle_reading {later : Key → List (Option Rejection)} {reply : Byte → Byte → State}
    (served : ∀ hi lo, s.settle p r (verdictOf (keyOfBytes hi lo) (later (keyOfBytes hi lo))) act = reply hi lo) :
    s.settle p r (judge (checkSession s p) (parseKey r.body) fun k =>
        checkNotBlank s :: checkRight s p Rights.read :: later k) act
      = if (s.session p).isOpen = false then s.answer p r.tag .noSession []
        else match r.body with
          | [hi, lo] =>
            if s.mode = .blank then s.answer p r.tag .blank []
            else if (s.session p).rights.read = false then s.answer p r.tag .denied []
            else reply hi lo
          | _ => s.answer p r.tag .malformed [] := by
  rw [checkSession, settle_first, settle_parsed]
  congr 1
  match r.body with
  | [] => rfl
  | [_] => rfl
  | [hi, lo] => exact (settle_mayRead _ _).trans (by rw [served])
  | _ :: _ :: _ :: _ => rfl

end

/-! ### The fields of READ_META -/

section
variable (s : State) (k : Key)

theorem version_toNat : (s.version k).toNat = (s.entry k).elim 0 fun e => e.version.toNat := by
  unfold State.version
  cases s.entry k <;> rfl

theorem keyLength_eq : s.keyLength k = (s.entry k).elim 0 DirEntry.length := by
  unfold State.keyLength
  cases s.entry k <;> rfl

theorem keyGroup_eq : s.keyGroup k = (s.entry k).elim false DirEntry.group := by
  unfold State.keyGroup
  cases s.entry k <;> rfl

/-- R73: what remains of a lease is counted modulo 2^32. -/
theorem leaseRemaining_eq :
    s.leaseRemaining k = (s.leaseOf k).elim 0 fun e => (e.expiry - s.leaseClock).toNat := by
  unfold State.leaseRemaining
  cases s.leaseOf k <;> rfl

theorem portCode_holder (o : Option Lease) :
    portCode (o.map Lease.holder) = o.elim 0 fun e => Port.code e.holder := by
  cases o <;> rfl

end

/-! ### The reply of LIST -/

theorem listFlags_decide (c : Prop) [Decidable c] : listFlags (decide c) = if c then 1 else 0 := by
  by_cases h : c <;> simp [h, listFlags, flagBit]

theorem keyValid_toNat_le {k : Key} (valid : keyValid k = true) : k.toNat ≤ 0x0F03 := by
  simp only [keyValid, userKey, systemKey, Bool.or_eq_true, Bool.and_eq_true, decide_eq_true_eq] at valid
  omega

/-- R23, R30: the directory's own order is the order of the reply. -/
theorem entriesAbove_ascending {s : State} (k : Key) (sound : s.directorySound) :
    (s.entriesAbove k).Pairwise fun x y => x.key.toNat < y.key.toNat := by
  obtain ⟨⟨ascending, -⟩, -⟩ := sound
  exact ascending.filter _

/-- No valid key is above 0x0F03. -/
theorem entriesAbove_last {s : State} {k : Key} (sound : s.directorySound) (last : 0x0F03 ≤ k.toNat) :
    s.entriesAbove k = [] := by
  obtain ⟨⟨-, valid⟩, -⟩ := sound
  refine List.filter_eq_nil_iff.mpr fun e he => ?_
  have bound : e.key.toNat ≤ 0x0F03 := keyValid_toNat_le (valid e he)
  rw [decide_eq_true_eq]
  omega

/-! ### The three requests -/

/-- Settles O21: each request is served under its code, passes the checks it shares with the others or stops at the first that
fails, and then reports the fields given above. -/
theorem readReadMetaAndListReport : Obligations.ReadReadMetaAndListReport := by
  refine ⟨fun n v => ⟨rfl, rfl⟩, keyOfBytes_toNat, by decide,
    ⟨fun s p r ⟨inHand, coded⟩ => ?read, fun s p r ⟨inHand, coded⟩ => ?readMeta⟩, fun s p r ⟨inHand, coded⟩ => ?list,
    fun s k sound => ⟨entriesAbove_ascending k sound, entriesAbove_last sound⟩⟩
  case read =>
    refine (serve_granted inHand coded).trans (congrArg _ (settle_reading fun hi lo => ?_))
    rw [settle_validKey, readAct]
    cases s.entry (keyOfBytes hi lo) <;> rfl
  case readMeta =>
    refine (serve_granted inHand coded).trans (congrArg _ (settle_reading fun hi lo => ?_))
    rw [settle_validKey, readMetaAct, metaBody, version_toNat, keyLength_eq, portCode_holder, leaseRemaining_eq,
      keyGroup_eq, List.contains_eq_mem]
    rfl
  case list =>
    refine (serve_granted inHand coded).trans (congrArg _ (settle_reading fun hi lo => ?_))
    rw [settle_end, listAct, listBody, listFlags_decide, List.length_take]
    rfl

end Sys2Proof.Machine
end

