-- ==== Sys2Proof/Proofs/RenewAndReleaseOwnLease.lean ====
section
/-! PROOF. RENEW and RELEASE (05_claims.md R79 to R81): the two share steps 1 to 5 of the common check order and the test
of who holds the lease; RENEW then restarts the holder's lease, and RELEASE ends it. -/

namespace Sys2Proof.Machine

variable {s : State} {k : Key} {e : Lease} {p : Port}

/-! ### The checks -/

/-- R80: a period above 6,000 is a field value that step 2 forbids. -/
theorem parseRenew_tooLong {hi lo p1 p0 : Byte} (tooLong : 6000 < beNat [p1, p0]) :
    parseRenew [hi, lo, p1, p0] = none :=
  if_neg (Nat.not_le.mpr tooLong)

theorem parseRenew_inRange {hi lo p1 p0 : Byte} (inRange : ¬6000 < beNat [p1, p0]) :
    parseRenew [hi, lo, p1, p0] = some (keyOfBytes hi lo, beNat [p1, p0]) :=
  if_pos (Nat.not_lt.mp inRange)

/-- Steps 1 and 2 of RENEW, before what the later steps come to. -/
theorem settle_renewBody {r : Request} {later : Key × Nat → List (Option Rejection)}
    {act : Key × Nat → State → State}
    {reply : Byte → Byte → Byte → Byte → State}
    (served : ∀ hi lo p1 p0, s.settle p r (verdictOf (keyOfBytes hi lo, beNat [p1, p0])
      (later (keyOfBytes hi lo, beNat [p1, p0]))) act = reply hi lo p1 p0) :
    s.settle p r (judge (checkSession s p) (parseRenew r.body) later) act
      = if (s.session p).isOpen = false then s.answer p r.tag .noSession []
        else match r.body with
          | [hi, lo, p1, p0] =>
            if 6000 < beNat [p1, p0] then s.answer p r.tag .malformed []
            else reply hi lo p1 p0
          | _ => s.answer p r.tag .malformed [] := by
  rw [checkSession, settle_first, settle_parsed]
  congr 1
  match r.body with
  | [] => rfl
  | [_] => rfl
  | [_, _] => rfl
  | [_, _, _] => rfl
  | [hi, lo, p1, p0] =>
    by_cases long : 6000 < beNat [p1, p0]
    · simp only [parseRenew_tooLong long, if_pos long]
    · simp only [parseRenew_inRange long, if_neg long, served]
  | _ :: _ :: _ :: _ :: _ :: _ => rfl

/-- Steps 1 and 2 of a request whose body is a key, before what the later steps come to. -/
theorem settle_keyBody {r : Request} {later : Key → List (Option Rejection)} {act : Key → State → State}
    {reply : Byte → Byte → State}
    (served : ∀ hi lo, s.settle p r (verdictOf (keyOfBytes hi lo) (later (keyOfBytes hi lo))) act = reply hi lo) :
    s.settle p r (judge (checkSession s p) (parseKey r.body) later) act
      = if (s.session p).isOpen = false then s.answer p r.tag .noSession []
        else match r.body with
          | [hi, lo] => reply hi lo
          | _ => s.answer p r.tag .malformed [] := by
  rw [checkSession, settle_first, settle_parsed]
  congr 1
  match r.body with
  | [] => rfl
  | [_] => rfl
  | [hi, lo] => exact served hi lo
  | _ :: _ :: _ :: _ => rfl

/-- Steps 3 to 5 with the CLAIM right, as the last ones, before what the request's work comes to. -/
theorem settle_mayClaim {α : Type} {r : Request} {act : α → State → State} {a : α} {t : State} (done : act a s = t) :
    s.settle p r (verdictOf a [checkNotBlank s, checkRight s p Rights.claim, checkKey k]) act
      = if s.mode = .blank then s.answer p r.tag .blank []
        else if (s.session p).rights.claim = false then s.answer p r.tag .denied []
        else if keyValid k = false then s.answer p r.tag .badKey []
        else t := by
  simp only [checkNotBlank, checkRight, checkKey, settle_step, settle_end, decide_eq_false_iff_not, not_not, done]

/-! ### The end of a lease (R79) -/

theorem endLease_removes (entry : s.leaseOf k = some e) (unwaited : e.waiters = []) :
    s.endLease k = { s with leases := removeKeyed Lease.key k s.leases } := by
  simp only [State.endLease, entry, unwaited]

theorem endLease_passes {w : Waiter} {rest : List Waiter} (entry : s.leaseOf k = some e)
    (oldest : e.waiters = w :: rest) :
    s.endLease k = ({ s with
      leases := insertKeyed Lease.key (e.passTo w rest (s.periodUsed w.period) s.leaseClock) s.leases
      sessions := s.sessions.set w.port { s.session w.port with parked := none } }).handReply w.port
        ⟨w.tag, .ok, claimBody 1 (s.periodUsed w.period)⟩ := by
  simp only [State.endLease, entry, oldest]
  rfl

/-- The port that holds the lease once it has ended is its oldest waiter, or none. -/
theorem holder_endLease (entry : s.leaseOf k = some e) :
    ((s.endLease k).leaseOf k).map Lease.holder = e.waiters.head?.map Waiter.port := by
  have keyed : e.key = k := (find_mem Lease.key entry).2
  cases waiting : e.waiters with
  | nil =>
    rw [endLease_removes entry waiting, State.leaseOf, find_remove_self]
    rfl
  | cons w rest =>
    have found := find_insert_self Lease.key (x := e.passTo w rest (s.periodUsed w.period) s.leaseClock) (l := s.leases)
    rw [endLease_passes entry waiting, State.leaseOf, handReply_leases, ← keyed]
    exact congrArg (Option.map Lease.holder) found

/-! ### The port's own lease (R80, R81) -/

theorem ownLease_absent (absent : s.leaseOf k = none) : s.ownLease p k = none := by
  simp only [State.ownLease, absent]

theorem ownLease_present (entry : s.leaseOf k = some e) :
    s.ownLease p k = if e.holder = p then some e else none := by
  simp only [State.ownLease, entry]

theorem answerNotHeld_eq (tag : Byte) :
    s.answerNotHeld p tag k
      = s.answer p tag .notHeld [(s.leaseOf k).elim 0 fun e => Port.code e.holder] := by
  rw [State.answerNotHeld, portCode_holder]

theorem renewAct_eq (r : Request) (period : Nat) :
    renewAct p r (k, period) s = match s.leaseOf k with
      | none => s.answer p r.tag .notHeld [0]
      | some e =>
        if e.holder = p then
          (s.restartLease e (s.periodUsed period)).answer p r.tag .ok (beBytes 2 (s.periodUsed period))
        else s.answer p r.tag .notHeld [Port.code e.holder] := by
  cases entry : s.leaseOf k with
  | none => simp only [renewAct, ownLease_absent entry, answerNotHeld_eq, entry, Option.elim]
  | some e =>
    by_cases own : e.holder = p
    · simp only [renewAct, ownLease_present entry, if_pos own]
    · simp only [renewAct, ownLease_present entry, if_neg own, answerNotHeld_eq, entry, Option.elim]

/-- The reply of RELEASE names the oldest waiter, who now holds the lease. -/
theorem releaseAct_eq (r : Request) :
    releaseAct p r k s = match s.leaseOf k with
      | none => s.answer p r.tag .notHeld [0]
      | some e =>
        if e.holder = p then
          (s.endLease k).answer p r.tag .ok [e.waiters.head?.elim 0 fun w => Port.code w.port]
        else s.answer p r.tag .notHeld [Port.code e.holder] := by
  cases entry : s.leaseOf k with
  | none => simp only [releaseAct, ownLease_absent entry, answerNotHeld_eq, entry, Option.elim]
  | some e =>
    by_cases own : e.holder = p
    · have named : portCode (e.waiters.head?.map Waiter.port) = e.waiters.head?.elim 0 fun w => Port.code w.port := by
        cases e.waiters.head? <;> rfl
      simp only [releaseAct, ownLease_present entry, if_pos own, holder_endLease entry, named]
    · simp only [releaseAct, ownLease_present entry, if_neg own, answerNotHeld_eq, entry, Option.elim]

/-! ### The two requests and the end of a lease -/

/-- Settles O32: RENEW and RELEASE pass the checks they share or stop at the first that fails, then act on the port's own
lease; a lease that ends is removed or passes to its oldest waiter. -/
theorem renewAndReleaseOwnLease : Obligations.RenewAndReleaseOwnLease := by
  refine ⟨fun s p r ⟨inHand, coded⟩ => ?renew, fun s p r ⟨inHand, coded⟩ => ?release,
    fun s k e entry => ⟨?removed, ?passed⟩⟩
  case renew =>
    refine (serve_granted inHand coded).trans (congrArg _ (settle_renewBody fun hi lo p1 p0 => ?_))
    exact settle_mayClaim (renewAct_eq r (beNat [p1, p0]))
  case release =>
    refine (serve_granted inHand coded).trans (congrArg _ (settle_keyBody fun hi lo => ?_))
    exact settle_mayClaim (releaseAct_eq r)
  case removed => exact endLease_removes entry
  case passed => exact fun w rest oldest => endLease_passes entry oldest

end Sys2Proof.Machine
end

