-- ==== Sys2Proof/Proofs/NoticesArePostedAndTaken.lean ====
section
/-! PROOF. Notices (06_watches_and_change_notices.md R96, R98): a posting meets the first entry of its key or the tail of
the list, and TAKE_NOTICE takes the front entry away, with the place that its lapsed flag holds in the claim count. -/

namespace Sys2Proof.Machine

/-! ### Postings (R96, TABLE 49) -/

section
variable {k : Key} {before after : List Notice} {n : Notice}

/-- A posting to a key with an entry updates that entry where it stands. -/
theorem postNotice_updates (f : Notice → Notice) (absent : ∀ m ∈ before, m.key ≠ k) (keyed : n.key = k) :
    postNotice k f (before ++ n :: after) = before ++ f n :: after := by
  induction before with
  | nil => simp only [List.nil_append, postNotice, if_pos keyed]
  | cons m rest ih =>
    obtain ⟨other, others⟩ := List.forall_mem_cons.mp absent
    simp only [List.cons_append, postNotice, if_neg other, ih others]

/-- A posting to a key with no entry creates one at the tail. -/
theorem postNotice_creates (f : Notice → Notice) (absent : ∀ m ∈ before, m.key ≠ k) :
    postNotice k f before = before ++ [f ⟨k, false, 0, false⟩] := by
  induction before with
  | nil => rfl
  | cons m rest ih =>
    obtain ⟨other, others⟩ := List.forall_mem_cons.mp absent
    simp only [List.cons_append, postNotice, if_neg other, ih others]

/-- An entry counts among the lapsed ones by its own flag (R74). -/
theorem lapsedCount_cons (n : Notice) (l : List Notice) :
    ((n :: l).filter fun m => m.lapsed).length = (l.filter fun m => m.lapsed).length + n.lapsed.toNat := by
  cases flag : n.lapsed <;> simp [flag]

/-- A lapsed posting raises the count of lapsed entries unless the entry it meets has lapsed already. -/
theorem lapsedCount_markLapsed :
    ((before ++ n.markLapsed :: after).filter fun m => m.lapsed).length =
      ((before ++ n :: after).filter fun m => m.lapsed).length + (!n.lapsed).toNat := by
  have raised : n.markLapsed.lapsed.toNat = n.lapsed.toNat + (!n.lapsed).toNat := by
    cases n.lapsed <;> rfl
  simp only [List.filter_append, List.length_append, lapsedCount_cons, raised]
  omega

end

/-! ### TAKE_NOTICE (R98) -/

section
variable {s : State} {p : Port} {r : Request}

/-- Steps 1 and 2 of a request that carries no body, before what the later steps come to. -/
theorem settle_emptyBody {later : Unit → List (Option Rejection)} {act : Unit → State → State} {t : State}
    (served : s.settle p r (verdictOf () (later ())) act = t) :
    s.settle p r (judge (checkSession s p) (parseEmpty r.body) later) act
      = if (s.session p).isOpen = false then s.answer p r.tag .noSession []
        else if r.body ≠ [] then s.answer p r.tag .malformed []
        else t := by
  rw [checkSession, settle_first, settle_parsed]
  congr 1
  match r.body with
  | [] => exact served
  | _ :: _ => rfl

/-- TAKE_NOTICE makes steps 1 to 3, then takes the oldest notice. -/
theorem exec_takeNotice (granted : s.granted p r 0x0D) :
    exec .takeNotice s = .next (
      if (s.session p).isOpen = false then s.answer p r.tag .noSession []
      else if r.body ≠ [] then s.answer p r.tag .malformed []
      else if s.mode = .blank then s.answer p r.tag .blank []
      else takeNoticeAct p r s) := by
  obtain ⟨inHand, coded⟩ := granted
  refine (serve_granted inHand coded).trans (congrArg _ (settle_emptyBody ?_))
  simp only [checkNotBlank, settle_step, settle_end, decide_eq_false_iff_not, not_not]

variable {n : Notice} {rest : List Notice}

theorem takeNoticeAct_oldest (oldest : (s.session p).notices = n :: rest) :
    takeNoticeAct p r s = (s.setSession p { s.session p with notices := rest }).answer p r.tag .ok
      (noticeBody n rest.length) := by
  simp only [takeNoticeAct, oldest]

/-- A reply leaves the claim count alone. -/
@[simp] theorem claimCount_answer (q : Port) (tag : Byte) (st : Status) (body : List Byte) :
    (s.answer p tag st body).claimCount q = s.claimCount q := rfl

/-- The oldest notice gives back the place that its lapsed flag holds in the claim count (R74). -/
theorem claimCount_dropOldest (oldest : (s.session p).notices = n :: rest) :
    (s.setSession p { s.session p with notices := rest }).claimCount p + n.lapsed.toNat = s.claimCount p := by
  simp only [State.claimCount, State.portParked, session_setSession_self, setSession_leases, oldest, lapsedCount_cons]
  omega

end

/-- Settles O35: a posting updates the first entry of its key or creates one at the tail; TAKE_NOTICE is its
checks and then the removal of the front entry, which alone changes the claim count. -/
theorem noticesArePostedAndTaken : Obligations.NoticesArePostedAndTaken := by
  refine ⟨fun k v before after absent => ⟨fun changed lapsed u => ⟨?marked, ?lapsed, ?counted⟩, ?newChanged, ?newLapsed⟩,
    fun s p r granted => ?taken, fun s t p r n rest granted isOpen noBody notBlank oldest ran => ?freed⟩
  case marked => exact postNotice_updates _ absent rfl
  case lapsed => exact postNotice_updates _ absent rfl
  case counted =>
    rw [postNotice_updates Notice.markLapsed absent rfl]
    exact lapsedCount_markLapsed
  case newChanged => exact postNotice_creates _ absent
  case newLapsed => exact postNotice_creates _ absent
  case taken => exact exec_takeNotice granted
  case freed =>
    rw [exec_takeNotice granted, if_neg (by simp [isOpen]), if_neg (not_not.mpr noBody), if_neg notBlank,
      takeNoticeAct_oldest oldest] at ran
    cases ran
    rw [claimCount_answer, session_answer, session_setSession_self]
    exact ⟨claimCount_dropOldest oldest, rfl⟩

end Sys2Proof.Machine
end

