-- ==== Sys2Proof/Proofs/GroupIsStaged.lean ====
section
/-! PROOF. The staging of a group (07_group_commit.md R103 to R106): GROUP_BEGIN, GROUP_PUT and GROUP_ABANDON share steps
1 to 4 with the WRITE right, each then takes its own tests, and a GROUP_PUT meets the first member of its key or the tail
of the list. -/

namespace Sys2Proof.Machine

/-! ### The checks (R53, TABLE 31) -/

section
variable {α : Type} {s : State} {p : Port} {r : Request} {act : α → State → State} {a : α} {k : Key}
  {t : List (Option Rejection)}

/-- A later step that refuses where its condition holds. -/
theorem settle_refusedIf (b : Bool) (st : Status) (body : List Byte) :
    s.settle p r (verdictOf a (failUnless (!b) st body :: t)) act
      = if b = true then s.answer p r.tag st body else s.settle p r (verdictOf a t) act := by
  simp only [settle_step, Bool.not_eq_false']

/-- Steps 3 and 4 with the WRITE right. -/
theorem settle_mayWrite :
    s.settle p r (verdictOf a (checkNotBlank s :: checkRight s p Rights.write :: t)) act
      = if s.mode = .blank then s.answer p r.tag .blank []
        else if (s.session p).rights.write = false then s.answer p r.tag .denied []
        else s.settle p r (verdictOf a t) act := by
  simp only [checkNotBlank, checkRight, settle_step, decide_eq_false_iff_not, not_not]

/-- Step 4 has two tests where a request may not name a system key, and both refuse alike (R33). -/
theorem settle_mayWriteUserKey :
    s.settle p r (verdictOf a (checkNotBlank s :: checkRight s p Rights.write :: checkNotSystem k :: t)) act
      = if s.mode = .blank then s.answer p r.tag .blank []
        else if (s.session p).rights.write = false ∨ systemKey k = true then s.answer p r.tag .denied []
        else s.settle p r (verdictOf a t) act := by
  rw [settle_mayWrite, checkNotSystem, settle_refusedIf, ite_or]

theorem settle_checkGroup :
    s.settle p r (verdictOf a (checkGroup s p :: t)) act
      = if (s.session p).groupOpen = false then s.answer p r.tag .noGroup []
        else s.settle p r (verdictOf a t) act := by
  rw [checkGroup, settle_step]

/-- R36. -/
theorem frozen_iff : s.frozen k = true ↔ userKey k = true ∧ s.freezeLine.toNat ≤ k.toNat := by
  rw [State.frozen, Bool.and_eq_true, decide_eq_true_eq]

theorem settle_checkFrozen :
    s.settle p r (verdictOf a (checkFrozen s k :: t)) act
      = if userKey k = true ∧ s.freezeLine.toNat ≤ k.toNat then s.answer p r.tag .frozen []
        else s.settle p r (verdictOf a t) act := by
  simp only [checkFrozen, settle_refusedIf, frozen_iff]

theorem settle_checkLength (value : List Byte) :
    s.settle p r (verdictOf a (checkLength value :: t)) act
      = if 240 < value.length then s.answer p r.tag .tooLong []
        else s.settle p r (verdictOf a t) act := by
  simp only [checkLength, settle_step, decide_eq_false_iff_not, not_le]

/-- The two staging limits refuse alike (R105). -/
theorem settle_checkStaging (ms : List Member) :
    s.settle p r (verdictOf a (checkStaging ms :: t)) act
      = if 6 < ms.length ∨ 768 < stagedBytes ms then s.answer p r.tag .groupFull []
        else s.settle p r (verdictOf a t) act := by
  simp only [checkStaging, settle_step, Bool.and_eq_false_iff, decide_eq_false_iff_not, not_le]

end

/-! ### The member list (R105) -/

section
variable {m x : Member} {before after : List Member}

/-- A key already a member has that member replaced where it stands. -/
theorem stageMember_replaces (absent : ∀ y ∈ before, y.key ≠ m.key) (keyed : x.key = m.key) :
    stageMember m (before ++ x :: after) = before ++ m :: after := by
  induction before with
  | nil => simp only [List.nil_append, stageMember, if_pos keyed]
  | cons y rest ih =>
    obtain ⟨other, others⟩ := List.forall_mem_cons.mp absent
    simp only [List.cons_append, stageMember, if_neg other, ih others]

/-- Another key has its member appended at the tail. -/
theorem stageMember_appends (absent : ∀ y ∈ before, y.key ≠ m.key) : stageMember m before = before ++ [m] := by
  induction before with
  | nil => rfl
  | cons y rest ih =>
    obtain ⟨other, others⟩ := List.forall_mem_cons.mp absent
    simp only [List.cons_append, stageMember, if_neg other, ih others]

/-- The position of a member counts it and the members before it. -/
theorem memberPosition_after (absent : ∀ y ∈ before, y.key ≠ m.key) :
    memberPosition m.key (before ++ m :: after) = before.length + 1 := by
  induction before with
  | nil => exact if_pos rfl
  | cons y rest ih =>
    obtain ⟨other, others⟩ := List.forall_mem_cons.mp absent
    rw [List.cons_append, memberPosition, if_neg other, ih others, List.length_cons, Nat.add_comm]

end

/-! ### The three requests -/

/-- Settles O36: each request is served under its code, passes its checks or stops at the first that fails, and then opens,
stages or discards the group; staging replaces the first member of the key or appends one. -/
theorem groupIsStaged : Obligations.GroupIsStaged := by
  refine ⟨⟨fun s p r ⟨inHand, coded⟩ => ?begins, fun s p r ⟨inHand, coded⟩ => ?abandons⟩,
    fun s p r ⟨inHand, coded⟩ => ?puts,
    fun m before after absent => ⟨fun x keyed => ⟨?replaced, ?position⟩, ?appended⟩⟩
  case begins =>
    refine (serve_granted inHand coded).trans (congrArg _ (settle_emptyBody ?_))
    rw [settle_mayWrite, settle_refusedIf, settle_end, groupBeginAct]
  case abandons =>
    refine (serve_granted inHand coded).trans (congrArg _ (settle_emptyBody ?_))
    rw [settle_mayWrite, settle_checkGroup, settle_end, groupAbandonAct, State.clearGroup]
  case puts =>
    refine (serve_granted inHand coded).trans (congrArg _ ?_)
    rw [groupPutRequest, groupPutVerdict, checkSession, settle_first, settle_parsed]
    congr 1
    cases parseGroupPut r.body with
    | none => rfl
    | some c =>
      refine settle_mayWriteUserKey.trans ?_
      rw [settle_checkGroup, checkKey, settle_step, settle_checkFrozen, settle_checkLength, settle_checkStaging, settle_end]
      rfl
  case replaced => exact stageMember_replaces absent keyed
  case position => exact memberPosition_after absent
  case appended => exact stageMember_appends absent

end Sys2Proof.Machine
end

