-- ==== Sys2Proof/Proofs/OpenBindsRightsInForce.lean ====
section
/-! PROOF. OPEN (11_status_and_the_frame_protocol.md R171; 12_formats_and_connections.md R176): the bodies that parse and
the enables they give, the work that a parsed body leads to, and the byte in which a rights set is reported. -/

namespace Sys2Proof.Machine

/-! ### A rights set as a byte (R176) -/

/-- A reported rights byte names only the four rights. -/
theorem rights_toByte_lt (r : Rights) : r.toByte.toNat < 16 := by
  have read := Bool.toNat_le r.read
  have write := Bool.toNat_le r.write
  have claim := Bool.toNat_le r.claim
  have admin := Bool.toNat_le r.admin
  rw [Rights.toByte, BitVec.toNat_ofNat]
  omega

/-- The four bits of the byte give the rights back. -/
theorem rights_ofByte_toByte (r : Rights) : Rights.ofByte r.toByte = r := by
  have all : ∀ read write claim admin : Bool,
      Rights.ofByte (Rights.toByte ⟨read, write, claim, admin⟩) = ⟨read, write, claim, admin⟩ := by decide
  exact all r.read r.write r.claim r.admin

/-! ### The body of OPEN (R171) -/

theorem parseOpen_eq_some_iff {body : List Byte} {reply notice : Bool} :
    parseOpen body = some (reply, notice) ↔
      (body = [] ∧ reply = true ∧ notice = true) ∨
        ∃ e : Byte, body = [e] ∧ e.toNat < 4 ∧ reply = e.getLsbD 0 ∧ notice = e.getLsbD 1 := by
  match body with
  | [] => simp [parseOpen, eq_comm]
  | [e] => simp [parseOpen, eq_comm]
  | _ :: _ :: _ => simp [parseOpen]

theorem parseOpen_eq_none_iff {body : List Byte} :
    parseOpen body = none ↔ body ≠ [] ∧ ∀ e : Byte, body = [e] → 4 ≤ e.toNat := by
  match body with
  | [] => simp [parseOpen]
  | [e] => simp [parseOpen]
  | _ :: _ :: _ => simp [parseOpen]

/-! ### The request -/

section
variable {s : State} {p : Port} {r : Request}

/-- Step 2 is the only check of OPEN: a body that parses is acted on whether or not the session is open already. -/
theorem exec_open_parsed {e : Bool × Bool} (granted : s.granted p r 0x01) (parsed : parseOpen r.body = some e) :
    exec .sessionOpen s = .next (openAct p r e s) := by
  obtain ⟨inHand, coded⟩ := granted
  refine (serve_granted inHand coded).trans (congrArg _ ?_)
  rw [openRequest, openVerdict, parsed, judge_later, settle_end]

theorem exec_open_malformed (granted : s.granted p r 0x01) (unparsed : parseOpen r.body = none) :
    exec .sessionOpen s = .next (s.answer p r.tag .malformed []) := by
  obtain ⟨inHand, coded⟩ := granted
  refine (serve_granted inHand coded).trans (congrArg _ ?_)
  rw [openRequest, openVerdict, unparsed, judge_malformed, settle_error]

end

/-- Settles O18: the bits of the byte that reports a rights set give the set back; OPEN acts on the bodies that parse, and
refuses every other one. -/
theorem openBindsRightsInForce : Obligations.OpenBindsRightsInForce := by
  refine ⟨fun r => ⟨rights_toByte_lt r, ?bits⟩,
    fun s p r granted => ⟨fun reply notice body => ?opened, fun nonempty undefined => ?refused⟩⟩
  case bits =>
    obtain ⟨read, write, claim, admin⟩ := Rights.mk.inj (rights_ofByte_toByte r)
    exact ⟨read, write, claim, admin⟩
  case opened =>
    rw [exec_open_parsed granted (parseOpen_eq_some_iff.mpr body)]
    rfl
  case refused => exact exec_open_malformed granted (parseOpen_eq_none_iff.mpr ⟨nonempty, undefined⟩)

end Sys2Proof.Machine
end

