-- ==== Sys2Proof/Proofs/Effects.lean ====
section
/-! PROOF. What a command can do, said once: each command's effect is one of the forms below, those of the ports, the leases and
the sessions apart from those that touch the store. Every invariant is then a case split over these forms. -/

namespace Sys2Proof.Machine

/-- What sets a command apart: it asserts a reset, it is of a port's frame, or neither. -/
inductive CommandKind where
  | reset | frame | other

def commandKind : Instr → CommandKind
  | .powerOnResetHold => .reset
  | .resetPinAssert => .reset
  | .submit _ _ _ => .frame
  | .fetch _ _ => .frame
  | .peek _ _ => .frame
  | .portReset _ _ _ => .frame
  | .unknownKind _ _ _ => .frame
  | .frameTimeout _ _ => .frame
  | .frameReleasedBeforeKind _ => .frame
  | _ => .other

/-- What a command leaves that touches ports, sessions and leases, and of the store nothing but a compact target. -/
inductive ClientEffect (s : State) : CommandKind → State → Prop
  | nothing {kind : CommandKind} : ClientEffect s kind s
  | supplied (v : Supply) (high : Bool) : ClientEffect s .other { s with supply := v, supplyHigh := high }
  | selected (p : Port) : ClientEffect s .frame (s.select p)
  | framed (p : Port) (n : Nat) (result : FrameResult) : ClientEffect s .frame (s.plainFrame p n result)
  | submitted (p : Port) (input : List Byte) (part : Bool) : ClientEffect s .frame (s.submitFrame p input part)
  | fetched (p : Port) (ack : Byte) (n : Nat) (result : FrameResult) : ClientEffect s .frame (s.fetchFrame p ack n result)
  | portReset (p : Port) (input : List Byte) (part : Bool) : ClientEffect s .frame (s.portResetFrame p input part)
  | granted (idle : s.work = .idle) : ClientEffect s .other (s.grant s.choice)
  | answered (p : Port) (r : Request) (d : Nat) (st : Status) (body : List Byte) (inHand : s.work = .request p r) :
      ClientEffect s .other (({ s with draws := d }).answer p r.tag st body)
  | opened (p : Port) (r : Request) (e : Bool × Bool) (inHand : s.work = .request p r) : ClientEffect s .other (openAct p r e s)
  | closed (p : Port) (r : Request) (inHand : s.work = .request p r) (passed : closeVerdict s p r.body = .ok ()) :
      ClientEffect s .other (closeAct p r s)
  | claimed (p : Port) (r : Request) (c : ClaimBody) (inHand : s.work = .request p r)
      (passed : claimVerdict s p r.body = .ok c) : ClientEffect s .other (claimAct p r c s)
  | renewed (p : Port) (r : Request) (c : Key × Nat) (inHand : s.work = .request p r)
      (passed : renewVerdict s p r.body = .ok c) : ClientEffect s .other (renewAct p r c s)
  | released (p : Port) (r : Request) (k : Key) (inHand : s.work = .request p r) : ClientEffect s .other (releaseAct p r k s)
  | watched (p : Port) (r : Request) (k : Key) (inHand : s.work = .request p r)
      (passed : watchVerdict s p r.body = .ok k) : ClientEffect s .other (watchAct p r k s)
  | unwatched (p : Port) (r : Request) (k : Key) (inHand : s.work = .request p r)
      (passed : unwatchVerdict s p r.body = .ok k) : ClientEffect s .other (unwatchAct p r k s)
  | noticeTaken (p : Port) (r : Request) (inHand : s.work = .request p r)
      (passed : takeNoticeVerdict s p r.body = .ok ()) : ClientEffect s .other (takeNoticeAct p r s)
  | groupBegun (p : Port) (r : Request) (inHand : s.work = .request p r)
      (passed : groupBeginVerdict s p r.body = .ok ()) : ClientEffect s .other (groupBeginAct p r s)
  | memberPut (p : Port) (r : Request) (c : Change) (inHand : s.work = .request p r)
      (passed : groupPutVerdict s p r.body = .ok c) : ClientEffect s .other (groupPutAct p r c s)
  | groupCleared (p : Port) (r : Request) (body : List Byte) (inHand : s.work = .request p r) :
      ClientEffect s .other ((s.clearGroup p).answer p r.tag .ok body)
  | compacted (p : Port) (r : Request) (n : Nat) (inHand : s.work = .request p r) : ClientEffect s .other (compactAct p r n s)
  | tornDown (p : Port) (inHand : s.work = .teardown p) : ClientEffect s .other (s.serveTeardown p)
  | advanced (first : List Expiry) : ClientEffect s .other (s.advanceClock first)

/-- What a command leaves that touches the store: resets, mount, the beginnings of changes, the steps of reclaim and of FORMAT,
and the outcomes of flash operations. -/
inductive StoreEffect (s : State) : CommandKind → State → Prop
  | reset (pin hold : Bool) (held : pin = true ∨ hold = true) : StoreEffect s .reset (s.toReset pin hold)
  | stillHeld (pin hold : Bool) (inReset : s.inReset = true) (held : pin = true ∨ hold = true) :
      StoreEffect s .other { s with resetPin := pin, powerHold := hold }
  | mounted (inReset : s.inReset = true) :
      StoreEffect s .other ({ s with resetPin := false, powerHold := false }).mountRead.takeRise
  | closeBegun (m : MountWork) (i : Nat) (rest : List Nat) (inHand : s.work = .mount m) (waiting : m.phase = .waiting)
      (next : m.toClose = i :: rest) :
      StoreEffect s .other (({ s with work := .mount { m with phase := .closing i, toClose := rest } }).program i 2 closedMarker)
  | dirtyBegun (m : MountWork) (i : Nat) (inHand : s.work = .mount m) (waiting : m.phase = .waiting)
      (none : m.toClose = []) (dirty : s.nextDirty = some i) :
      StoreEffect s .other (({ s with work := .mount { m with phase := .erasing i } }).erase i)
  | writeBegun (p : Port) (r : Request) (c : Change) (inHand : s.work = .request p r)
      (passed : writeVerdict s p r.body = .ok c) : StoreEffect s .other (writeAct p r c s)
  | deleteBegun (p : Port) (r : Request) (c : Change) (inHand : s.work = .request p r)
      (passed : deleteVerdict s p r.body = .ok c) : StoreEffect s .other (deleteAct p r c s)
  | commitBegun (p : Port) (r : Request) (inHand : s.work = .request p r)
      (passed : groupCommitVerdict s p r.body = .ok ()) (some : (s.session p).members ≠ []) :
      StoreEffect s .other (s.startPlacement (newPlacement (.commit p r.tag) (groupRecords (s.session p).members)))
  | formatBegun (p : Port) (r : Request) (inHand : s.work = .request p r)
      (passed : formatVerdict s p r.body = .ok ()) : StoreEffect s .other (formatAct p r s)
  | tailMarked (i : Nat) (inHand : s.work = .reclaimGrant) (unit : s.reclaim.state = .idle) (tail : s.tail? = some i)
      (state : (s.sector i).state = .closed) : StoreEffect s .other (s.markTail i)
  | copyBegun (i line : Nat) (inHand : s.work = .reclaimGrant) (unit : s.reclaim.state = .copying)
      (tail : s.tail? = some i) (found : s.scanTail i (s.sector i).fill s.reclaim.cursor = some line) :
      StoreEffect s .other (s.copyFrom i line)
  | tailEraseBegun (i : Nat) (inHand : s.work = .reclaimGrant) (tail : s.tail? = some i) (step : s.eraseStep i = true) :
      StoreEffect s .other (s.eraseTail i)
  | sweepBegun (f : FormatWork) (i : Nat) (inHand : s.work = .format f) (phase : f.phase = .sweep i) :
      StoreEffect s .other (s.startSweep f i)
  | wipePlaced (f : FormatWork) (inHand : s.work = .format f) (phase : f.phase = .paused) : StoreEffect s .other (s.wipePlace f)
  | lineDone (i l : Nat) (data bits : List Byte) (ok : Bool) (inFlight : s.controller = .programming i l data) :
      StoreEffect s .other ((s.lineProgrammed i l bits).lineEnded ok)
  | eraseDone (i d : Nat) (bits : Nat → Byte) (v : Supply) (high : Bool) (o : EraseOutcome)
      (inFlight : s.controller = .erasing i) :
      StoreEffect s .other ((({ s with supply := v, supplyHigh := high, draws := d }).sectorErasedTo i bits).eraseEnded o)

/-! ### The forms, command by command -/

section
variable {s t : State} {P : State → Prop}

/-- A property of the state that stands and of what each granted request comes to is one of every service (R50). -/
theorem serve_effect {code : Byte} {act : Port → Request → State → State} (ran : serve code act s = .next t) (same : P s)
    (served : ∀ p r, s.work = .request p r → P (act p r s)) : P t := by
  obtain ⟨u, hu, rfl | ⟨p, r, inHand, -, rfl⟩⟩ := serve_next code act s <;> cases hu.symm.trans ran
  · exact same
  · exact served p r inHand

/-- A judged request is refused with a reply alone, or passes and does its work (R52). -/
theorem settle_effect {α : Type} {p : Port} {r : Request} {v : Except Rejection α} {act : α → State → State}
    (refused : ∀ st body, P (s.answer p r.tag st body)) (passed : ∀ a, v = .ok a → P (act a s)) : P (s.settle p r v act) := by
  cases v with
  | error rej => exact refused _ _
  | ok a => exact passed a rfl

theorem whenRunning_effect {act : State → State} (ran : whenRunning act s = .next t) (same : P s) (acted : P (act s)) : P t := by
  rcases whenRunning_cases act s with h | h <;> cases h.symm.trans ran
  · exact same
  · exact acted

theorem atMoment_effect {e : FrameEvent} {act : State → Port → State} (ran : atMoment e act s = .next t) (same : P s)
    (selected : P (s.select e.port)) (acted : P (act s e.port)) : P t := by
  refine whenRunning_effect ran same ?_
  cases e.moment
  · exact selected
  · exact acted

end

section
variable {s t : State}

/-- A frame's command selects its port, or lets the frame act. -/
theorem frame_effect {e : FrameEvent} {act : State → Port → State} (ran : atMoment e act s = .next t)
    (acted : ClientEffect s .frame (act s e.port)) : ClientEffect s .frame t :=
  atMoment_effect ran .nothing (.selected _) acted

/-- A request that only reports, or changes ports, sessions and leases. -/
theorem request_effect {α : Type} {code : Byte} {act : Port → Request → State → State}
    {verdict : Port → Request → Except Rejection α} {done : Port → Request → α → State → State}
    (ran : serve code act s = .next t) (act_eq : ∀ p r, act p r s = s.settle p r (verdict p r) (done p r))
    (passed : ∀ p r a, s.work = .request p r → verdict p r = .ok a → ClientEffect s .other (done p r a s)) : ClientEffect s .other t := by
  refine serve_effect ran .nothing fun p r inHand => ?_
  rw [act_eq]
  exact settle_effect (fun st body => .answered p r s.draws st body inHand) fun a ok => passed p r a inHand ok

/-- A request that may begin a change of the store. -/
theorem change_effect {α : Type} {code : Byte} {act : Port → Request → State → State}
    {verdict : Port → Request → Except Rejection α} {done : Port → Request → α → State → State}
    (ran : serve code act s = .next t) (act_eq : ∀ p r, act p r s = s.settle p r (verdict p r) (done p r))
    (passed : ∀ p r a, s.work = .request p r → verdict p r = .ok a →
      ClientEffect s .other (done p r a s) ∨ StoreEffect s .other (done p r a s)) : ClientEffect s .other t ∨ StoreEffect s .other t := by
  refine serve_effect (P := fun u => ClientEffect s .other u ∨ StoreEffect s .other u) ran (.inl .nothing) fun p r inHand => ?_
  rw [act_eq]
  exact settle_effect (P := fun u => ClientEffect s .other u ∨ StoreEffect s .other u)
    (fun st body => .inl (.answered p r s.draws st body inHand)) fun a ok => passed p r a inHand ok

theorem readAct_effect {p : Port} {r : Request} (k : Key) (inHand : s.work = .request p r) :
    ClientEffect s .other (readAct p r k s) := by
  unfold readAct
  split
  · exact .answered p r s.draws _ _ inHand
  · exact .answered p r s.draws _ _ inHand

theorem release_effect {pin hold : Bool} (inReset : s.inReset = true) :
    StoreEffect s .other ({ s with resetPin := pin, powerHold := hold }).leaveReset := by
  unfold State.leaveReset
  split
  · next held => exact .stillHeld pin hold inReset (by simpa [State.inReset] using held)
  · next free =>
    obtain ⟨rfl, rfl⟩ : pin = false ∧ hold = false := by simpa [State.inReset] using free
    exact .mounted inReset

theorem execGuardArrival_effect (ran : execGuardArrival s = .next t) : ClientEffect s .other t ∨ StoreEffect s .other t := by
  unfold execGuardArrival at ran
  split at ran
  · cases ran; exact .inl (.supplied s.supply false)
  · split at ran
    · cases ran; exact .inl .nothing
    · cases ran
      unfold State.abortErase
      split
      · next i inFlight => exact .inr (StoreEffect.eraseDone (s := s) i (s.draws + 1) (Config.erasedBits s.draws) .guard false .aborted inFlight)
      · exact .inl (ClientEffect.supplied (s := s) .guard false)
      · exact .inl (ClientEffect.supplied (s := s) .guard false)

theorem execNormalArrival_effect (ran : execNormalArrival s = .next t) : ClientEffect s .other t := by
  unfold execNormalArrival at ran
  split at ran
  · cases ran; exact .nothing
  · split at ran
    · cases ran; exact .supplied s.supply true
    · cases ran; exact .supplied .normal true

theorem execMountClose_effect (ran : execMountClose s = .next t) : ClientEffect s .other t ∨ StoreEffect s .other t := by
  unfold execMountClose at ran
  split at ran
  · next m inHand =>
    split at ran
    · next due =>
      cases ran
      unfold State.mountCloseNext
      split
      · exact .inl .nothing
      · next i rest next => exact .inr (.closeBegun m i rest inHand due.1 next)
    · cases ran; exact .inl .nothing
  · cases ran; exact .inl .nothing

theorem execDirtyErase_effect (ran : execDirtyErase s = .next t) : ClientEffect s .other t ∨ StoreEffect s .other t := by
  unfold execDirtyErase at ran
  split at ran
  · next m inHand =>
    split at ran
    · next due =>
      cases ran
      unfold State.dirtyEraseNext
      split
      · next i none dirty => exact .inr (.dirtyBegun m i inHand due.1 none dirty)
      · exact .inl .nothing
    · cases ran; exact .inl .nothing
  · cases ran; exact .inl .nothing

theorem execReclaimMark_effect (ran : execReclaimMark s = .next t) : ClientEffect s .other t ∨ StoreEffect s .other t := by
  unfold execReclaimMark at ran
  split at ran
  · next i inHand unit tail =>
    split at ran
    · next state => cases ran; exact .inr (.tailMarked i inHand unit tail state)
    · cases ran; exact .inl .nothing
  · cases ran; exact .inl .nothing

theorem execReclaimCopy_effect (ran : execReclaimCopy s = .next t) : ClientEffect s .other t ∨ StoreEffect s .other t := by
  unfold execReclaimCopy at ran
  split at ran
  · next i inHand unit tail =>
    split at ran
    · cases ran; exact .inl .nothing
    · split at ran
      · next line found => cases ran; exact .inr (.copyBegun i line inHand unit tail found)
      · cases ran
  · cases ran; exact .inl .nothing

theorem execReclaimErase_effect (ran : execReclaimErase s = .next t) : ClientEffect s .other t ∨ StoreEffect s .other t := by
  unfold execReclaimErase at ran
  split at ran
  · next i inHand tail =>
    split at ran
    · next step => cases ran; exact .inr (.tailEraseBegun i inHand tail step)
    · cases ran; exact .inl .nothing
  · cases ran; exact .inl .nothing

theorem execFormatErase_effect (ran : execFormatErase s = .next t) : ClientEffect s .other t ∨ StoreEffect s .other t := by
  unfold execFormatErase at ran
  split at ran
  · next f inHand =>
    split at ran
    · next i phase =>
      split at ran
      · cases ran; exact .inr (.sweepBegun f i inHand phase)
      · cases ran; exact .inl .nothing
    · cases ran; exact .inl .nothing
  · cases ran; exact .inl .nothing

theorem execWipeRePlacement_effect (ran : execWipeRePlacement s = .next t) : ClientEffect s .other t ∨ StoreEffect s .other t := by
  unfold execWipeRePlacement at ran
  split at ran
  · next f inHand =>
    split at ran
    · next phase =>
      split at ran
      · cases ran; exact .inr (.wipePlaced f inHand phase)
      · cases ran; exact .inl .nothing
    · cases ran; exact .inl .nothing
  · cases ran; exact .inl .nothing

theorem execLineProgramComplete_effect {res : LineResult} (ran : execLineProgramComplete res s = .next t) :
    ClientEffect s .other t ∨ StoreEffect s .other t := by
  unfold execLineProgramComplete at ran
  split at ran
  · next i l data inFlight => cases ran; exact .inr (.lineDone i l data _ _ inFlight)
  · cases ran; exact .inl .nothing
  · cases ran; exact .inl .nothing

theorem execEraseComplete_effect {stuck : List (Nat × Byte)} (ran : execEraseComplete stuck s = .next t) :
    ClientEffect s .other t ∨ StoreEffect s .other t := by
  unfold execEraseComplete at ran
  split at ran
  · next i inFlight => cases ran; exact .inr (.eraseDone i s.draws _ s.supply s.supplyHigh _ inFlight)
  · cases ran; exact .inl .nothing
  · cases ran; exact .inl .nothing

theorem execTeardown_effect (ran : execTeardown s = .next t) : ClientEffect s .other t := by
  unfold execTeardown at ran
  split at ran
  · next p inHand => cases ran; exact .tornDown p inHand
  · cases ran; exact .nothing

theorem execArbiterChoice_effect (ran : execArbiterChoice s = .next t) : ClientEffect s .other t := by
  unfold execArbiterChoice at ran
  split at ran
  · next idle =>
    split at ran
    · cases ran; exact .nothing
    · cases ran; exact .granted idle
  · cases ran; exact .nothing

theorem execUnknownRequestCode_effect (ran : execUnknownRequestCode s = .next t) : ClientEffect s .other t := by
  unfold execUnknownRequestCode at ran
  split at ran
  · next p r inHand =>
    split at ran
    · cases ran; exact .nothing
    · cases ran
      exact settle_effect (fun st body => .answered p r s.draws st body inHand) fun _ _ => .nothing
  · cases ran; exact .nothing

theorem reachExpiry_effect (x : Expiry) (others : List Expiry) : ClientEffect s .other (s.reachExpiry x others) := by
  unfold State.reachExpiry
  split
  · exact .advanced _
  · exact .nothing

theorem groupCommitAct_effect {p : Port} {r : Request} (inHand : s.work = .request p r)
    (passed : groupCommitVerdict s p r.body = .ok ()) :
    ClientEffect s .other (groupCommitAct p r s) ∨ StoreEffect s .other (groupCommitAct p r s) := by
  unfold groupCommitAct
  split
  · exact .inl (.groupCleared p r _ inHand)
  · next members => exact .inr (.commitBegun p r inHand passed members)

/-- The effect of a command that acts on a frame. -/
theorem fetch_effect {e : FrameEvent} {input : List Byte} (ran : execFetch e input s = .next t) : ClientEffect s .frame t := by
  refine frame_effect ran ?_
  cases input with
  | nil => exact .framed _ _ _
  | cons ack rest => exact .fetched _ _ _ _

theorem unknownKind_effect {e : FrameEvent} {kind : Byte} {input : List Byte} (ran : execUnknownKind e kind input s = .next t) :
    ClientEffect s .frame t := by
  refine frame_effect ran ?_
  split
  · exact .nothing
  · exact .framed _ _ _

theorem timeoutFrame_effect (p : Port) (bytes : List Byte) : ClientEffect s .frame (s.timeoutFrame p bytes) := by
  unfold State.timeoutFrame
  split
  · split
    · exact .fetched _ _ _ _
    · exact .framed _ _ _
  · exact .framed _ _ _

/-- Every command that answers a next state has one of the effects. -/
theorem exec_effect {c : Instr} (ran : exec c s = .next t) : ClientEffect s (commandKind c) t ∨ StoreEffect s (commandKind c) t := by
  cases c with
  | powerOnResetHold => cases ran; exact .inr (.reset _ _ (.inr rfl))
  | resetPinAssert => cases ran; exact .inr (.reset _ _ (.inl rfl))
  | resetHoldRelease =>
    change (if s.powerHold = true then _ else _) = _ at ran
    split at ran
    · next held => cases ran; exact .inr (release_effect (by simp [State.inReset, held]))
    · cases ran; exact .inl .nothing
  | resetPinRelease =>
    change (if s.resetPin = true then _ else _) = _ at ran
    split at ran
    · next held => cases ran; exact .inr (release_effect (by simp [State.inReset, held]))
    · cases ran; exact .inl .nothing
  | mountClose => exact execMountClose_effect ran
  | dirtyErase => exact execDirtyErase_effect ran
  | submit e input part => exact .inl (frame_effect (act := fun t p => t.submitFrame p input part) ran (.submitted _ _ _))
  | fetch e input => exact .inl (fetch_effect ran)
  | peek e input => exact .inl (frame_effect (act := fun t p => t.plainFrame p (input.length + 1) .ok) ran (.framed _ _ _))
  | portReset e input part => exact .inl (frame_effect (act := fun t p => t.portResetFrame p input part) ran (.portReset _ _ _))
  | unknownKind e kind input => exact .inl (unknownKind_effect ran)
  | frameTimeout e bytes => exact .inl (frame_effect (act := fun t p => t.timeoutFrame p bytes) ran (timeoutFrame_effect _ _))
  | frameReleasedBeforeKind e => exact .inl (frame_effect (act := fun t p => t.plainFrame p 0 .lengthError) ran (.framed _ _ _))
  | arbiterChoice => exact .inl (execArbiterChoice_effect ran)
  | sessionOpen => exact .inl (request_effect ran (fun _ _ => rfl) fun p r e inHand _ => .opened p r e inHand)
  | sessionClose => exact .inl (request_effect ran (fun _ _ => rfl) fun p r _ inHand passed => .closed p r inHand passed)
  | read => exact .inl (request_effect ran (fun _ _ => rfl) fun p r k inHand _ => readAct_effect k inHand)
  | readMeta => exact .inl (request_effect ran (fun _ _ => rfl) fun p r k inHand _ => .answered p r s.draws _ _ inHand)
  | list => exact .inl (request_effect ran (fun _ _ => rfl) fun p r k inHand _ => .answered p r s.draws _ _ inHand)
  | write => exact change_effect ran (fun _ _ => rfl) fun p r c inHand passed => .inr (.writeBegun p r c inHand passed)
  | delete => exact change_effect ran (fun _ _ => rfl) fun p r c inHand passed => .inr (.deleteBegun p r c inHand passed)
  | claim => exact .inl (request_effect ran (fun _ _ => rfl) fun p r c inHand passed => .claimed p r c inHand passed)
  | renew => exact .inl (request_effect ran (fun _ _ => rfl) fun p r c inHand passed => .renewed p r c inHand passed)
  | release => exact .inl (request_effect ran (fun _ _ => rfl) fun p r k inHand _ => .released p r k inHand)
  | watch => exact .inl (request_effect ran (fun _ _ => rfl) fun p r k inHand passed => .watched p r k inHand passed)
  | unwatch => exact .inl (request_effect ran (fun _ _ => rfl) fun p r k inHand passed => .unwatched p r k inHand passed)
  | takeNotice => exact .inl (request_effect ran (fun _ _ => rfl) fun p r _ inHand passed => .noticeTaken p r inHand passed)
  | groupBegin => exact .inl (request_effect ran (fun _ _ => rfl) fun p r _ inHand passed => .groupBegun p r inHand passed)
  | groupPut => exact .inl (request_effect ran (fun _ _ => rfl) fun p r c inHand passed => .memberPut p r c inHand passed)
  | groupCommit => exact change_effect ran (fun _ _ => rfl) fun p r _ inHand passed => groupCommitAct_effect inHand passed
  | groupAbandon => exact .inl (request_effect ran (fun _ _ => rfl) fun p r _ inHand _ => .groupCleared p r _ inHand)
  | storeStatus => exact .inl (request_effect ran (fun _ _ => rfl) fun p r _ inHand _ => .answered p r _ _ _ inHand)
  | compact => exact .inl (request_effect ran (fun _ _ => rfl) fun p r n inHand _ => .compacted p r n inHand)
  | format => exact change_effect ran (fun _ _ => rfl) fun p r _ inHand passed => .inr (.formatBegun p r inHand passed)
  | unknownRequestCode => exact .inl (execUnknownRequestCode_effect ran)
  | teardown => exact .inl (execTeardown_effect ran)
  | reclaimMark => exact execReclaimMark_effect ran
  | reclaimCopy => exact execReclaimCopy_effect ran
  | reclaimErase => exact execReclaimErase_effect ran
  | formatErase => exact execFormatErase_effect ran
  | wipeRePlacement => exact execWipeRePlacement_effect ran
  | lineProgramComplete res => exact execLineProgramComplete_effect ran
  | eraseComplete stuck => exact execEraseComplete_effect ran
  | leaseClockAdvance => exact .inl (whenRunning_effect (act := fun t => t.advanceClock []) ran .nothing (.advanced _))
  | leaseExpiry x => exact .inl (whenRunning_effect ran .nothing (reachExpiry_effect _ _))
  | waitExpiry x => exact .inl (whenRunning_effect ran .nothing (reachExpiry_effect _ _))
  | guardArrival => exact execGuardArrival_effect ran
  | normalArrival => exact .inl (execNormalArrival_effect ran)

end

/-! ### Steps -/

/-- A step idles, or runs the front command on the state with the queue's rest. -/
theorem step_cases {s t : State} (ran : step s = .next t) :
    t = s ∨ ∃ c rest, exec c { s with pending := rest } = .next t := by
  unfold step at ran
  split at ran
  · cases ran; exact .inl rfl
  · next c rest _ => exact .inr ⟨c, rest, ran⟩

/-- What holds whatever the queue is, and is kept by every effect, is kept by every step. -/
theorem step_keeps {P : State → Prop} (queue : ∀ s rest, P s → P { s with pending := rest })
    (client : ∀ s t kind, P s → ClientEffect s kind t → P t) (store : ∀ s t kind, P s → StoreEffect s kind t → P t)
    {s t : State} (holds : P s) (ran : step s = .next t) : P t := by
  obtain rfl | ⟨c, rest, ran⟩ := step_cases ran
  · exact holds
  · rcases exec_effect ran with h | h
    · exact client _ _ _ (queue s rest holds) h
    · exact store _ _ _ (queue s rest holds) h

end Sys2Proof.Machine
end

