-- ==== Sys2Proof/Proofs/Outcomes.lean ====
section
/-! PROOF. What a placement, FORMAT and the end of a flash operation come to, said once, and what a command that touches no store
leaves alone. -/

namespace Sys2Proof.Machine

/-! ### FORMAT and placements -/

/-- FORMAT goes on without placing its WIPE (R156 to R159). -/
inductive FormatGoesOn (f : FormatWork) (s : State) : State → Prop
  | sweeps (j : Nat) : FormatGoesOn f s { s with work := .format { f with phase := .sweep j, failures := 0 } }
  | completes : FormatGoesOn f s (s.formatComplete f)
  | erases (i : Nat) : FormatGoesOn f s
      (({ s.markPending i with work := .format { f with phase := .firstErase i (s.sector i).suspect } }).erase i)
  | pauses : FormatGoesOn f s { s with work := .format { f with phase := .paused } }

/-- A placement with no head to close opens one, or ends (R12, R20, R21). -/
inductive Opening (pl : Placement) (s : State) : State → Prop
  | opens (i : Nat) (free : s.chooseFree = some i) : Opening pl s (s.openSector pl i)
  | ends (mode : StoreMode) (st : Status) : Opening pl s (({ s with mode := mode }).endPlacement pl st)
  | formats (f : FormatWork) {t : State} (wipe : pl.format? = some f) (on : FormatGoesOn f s t) : Opening pl s t

/-- A placement begins (R15, R16). -/
inductive Placing (pl : Placement) (s : State) : State → Prop
  | body (h : Nat) (head : s.head? = some h) : Placing pl s (s.enterBody pl h)
  | closes (h : Nat) (head : s.head? = some h) : Placing pl s (s.closeHead pl h)
  | opening {t : State} (headless : s.head? = none) (opening : Opening pl s t) : Placing pl s t

section
variable {s : State} {pl : Placement} {f : FormatWork}

theorem sweepFrom_goesOn (i : Nat) : FormatGoesOn f s (s.sweepFrom f i) := by
  unfold State.sweepFrom
  split
  · exact .sweeps _
  · exact .completes

theorem wipeErase_goesOn : FormatGoesOn f s (s.wipeErase f) := by
  unfold State.wipeErase
  split
  · exact sweepFrom_goesOn 0
  · split
    · exact .erases _
    · exact .pauses

theorem loseThreshold_opening : Opening pl s (s.loseThreshold pl) := by
  unfold State.loseThreshold
  split
  · next f wipe => exact .formats f wipe wipeErase_goesOn
  · split
    · exact .ends s.mode .retry
    · exact .ends .readOnly .readOnly

theorem tryOpen_opening : Opening pl s (s.tryOpen pl) := by
  unfold State.tryOpen
  split
  · next i free =>
    split
    · exact .opens i free
    · exact loseThreshold_opening
  · exact loseThreshold_opening

theorem startPlacement_placing : Placing pl s (s.startPlacement pl) := by
  unfold State.startPlacement
  split
  · next h head =>
    split
    · exact .body h head
    · exact .closes h head
  · next headless => exact .opening headless tryOpen_opening

theorem wipePlace_cases : Placing f.wipePlacement s (s.wipePlace f) ∨ FormatGoesOn f s (s.wipePlace f) := by
  unfold State.wipePlace
  split
  · exact .inl startPlacement_placing
  · exact .inr wipeErase_goesOn

theorem wipeAgain_cases : Placing f.wipePlacement s (s.wipeAgain f) ∨ FormatGoesOn f s (s.wipeAgain f) := by
  unfold State.wipeAgain
  split
  · exact wipePlace_cases
  · exact .inr .pauses

theorem afterHeaderFailure_opening : Opening pl s (s.afterHeaderFailure pl) := by
  unfold State.afterHeaderFailure
  split
  · exact .ends .readOnly .readOnly
  · exact tryOpen_opening

/-- The placement of FORMAT's WIPE keeps its goal over a failure (R156). -/
theorem format?_eq_some (wipe : pl.format? = some f) :
    pl.goal = .wipe f.port f.tag ∧ f = ⟨f.port, f.tag, .paused, pl.firstSeq, 0⟩ := by
  unfold Placement.format? at wipe
  split at wipe
  · next goal => cases wipe; exact ⟨goal, rfl⟩
  · cases wipe

end

/-! ### The end of a flash operation -/

/-- The last record of a placement has been verified (R60, R62, R112, R122, R156). -/
inductive Finished (pl : Placement) (h base : Nat) (s : State) : State → Prop
  | empty : Finished pl h base s { s with work := .idle }
  | written (r : RecordSpec) (rest : List RecordSpec) (p : Port) (tag : Byte) (records : pl.records = r :: rest)
      (goal : pl.goal = .write p tag) : Finished pl h base s (s.writeDone r (pl.firstSeq.getD 0) h base p tag)
  | deleted (r : RecordSpec) (rest : List RecordSpec) (p : Port) (tag : Byte) (records : pl.records = r :: rest)
      (goal : pl.goal = .delete p tag) : Finished pl h base s (s.deleteDone r (pl.firstSeq.getD 0) p tag)
  | committed (p : Port) (tag : Byte) (goal : pl.goal = .commit p tag) :
      Finished pl h base s (s.commitDone pl (pl.firstSeq.getD 0) h base p tag)
  | copied (r : RecordSpec) (rest : List RecordSpec) (line : Nat) (records : pl.records = r :: rest)
      (goal : pl.goal = .copy line) : Finished pl h base s (s.copyDone r (pl.firstSeq.getD 0) h base line)
  | wiped (p : Port) (tag : Byte) {t : State} (goal : pl.goal = .wipe p tag)
      (on : FormatGoesOn ⟨p, tag, .paused, pl.firstSeq, 0⟩ s t) : Finished pl h base s t

/-- A line program of a placement has ended (R11 to R13, R63, R111). -/
inductive PlacementLine (pl : Placement) (ok : Bool) (s : State) : State → Prop
  | closed (h : Nat) {t : State} (phase : pl.phase = .closing h) (opening : Opening pl (s.markClosed h ok) t) :
      PlacementLine pl ok s t
  | secondLine (i : Nat) (phase : pl.phase = .line0 i) : PlacementLine pl ok s (s.openSecondLine pl i)
  | headerFailed (i : Nat) (phase : pl.phase = .line0 i ∨ pl.phase = .line1 i) : PlacementLine pl ok s (s.retireHeader pl i)
  | opened (i : Nat) (phase : pl.phase = .line1 i) : PlacementLine pl ok s ((s.becomeHead i).enterBody pl i)
  | retired (i : Nat) {t : State} (phase : pl.phase = .retiring i) (opening : Opening pl (s.retireSector i ok) t) :
      PlacementLine pl ok s t
  | nextLine (h base k l : Nat) (phase : pl.phase = .body h base k l) :
      PlacementLine pl ok s (s.programRecordLine pl h base k (l + 1))
  | nextRecord (h base k l n : Nat) (phase : pl.phase = .body h base k l) :
      PlacementLine pl ok s ((s.raiseFill h n).programRecordLine pl h base (k + 1) 0)
  | held (h base k l n : Nat) (phase : pl.phase = .body h base k l) :
      PlacementLine pl ok s ((s.raiseFill h n).endPlacement pl .hold)
  | finished (h base k l n : Nat) {t : State} (phase : pl.phase = .body h base k l)
      (done : Finished pl h base (s.raiseFill h n) t) : PlacementLine pl ok s t
  | failed (h base k l : Nat) (phase : pl.phase = .body h base k l) : PlacementLine pl ok s (s.recordFailed pl h)
  | again (h : Nat) {t : State} (phase : pl.phase = .closingFailed h) (opening : Opening pl (s.markClosed h ok) t) :
      PlacementLine pl ok s t
  | wipeAgain (h : Nat) (f : FormatWork) {t : State} (phase : pl.phase = .closingFailed h) (wipe : pl.format? = some f)
      (on : Placing f.wipePlacement (s.markClosed h ok) t ∨ FormatGoesOn f (s.markClosed h ok) t) : PlacementLine pl ok s t

/-- A line program has ended (R135). -/
inductive LineEnded (ok : Bool) (s : State) : State → Prop
  | unawaited (none : ∀ i, s.work.awaited ≠ .line i) : LineEnded ok s s
  | placed (pl : Placement) {t : State} (inHand : s.work = .place pl) (line : PlacementLine pl ok s t) : LineEnded ok s t
  | marked (i : Nat) (inHand : s.work = .marking i) : LineEnded ok s (s.finishMark i ok)
  | tailRetired (i : Nat) (inHand : s.work = .tailRetire i) : LineEnded ok s (s.tailRetired i ok)
  | mountClosed (m : MountWork) (i : Nat) (inHand : s.work = .mount m) (phase : m.phase = .closing i) :
      LineEnded ok s ((s.markClosed i ok).mountContinue m)
  | mountRetired (m : MountWork) (i : Nat) (inHand : s.work = .mount m) (phase : m.phase = .retiring i) :
      LineEnded ok s ((s.retireSector i ok).mountContinue { m with failures := 0 })
  | formatRetired (f : FormatWork) (i n : Nat) {t : State} (inHand : s.work = .format f)
      (on : FormatGoesOn { f with failures := n } (s.retireSector i ok) t) : LineEnded ok s t

/-- A sector erase has ended (R126 to R128, R152, R156, R157). -/
inductive EraseEnded (s : State) : State → Prop
  | unawaited (none : ∀ i, s.work.awaited ≠ .erase i) : EraseEnded s s
  | tailFreed (i : Nat) (suspect : Bool) (inHand : s.work = .tailErase i suspect) :
      EraseEnded s (((s.countErase i).freeSector i).endTail)
  | tailErased (i : Nat) (suspect : Bool) (inHand : s.work = .tailErase i suspect) :
      EraseEnded s ((s.countErase i).retireTail i)
  | tailFailed (i : Nat) (suspect : Bool) (inHand : s.work = .tailErase i suspect) : EraseEnded s (s.tailFailed i)
  | tailAborted (i : Nat) (suspect : Bool) (inHand : s.work = .tailErase i suspect) : EraseEnded s { s with work := .idle }
  | mountFreed (m : MountWork) (i : Nat) (inHand : s.work = .mount m) (phase : m.phase = .erasing i) :
      EraseEnded s (((s.countErase i).freeSector i).mountContinue { m with failures := 0 })
  | mountErased (m : MountWork) (i : Nat) (inHand : s.work = .mount m) (phase : m.phase = .erasing i) :
      EraseEnded s ((s.countErase i).mountRetire m i)
  | mountRetiring (m : MountWork) (i : Nat) (inHand : s.work = .mount m) (phase : m.phase = .erasing i) :
      EraseEnded s (s.mountRetire m i)
  | mountWaits (m : MountWork) (i n : Nat) (inHand : s.work = .mount m) (phase : m.phase = .erasing i) :
      EraseEnded s { s with work := .mount { m with phase := .waiting, failures := n } }
  | formatErased (f : FormatWork) (i : Nat) (phase : FormatPhase) (inHand : s.work = .format f)
      (awaited : phase.awaited = .line i) : EraseEnded s ((s.countErase i).formatRetire f i phase)
  | formatRetiring (f : FormatWork) (i : Nat) (phase : FormatPhase) (inHand : s.work = .format f)
      (awaited : phase.awaited = .line i) : EraseEnded s (s.formatRetire f i phase)
  | formatFreed (f : FormatWork) (i : Nat) {t : State} (inHand : s.work = .format f)
      (on : Placing { f with phase := .paused, failures := 0 : FormatWork }.wipePlacement ((s.countErase i).freeSector i) t ∨
        FormatGoesOn { f with phase := .paused, failures := 0 } ((s.countErase i).freeSector i) t ∨
        FormatGoesOn f ((s.countErase i).freeSector i) t) : EraseEnded s t
  | formatWaits (f : FormatWork) (phase : FormatPhase) (n : Nat) (inHand : s.work = .format f)
      (quiet : phase.awaited = .nothing) : EraseEnded s { s with work := .format { f with phase := phase, failures := n } }
  | formatAgain (f : FormatWork) {t : State} (inHand : s.work = .format f)
      (on : FormatGoesOn { f with failures := 1 } s t) : EraseEnded s t

section
variable {s : State} {pl : Placement} {ok : Bool}

theorem finishPlacement_finished (h base : Nat) : Finished pl h base s (s.finishPlacement pl h base) := by
  unfold State.finishPlacement
  split
  · exact .empty
  · next r rest records =>
    split
    · next p tag goal => exact .written r rest p tag records goal
    · next p tag goal => exact .deleted r rest p tag records goal
    · next p tag goal => exact .committed p tag goal
    · next line goal => exact .copied r rest line records goal
    · next p tag goal => exact .wiped p tag goal (sweepFrom_goesOn 0)

theorem recordVerified_line {h base k l : Nat} (n : Nat) (phase : pl.phase = .body h base k l) :
    PlacementLine pl ok s ((s.raiseFill h n).recordVerified pl h base k) := by
  unfold State.recordVerified
  split
  · split
    · exact .nextRecord h base k l n phase
    · exact .held h base k l n phase
  · exact .finished h base k l n phase (finishPlacement_finished h base)

theorem afterFailure_line {h : Nat} (phase : pl.phase = .closingFailed h) :
    PlacementLine pl ok s ((s.markClosed h ok).afterFailure pl) := by
  unfold State.afterFailure
  split
  · next f wipe => exact .wipeAgain h f phase wipe wipeAgain_cases
  · refine .again h phase ?_
    split
    · exact .ends .readOnly .readOnly
    · split
      · exact tryOpen_opening
      · exact .ends (s.markClosed h ok).mode .hold

theorem placementLine_line : PlacementLine pl ok s (s.placementLine pl ok) := by
  unfold State.placementLine
  split
  · next h phase => exact .closed h phase tryOpen_opening
  · next i phase =>
    split
    · exact .secondLine i phase
    · exact .headerFailed i (.inl phase)
  · next i phase =>
    split
    · exact .opened i phase
    · exact .headerFailed i (.inr phase)
  · next i phase => exact .retired i phase afterHeaderFailure_opening
  · next h base k l phase =>
    split
    · split
      · exact .nextLine h base k l phase
      · exact recordVerified_line (pl.linesAt k) phase
    · exact .failed h base k l phase
  · next h phase => exact afterFailure_line phase

theorem mountLine_ended {m : MountWork} (inHand : s.work = .mount m) : LineEnded ok s (s.mountLine m ok) := by
  unfold State.mountLine
  split
  · next i phase => exact .mountClosed m i inHand phase
  · next i phase => exact .mountRetired m i inHand phase
  all_goals next phase => exact .unawaited (by simp [inHand, Work.awaited, phase, MountPhase.awaited])

theorem formatLine_ended {f : FormatWork} (inHand : s.work = .format f) : LineEnded ok s (s.formatLine f ok) := by
  unfold State.formatLine
  split
  · next i phase => exact .formatRetired f i 0 inHand wipeErase_goesOn
  · next i phase => exact .formatRetired f i f.failures inHand (sweepFrom_goesOn _)
  all_goals next phase => exact .unawaited (by simp [inHand, Work.awaited, phase, FormatPhase.awaited])

theorem lineEnded_ended : LineEnded ok s (s.lineEnded ok) := by
  unfold State.lineEnded
  split
  · next pl inHand => exact .placed pl inHand placementLine_line
  · next i inHand => exact .marked i inHand
  · next i inHand => exact .tailRetired i inHand
  · next m inHand => exact mountLine_ended inHand
  · next f inHand => exact formatLine_ended inHand
  all_goals next inHand => exact .unawaited (by simp [inHand, Work.awaited])

theorem tailEraseEnded_ended {i : Nat} {suspect : Bool} (inHand : s.work = .tailErase i suspect) (o : EraseOutcome) :
    EraseEnded s (s.tailEraseEnded i suspect o) := by
  cases o with
  | success =>
    unfold State.tailEraseEnded State.tailErased
    dsimp only
    split
    · exact .tailErased i suspect inHand
    · exact .tailFreed i suspect inHand
  | verifyFail => exact .tailFailed i suspect inHand
  | aborted => exact .tailAborted i suspect inHand

theorem mountErased_ended {m : MountWork} {i : Nat} (inHand : s.work = .mount m) (phase : m.phase = .erasing i)
    (o : EraseOutcome) : EraseEnded s (s.mountErased m i o) := by
  unfold State.mountErased
  split
  · split
    · exact .mountErased m i inHand phase
    · exact .mountFreed m i inHand phase
  · split
    · exact .mountWaits m i 1 inHand phase
    · exact .mountRetiring m i inHand phase
  · exact .mountWaits m i m.failures inHand phase

theorem firstErased_ended {f : FormatWork} {i : Nat} {suspect : Bool} (inHand : s.work = .format f) (o : EraseOutcome) :
    EraseEnded s (s.firstErased f i suspect o) := by
  unfold State.firstErased
  split
  · split
    · exact .formatErased f i (.firstRetire i) inHand rfl
    · refine .formatFreed f i inHand ?_
      rcases wipePlace_cases (f := { f with phase := .paused, failures := 0 }) (s := (s.countErase i).freeSector i) with h | h
      · exact .inl h
      · exact .inr (.inl h)
  · split
    · exact .formatAgain f inHand wipeErase_goesOn
    · exact .formatRetiring f i (.firstRetire i) inHand rfl
  · exact .formatWaits f .paused f.failures inHand rfl

theorem sweepErased_ended {f : FormatWork} {i : Nat} {suspect : Bool} (inHand : s.work = .format f) (o : EraseOutcome) :
    EraseEnded s (s.sweepErased f i suspect o) := by
  unfold State.sweepErased
  split
  · split
    · exact .formatErased f i (.sweepRetire i) inHand rfl
    · exact .formatFreed f i inHand (.inr (.inr (sweepFrom_goesOn _)))
  · split
    · exact .formatWaits f (.sweep i) 1 inHand rfl
    · exact .formatRetiring f i (.sweepRetire i) inHand rfl
  · exact .formatWaits f (.sweep i) f.failures inHand rfl

theorem formatErased_ended {f : FormatWork} (inHand : s.work = .format f) (o : EraseOutcome) :
    EraseEnded s (s.formatErased f o) := by
  unfold State.formatErased
  split
  · exact firstErased_ended inHand o
  · exact sweepErased_ended inHand o
  all_goals next phase => exact .unawaited (by simp [inHand, Work.awaited, phase, FormatPhase.awaited])

theorem eraseEnded_ended (o : EraseOutcome) : EraseEnded s (s.eraseEnded o) := by
  unfold State.eraseEnded
  split
  · next i suspect inHand => exact tailEraseEnded_ended inHand o
  · next f inHand => exact formatErased_ended inHand o
  · next m inHand =>
    split
    · next i phase => exact mountErased_ended inHand phase o
    all_goals next phase => exact .unawaited (by simp [inHand, Work.awaited, phase, MountPhase.awaited])
  all_goals next inHand => exact .unawaited (by simp [inHand, Work.awaited])

end

/-! ### What client effects leave alone -/

/-- No flash operation is awaited, and no placement, mount or FORMAT is in hand. -/
def Work.light : Work → Bool
  | .idle | .request _ _ | .teardown _ | .reclaimGrant => true
  | .place _ | .marking _ | .tailErase _ _ | .tailRetire _ | .mount _ | .format _ => false

/-- Going from `s` to `t` touches leases, sessions and ports alone. -/
def TouchesClients (s t : State) : Prop :=
  ∃ leases sessions ports, t = { s with leases := leases, sessions := sessions, ports := ports }

theorem TouchesClients.refl (s : State) : TouchesClients s s := ⟨_, _, _, rfl⟩

theorem TouchesClients.trans {s t u : State} (h : TouchesClients s t) (k : TouchesClients t u) : TouchesClients s u := by
  obtain ⟨_, _, _, rfl⟩ := h
  obtain ⟨_, _, _, rfl⟩ := k
  exact ⟨_, _, _, rfl⟩

theorem touchesClients_foldl {α : Type} {f : State → α → State} (each : ∀ s x, TouchesClients s (f s x)) (l : List α) :
    ∀ s, TouchesClients s (l.foldl f s) := by
  induction l with
  | nil => exact .refl
  | cons x l ih => exact fun s => (each s x).trans (ih _)

theorem endLease_clients (s : State) (k : Key) : TouchesClients s (s.endLease k) := by
  unfold State.endLease
  split
  · exact .refl s
  · split <;> exact ⟨_, _, _, rfl⟩

theorem expireLease_clients (s : State) (k : Key) : TouchesClients s (s.expireLease k) := by
  unfold State.expireLease
  split
  · exact .refl s
  · split
    · exact .trans (t := s.postLapsed _ k) ⟨_, _, _, rfl⟩ (endLease_clients _ k)
    · exact .refl s

theorem expireWait_clients (s : State) (p : Port) : TouchesClients s (s.expireWait p) := by
  unfold State.expireWait
  split
  · exact .refl s
  · split
    · exact ⟨_, _, _, rfl⟩
    · exact .refl s

theorem takeExpiry_clients (s : State) (x : Expiry) : TouchesClients s (s.takeExpiry x) := by
  cases x with
  | lease k => exact expireLease_clients s k
  | wait p => exact expireWait_clients s p

theorem releaseAll_clients (s : State) (p : Port) : TouchesClients s (s.releaseAll p) :=
  touchesClients_foldl endLease_clients _ s

theorem dropParked_clients (s : State) (p : Port) (answered : Bool) : TouchesClients s (s.dropParked p answered) := by
  unfold State.dropParked
  split
  · exact .refl s
  · split <;> exact ⟨_, _, _, rfl⟩

theorem tearDown_clients (s : State) (p : Port) (answered : Bool) : TouchesClients s (s.tearDown p answered) :=
  ((releaseAll_clients s p).trans (dropParked_clients _ p answered)).trans ⟨_, _, _, rfl⟩

/-- What every client effect leaves as it was: the pins, the controller and the store; the work in hand may change while it is
none of the store's. -/
structure StoreKept (s t : State) : Prop where
  resetPin : t.resetPin = s.resetPin
  powerHold : t.powerHold = s.powerHold
  mode : t.mode = s.mode
  controller : t.controller = s.controller
  flash : t.flash = s.flash
  sectors : t.sectors = s.sectors
  nextSeq : t.nextSeq = s.nextSeq
  nextGen : t.nextGen = s.nextGen
  directory : t.directory = s.directory
  rightsInForce : t.rightsInForce = s.rightsInForce
  freezeLine : t.freezeLine = s.freezeLine
  defaultPeriod : t.defaultPeriod = s.defaultPeriod
  work : t.work = s.work ∨ (s.work.light = true ∧ t.work.light = true)

theorem TouchesClients.storeKept {s t : State} (h : TouchesClients s t) : StoreKept s t := by
  obtain ⟨_, _, _, rfl⟩ := h
  exact ⟨rfl, rfl, rfl, rfl, rfl, rfl, rfl, rfl, rfl, rfl, rfl, rfl, .inl rfl⟩

theorem StoreKept.trans {s t u : State} (h : StoreKept s t) (k : StoreKept t u) : StoreKept s u where
  resetPin := k.resetPin.trans h.resetPin
  powerHold := k.powerHold.trans h.powerHold
  mode := k.mode.trans h.mode
  controller := k.controller.trans h.controller
  flash := k.flash.trans h.flash
  sectors := k.sectors.trans h.sectors
  nextSeq := k.nextSeq.trans h.nextSeq
  nextGen := k.nextGen.trans h.nextGen
  directory := k.directory.trans h.directory
  rightsInForce := k.rightsInForce.trans h.rightsInForce
  freezeLine := k.freezeLine.trans h.freezeLine
  defaultPeriod := k.defaultPeriod.trans h.defaultPeriod
  work := by
    rcases h.work with same | ⟨light, lighter⟩ <;> rcases k.work with same' | ⟨light', lighter'⟩
    · exact .inl (same'.trans same)
    · exact .inr ⟨same ▸ light', lighter'⟩
    · exact .inr ⟨light, same' ▸ lighter⟩
    · exact .inr ⟨light, lighter'⟩

section
variable {s : State} {p : Port} {r : Request}

theorem plainFrame_storeKept (n : Nat) (result : FrameResult) : StoreKept s (s.plainFrame p n result) :=
  TouchesClients.storeKept ⟨_, _, _, rfl⟩

/-- A request's work ends with its reply, whatever it did to ports, sessions and leases (R40). -/
theorem answer_storeKept {u : State} (inHand : s.work = .request p r) (clients : TouchesClients s u) (tag : Byte) (st : Status)
    (body : List Byte) : StoreKept s (u.answer p tag st body) := by
  obtain ⟨_, _, _, rfl⟩ := clients
  exact ⟨rfl, rfl, rfl, rfl, rfl, rfl, rfl, rfl, rfl, rfl, rfl, rfl, .inr ⟨by rw [inHand]; rfl, rfl⟩⟩

theorem claimAct_storeKept (c : ClaimBody) (inHand : s.work = .request p r) : StoreKept s (claimAct p r c s) := by
  unfold claimAct
  split
  · split
    · exact answer_storeKept inHand (.refl s) _ _ _
    · exact answer_storeKept inHand ⟨_, _, _, rfl⟩ _ _ _
  · split
    · exact answer_storeKept inHand ⟨_, _, _, rfl⟩ _ _ _
    · unfold State.claimHeld
      split
      · exact answer_storeKept inHand (.refl s) _ _ _
      · split
        · exact answer_storeKept inHand (.refl s) _ _ _
        · split
          · exact answer_storeKept inHand (.refl s) _ _ _
          · exact ⟨rfl, rfl, rfl, rfl, rfl, rfl, rfl, rfl, rfl, rfl, rfl, rfl, .inr ⟨by rw [inHand]; rfl, rfl⟩⟩

theorem grant_storeKept (g : Grant) (idle : s.work = .idle) : StoreKept s (s.grant g) := by
  have light : s.work.light = true := by rw [idle]; rfl
  cases g with
  | none => exact (TouchesClients.refl s).storeKept
  | reclaim => exact ⟨rfl, rfl, rfl, rfl, rfl, rfl, rfl, rfl, rfl, rfl, rfl, rfl, .inr ⟨light, rfl⟩⟩
  | port p =>
    unfold State.grant State.grantPort
    dsimp only
    split
    · exact ⟨rfl, rfl, rfl, rfl, rfl, rfl, rfl, rfl, rfl, rfl, rfl, rfl, .inr ⟨light, rfl⟩⟩
    · split
      · exact (TouchesClients.refl s).storeKept
      · exact ⟨rfl, rfl, rfl, rfl, rfl, rfl, rfl, rfl, rfl, rfl, rfl, rfl, .inr ⟨light, rfl⟩⟩

theorem ClientEffect.storeKept {kind : CommandKind} {t : State} (h : ClientEffect s kind t) : StoreKept s t := by
  cases h with
  | nothing => exact (TouchesClients.refl s).storeKept
  | supplied v high => exact ⟨rfl, rfl, rfl, rfl, rfl, rfl, rfl, rfl, rfl, rfl, rfl, rfl, .inl rfl⟩
  | selected p =>
    unfold State.select
    split
    · exact (TouchesClients.refl s).storeKept
    · exact TouchesClients.storeKept ⟨_, _, _, rfl⟩
  | framed p n result => exact plainFrame_storeKept n result
  | submitted p input part =>
    unfold State.submitFrame
    split
    · exact TouchesClients.storeKept ⟨_, _, _, rfl⟩
    · exact plainFrame_storeKept _ _
  | fetched p ack n result => exact TouchesClients.storeKept ⟨_, _, _, rfl⟩
  | portReset p input part =>
    unfold State.portResetFrame
    split
    · exact TouchesClients.storeKept ⟨_, _, _, rfl⟩
    · exact plainFrame_storeKept _ _
  | granted idle => exact grant_storeKept _ idle
  | answered p r d st body inHand =>
    exact ⟨rfl, rfl, rfl, rfl, rfl, rfl, rfl, rfl, rfl, rfl, rfl, rfl, .inr ⟨by rw [inHand]; rfl, rfl⟩⟩
  | opened p r e inHand => exact answer_storeKept inHand ⟨_, _, _, rfl⟩ _ _ _
  | closed p r inHand passed => exact answer_storeKept inHand (tearDown_clients s p true) _ _ _
  | claimed p r c inHand passed => exact claimAct_storeKept c inHand
  | renewed p r c inHand passed =>
    unfold renewAct
    split
    · exact answer_storeKept inHand ⟨_, _, _, rfl⟩ _ _ _
    · exact answer_storeKept inHand (.refl s) _ _ _
  | released p r k inHand =>
    unfold releaseAct
    split
    · exact answer_storeKept inHand (endLease_clients s k) _ _ _
    · exact answer_storeKept inHand (.refl s) _ _ _
  | watched p r k inHand passed =>
    unfold watchAct
    split
    · exact answer_storeKept inHand (.refl s) _ _ _
    · exact answer_storeKept inHand ⟨_, _, _, rfl⟩ _ _ _
  | unwatched p r k inHand passed => exact answer_storeKept inHand ⟨_, _, _, rfl⟩ _ _ _
  | noticeTaken p r inHand passed =>
    unfold takeNoticeAct
    split
    · exact answer_storeKept inHand (.refl s) _ _ _
    · exact answer_storeKept inHand ⟨_, _, _, rfl⟩ _ _ _
  | groupBegun p r inHand passed => exact answer_storeKept inHand ⟨_, _, _, rfl⟩ _ _ _
  | memberPut p r c inHand passed => exact answer_storeKept inHand ⟨_, _, _, rfl⟩ _ _ _
  | groupCleared p r body inHand => exact answer_storeKept inHand ⟨_, _, _, rfl⟩ _ _ _
  | compacted p r n inHand =>
    exact ⟨rfl, rfl, rfl, rfl, rfl, rfl, rfl, rfl, rfl, rfl, rfl, rfl, .inr ⟨by rw [inHand]; rfl, rfl⟩⟩
  | tornDown p inHand =>
    obtain ⟨leases, sessions, ports, torn⟩ := tearDown_clients s p false
    unfold State.serveTeardown
    rw [torn]
    exact ⟨rfl, rfl, rfl, rfl, rfl, rfl, rfl, rfl, rfl, rfl, rfl, rfl, .inr ⟨by rw [inHand]; rfl, rfl⟩⟩
  | advanced first =>
    exact StoreKept.trans (t := s.tickClock)
      ⟨rfl, rfl, rfl, rfl, rfl, rfl, rfl, rfl, rfl, rfl, rfl, rfl, .inl rfl⟩
      (touchesClients_foldl takeExpiry_clients _ _).storeKept

end

end Sys2Proof.Machine
end

