-- ==== Sys2Proof/Proofs/StepKeepsFlashCanonical.lean ====
section
/-! PROOF. Every step keeps the flash in its canonical form. -/

namespace Sys2Proof.Machine

theorem mountRead_flash (s : State) : s.mountRead.flash = s.flash := by
  unfold State.mountRead
  exact (mountContinue_keeps _ _).flash

/-- What touches the store leaves the flash as it was, but for the one operation that ends (R134 to R136). -/
theorem StoreEffect.flash_wf {kind : CommandKind} {s t : State} (h : StoreEffect s kind t) (canonical : Memory.wf s.flash = true) :
    Memory.wf t.flash = true := by
  cases h with
  | reset pin hold held => exact wf_cutFlash _ _ canonical
  | stillHeld => exact canonical
  | mounted =>
    rw [takeRise_flash, mountRead_flash]
    exact canonical
  | closeBegun => exact canonical
  | dirtyBegun => exact canonical
  | writeBegun => exact (startPlacement_keeps s _).flash ▸ canonical
  | deleteBegun => exact (startPlacement_keeps s _).flash ▸ canonical
  | commitBegun => exact (startPlacement_keeps s _).flash ▸ canonical
  | formatBegun => exact (wipePlace_keeps { s with mode := .formatting } _).flash ▸ canonical
  | tailMarked i => exact (markTail_keeps s i).flash ▸ canonical
  | copyBegun i line => exact (copyFrom_keeps s i line).flash ▸ canonical
  | tailEraseBegun i => exact (eraseTail_keeps s i).flash ▸ canonical
  | sweepBegun f i => exact (startSweep_keeps s f i).flash ▸ canonical
  | wipePlaced f => exact (wipePlace_keeps s f).flash ▸ canonical
  | lineDone i l data bits ok => exact (lineEnded_keeps (s.lineProgrammed i l bits) ok).flash ▸ wf_programBytes bits _ canonical
  | eraseDone i d bits v high o =>
    rw [(eraseEnded_keeps _ o).flash]
    exact wf_eraseSector bits i canonical

/-- Settles O49: of all effects only the end of a flash operation, and a reset that cuts one off, write to the flash. -/
theorem stepKeepsFlashCanonical : Obligations.StepKeepsFlashCanonical := by
  intro s t canonical ran
  exact step_keeps (P := State.flashCanonical) (fun _ _ h => h)
    (fun s t _ h effect => by rw [State.flashCanonical, effect.storeKept.flash]; exact h)
    (fun s t _ h effect => effect.flash_wf h) canonical ran

end Sys2Proof.Machine
end

