-- ==== Sys2Proof/Proofs/StepKeepsControllerWithEngine.lean ====
section
/-! PROOF. Every step keeps the flash controller on the one operation that the engine waits for. -/

namespace Sys2Proof.Machine

/-- The controller runs what the work in hand waits for. -/
def State.settled (s : State) : Prop := s.controller.awaited = s.work.awaited

theorem controller_idle {s : State} (quiet : s.controller.awaited = .nothing) : s.controller = .idle := by
  cases h : s.controller with
  | idle => rfl
  | programming i l data => rw [h] at quiet; cases quiet
  | erasing i => rw [h] at quiet; cases quiet

section
variable {s t : State} {pl : Placement} {f : FormatWork} {ok : Bool}

/-- Work that waits for nothing, beside a controller that is idle. -/
theorem settled_quiet (idle : s.controller = .idle) (quiet : s.work.awaited = .nothing) : s.settled := by
  rw [State.settled, idle, quiet]; rfl

theorem answer_settled (idle : s.controller = .idle) (p : Port) (tag : Byte) (st : Status) (body : List Byte) :
    (s.answer p tag st body).settled :=
  settled_quiet idle rfl

theorem applyMembers_touches (h : Nat) (rs : List RecordSpec) : ∀ (s : State) (q : SeqNo) (line : Nat),
    ∃ directory sectors, s.applyMembers h rs q line = { s with directory := directory, sectors := sectors } := by
  induction rs with
  | nil => exact fun s q line => ⟨_, _, rfl⟩
  | cons r rs ih =>
    intro s q line
    obtain ⟨directory, sectors, later⟩ := ih (s.applyMember r q h line) (q + 1) (line + r.lines)
    refine ⟨directory, sectors, later.trans ?_⟩
    unfold State.applyMember
    split <;> rfl

theorem postMembers_touches (p : Port) (rs : List RecordSpec) : ∀ (s : State) (q : SeqNo),
    ∃ sessions, s.postMembers p rs q = { s with sessions := sessions } := by
  induction rs with
  | nil => exact fun s q => ⟨_, rfl⟩
  | cons r rs ih =>
    intro s q
    unfold State.postMembers
    obtain ⟨sessions, later⟩ := ih (match r.kind with
      | .value => s.postChanged p r.key q
      | .tombstone => s.postChanged p r.key 0
      | .commit => s
      | .wipe => s) (q + 1)
    refine ⟨sessions, later.trans ?_⟩
    split <;> rfl

theorem endPlacement_settled (idle : s.controller = .idle) (st : Status) : (s.endPlacement pl st).settled := by
  unfold State.endPlacement
  split <;> exact settled_quiet idle rfl

theorem light_awaited {w : Work} (light : w.light = true) : w.awaited = .nothing := by
  cases w with
  | idle | request | teardown | reclaimGrant => rfl
  | place | marking | tailErase | tailRetire | mount | format => cases light

theorem TouchesClients.controller (h : TouchesClients s t) : t.controller = s.controller := h.storeKept.controller

theorem formatComplete_settled (idle : s.controller = .idle) : (s.formatComplete f).settled :=
  settled_quiet ((releaseAll_clients s.formatStore f.port).controller.trans idle) rfl

theorem FormatGoesOn.settled (h : FormatGoesOn f s t) (idle : s.controller = .idle) : t.settled := by
  cases h with
  | sweeps j => exact settled_quiet idle rfl
  | completes => exact formatComplete_settled idle
  | erases i => rfl
  | pauses => exact settled_quiet idle rfl

theorem Opening.settled (h : Opening pl s t) (idle : s.controller = .idle) : t.settled := by
  cases h with
  | opens i free => rfl
  | ends mode st => exact endPlacement_settled (by exact idle) st
  | formats f wipe on => exact on.settled idle

theorem Placing.settled (h : Placing pl s t) (idle : s.controller = .idle) : t.settled := by
  cases h with
  | body h head => rfl
  | closes h head => rfl
  | opening headless opening => exact opening.settled idle

theorem commitDone_settled (idle : s.controller = .idle) (q : SeqNo) (h base : Nat) (p : Port) (tag : Byte) :
    (s.commitDone pl q h base p tag).settled := by
  obtain ⟨directory, sectors, applied⟩ := applyMembers_touches h pl.records s q base
  unfold State.commitDone
  rw [applied]
  obtain ⟨sessions, posted⟩ := postMembers_touches p pl.records
    (({ s with directory := directory, sectors := sectors }).clearGroup p) q
  rw [posted]
  exact settled_quiet idle rfl

theorem copyDone_settled (idle : s.controller = .idle) (r : RecordSpec) (q : SeqNo) (h base line : Nat) :
    (s.copyDone r q h base line).settled := by
  unfold State.copyDone
  split
  · exact settled_quiet idle rfl
  · dsimp only
    split <;> exact settled_quiet idle rfl

theorem Finished.settled {h base : Nat} (done : Finished pl h base s t) (idle : s.controller = .idle) : t.settled := by
  cases done with
  | empty => exact settled_quiet idle rfl
  | written => exact settled_quiet idle rfl
  | deleted => exact settled_quiet idle rfl
  | committed p tag goal => exact commitDone_settled idle _ h base p tag
  | copied r rest line => exact copyDone_settled idle r _ h base line
  | wiped p tag goal on => exact on.settled idle

theorem PlacementLine.settled (line : PlacementLine pl ok s t) (idle : s.controller = .idle) : t.settled := by
  cases line with
  | closed h phase opening => exact opening.settled idle
  | secondLine | headerFailed | opened | nextLine | nextRecord | failed => rfl
  | retired i phase opening => exact opening.settled idle
  | held h base k l n phase => exact endPlacement_settled (by exact idle) .hold
  | finished h base k l n phase done => exact done.settled idle
  | again h phase opening => exact opening.settled idle
  | wipeAgain h f phase wipe on => exact on.elim (·.settled idle) (·.settled idle)

theorem wipePlace_settled (idle : s.controller = .idle) : (s.wipePlace f).settled :=
  wipePlace_cases.elim (·.settled idle) (·.settled idle)

theorem markTail_settled (idle : s.controller = .idle) (i : Nat) : (s.markTail i).settled := by
  unfold State.markTail
  split
  · rfl
  · exact settled_quiet idle rfl

theorem copyFrom_settled (idle : s.controller = .idle) (i line : Nat) : (s.copyFrom i line).settled := by
  unfold State.copyFrom
  split
  · exact startPlacement_placing.settled idle
  · exact endPlacement_settled (by exact idle) .readOnly

theorem eraseTail_settled (idle : s.controller = .idle) (i : Nat) : (s.eraseTail i).settled := by
  unfold State.eraseTail
  split
  · rfl
  · exact settled_quiet idle rfl

theorem mountContinue_settled (idle : s.controller = .idle) (m : MountWork) : (s.mountContinue m).settled := by
  unfold State.mountContinue
  split <;> exact settled_quiet idle rfl

theorem mountRead_settled (idle : s.controller = .idle) : s.mountRead.settled := by
  unfold State.mountRead
  exact mountContinue_settled (by exact idle) _

theorem LineEnded.settled (h : LineEnded ok s t) (idle : s.controller = .idle) {i : Nat} (awaited : s.work.awaited = .line i) :
    t.settled := by
  cases h with
  | unawaited none => exact absurd awaited (none i)
  | placed pl inHand line => exact line.settled idle
  | marked | tailRetired => exact settled_quiet idle rfl
  | mountClosed m i | mountRetired m i => exact mountContinue_settled (by exact idle) _
  | formatRetired f i n inHand on => exact on.settled idle

theorem tailFailed_settled (idle : s.controller = .idle) (i : Nat) : (s.tailFailed i).settled := by
  unfold State.tailFailed
  split
  · exact settled_quiet idle rfl
  · rfl

theorem EraseEnded.settled (h : EraseEnded s t) (idle : s.controller = .idle) {i : Nat}
    (awaited : s.work.awaited = .erase i) : t.settled := by
  cases h with
  | unawaited none => exact absurd awaited (none i)
  | tailFreed | tailAborted => exact settled_quiet idle rfl
  | tailErased => rfl
  | tailFailed i suspect inHand => exact tailFailed_settled idle i
  | mountFreed m i => exact mountContinue_settled (by exact idle) _
  | mountErased | mountRetiring => rfl
  | mountWaits => exact settled_quiet idle rfl
  | formatErased f i phase inHand awaited => exact awaited.symm
  | formatRetiring f i phase inHand awaited => exact awaited.symm
  | formatFreed f i inHand on => exact on.elim (·.settled idle) fun on => on.elim (·.settled idle) (·.settled idle)
  | formatWaits f phase n inHand quiet => exact settled_quiet idle quiet
  | formatAgain f inHand on => exact on.settled idle

/-- With no operation in flight the controller is idle (R134). -/
theorem State.controllerSound.idle (sound : s.controllerSound) (quiet : s.work.awaited = .nothing) : s.controller = .idle :=
  controller_idle (sound.1.trans quiet)

/-- Work that has begun shows that the part is not in reset. -/
theorem State.controllerSound.running (sound : s.controllerSound) (begun : s.work ≠ .mount .held) : s.inReset = false :=
  Bool.eq_false_iff.mpr fun reset => begun (sound.2 reset)

theorem controllerSound_of_settled (settled : t.settled) (running : t.inReset = false) : t.controllerSound :=
  ⟨settled, fun reset => by rw [running] at reset; cases reset⟩

theorem Keeps.inReset (h : Keeps s t) : t.inReset = s.inReset := by
  rw [State.inReset, State.inReset, h.resetPin, h.powerHold]

theorem mountRead_inReset : s.mountRead.inReset = s.inReset := by
  unfold State.mountRead
  exact (mountContinue_keeps _ _).inReset

theorem StoreKept.controllerSound (kept : StoreKept s t) (sound : s.controllerSound) : t.controllerSound := by
  have pins : t.inReset = s.inReset := by rw [State.inReset, State.inReset, kept.resetPin, kept.powerHold]
  obtain ⟨settled, held⟩ := sound
  rw [State.controllerSound, kept.controller, pins]
  rcases kept.work with same | ⟨light, lighter⟩
  · rw [same]; exact ⟨settled, held⟩
  · refine ⟨settled.trans ?_, fun reset => ?_⟩
    · rw [light_awaited light, light_awaited lighter]
    · rw [held reset] at light; cases light

end

/-- What a command that touches the store begins, it begins in agreement with the controller, and out of reset. -/
theorem StoreEffect.controllerSound {kind : CommandKind} {s t : State} (h : StoreEffect s kind t)
    (sound : s.controllerSound) : t.controllerSound := by
  cases h with
  | reset pin hold held => exact ⟨rfl, fun _ => rfl⟩
  | stillHeld pin hold inReset held => exact ⟨sound.1, fun _ => sound.2 inReset⟩
  | mounted inReset =>
    have idle : s.controller = .idle := sound.idle (by rw [sound.2 inReset]; rfl)
    have released : ({ s with resetPin := false, powerHold := false } : State).inReset = false := rfl
    refine controllerSound_of_settled ?_ ?_
    · rw [State.settled, takeRise_controller, takeRise_work]
      exact mountRead_settled idle
    · rw [State.inReset, takeRise_resetPin, takeRise_powerHold]
      exact mountRead_inReset.trans released
  | closeBegun m i rest inHand waiting =>
    exact controllerSound_of_settled rfl (sound.running (by rw [inHand]; rintro ⟨⟩; cases waiting))
  | dirtyBegun m i inHand waiting =>
    exact controllerSound_of_settled rfl (sound.running (by rw [inHand]; rintro ⟨⟩; cases waiting))
  | writeBegun p r c inHand | deleteBegun p r c inHand | commitBegun p r inHand =>
    exact controllerSound_of_settled (startPlacement_placing.settled (sound.idle (by rw [inHand]; rfl)))
      ((startPlacement_keeps s _).inReset.trans (sound.running (by rw [inHand]; rintro ⟨⟩)))
  | formatBegun p r inHand =>
    exact controllerSound_of_settled (wipePlace_settled (sound.idle (by rw [inHand]; rfl)))
      ((wipePlace_keeps { s with mode := .formatting } _).inReset.trans (sound.running (by rw [inHand]; rintro ⟨⟩)))
  | tailMarked i inHand =>
    exact controllerSound_of_settled (markTail_settled (sound.idle (by rw [inHand]; rfl)) i)
      ((markTail_keeps s i).inReset.trans (sound.running (by rw [inHand]; rintro ⟨⟩)))
  | copyBegun i line inHand =>
    exact controllerSound_of_settled (copyFrom_settled (sound.idle (by rw [inHand]; rfl)) i line)
      ((copyFrom_keeps s i line).inReset.trans (sound.running (by rw [inHand]; rintro ⟨⟩)))
  | tailEraseBegun i inHand =>
    exact controllerSound_of_settled (eraseTail_settled (sound.idle (by rw [inHand]; rfl)) i)
      ((eraseTail_keeps s i).inReset.trans (sound.running (by rw [inHand]; rintro ⟨⟩)))
  | sweepBegun f i inHand phase =>
    exact controllerSound_of_settled rfl
      ((startSweep_keeps s f i).inReset.trans (sound.running (by rw [inHand]; rintro ⟨⟩)))
  | wipePlaced f inHand phase =>
    exact controllerSound_of_settled (wipePlace_settled (sound.idle (by rw [inHand, Work.awaited, phase]; rfl)))
      ((wipePlace_keeps s f).inReset.trans (sound.running (by rw [inHand]; rintro ⟨⟩)))
  | lineDone i l data bits ok inFlight =>
    have awaited : s.work.awaited = .line i := by rw [← sound.1, inFlight]; rfl
    exact controllerSound_of_settled (lineEnded_ended.settled rfl awaited)
      ((lineEnded_keeps (s.lineProgrammed i l bits) ok).inReset.trans
        (sound.running fun held => by rw [held] at awaited; cases awaited))
  | eraseDone i d bits v high o inFlight =>
    have awaited : s.work.awaited = .erase i := by rw [← sound.1, inFlight]; rfl
    exact controllerSound_of_settled ((eraseEnded_ended o).settled rfl awaited)
      ((eraseEnded_keeps _ o).inReset.trans
        (sound.running fun held => by rw [held] at awaited; cases awaited))

/-- Settles O59: each effect leaves the controller idle beside work that waits for nothing, or begins one operation and the wait for
it together. -/
theorem stepKeepsControllerWithEngine : Obligations.StepKeepsControllerWithEngine := by
  intro s t sound ran
  exact step_keeps (P := State.controllerSound) (fun _ _ h => h) (fun _ _ _ h effect => effect.storeKept.controllerSound h)
    (fun _ _ _ h effect => effect.controllerSound h) sound ran

end Sys2Proof.Machine
end

