-- ==== Sys2Proof/Proofs/Contents.lean ====
section
/-! PROOF. What each effect on the store makes of the directory and of the values in force, and what placement or mount it leaves in
hand, said once for the invariants that speak of them. -/

namespace Sys2Proof.Machine

/-- The directory and the three values in force stand. -/
structure ContentSame (s t : State) : Prop where
  directory : t.directory = s.directory
  rights : t.rightsInForce = s.rightsInForce
  freezeLine : t.freezeLine = s.freezeLine
  period : t.defaultPeriod = s.defaultPeriod

theorem ContentSame.trans {s t u : State} (h : ContentSame s t) (k : ContentSame t u) : ContentSame s u :=
  ⟨k.directory.trans h.directory, k.rights.trans h.rights, k.freezeLine.trans h.freezeLine, k.period.trans h.period⟩

/-- The store is empty, with the defaults in force, and nothing in hand will enter the directory. -/
structure State.emptied (t : State) : Prop where
  directory : t.directory = []
  rights : t.rightsInForce = defaultRights
  freezeLine : t.freezeLine = 0x0F00
  period : t.defaultPeriod = 500
  unplaced : ∀ pl, t.work ≠ .place pl
  unmounted : ∀ m, t.work = .mount m → m.working = []

/-- A placement in this work has this goal and these records, and no mount is in hand. -/
def Work.places (w : Work) (goal : Goal) (records : List RecordSpec) : Prop :=
  (∀ pl, w = .place pl → pl.goal = goal ∧ pl.records = records) ∧ ∀ m, w ≠ .mount m

/-- A placement of FORMAT's WIPE (R156), the only one that does not stem from a request or a reclaim grant. -/
def Placement.ofWipe (pl : Placement) : Prop := ∃ p tag, pl.goal = .wipe p tag ∧ pl.records = [wipeRecord]

/-- A placement or a mount in this work is the one that was in hand before, or FORMAT's WIPE. -/
def Work.carriedFrom (w before : Work) : Prop :=
  (∀ pl, w = .place pl → (∃ pl', before = .place pl' ∧ pl.goal = pl'.goal ∧ pl.records = pl'.records) ∨ pl.ofWipe) ∧
    ∀ m, w = .mount m → ∃ m', before = .mount m' ∧ m.working = m'.working

/-- A placement that a grant begins, and what has passed before it (R57, R61, R107, R121, R155). -/
inductive Begun (s : State) : Goal → List RecordSpec → Prop
  | write (p : Port) (r : Request) (c : Change) (passed : writeVerdict s p r.body = .ok c) :
      Begun s (.write p r.tag) [writeRecord c]
  | delete (p : Port) (r : Request) (c : Change) (passed : deleteVerdict s p r.body = .ok c) :
      Begun s (.delete p r.tag) [tombstoneRecord c.key]
  | commit (p : Port) (r : Request) (passed : groupCommitVerdict s p r.body = .ok ()) (some : (s.session p).members ≠ []) :
      Begun s (.commit p r.tag) (groupRecords (s.session p).members)
  | copy (i line : Nat) (found : s.scanTail i (s.sector i).fill s.reclaim.cursor = some line) :
      Begun s (.copy line) [s.copyRecord i line]
  | wipe (p : Port) (tag : Byte) : Begun s (.wipe p tag) [wipeRecord]

/-- What the replay of the whole ring gives: the sector table, what is carried, the sectors to be closed (R148 to R151). -/
@[irreducible] def State.replayed (s : State) : List Sector × Replay × List Nat :=
  replayRing s.flash (ringOf (builtTable s.flash s.draws)) (builtTable s.flash s.draws) ⟨[], [], 0, 0⟩

/-- The working directory that mount reads (R148, R150). -/
def State.replayedDirectory (s : State) : List DirEntry := s.replayed.2.1.directory

/-- The state once mount has read the flash, before it settles (R147, R148). -/
def State.readStore (s : State) : State :=
  { s with
    sectors := setLive s.replayed.1 s.replayedDirectory
    nextSeq := mountedNextSeq s.flash s.replayed.2.1.afterHighest
    nextGen := BitVec.ofNat 32 (highestField s.flash 4 4 + 1)
    damaged := s.replayed.2.1.damaged
    mode := .mounting
    draws := s.draws + 1 }

theorem mountRead_eq (s : State) :
    s.mountRead = s.readStore.mountContinue ⟨.waiting, s.replayed.2.2, s.replayedDirectory, 0⟩ := by
  simp only [State.mountRead, State.readStore, State.replayed, State.replayedDirectory]

theorem replayedDirectory_congr {s u : State} (flash : u.flash = s.flash) (draws : u.draws = s.draws) :
    u.replayedDirectory = s.replayedDirectory := by
  simp only [State.replayedDirectory, State.replayed, flash, draws]

/-- What an effect on the store comes to for the directory and the values in force. -/
inductive ContentStep (s t : State) : Prop
  | carried (same : ContentSame s t) (carries : t.work.carriedFrom s.work)
  | begun (goal : Goal) (records : List RecordSpec) (same : ContentSame s t) (passed : Begun s goal records)
      (places : t.work.places goal records)
  | emptied (empty : t.emptied)
  | mounted (m : MountWork) (held : s.inReset = true) (working : m.working = s.replayedDirectory)
      (inHand : t.work = .mount m) (same : ContentSame s t)
  | mountEnded (m : MountWork) (inHand : (∃ m', s.work = .mount m' ∧ m.working = m'.working) ∨
        (s.inReset = true ∧ m.working = s.replayedDirectory))
      (idle : t.work = .idle) (directory : t.directory = limitDirectory m.working)
      (inForce : ∃ u : State, t.rightsInForce = u.takeInForce.rightsInForce ∧ t.freezeLine = u.takeInForce.freezeLine ∧
        t.defaultPeriod = u.takeInForce.defaultPeriod)
  | written (pl : Placement) (r : RecordSpec) (rest : List RecordSpec) (p : Port) (tag : Byte) (q : SeqNo) (h base : Nat)
      (inHand : s.work = .place pl) (records : pl.records = r :: rest) (goal : pl.goal = .write p tag) (idle : t.work = .idle)
      (directory : t.directory = insertKeyed DirEntry.key ⟨r.key, q, r.value.length, h, 8 * base, false⟩ s.directory)
      (rights : t.rightsInForce = (s.setInForce r.key r.value).rightsInForce)
      (freezeLine : t.freezeLine = (s.setInForce r.key r.value).freezeLine)
      (period : t.defaultPeriod = (s.setInForce r.key r.value).defaultPeriod)
  | deleted (k : Key) (idle : t.work = .idle) (directory : t.directory = removeKeyed DirEntry.key k s.directory)
      (rights : t.rightsInForce = s.rightsInForce) (freezeLine : t.freezeLine = s.freezeLine)
      (period : t.defaultPeriod = s.defaultPeriod)
  | committed (pl : Placement) (p : Port) (tag : Byte) (u : State) (q : SeqNo) (h base : Nat) (inHand : s.work = .place pl)
      (goal : pl.goal = .commit p tag) (idle : t.work = .idle) (before : u.directory = s.directory)
      (directory : t.directory = (u.applyMembers h pl.records q base).directory)
      (rights : t.rightsInForce = s.rightsInForce) (freezeLine : t.freezeLine = s.freezeLine)
      (period : t.defaultPeriod = s.defaultPeriod)
  | copied (pl : Placement) (r : RecordSpec) (rest : List RecordSpec) (line : Nat) (q : SeqNo) (h base : Nat)
      (inHand : s.work = .place pl) (records : pl.records = r :: rest) (goal : pl.goal = .copy line) (idle : t.work = .idle)
      (directory : t.directory = insertKeyed DirEntry.key ⟨r.key, q, r.value.length, h, 8 * base, false⟩ s.directory)
      (rights : t.rightsInForce = s.rightsInForce) (freezeLine : t.freezeLine = s.freezeLine)
      (period : t.defaultPeriod = s.defaultPeriod)

/-! ### Work in hand -/

section
variable {w before : Work} {goal : Goal} {records : List RecordSpec}

/-- Work without a placement or a mount. -/
def Work.plain (w : Work) : Prop := (∀ pl, w ≠ .place pl) ∧ ∀ m, w ≠ .mount m

theorem Work.plain.places (plain : w.plain) : w.places goal records :=
  ⟨fun pl h => absurd h (plain.1 pl), plain.2⟩

theorem Work.plain.carried (plain : w.plain) : w.carriedFrom before :=
  ⟨fun pl h => absurd h (plain.1 pl), fun m h => absurd h (plain.2 m)⟩

theorem Work.places.carried (places : w.places goal records) {pl : Placement} (inHand : before = .place pl)
    (sameGoal : pl.goal = goal) (sameRecords : pl.records = records) : w.carriedFrom before := by
  refine ⟨fun pl' h => .inl ⟨pl, inHand, ?_, ?_⟩, fun m h => absurd h (places.2 m)⟩
  · exact (places.1 pl' h).1.trans sameGoal.symm
  · exact (places.1 pl' h).2.trans sameRecords.symm

theorem Work.places.wiped {p : Port} {tag : Byte} (places : w.places (.wipe p tag) [wipeRecord]) : w.carriedFrom before :=
  ⟨fun pl h => .inr ⟨p, tag, places.1 pl h⟩, fun m h => absurd h (places.2 m)⟩

theorem places_place (pl : Placement) : (Work.place pl).places pl.goal pl.records :=
  ⟨fun pl' h => by cases h; exact ⟨rfl, rfl⟩, fun m h => by cases h⟩

theorem plain_idle : Work.idle.plain := ⟨fun _ h => (by cases h), fun _ h => (by cases h)⟩

theorem plain_format (f : FormatWork) : (Work.format f).plain := ⟨fun _ h => (by cases h), fun _ h => (by cases h)⟩

end

/-! ### FORMAT and placements -/

section
variable {s t u : State} {pl : Placement} {f : FormatWork} {ok : Bool}

/-- The content stands while a placement of these records stays in hand or ends, or the store is emptied. -/
def PlacedAs (goal : Goal) (records : List RecordSpec) (s t : State) : Prop :=
  (ContentSame s t ∧ t.work.places goal records) ∨ t.emptied

theorem TouchesClients.content (h : TouchesClients s t) : ContentSame s t := by
  obtain ⟨_, _, _, rfl⟩ := h
  exact ⟨rfl, rfl, rfl, rfl⟩

theorem formatComplete_emptied : (s.formatComplete f).emptied := by
  obtain ⟨leases, sessions, ports, released⟩ := releaseAll_clients s.formatStore f.port
  unfold State.formatComplete State.formatSession
  rw [released]
  exact ⟨rfl, rfl, rfl, rfl, fun _ h => (by cases h), fun _ h => (by cases h)⟩

theorem FormatGoesOn.content {goal : Goal} {records : List RecordSpec} (on : FormatGoesOn f s t) :
    PlacedAs goal records s t := by
  cases on with
  | completes => exact .inr formatComplete_emptied
  | sweeps | erases | pauses => exact .inl ⟨⟨rfl, rfl, rfl, rfl⟩, (plain_format _).places⟩

theorem endPlacement_content (st : Status) : ContentSame s (s.endPlacement pl st) ∧ (s.endPlacement pl st).work.plain := by
  unfold State.endPlacement
  split <;> exact ⟨⟨rfl, rfl, rfl, rfl⟩, plain_idle⟩

theorem Opening.content (opening : Opening pl s t) : PlacedAs pl.goal pl.records s t := by
  cases opening with
  | opens i free => exact .inl ⟨⟨rfl, rfl, rfl, rfl⟩, places_place _⟩
  | ends mode st =>
    obtain ⟨⟨directory, rights, freezeLine, period⟩, plain⟩ := endPlacement_content (s := { s with mode := mode }) (pl := pl) st
    exact .inl ⟨⟨directory, rights, freezeLine, period⟩, plain.places⟩
  | formats f wipe on => exact on.content

theorem Placing.content (placing : Placing pl s t) : PlacedAs pl.goal pl.records s t := by
  cases placing with
  | body h head => exact .inl ⟨⟨rfl, rfl, rfl, rfl⟩, places_place _⟩
  | closes h head => exact .inl ⟨⟨rfl, rfl, rfl, rfl⟩, places_place _⟩
  | opening headless opening => exact opening.content

/-- From a state whose content is that of `s`, with the placement in hand. -/
theorem PlacedAs.carried (placed : PlacedAs pl.goal pl.records u t) (same : ContentSame s u) (inHand : s.work = .place pl) :
    ContentStep s t := by
  rcases placed with ⟨kept, places⟩ | empty
  · exact .carried (same.trans kept) (places.carried inHand rfl rfl)
  · exact .emptied empty

theorem PlacedAs.wiped {p : Port} {tag : Byte} (placed : PlacedAs (.wipe p tag) [wipeRecord] u t) (same : ContentSame s u) :
    ContentStep s t := by
  rcases placed with ⟨kept, places⟩ | empty
  · exact .carried (same.trans kept) places.wiped
  · exact .emptied empty

theorem PlacedAs.begun {goal : Goal} {records : List RecordSpec} (placed : PlacedAs goal records u t) (same : ContentSame s u)
    (passed : Begun s goal records) : ContentStep s t := by
  rcases placed with ⟨kept, places⟩ | empty
  · exact .begun goal records (same.trans kept) passed places
  · exact .emptied empty

theorem FormatGoesOn.step (on : FormatGoesOn f u t) (same : ContentSame s u) : ContentStep s t :=
  PlacedAs.wiped (p := f.port) (tag := f.tag) on.content same

/-- A WIPE is placed, or FORMAT goes on without it. -/
theorem wipePlaced_step (on : Placing f.wipePlacement u t ∨ FormatGoesOn f u t) (same : ContentSame s u) : ContentStep s t := by
  rcases on with placing | on
  · exact PlacedAs.wiped (p := f.port) (tag := f.tag) placing.content same
  · exact on.step same

/-! ### The end of a flash operation -/

theorem commitDone_content (q : SeqNo) (h base : Nat) (p : Port) (tag : Byte) :
    let t := s.commitDone pl q h base p tag
    t.work = .idle ∧ t.directory = (s.applyMembers h pl.records q base).directory ∧ t.rightsInForce = s.rightsInForce ∧
      t.freezeLine = s.freezeLine ∧ t.defaultPeriod = s.defaultPeriod := by
  obtain ⟨directory, sectors, applied⟩ := applyMembers_touches h pl.records s q base
  obtain ⟨sessions, posted⟩ := postMembers_touches p pl.records
    (({ s with directory := directory, sectors := sectors }).clearGroup p) q
  dsimp only
  unfold State.commitDone
  rw [applied, posted]
  exact ⟨rfl, rfl, rfl, rfl, rfl⟩

theorem copyDone_content {r : RecordSpec} {rest : List RecordSpec} {line : Nat} (q : SeqNo) (h base : Nat)
    (same : ContentSame s u) (inHand : s.work = .place pl) (records : pl.records = r :: rest) (goal : pl.goal = .copy line) :
    ContentStep s (u.copyDone r q h base line) := by
  obtain ⟨directory, rights, freezeLine, period⟩ := same
  unfold State.copyDone
  split
  · exact .carried ⟨directory, rights, freezeLine, period⟩ plain_idle.carried
  · dsimp only
    split
    · exact .copied pl r rest line q h base inHand records goal rfl (directory ▸ rfl) rights freezeLine period
    · exact .copied pl r rest line q h base inHand records goal rfl (directory ▸ rfl) rights freezeLine period

theorem setInForce_content (same : ContentSame s u) (k : Key) (value : List Byte) :
    ContentSame (s.setInForce k value) (u.setInForce k value) := by
  obtain ⟨directory, rights, freezeLine, period⟩ := same
  exact ⟨directory, by simp only [State.setInForce, rights], by simp only [State.setInForce, freezeLine],
    by simp only [State.setInForce, period]⟩

theorem Finished.content {h base : Nat} (done : Finished pl h base u t) (same : ContentSame s u) (inHand : s.work = .place pl) :
    ContentStep s t := by
  cases done with
  | empty => exact .carried ⟨same.directory, same.rights, same.freezeLine, same.period⟩ plain_idle.carried
  | written r rest p tag records goal =>
    obtain ⟨-, rights, freezeLine, period⟩ := setInForce_content same r.key r.value
    exact .written pl r rest p tag (pl.firstSeq.getD 0) h base inHand records goal rfl (same.directory ▸ rfl) rights freezeLine
      period
  | deleted r rest p tag records goal =>
    exact .deleted r.key rfl (same.directory ▸ rfl) same.rights same.freezeLine same.period
  | committed p tag goal =>
    obtain ⟨idle, directory, rights, freezeLine, period⟩ := commitDone_content (s := u) (pl := pl) (pl.firstSeq.getD 0) h base p tag
    exact .committed pl p tag u _ h base inHand goal idle same.directory directory (rights.trans same.rights)
      (freezeLine.trans same.freezeLine) (period.trans same.period)
  | copied r rest line records goal => exact copyDone_content _ h base same inHand records goal
  | wiped p tag goal on => exact on.step same

theorem PlacementLine.content (line : PlacementLine pl ok u t) (same : ContentSame s u) (inHand : s.work = .place pl) :
    ContentStep s t := by
  have stays (v : State) (kept : ContentSame u v) : ContentSame s v := same.trans kept
  cases line with
  | closed h phase opening => exact opening.content.carried (stays _ ⟨rfl, rfl, rfl, rfl⟩) inHand
  | secondLine | headerFailed | opened | nextLine | nextRecord | failed =>
    exact .carried (stays _ ⟨rfl, rfl, rfl, rfl⟩) ((places_place _).carried inHand rfl rfl)
  | retired i phase opening => exact opening.content.carried (stays _ ⟨rfl, rfl, rfl, rfl⟩) inHand
  | held h base k l n phase =>
    obtain ⟨kept, plain⟩ := endPlacement_content (s := u.raiseFill h n) (pl := pl) .hold
    exact .carried (stays _ (.trans (t := u.raiseFill h n) ⟨rfl, rfl, rfl, rfl⟩ kept)) plain.carried
  | finished h base k l n phase done => exact done.content (stays _ ⟨rfl, rfl, rfl, rfl⟩) inHand
  | again h phase opening => exact opening.content.carried (stays _ ⟨rfl, rfl, rfl, rfl⟩) inHand
  | wipeAgain h f phase wipe on => exact wipePlaced_step on (stays _ ⟨rfl, rfl, rfl, rfl⟩)

theorem mountEnd_content (m : MountWork) :
    (u.mountEnd m).work = .idle ∧ (u.mountEnd m).directory = limitDirectory m.working ∧
      ∃ v : State, (u.mountEnd m).rightsInForce = v.takeInForce.rightsInForce ∧
        (u.mountEnd m).freezeLine = v.takeInForce.freezeLine ∧ (u.mountEnd m).defaultPeriod = v.takeInForce.defaultPeriod :=
  ⟨rfl, rfl, _, rfl, rfl, rfl⟩

theorem mountContinue_content {m : MountWork} (inHand : ∃ m', s.work = .mount m' ∧ m.working = m'.working)
    (same : ContentSame s u) : ContentStep s (u.mountContinue m) := by
  unfold State.mountContinue
  split
  · obtain ⟨idle, directory, inForce⟩ := mountEnd_content (u := u) m
    exact .mountEnded m (.inl inHand) idle directory inForce
  · obtain ⟨m', before, working⟩ := inHand
    exact .carried ⟨same.directory, same.rights, same.freezeLine, same.period⟩
      ⟨fun _ h => (by cases h), fun _ h => (by cases h; exact ⟨m', before, working⟩)⟩

/-- A mount that goes on to its next phase. -/
theorem mountPhase_content {m : MountWork} {phase : MountPhase} {toClose : List Nat} {n : Nat} (inHand : s.work = .mount m)
    (work : t.work = .mount ⟨phase, toClose, m.working, n⟩) (same : ContentSame s t) : ContentStep s t :=
  .carried same ⟨fun _ h => (by rw [work] at h; cases h), fun _ h => by rw [work] at h; cases h; exact ⟨m, inHand, rfl⟩⟩

theorem LineEnded.content (ended : LineEnded ok u t) (same : ContentSame s u) (work : u.work = s.work) : ContentStep s t := by
  cases ended with
  | unawaited none => exact .carried same (by
      rw [work]
      exact ⟨fun pl h => .inl ⟨pl, h, rfl, rfl⟩, fun m h => ⟨m, h, rfl⟩⟩)
  | placed pl inHand line => exact line.content same (work ▸ inHand)
  | marked | tailRetired => exact .carried ⟨same.directory, same.rights, same.freezeLine, same.period⟩ plain_idle.carried
  | mountClosed m i inHand =>
    exact mountContinue_content ⟨m, work ▸ inHand, rfl⟩ ⟨same.directory, same.rights, same.freezeLine, same.period⟩
  | mountRetired m i inHand =>
    exact mountContinue_content ⟨m, work ▸ inHand, rfl⟩ ⟨same.directory, same.rights, same.freezeLine, same.period⟩
  | formatRetired f i n inHand on => exact on.step ⟨same.directory, same.rights, same.freezeLine, same.period⟩

theorem tailFailed_content (i : Nat) : ContentSame s (s.tailFailed i) ∧ (s.tailFailed i).work.plain := by
  unfold State.tailFailed
  split
  · exact ⟨⟨rfl, rfl, rfl, rfl⟩, plain_idle⟩
  · exact ⟨⟨rfl, rfl, rfl, rfl⟩, fun _ h => (by cases h), fun _ h => (by cases h)⟩

theorem EraseEnded.content (ended : EraseEnded u t) (same : ContentSame s u) (work : u.work = s.work) : ContentStep s t := by
  have kept : ContentSame s u := same
  obtain ⟨directory, rights, freezeLine, period⟩ := same
  cases ended with
  | unawaited none => exact .carried kept (by
      rw [work]
      exact ⟨fun pl h => .inl ⟨pl, h, rfl, rfl⟩, fun m h => ⟨m, h, rfl⟩⟩)
  | tailFreed | tailAborted => exact .carried ⟨directory, rights, freezeLine, period⟩ plain_idle.carried
  | tailErased =>
    exact .carried ⟨directory, rights, freezeLine, period⟩ ⟨fun _ h => (by cases h), fun _ h => (by cases h)⟩
  | tailFailed i =>
    obtain ⟨stays, plain⟩ := tailFailed_content (s := u) i
    exact .carried (kept.trans stays) plain.carried
  | mountFreed m i inHand => exact mountContinue_content ⟨m, work ▸ inHand, rfl⟩ ⟨directory, rights, freezeLine, period⟩
  | mountErased m i inHand => exact mountPhase_content (work ▸ inHand) rfl ⟨directory, rights, freezeLine, period⟩
  | mountRetiring m i inHand => exact mountPhase_content (work ▸ inHand) rfl ⟨directory, rights, freezeLine, period⟩
  | mountWaits m i n inHand => exact mountPhase_content (work ▸ inHand) rfl ⟨directory, rights, freezeLine, period⟩
  | formatErased | formatRetiring | formatWaits =>
    exact .carried ⟨directory, rights, freezeLine, period⟩ (plain_format _).carried
  | formatFreed f i inHand on =>
    have stays : ContentSame s ((u.countErase i).freeSector i) := ⟨directory, rights, freezeLine, period⟩
    rcases on with placing | on | on
    · exact wipePlaced_step (.inl placing) stays
    · exact on.step stays
    · exact on.step stays
  | formatAgain f inHand on => exact on.step kept

theorem mountContinue_read {m : MountWork} (inReset : s.inReset = true) (working : m.working = s.replayedDirectory)
    (same : ContentSame s u) : ContentStep s (u.mountContinue m) := by
  unfold State.mountContinue
  split
  · obtain ⟨idle, directory, inForce⟩ := mountEnd_content (u := u) m
    exact .mountEnded m (.inr ⟨inReset, working⟩) idle directory inForce
  · exact .mounted { m with phase := .waiting } inReset working rfl ⟨same.directory, same.rights, same.freezeLine, same.period⟩

theorem ContentStep.takeRise (step : ContentStep s t) : ContentStep s t.takeRise := by
  cases step with
  | carried same carries => exact .carried ⟨same.directory, same.rights, same.freezeLine, same.period⟩ carries
  | begun goal records same passed places =>
    exact .begun goal records ⟨same.directory, same.rights, same.freezeLine, same.period⟩ passed places
  | emptied empty =>
    exact .emptied ⟨empty.directory, empty.rights, empty.freezeLine, empty.period, empty.unplaced, empty.unmounted⟩
  | mounted m held working inHand same =>
    exact .mounted m held working inHand ⟨same.directory, same.rights, same.freezeLine, same.period⟩
  | mountEnded m inHand idle directory inForce => exact .mountEnded m inHand idle directory inForce
  | written pl r rest p tag q h base inHand records goal idle directory rights freezeLine period =>
    exact .written pl r rest p tag q h base inHand records goal idle directory rights freezeLine period
  | deleted k idle directory rights freezeLine period => exact .deleted k idle directory rights freezeLine period
  | committed pl p tag u q h base inHand goal idle before directory rights freezeLine period =>
    exact .committed pl p tag u q h base inHand goal idle before directory rights freezeLine period
  | copied pl r rest line q h base inHand records goal idle directory rights freezeLine period =>
    exact .copied pl r rest line q h base inHand records goal idle directory rights freezeLine period

end

/-- What an effect on the store comes to for the directory and the values in force. -/
theorem StoreEffect.content {kind : CommandKind} {s t : State} (h : StoreEffect s kind t) : ContentStep s t := by
  have same : ContentSame s s := ⟨rfl, rfl, rfl, rfl⟩
  cases h with
  | reset pin hold held =>
    exact .emptied ⟨rfl, rfl, rfl, rfl, fun _ h => (by cases h), fun _ h => (by cases h; rfl)⟩
  | stillHeld pin hold inReset held =>
    exact .carried ⟨rfl, rfl, rfl, rfl⟩ ⟨fun pl h => .inl ⟨pl, h, rfl, rfl⟩, fun m h => ⟨m, h, rfl⟩⟩
  | mounted inReset =>
    rw [mountRead_eq]
    exact ContentStep.takeRise (mountContinue_read inReset (replayedDirectory_congr rfl rfl) ⟨rfl, rfl, rfl, rfl⟩)
  | closeBegun m i rest inHand => exact mountPhase_content inHand rfl ⟨rfl, rfl, rfl, rfl⟩
  | dirtyBegun m i inHand => exact mountPhase_content inHand rfl ⟨rfl, rfl, rfl, rfl⟩
  | writeBegun p r c inHand passed => exact startPlacement_placing.content.begun same (.write p r c passed)
  | deleteBegun p r c inHand passed => exact startPlacement_placing.content.begun same (.delete p r c passed)
  | commitBegun p r inHand passed some => exact startPlacement_placing.content.begun same (.commit p r passed some)
  | formatBegun p r inHand passed => exact wipePlaced_step wipePlace_cases ⟨rfl, rfl, rfl, rfl⟩
  | tailMarked i => 
    unfold State.markTail
    split
    · exact .carried ⟨rfl, rfl, rfl, rfl⟩ ⟨fun _ h => (by cases h), fun _ h => (by cases h)⟩
    · exact .carried ⟨rfl, rfl, rfl, rfl⟩ plain_idle.carried
  | copyBegun i line inHand unit tail found =>
    unfold State.copyFrom
    split
    · exact startPlacement_placing.content.begun (u := s.moveCursor line) ⟨rfl, rfl, rfl, rfl⟩ (.copy i line found)
    · exact .carried ⟨rfl, rfl, rfl, rfl⟩ plain_idle.carried
  | tailEraseBegun i =>
    unfold State.eraseTail
    split
    · exact .carried ⟨rfl, rfl, rfl, rfl⟩ ⟨fun _ h => (by cases h), fun _ h => (by cases h)⟩
    · exact .carried ⟨rfl, rfl, rfl, rfl⟩ plain_idle.carried
  | sweepBegun f i => 
    unfold State.startSweep
    split <;> exact .carried ⟨rfl, rfl, rfl, rfl⟩ (plain_format _).carried
  | wipePlaced f => exact wipePlaced_step wipePlace_cases same
  | lineDone i l data bits ok => exact lineEnded_ended.content ⟨rfl, rfl, rfl, rfl⟩ rfl
  | eraseDone i d bits v high o => exact (eraseEnded_ended o).content ⟨rfl, rfl, rfl, rfl⟩ rfl

end Sys2Proof.Machine
end

