-- ==== Sys2Proof/Proofs/ValuesInForce.lean ====
section
/-! PROOF. The three values in force keep their ranges and an ADMIN right, and the freeze line does not rise: only a verified WRITE
of a system key, FORMAT, a reset and the end of mount move them, and each WRITE was checked when it began. -/

namespace Sys2Proof.Machine

theorem light_not_place {w : Work} (light : w.light = true) (pl : Placement) : w ≠ .place pl := by
  rintro rfl
  cases light

theorem light_not_mount {w : Work} (light : w.light = true) (m : MountWork) : w ≠ .mount m := by
  rintro rfl
  cases light

section
variable {s t : State}

theorem StoreKept.content (kept : StoreKept s t) : ContentSame s t :=
  ⟨kept.directory, kept.rightsInForce, kept.freezeLine, kept.defaultPeriod⟩

/-- A client effect leaves a placement or a mount in hand as it is. -/
theorem StoreKept.placed (kept : StoreKept s t) {pl : Placement} (inHand : t.work = .place pl) : s.work = .place pl := by
  rcases kept.work with same | ⟨-, light⟩
  · exact same ▸ inHand
  · exact absurd inHand (light_not_place light pl)

/-! ### What the stored values are -/

theorem parseRights_admin {k : Key} {value : List Byte} {inForce : PerPort Rights} (before : grantsAdmin inForce = true)
    (keeps : k = rightsKey → ∀ v, parseRights value = some v → grantsAdmin v = true) :
    grantsAdmin (if k = rightsKey then (parseRights value).getD inForce else inForce) = true := by
  split
  · next rights =>
    cases parsed : parseRights value with
    | none => exact before
    | some v => exact keeps rights v parsed
  · exact before

/-- TABLE 87: the freeze-line value is its two bytes, and lies from 0x0001 to 0x0F00. -/
theorem parseFreezeLine_eq_some {value : List Byte} {k : Key} (parsed : parseFreezeLine value = some k) :
    k.toNat = beNat value ∧ 1 ≤ k.toNat ∧ k.toNat ≤ 0x0F00 := by
  unfold parseFreezeLine at parsed
  split at parsed
  · next a b =>
    split at parsed
    · next inRange =>
      cases parsed
      have bytes : (keyOfBytes a b).toNat = beNat [a, b] := by
        rw [keyOfBytes_toNat]
        simp [beNat_cons]
      omega
    · cases parsed
  · cases parsed

theorem parsePeriod_inRange {value : List Byte} {n : Nat} (parsed : parsePeriod value = some n) : 1 ≤ n ∧ n ≤ 6000 := by
  unfold parsePeriod at parsed
  split at parsed
  · split at parsed
    · next inRange => cases parsed; exact inRange
    · cases parsed
  · cases parsed

theorem parseFreezeLine_inRange {o : Option (List Byte)} {d : Key} (range : 1 ≤ d.toNat ∧ d.toNat ≤ 0x0F00) :
    1 ≤ ((o.bind parseFreezeLine).getD d).toNat ∧ ((o.bind parseFreezeLine).getD d).toNat ≤ 0x0F00 := by
  cases parsed : o.bind parseFreezeLine with
  | none => exact range
  | some k =>
    obtain ⟨value, -, parsed⟩ := Option.bind_eq_some_iff.mp parsed
    exact (parseFreezeLine_eq_some parsed).2

theorem parsePeriod_getD_inRange {o : Option (List Byte)} {d : Nat} (range : 1 ≤ d ∧ d ≤ 6000) :
    1 ≤ (o.bind parsePeriod).getD d ∧ (o.bind parsePeriod).getD d ≤ 6000 := by
  cases parsed : o.bind parsePeriod with
  | none => exact range
  | some n =>
    obtain ⟨value, -, parsed⟩ := Option.bind_eq_some_iff.mp parsed
    exact parsePeriod_inRange parsed

theorem mountedRights_admin (s : State) : grantsAdmin s.mountedRights = true := by
  unfold State.mountedRights
  split
  · split
    · next admin => exact admin
    · rfl
  · rfl

theorem setInForce_inRange {k : Key} {value : List Byte} (range : s.valuesInRange) :
    (s.setInForce k value).valuesInRange := by
  obtain ⟨line1, line2, period1, period2⟩ := range
  have line : 1 ≤ (s.setInForce k value).freezeLine.toNat ∧ (s.setInForce k value).freezeLine.toNat ≤ 0x0F00 := by
    unfold State.setInForce
    dsimp only
    split
    · exact parseFreezeLine_inRange (o := some value) ⟨line1, line2⟩
    · exact ⟨line1, line2⟩
  have period : 1 ≤ (s.setInForce k value).defaultPeriod ∧ (s.setInForce k value).defaultPeriod ≤ 6000 := by
    unfold State.setInForce
    dsimp only
    split
    · exact parsePeriod_getD_inRange (o := some value) ⟨period1, period2⟩
    · exact ⟨period1, period2⟩
  exact ⟨line.1, line.2, period.1, period.2⟩

/-! ### What a WRITE has passed -/

theorem firstFailing_append {l l' : List (Option Rejection)} (passed : firstFailing (l ++ l') = none) :
    firstFailing l = none ∧ firstFailing l' = none := by
  rw [firstFailing_eq_none] at passed
  exact ⟨firstFailing_eq_none.mpr fun x h => passed x (List.mem_append_left _ h),
    firstFailing_eq_none.mpr fun x h => passed x (List.mem_append_right _ h)⟩

theorem failUnless_eq_none {ok : Bool} {st : Status} {body : List Byte} : failUnless ok st body = none ↔ ok = true := by
  cases ok <;> simp

/-- A WRITE of the rights key leaves a port with ADMIN (R33). -/
theorem checkSystemWrite_passed {p : Port} {c : Change} (passed : checkSystemWrite s p c = none) (rights : c.key = rightsKey) :
    ∃ v, parseRights c.value = some v ∧ grantsAdmin v = true := by
  rw [checkSystemWrite, failUnless_eq_none, rights] at passed
  have system : systemKey rightsKey = true := by decide
  simp only [system, Bool.not_true, Bool.false_or, ne_eq, not_true_eq_false, decide_false, Bool.and_eq_true] at passed
  cases parsed : parseRights c.value with
  | none => simp [parsed] at passed
  | some v => exact ⟨v, rfl, by simpa [parsed] using passed.2⟩

/-- A WRITE of the freeze line does not raise it (R35). -/
theorem checkFreezeRise_passed {c : Change} (passed : checkFreezeRise s c = none) (freeze : c.key = freezeKey) :
    beNat c.value ≤ s.freezeLine.toNat := by
  rw [checkFreezeRise, failUnless_eq_none] at passed
  simpa [freeze] using passed

theorem writeVerdict_passed {p : Port} {body : List Byte} {c : Change} (passed : writeVerdict s p body = .ok c) :
    checkSystemWrite s p c = none ∧ checkKey c.key = none ∧ checkFreezeRise s c = none ∧ checkRoom s c.key = none := by
  obtain ⟨-, -, later⟩ := judge_ok_iff.mp passed
  rw [firstFailing_eq_none] at later
  exact ⟨later _ (by simp), later _ (by simp), later _ (by simp), later _ (by simp)⟩

theorem begunWrite_passed {goal : Goal} {records : List RecordSpec} (begun : Begun s goal records)
    (write : ∃ p tag, goal = .write p tag) :
    ∃ p c, records = [writeRecord c] ∧ checkSystemWrite s p c = none ∧ checkKey c.key = none ∧ checkFreezeRise s c = none ∧
      checkRoom s c.key = none := by
  obtain ⟨p, tag, goal⟩ := write
  cases begun with
  | write p r c passed => exact ⟨p, c, rfl, writeVerdict_passed passed⟩
  | delete | commit | copy | wipe => cases goal

/-! ### The invariants -/

/-- Each placement of a WRITE that an effect leaves in hand was in hand before, or has just passed its checks. -/
theorem carried_write {w before : Work} (carries : w.carriedFrom before) {pl : Placement} (inHand : w = .place pl)
    (write : ∃ p tag, pl.goal = .write p tag) : ∃ pl', before = .place pl' ∧ pl.goal = pl'.goal ∧ pl.records = pl'.records := by
  rcases carries.1 pl inHand with stands | ⟨p', tag', goal, -⟩
  · exact stands
  · obtain ⟨p, tag, write⟩ := write
    rw [write] at goal
    cases goal

theorem ContentStep.adminSound (step : ContentStep s t) (sound : s.adminSound) : t.adminSound := by
  obtain ⟨admin, keeps⟩ := sound
  have unplaced (idle : t.work = .idle) (P : Placement → Prop) : ∀ pl, t.work = .place pl → P pl := fun pl h => by
    rw [idle] at h; cases h
  cases step with
  | carried same carries =>
    refine ⟨same.rights ▸ admin, fun pl inHand write => ?_⟩
    obtain ⟨pl', before, goal, records⟩ := carried_write carries inHand write
    rw [Placement.keepsAdmin, records]
    exact keeps pl' before (goal ▸ write)
  | begun goal records same passed places =>
    refine ⟨same.rights ▸ admin, fun pl inHand write => ?_⟩
    obtain ⟨goals, placed⟩ := places.1 pl inHand
    obtain ⟨p, c, wrote, system, -⟩ := begunWrite_passed passed (goals ▸ write)
    rw [Placement.keepsAdmin, placed, wrote]
    intro r hr rights v parsed
    obtain rfl := List.mem_singleton.mp hr
    obtain ⟨v', parsed', grants⟩ := checkSystemWrite_passed system rights
    cases parsed'.symm.trans parsed
    exact grants
  | emptied empty => exact ⟨empty.rights ▸ rfl, fun pl h => absurd h (empty.unplaced pl)⟩
  | mounted m held working inHand same =>
    exact ⟨same.rights ▸ admin, fun pl h => by rw [inHand] at h; cases h⟩
  | mountEnded m inHand idle directory inForce =>
    obtain ⟨u, rights, -⟩ := inForce
    exact ⟨rights ▸ mountedRights_admin u, unplaced idle _⟩
  | written pl r rest p tag q h base inHand records goal idle directory rights =>
    refine ⟨rights ▸ parseRights_admin admin fun k => ?_, unplaced idle _⟩
    exact keeps pl inHand ⟨p, tag, goal⟩ r (by rw [records]; exact List.mem_cons_self) k
  | deleted k idle directory rights => exact ⟨rights ▸ admin, unplaced idle _⟩
  | committed pl p tag u q h base inHand goal idle before directory rights => exact ⟨rights ▸ admin, unplaced idle _⟩
  | copied pl r rest line q h base inHand records goal idle directory rights => exact ⟨rights ▸ admin, unplaced idle _⟩

theorem ContentSame.valuesInRange (same : ContentSame s t) (range : s.valuesInRange) : t.valuesInRange := by
  rw [State.valuesInRange, same.freezeLine, same.period]
  exact range

theorem ContentStep.valuesInRange (step : ContentStep s t) (range : s.valuesInRange) : t.valuesInRange := by
  cases step with
  | carried same | begun _ _ same | mounted _ _ _ _ same => exact same.valuesInRange range
  | emptied empty => rw [State.valuesInRange, empty.freezeLine, empty.period]; decide
  | mountEnded m inHand idle directory inForce =>
    obtain ⟨u, -, freezeLine, period⟩ := inForce
    rw [State.valuesInRange, freezeLine, period]
    have line := parseFreezeLine_inRange (o := u.storedValue freezeKey) (d := 0x0F00) (by decide)
    have span := parsePeriod_getD_inRange (o := u.storedValue periodKey) (d := 500) (by decide)
    exact ⟨line.1, line.2, span.1, span.2⟩
  | written pl r rest p tag q h base inHand records goal idle directory rights freezeLine period =>
    rw [State.valuesInRange, freezeLine, period]
    exact setInForce_inRange range
  | deleted k idle directory rights freezeLine period => 
    rw [State.valuesInRange, freezeLine, period]
    exact range
  | committed pl p tag u q h base inHand goal idle before directory rights freezeLine period =>
    rw [State.valuesInRange, freezeLine, period]
    exact range
  | copied pl r rest line q h base inHand records goal idle directory rights freezeLine period =>
    rw [State.valuesInRange, freezeLine, period]
    exact range

/-- Settles O57, by a case split over what an effect makes of the values in force. -/
theorem stepKeepsValuesInForce : Obligations.StepKeepsValuesInForce := by
  intro s t ran
  refine ⟨fun sound => ?admin, fun range => ?range⟩
  case admin =>
    refine step_keeps (P := State.adminSound) (fun _ _ h => h) (fun s t _ sound effect => ?_)
      (fun s t _ sound effect => effect.content.adminSound sound) sound ran
    have kept := effect.storeKept
    exact ⟨kept.rightsInForce ▸ sound.1, fun pl inHand => sound.2 pl (kept.placed inHand)⟩
  case range =>
    exact step_keeps (P := State.valuesInRange) (fun _ _ h => h)
      (fun s t _ range effect => effect.storeKept.content.valuesInRange range)
      (fun s t _ range effect => effect.content.valuesInRange range) range ran

/-! ### The freeze line -/

theorem ContentStep.freezeSound (step : ContentStep s t) (sound : s.freezeSound) : t.freezeSound := by
  have unplaced (idle : t.work = .idle) : t.freezeSound := fun pl h => by rw [idle] at h; cases h
  cases step with
  | carried same carries =>
    intro pl inHand write
    obtain ⟨pl', before, goal, records⟩ := carried_write carries inHand write
    rw [records, same.freezeLine]
    exact sound pl' before (goal ▸ write)
  | begun goal records same passed places =>
    intro pl inHand write
    obtain ⟨goals, placed⟩ := places.1 pl inHand
    obtain ⟨p, c, wrote, -, -, rise, -⟩ := begunWrite_passed passed (goals ▸ write)
    rw [placed, wrote, same.freezeLine]
    intro r hr freeze
    obtain rfl := List.mem_singleton.mp hr
    exact checkFreezeRise_passed rise freeze
  | emptied empty => exact fun pl h => absurd h (empty.unplaced pl)
  | mounted m held working inHand same => exact fun pl h => by rw [inHand] at h; cases h
  | mountEnded _ _ idle | written _ _ _ _ _ _ _ _ _ _ _ idle | deleted _ idle | committed _ _ _ _ _ _ _ _ _ idle
  | copied _ _ _ _ _ _ _ _ _ _ idle => exact unplaced idle

/-- The freeze line of `t` has not risen from that of `s`, or the store was emptied, or mount was in hand. -/
def FreezeHeld (s t : State) : Prop :=
  t.freezeLine.toNat ≤ s.freezeLine.toNat ∨ (t.freezeLine = 0x0F00 ∧ t.directory = []) ∨ s.engineState = .mount

theorem freezeHeld_same (same : t.freezeLine = s.freezeLine) : FreezeHeld s t := .inl (Nat.le_of_eq (by rw [same]))

/-- A verified WRITE of the freeze line was checked not to raise it (R35). -/
theorem setInForce_freezeLine {k : Key} {value : List Byte} (noRise : k = freezeKey → beNat value ≤ s.freezeLine.toNat) :
    (s.setInForce k value).freezeLine.toNat ≤ s.freezeLine.toNat := by
  unfold State.setInForce
  dsimp only
  split
  · next freeze =>
    cases parsed : parseFreezeLine value with
    | none => exact Nat.le_refl _
    | some k' =>
      have bytes := (parseFreezeLine_eq_some parsed).1
      exact bytes ▸ noRise freeze
  · exact Nat.le_refl _

theorem ContentStep.freezeHeld (step : ContentStep s t) (sound : s.freezeSound) (engine : s.controllerSound) :
    FreezeHeld s t := by
  have inMount (held : s.inReset = true) : s.engineState = .mount := by
    rw [State.engineState, engine.2 held]; rfl
  cases step with
  | carried same | begun _ _ same | mounted _ _ _ _ same => exact freezeHeld_same same.freezeLine
  | emptied empty => exact .inr (.inl ⟨empty.freezeLine, empty.directory⟩)
  | mountEnded m inHand =>
    refine .inr (.inr ?_)
    rcases inHand with ⟨m', before, -⟩ | ⟨held, -⟩
    · rw [State.engineState, before]; rfl
    · exact inMount held
  | written pl r rest p tag q h base inHand records goal idle directory rights freezeLine =>
    refine .inl (freezeLine ▸ setInForce_freezeLine fun freeze => ?_)
    exact sound pl inHand ⟨p, tag, goal⟩ r (by rw [records]; exact List.mem_cons_self) freeze
  | deleted k idle directory rights freezeLine => exact freezeHeld_same freezeLine
  | committed pl p tag u q h base inHand goal idle before directory rights freezeLine => exact freezeHeld_same freezeLine
  | copied pl r rest line q h base inHand records goal idle directory rights freezeLine => exact freezeHeld_same freezeLine

/-- Settles O58: a WRITE in hand does not raise the line, and every other effect leaves it or sets it anew. -/
theorem freezeLineNeverRises : Obligations.FreezeLineNeverRises := by
  intro s t sound engine ran
  obtain rfl | ⟨c, rest, ran⟩ := step_cases ran
  · exact ⟨sound, .inl (Nat.le_refl _)⟩
  · rcases exec_effect ran with effect | effect
    · have kept := effect.storeKept
      refine ⟨fun pl inHand write r hr freeze => ?_, freezeHeld_same kept.freezeLine⟩
      rw [kept.freezeLine]
      exact sound pl (kept.placed inHand) write r hr freeze
    · have step := effect.content
      exact ⟨step.freezeSound sound, step.freezeHeld sound engine⟩

end

end Sys2Proof.Machine
end

