-- ==== Sys2Proof/Proofs/ClientSides.lean ====
section
/-! PROOF. What an effect on the store does to leases, sessions and ports, said once for the invariants that speak of them: nothing,
the reply of the request served, the end of FORMAT, or a reset. -/

namespace Sys2Proof.Machine

/-- A session after change postings, and perhaps the end of its group (R68, R95, R112). -/
inductive Session.Posted (x : Session) : Session → Prop
  | same : Posted x x
  | changed {y : Session} (k : Key) (v : SeqNo) (before : Posted x y) : Posted x (y.takeChanged k v)
  | cleared {y : Session} (before : Posted x y) : Posted x { y with groupOpen := false, members := [] }

/-- Leases, sessions, ports and the lease clock stand. -/
structure ClientsSame (s t : State) : Prop where
  leases : t.leases = s.leases
  sessions : t.sessions = s.sessions
  ports : t.ports = s.ports
  clock : t.leaseClock = s.leaseClock

/-- The work `w` is for the request that the engine serves, and FORMAT's only for an OPEN session. -/
def State.serves (s : State) (w : Work) : Prop :=
  (∀ o, w.owner = some o → s.work.owner = some o) ∧
    ∀ p, w.formatPort = some p → s.work.formatPort = some p ∨ (s.session p).isOpen = true

/-- What an effect on the store comes to for leases, sessions and ports. -/
inductive ClientStep (kind : CommandKind) (s t : State) : Prop
  | kept (same : ClientsSame s t) (serves : s.serves t.work)
  | answered (p : Port) (tag : Byte) (st : Status) (body : List Byte) (owner : s.work.owner = some (p, tag))
      (idle : t.work = .idle) (leases : t.leases = s.leases) (clock : t.leaseClock = s.leaseClock)
      (sessions : ∀ q, (s.session q).Posted (t.session q))
      (ports : t.ports = s.ports.set p ((s.port p).receive ⟨tag, st, body⟩).endService)
  | formatted (f : FormatWork) (u : State) (same : ClientsSame s u) (serves : s.serves (.format f)) (done : t = u.formatComplete f)
  | reset (asserted : kind = .reset) (work : t.work = .mount .held) (leases : t.leases = []) (clock : t.leaseClock = 0)
      (sessions : ∀ p, t.session p = Session.closed) (ports : ∀ p, t.port p = PortUnit.reset)

section
variable {kind : CommandKind} {s t u : State} {pl : Placement} {f : FormatWork} {ok : Bool}

theorem ClientsSame.refl (s : State) : ClientsSame s s := ⟨rfl, rfl, rfl, rfl⟩

theorem ClientsSame.trans (h : ClientsSame s t) (k : ClientsSame t u) : ClientsSame s u :=
  ⟨k.leases.trans h.leases, k.sessions.trans h.sessions, k.ports.trans h.ports, k.clock.trans h.clock⟩

/-- Work that no request waits for. -/
theorem serves_unowned {w : Work} (owner : w.owner = none) (format : w.formatPort = none) : s.serves w :=
  ⟨fun _ h => (by rw [owner] at h; cases h), fun _ h => (by rw [format] at h; cases h)⟩

theorem serves_idle : s.serves .idle := serves_unowned rfl rfl

theorem serves_own {w : Work} (inHand : s.work = w) : s.serves w :=
  ⟨fun _ h => inHand ▸ h, fun _ h => .inl (inHand ▸ h)⟩

/-- The FORMAT whose WIPE is in hand (R156). -/
theorem serves_format (serves : s.serves (.place pl)) (wipe : pl.format? = some f) : s.serves (.format f) := by
  obtain ⟨goal, -⟩ := format?_eq_some wipe
  simpa only [State.serves, Work.owner, Work.formatPort, goal] using serves

/-! ### FORMAT and placements -/

theorem FormatGoesOn.client (on : FormatGoesOn f u t) (same : ClientsSame s u) (serves : s.serves (.format f)) :
    ClientStep kind s t := by
  obtain ⟨leases, sessions, ports, clock⟩ := same
  cases on with
  | sweeps | pauses | erases => exact .kept ⟨leases, sessions, ports, clock⟩ serves
  | completes => exact .formatted f u ⟨leases, sessions, ports, clock⟩ serves rfl

/-- The request served is answered, from a state that only posted to sessions and ended its group. -/
theorem answer_client {p : Port} {tag : Byte} (st : Status) (body : List Byte) (owner : s.work.owner = some (p, tag))
    (leases : u.leases = s.leases) (clock : u.leaseClock = s.leaseClock) (ports : u.ports = s.ports)
    (sessions : ∀ q, (s.session q).Posted (u.session q)) : ClientStep kind s (u.answer p tag st body) :=
  .answered p tag st body owner rfl leases clock sessions (by rw [answer_ports, State.port, State.port, ports])

theorem ClientsSame.posted (same : ClientsSame s u) (q : Port) : (s.session q).Posted (u.session q) := by
  rw [State.session, State.session, same.sessions]; exact .same

theorem ClientsSame.answer (same : ClientsSame s u) {p : Port} {tag : Byte} (owner : s.work.owner = some (p, tag)) (st : Status)
    (body : List Byte) : ClientStep kind s (u.answer p tag st body) :=
  answer_client st body owner same.leases same.clock same.ports same.posted

/-- A client's work ends with a reply and no body, a reclaim step or a WIPE with none (R21, R65, R114, R123). -/
theorem endPlacement_client (st : Status) (same : ClientsSame s u) (serves : s.serves (.place pl)) :
    ClientStep kind s (u.endPlacement pl st) := by
  have owned (p : Port) (tag : Byte) (owner : (Work.place pl).owner = some (p, tag)) : s.work.owner = some (p, tag) :=
    serves.1 _ owner
  unfold State.endPlacement
  split
  · next p tag goal => exact same.answer (owned p tag (by simp only [Work.owner, goal])) st []
  · next p tag goal => exact same.answer (owned p tag (by simp only [Work.owner, goal])) st []
  · next p tag goal => exact same.answer (owned p tag (by simp only [Work.owner, goal])) st []
  · exact .kept ⟨same.leases, same.sessions, same.ports, same.clock⟩ serves_idle
  · exact .kept ⟨same.leases, same.sessions, same.ports, same.clock⟩ serves_idle

theorem Opening.client (opening : Opening pl u t) (same : ClientsSame s u) (serves : s.serves (.place pl)) :
    ClientStep kind s t := by
  cases opening with
  | opens i free => exact .kept ⟨same.leases, same.sessions, same.ports, same.clock⟩ serves
  | ends mode st => exact endPlacement_client st ⟨same.leases, same.sessions, same.ports, same.clock⟩ serves
  | formats f wipe on => exact on.client same (serves_format serves wipe)

theorem Placing.client (placing : Placing pl u t) (same : ClientsSame s u) (serves : s.serves (.place pl)) :
    ClientStep kind s t := by
  cases placing with
  | body h head => exact .kept ⟨same.leases, same.sessions, same.ports, same.clock⟩ serves
  | closes h head => exact .kept ⟨same.leases, same.sessions, same.ports, same.clock⟩ serves
  | opening headless opening => exact opening.client same serves

theorem wipePlaced_client (on : Placing f.wipePlacement u t ∨ FormatGoesOn f u t) (same : ClientsSame s u)
    (serves : s.serves (.format f)) : ClientStep kind s t :=
  on.elim (·.client same serves) (·.client same serves)

/-! ### The end of a flash operation -/

theorem posted_set {x : PerPort Session} {y : PerPort Session} (before : ∀ q, (x.get q).Posted (y.get q)) (p : Port) {z : Session}
    (posted : (x.get p).Posted z) : ∀ q, (x.get q).Posted ((y.set p z).get q) := by
  intro q
  rw [get_set]
  split
  · next same => exact same ▸ posted
  · exact before q

theorem postChanged_posted {x : Port → Session} (before : ∀ q, (x q).Posted (s.session q)) (p : Port) (k : Key) (v : SeqNo) :
    ∀ q, (x q).Posted ((s.postChanged p k v).session q) := by
  intro q
  by_cases own : q = p
  · subst own; rw [session_postChanged_self]; exact before q
  · rw [session_postChanged_other s k v own]; exact .changed k v (before q)

theorem postMembers_posted {x : Port → Session} (p : Port) (rs : List RecordSpec) : ∀ (s : State) (q : SeqNo),
    (∀ r, (x r).Posted (s.session r)) → ∀ r, (x r).Posted ((s.postMembers p rs q).session r) := by
  induction rs with
  | nil => exact fun s q before => before
  | cons r rs ih =>
    intro s q before
    unfold State.postMembers
    refine ih _ _ ?_
    split
    · exact postChanged_posted before p _ _
    · exact postChanged_posted before p _ _
    · exact before
    · exact before

theorem clearGroup_posted {x : Port → Session} (before : ∀ q, (x q).Posted (s.session q)) (p : Port) :
    ∀ q, (x q).Posted ((s.clearGroup p).session q) :=
  fun q => by
    unfold State.clearGroup
    by_cases own : q = p
    · subst own; rw [session_setSession_self]; exact .cleared (before q)
    · rw [session_setSession_other s _ own]; exact before q

theorem commitDone_client (q : SeqNo) (h base : Nat) {p : Port} {tag : Byte} (same : ClientsSame s u)
    (owner : s.work.owner = some (p, tag)) : ClientStep kind s (u.commitDone pl q h base p tag) := by
  obtain ⟨directory, sectors, applied⟩ := applyMembers_touches h pl.records u q base
  obtain ⟨posts, posted⟩ := postMembers_touches p pl.records
    (({ u with directory := directory, sectors := sectors }).clearGroup p) q
  unfold State.commitDone
  rw [applied]
  refine answer_client _ _ owner ?_ ?_ ?_ (postMembers_posted p pl.records _ q (clearGroup_posted same.posted p))
  · rw [posted]; exact same.leases
  · rw [posted]; exact same.clock
  · rw [posted]; exact same.ports

theorem copyDone_client (r : RecordSpec) (q : SeqNo) (h base line : Nat) (same : ClientsSame s u) :
    ClientStep kind s (u.copyDone r q h base line) := by
  obtain ⟨leases, sessions, ports, clock⟩ := same
  unfold State.copyDone
  split
  · exact .kept ⟨leases, sessions, ports, clock⟩ serves_idle
  · dsimp only
    split <;> exact .kept ⟨leases, sessions, ports, clock⟩ serves_idle

theorem Finished.client {h base : Nat} (done : Finished pl h base u t) (same : ClientsSame s u)
    (serves : s.serves (.place pl)) : ClientStep kind s t := by
  have owned (p : Port) (tag : Byte) (owner : (Work.place pl).owner = some (p, tag)) : s.work.owner = some (p, tag) :=
    serves.1 _ owner
  cases done with
  | empty => exact .kept ⟨same.leases, same.sessions, same.ports, same.clock⟩ serves_idle
  | written r rest p tag records goal =>
    exact answer_client _ _ (owned p tag (by simp only [Work.owner, goal])) same.leases same.clock same.ports
      (postChanged_posted same.posted p _ _)
  | deleted r rest p tag records goal =>
    exact answer_client _ _ (owned p tag (by simp only [Work.owner, goal])) same.leases same.clock same.ports
      (postChanged_posted same.posted p _ _)
  | committed p tag goal => exact commitDone_client _ h base same (owned p tag (by simp only [Work.owner, goal]))
  | copied r rest line records goal => exact copyDone_client r _ h base line same
  | wiped p tag goal on => exact on.client same (by simpa only [State.serves, Work.owner, Work.formatPort, goal] using serves)

theorem PlacementLine.client (line : PlacementLine pl ok u t) (same : ClientsSame s u) (serves : s.serves (.place pl)) :
    ClientStep kind s t := by
  obtain ⟨leases, sessions, ports, clock⟩ := same
  cases line with
  | closed h phase opening => exact opening.client ⟨leases, sessions, ports, clock⟩ serves
  | secondLine | headerFailed | opened | nextLine | nextRecord | failed =>
    exact .kept ⟨leases, sessions, ports, clock⟩ serves
  | retired i phase opening => exact opening.client ⟨leases, sessions, ports, clock⟩ serves
  | held h base k l n phase => exact endPlacement_client .hold ⟨leases, sessions, ports, clock⟩ serves
  | finished h base k l n phase done => exact done.client ⟨leases, sessions, ports, clock⟩ serves
  | again h phase opening => exact opening.client ⟨leases, sessions, ports, clock⟩ serves
  | wipeAgain h f phase wipe on => exact wipePlaced_client on ⟨leases, sessions, ports, clock⟩ (serves_format serves wipe)

/-- Mount serves no request. -/
theorem serves_mount (m : MountWork) : s.serves (.mount m) := serves_unowned rfl rfl

theorem mountContinue_client {m : MountWork} (same : ClientsSame s u) : ClientStep kind s (u.mountContinue m) := by
  unfold State.mountContinue
  split
  · exact .kept ⟨same.leases, same.sessions, same.ports, same.clock⟩ serves_idle
  · exact .kept ⟨same.leases, same.sessions, same.ports, same.clock⟩ (serves_mount _)

theorem LineEnded.client (ended : LineEnded ok u t) (same : ClientsSame s u) (work : u.work = s.work) : ClientStep kind s t := by
  have kept : ClientsSame s u := same
  obtain ⟨leases, sessions, ports, clock⟩ := same
  cases ended with
  | unawaited none => exact .kept kept (serves_own work.symm)
  | placed pl inHand line => exact line.client kept (serves_own (work ▸ inHand))
  | marked | tailRetired => exact .kept ⟨leases, sessions, ports, clock⟩ serves_idle
  | mountClosed | mountRetired => exact mountContinue_client ⟨leases, sessions, ports, clock⟩
  | formatRetired f i n inHand on =>
    exact on.client ⟨leases, sessions, ports, clock⟩ (serves_own (w := .format f) (work ▸ inHand))

theorem tailFailed_client (i : Nat) (same : ClientsSame s u) : ClientStep kind s (u.tailFailed i) := by
  unfold State.tailFailed
  split
  · exact .kept ⟨same.leases, same.sessions, same.ports, same.clock⟩ serves_idle
  · exact .kept ⟨same.leases, same.sessions, same.ports, same.clock⟩ (serves_unowned rfl rfl)

theorem EraseEnded.client (ended : EraseEnded u t) (same : ClientsSame s u) (work : u.work = s.work) : ClientStep kind s t := by
  have kept : ClientsSame s u := same
  obtain ⟨leases, sessions, ports, clock⟩ := same
  have inFormat (f : FormatWork) (inHand : u.work = .format f) : s.serves (.format f) := serves_own (work ▸ inHand)
  cases ended with
  | unawaited none => exact .kept kept (serves_own work.symm)
  | tailFreed | tailAborted => exact .kept ⟨leases, sessions, ports, clock⟩ serves_idle
  | tailErased => exact .kept ⟨leases, sessions, ports, clock⟩ (serves_unowned rfl rfl)
  | tailFailed i => exact tailFailed_client i kept
  | mountFreed => exact mountContinue_client ⟨leases, sessions, ports, clock⟩
  | mountErased | mountRetiring | mountWaits => exact .kept ⟨leases, sessions, ports, clock⟩ (serves_mount _)
  | formatErased f _ _ inHand | formatRetiring f _ _ inHand | formatWaits f _ _ inHand =>
    exact .kept ⟨leases, sessions, ports, clock⟩ (inFormat f inHand)
  | formatFreed f i inHand on =>
    have stays : ClientsSame s ((u.countErase i).freeSector i) := ⟨leases, sessions, ports, clock⟩
    rcases on with placing | on | on
    · exact placing.client stays (inFormat f inHand)
    · exact on.client stays (inFormat f inHand)
    · exact on.client stays (inFormat f inHand)
  | formatAgain f inHand on => exact on.client kept (inFormat f inHand)

end

/-- Leaving reset touches no lease, session or port (R145). -/
theorem mountRead_client {kind : CommandKind} {s u : State} (same : ClientsSame s u) : ClientStep kind s u.mountRead.takeRise := by
  rw [mountRead_eq, State.mountContinue]
  split
  · exact .kept ⟨same.leases, same.sessions, same.ports, same.clock⟩ serves_idle
  · exact .kept ⟨same.leases, same.sessions, same.ports, same.clock⟩ (serves_mount _)

/-- A placement for the request served. -/
theorem serves_request {s : State} {p : Port} {r : Request} {w : Work} (inHand : s.work = .request p r)
    (owner : ∀ o, w.owner = some o → o = (p, r.tag)) (format : w.formatPort = none) : s.serves w :=
  ⟨fun o h => (by rw [inHand, owner o h]; rfl), fun _ h => (by rw [format] at h; cases h)⟩

/-- What an effect on the store comes to for leases, sessions and ports. -/
theorem StoreEffect.client {kind : CommandKind} {s t : State} (h : StoreEffect s kind t) : ClientStep kind s t := by
  have same : ClientsSame s s := .refl s
  cases h with
  | reset pin hold held => exact .reset rfl rfl rfl rfl (fun p => by cases p <;> rfl) (fun p => by cases p <;> rfl)
  | stillHeld pin hold inReset held => exact .kept ⟨rfl, rfl, rfl, rfl⟩ (serves_own rfl)
  | mounted inReset => exact mountRead_client ⟨rfl, rfl, rfl, rfl⟩
  | closeBegun m i rest inHand => exact .kept ⟨rfl, rfl, rfl, rfl⟩ (serves_mount _)
  | dirtyBegun m i inHand => exact .kept ⟨rfl, rfl, rfl, rfl⟩ (serves_mount _)
  | writeBegun p r c inHand passed | deleteBegun p r c inHand passed =>
    exact startPlacement_placing.client same (serves_request inHand (fun o h => (by cases h; rfl)) rfl)
  | commitBegun p r inHand passed some =>
    exact startPlacement_placing.client same (serves_request inHand (fun o h => (by cases h; rfl)) rfl)
  | formatBegun p r inHand passed => 
    refine wipePlaced_client wipePlace_cases ⟨rfl, rfl, rfl, rfl⟩ ⟨fun o h => ?_, fun q h => .inr ?_⟩
    · cases h; rw [inHand]; rfl
    · cases h
      obtain ⟨opened, -⟩ := judge_ok_iff.mp passed
      exact failUnless_eq_none.mp opened
  | tailMarked i => 
    unfold State.markTail
    split
    · exact .kept ⟨rfl, rfl, rfl, rfl⟩ (serves_unowned rfl rfl)
    · exact .kept ⟨rfl, rfl, rfl, rfl⟩ serves_idle
  | copyBegun i line inHand unit tail found =>
    unfold State.copyFrom
    split
    · exact startPlacement_placing.client (u := s.moveCursor line) ⟨rfl, rfl, rfl, rfl⟩ (serves_unowned rfl rfl)
    · exact .kept ⟨rfl, rfl, rfl, rfl⟩ serves_idle
  | tailEraseBegun i =>
    unfold State.eraseTail
    split
    · exact .kept ⟨rfl, rfl, rfl, rfl⟩ (serves_unowned rfl rfl)
    · exact .kept ⟨rfl, rfl, rfl, rfl⟩ serves_idle
  | sweepBegun f i inHand => 
    unfold State.startSweep
    split <;> exact .kept ⟨rfl, rfl, rfl, rfl⟩ (serves_own (w := .format f) inHand)
  | wipePlaced f inHand => exact wipePlaced_client wipePlace_cases same (serves_own inHand)
  | lineDone i l data bits ok => exact lineEnded_ended.client ⟨rfl, rfl, rfl, rfl⟩ rfl
  | eraseDone i d bits v high o => exact (eraseEnded_ended o).client ⟨rfl, rfl, rfl, rfl⟩ rfl

end Sys2Proof.Machine
end

