-- ==== Sys2Proof/Proofs/DirectoryOrder.lean ====
section
/-! PROOF. The directory stays an ordered map of valid keys: each insertion is of a key that was checked when its record
was taken in hand, and mount reads valid keys alone. -/

namespace Sys2Proof.Machine

/-! ### Directories -/

section
variable {d : List DirEntry}

theorem directoryOrdered_nil : directoryOrdered [] := ⟨.nil, fun _ h => (by cases h)⟩

theorem directoryOrdered_insert {e : DirEntry} (ordered : directoryOrdered d) (valid : keyValid e.key = true) :
    directoryOrdered (insertKeyed DirEntry.key e d) := by
  refine ⟨insertKeyed_ascending DirEntry.key ordered.1, fun x hx => ?_⟩
  rcases mem_insertKeyed DirEntry.key hx with rfl | old
  · exact valid
  · exact ordered.2 x old

theorem directoryOrdered_remove (k : Key) (ordered : directoryOrdered d) :
    directoryOrdered (removeKeyed DirEntry.key k d) :=
  ⟨removeKeyed_ascending DirEntry.key ordered.1, fun x hx => ordered.2 x ((mem_removeKeyed DirEntry.key).mp hx).1⟩

/-- A valid key that is no system key is a user key, and stands below the system keys (R22). -/
theorem user_below_system {j k : Key} (valid : keyValid j = true) (user : systemKey j = false) (system : systemKey k = true) :
    j.toNat < k.toNat := by
  simp only [keyValid, user, Bool.or_false, userKey, Bool.and_eq_true, decide_eq_true_eq] at valid
  simp only [systemKey, Bool.and_eq_true, decide_eq_true_eq] at system
  omega

/-- The directory limit leaves an ordered directory (R154). -/
theorem limitDirectory_ordered (ordered : directoryOrdered d) : directoryOrdered (limitDirectory d) := by
  obtain ⟨ascending, valid⟩ := ordered
  have kept {n : Nat} {x : DirEntry} (hx : x ∈ (d.filter fun e => !systemKey e.key).take n) :
      x ∈ d ∧ systemKey x.key = false := by
    simpa using List.mem_filter.mp (List.mem_of_mem_take hx)
  unfold limitDirectory
  refine ⟨List.pairwise_append.mpr ⟨(ascending.filter _).take, ascending.filter _, fun x hx y hy => ?_⟩, fun x hx => ?_⟩
  · exact user_below_system (valid x (kept hx).1) (kept hx).2 (List.mem_filter.mp hy).2
  · rcases List.mem_append.mp hx with user | system
    · exact valid x (kept user).1
    · exact valid x (List.mem_filter.mp system).1

end

/-! ### What mount reads -/

/-- What a replay carries is an ordered directory, and the records of its run name valid keys. -/
def Replay.sound (a : Replay) : Prop :=
  directoryOrdered a.directory ∧ ∀ x ∈ a.run, x.1.kind = .value → keyValid x.1.key = true

theorem headerAt_valid {m : List Host.Cell} {i line : Nat} {k : RecordKind} (possible : (headerAt m i line k).possible line = true)
    (value : k = .value) : keyValid (headerAt m i line k).key = true := by
  subst value
  simp only [StoredRecord.possible, StoredRecord.kindPossible, headerAt, Bool.and_eq_true] at possible
  exact possible.1.2.1.1

/-- A good VALUE record names a valid key (R149). -/
theorem readRecord_valid {m : List Host.Cell} {i line : Nat} {r : StoredRecord} (read : readRecord m i line = .record r)
    (value : r.kind = .value) : keyValid r.key = true := by
  unfold readRecord at read
  split at read
  · cases read
  · split at read
    · cases read
    · split at read
      · cases read
      · split at read
        · next good =>
          cases read
          exact headerAt_valid (Bool.and_eq_true_iff.mp good).1 value
        · cases read

theorem applyStored_ordered {d : List DirEntry} {r : StoredRecord} (i line : Nat) (group : Bool) (ordered : directoryOrdered d)
    (valid : r.kind = .value → keyValid r.key = true) : directoryOrdered (applyStored d i r line group) := by
  unfold applyStored
  split
  · next value => exact directoryOrdered_insert ordered (valid value)
  · exact directoryOrdered_remove r.key ordered
  · exact ordered
  · exact ordered

theorem applyRun_ordered (i : Nat) (run : List (StoredRecord × Nat)) : ∀ {d : List DirEntry}, directoryOrdered d →
    (∀ x ∈ run, x.1.kind = .value → keyValid x.1.key = true) → directoryOrdered (applyRun i run d) := by
  induction run with
  | nil => exact fun ordered _ => ordered
  | cons x run ih =>
    intro d ordered valid
    exact ih (applyStored_ordered i x.2 true ordered (valid x List.mem_cons_self))
      fun y hy => valid y (List.mem_cons_of_mem x hy)

/-- Each record read leaves what the replay carries sound (R150). -/
theorem replayRecord_sound {a : Replay} {r : StoredRecord} (i line : Nat) (sound : a.sound)
    (valid : r.kind = .value → keyValid r.key = true) : (replayRecord i r line a).sound := by
  obtain ⟨ordered, run⟩ := sound
  have noRun : ∀ x ∈ ([] : List (StoredRecord × Nat)), x.1.kind = .value → keyValid x.1.key = true := fun _ h => (by cases h)
  have joined : ∀ x ∈ (if r.position = 1 then [(r, line)] else if joinsRun a.run r then a.run ++ [(r, line)] else []),
      x.1.kind = .value → keyValid x.1.key = true := by
    intro x hx
    split at hx
    · obtain rfl := List.mem_singleton.mp hx; exact valid
    · split at hx
      · rcases List.mem_append.mp hx with old | new
        · exact run x old
        · obtain rfl := List.mem_singleton.mp new; exact valid
      · cases hx
  unfold replayRecord
  split
  · exact ⟨directoryOrdered_nil, noRun⟩
  · refine ⟨?_, noRun⟩
    dsimp only
    split
    · exact applyRun_ordered i a.run ordered run
    · exact ordered
  · split
    · exact ⟨ordered, joined⟩
    · exact ⟨applyStored_ordered i line false ordered valid, noRun⟩
  · split
    · exact ⟨ordered, joined⟩
    · exact ⟨applyStored_ordered i line false ordered valid, noRun⟩

theorem replaySector_sound (m : List Host.Cell) (i : Nat) : ∀ (n line : Nat) (a : Replay), a.sound →
    (replaySector m i n line a).1.sound := by
  intro n
  induction n with
  | zero => exact fun line a sound => ⟨sound.1, fun _ h => (by cases h)⟩
  | succ n ih =>
    intro line a sound
    unfold replaySector
    split
    · exact ⟨sound.1, fun _ h => (by cases h)⟩
    · exact ⟨sound.1, fun _ h => (by cases h)⟩
    · next r read => exact ih _ _ (replayRecord_sound i line sound (readRecord_valid read))

theorem replayRing_sound (m : List Host.Cell) (ring : List Nat) : ∀ (t : List Sector) (a : Replay), a.sound →
    (replayRing m ring t a).2.1.sound := by
  induction ring with
  | nil => exact fun t a sound => sound
  | cons i ring ih => exact fun t a sound => ih _ _ (replaySector_sound (sectorCells m i) i 126 0 a sound)

theorem replayedDirectory_ordered (s : State) : directoryOrdered s.replayedDirectory := by
  unfold State.replayedDirectory State.replayed
  exact (replayRing_sound _ _ _ _ ⟨directoryOrdered_nil, fun _ h => (by cases h)⟩).1

/-! ### What a grant takes in hand -/

section
variable {s t : State}

theorem memberRecords_valid (count : Nat) (ms : List Member) : ∀ pos, (∀ m ∈ ms, keyValid m.key = true) →
    ∀ r ∈ memberRecords count pos ms, keyValid r.key = true := by
  induction ms with
  | nil => exact fun _ _ _ h => (by cases h)
  | cons m ms ih =>
    intro pos valid r hr
    rcases List.mem_cons.mp hr with rfl | later
    · have key : (memberRecord count pos m).key = m.key := by unfold memberRecord; split <;> rfl
      rw [key]; exact valid m List.mem_cons_self
    · exact ih (pos + 1) (fun x hx => valid x (List.mem_cons_of_mem m hx)) r later

/-- The record that a copy step finds live is of a key in the directory (R121). -/
theorem recordLive_entry {i line : Nat} (live : s.recordLive i line) : ∃ e, s.entry (s.copyRecord i line).key = some e := by
  obtain ⟨-, e, entry, -⟩ := live
  refine ⟨e, ?_⟩
  unfold State.copyRecord
  rw [payloadAddress_line, payloadAddress_line]
  exact entry

/-- The placements that a grant begins name valid keys. -/
theorem begun_keysSound {goal : Goal} {records : List RecordSpec} (sound : s.directorySound) (passed : Begun s goal records) :
    ∀ r ∈ records, goal.entersFirst = true ∨ r.kind = .value → keyValid r.key = true := by
  intro r hr enters
  cases passed with
  | write p r' c passed =>
    obtain rfl := List.mem_singleton.mp hr
    exact failUnless_eq_none.mp (writeVerdict_passed passed).2.1
  | delete p r' c passed =>
    obtain rfl := List.mem_singleton.mp hr
    rcases enters with h | h <;> cases h
  | commit p r' passed some =>
    rcases List.mem_append.mp hr with member | commit
    · exact memberRecords_valid _ _ 1 (sound.2.2 p) r member
    · obtain rfl := List.mem_singleton.mp commit
      rcases enters with h | h <;> cases h
  | copy i line found =>
    obtain rfl := List.mem_singleton.mp hr
    obtain ⟨-, -, live⟩ := scanTail_sound (s.sector i).fill s.reclaim.cursor .start found
    obtain ⟨e, entry⟩ := recordLive_entry live
    obtain ⟨listed, key⟩ := find_mem DirEntry.key entry
    exact key ▸ sound.1.2 e listed
  | wipe p tag =>
    obtain rfl := List.mem_singleton.mp hr
    rcases enters with h | h <;> cases h

theorem applyMembers_ordered (h : Nat) (rs : List RecordSpec) : ∀ (u : State) (q : SeqNo) (line : Nat),
    directoryOrdered u.directory → (∀ r ∈ rs, r.kind = .value → keyValid r.key = true) →
    directoryOrdered (u.applyMembers h rs q line).directory := by
  induction rs with
  | nil => exact fun _ _ _ ordered _ => ordered
  | cons r rs ih =>
    intro u q line ordered valid
    refine ih _ _ _ ?_ fun x hx => valid x (List.mem_cons_of_mem r hx)
    unfold State.applyMember
    split
    · next value => exact directoryOrdered_insert ordered (valid r List.mem_cons_self value)
    · exact directoryOrdered_remove r.key ordered
    · exact ordered
    · exact ordered

/-- Neither a placement nor a mount is in hand. -/
theorem plain_directorySound {w : Work} (plain : w.plain) : w.directorySound := by
  cases w with
  | place pl => exact absurd rfl (plain.1 pl)
  | mount m => exact absurd rfl (plain.2 m)
  | idle | request | teardown | reclaimGrant | marking | tailErase | tailRetire | format => trivial

/-- What a work in hand needs to be sound, said of each placement and each mount. -/
theorem work_directorySound {w : Work} (placed : ∀ pl, w = .place pl → pl.keysSound)
    (mounted : ∀ m, w = .mount m → directoryOrdered m.working) : w.directorySound := by
  cases w with
  | place pl => exact placed pl rfl
  | mount m => exact mounted m rfl
  | idle | request | teardown | reclaimGrant | marking | tailErase | tailRetire | format => trivial

theorem ofWipe_keysSound {pl : Placement} (wipe : pl.ofWipe) : pl.keysSound := by
  obtain ⟨p, tag, goal, records⟩ := wipe
  rw [Placement.keysSound, goal, records]
  intro r hr enters
  obtain rfl := List.mem_singleton.mp hr
  rcases enters with h | h <;> cases h

theorem ContentStep.directorySound (step : ContentStep s t) (sound : s.directorySound) :
    directoryOrdered t.directory ∧ t.work.directorySound := by
  obtain ⟨ordered, work, members⟩ := sound
  have placed {pl : Placement} (inHand : s.work = .place pl) : pl.keysSound := by rw [inHand] at work; exact work
  have mounting {m : MountWork} (inHand : s.work = .mount m) : directoryOrdered m.working := by rw [inHand] at work; exact work
  have ended (idle : t.work = .idle) : t.work.directorySound := by rw [idle]; trivial
  cases step with
  | carried same carries =>
    refine ⟨same.directory ▸ ordered, work_directorySound (fun pl inHand => ?_) fun m inHand => ?_⟩
    · rcases carries.1 pl inHand with ⟨pl', before, goal, records⟩ | wipe
      · rw [Placement.keysSound, goal, records]; exact placed before
      · exact ofWipe_keysSound wipe
    · obtain ⟨m', before, working⟩ := carries.2 m inHand
      rw [working]; exact mounting before
  | begun goal records same passed places =>
    refine ⟨same.directory ▸ ordered, work_directorySound (fun pl inHand => ?_) fun m inHand => absurd inHand (places.2 m)⟩
    obtain ⟨goals, record⟩ := places.1 pl inHand
    rw [Placement.keysSound, goals, record]
    exact begun_keysSound ⟨ordered, work, members⟩ passed
  | emptied empty =>
    refine ⟨empty.directory ▸ directoryOrdered_nil, work_directorySound (fun pl h => absurd h (empty.unplaced pl)) fun m h => ?_⟩
    rw [empty.unmounted m h]; exact directoryOrdered_nil
  | mounted m held working inHand same =>
    refine ⟨same.directory ▸ ordered, ?_⟩
    rw [inHand, Work.directorySound, working]
    exact replayedDirectory_ordered s
  | mountEnded m inHand idle directory =>
    refine ⟨directory ▸ limitDirectory_ordered ?_, ended idle⟩
    rcases inHand with ⟨m', before, working⟩ | ⟨held, working⟩
    · exact working ▸ mounting before
    · exact working ▸ replayedDirectory_ordered s
  | written pl r rest p tag q h base inHand records goal idle directory =>
    refine ⟨directory ▸ directoryOrdered_insert ordered ?_, ended idle⟩
    exact placed inHand r (by rw [records]; exact List.mem_cons_self) (.inl (by rw [goal]; rfl))
  | deleted k idle directory => exact ⟨directory ▸ directoryOrdered_remove k ordered, ended idle⟩
  | committed pl p tag u q h base inHand goal idle before directory =>
    refine ⟨directory ▸ applyMembers_ordered h pl.records u q base (before ▸ ordered) fun r hr value => ?_, ended idle⟩
    exact placed inHand r hr (.inr value)
  | copied pl r rest line q h base inHand records goal idle directory =>
    refine ⟨directory ▸ directoryOrdered_insert ordered ?_, ended idle⟩
    exact placed inHand r (by rw [records]; exact List.mem_cons_self) (.inl (by rw [goal]; rfl))

theorem StoreKept.directorySound (kept : StoreKept s t) (sound : s.directorySound) :
    directoryOrdered t.directory ∧ t.work.directorySound := by
  obtain ⟨ordered, work, -⟩ := sound
  refine ⟨kept.directory ▸ ordered, ?_⟩
  rcases kept.work with same | ⟨-, light⟩
  · exact same ▸ work
  · exact plain_directorySound ⟨light_not_place light, light_not_mount light⟩

end

end Sys2Proof.Machine
end

