-- ==== Sys2Proof/Proofs/SessionSteps.lean ====
section
/-! PROOF. What a step does to one session, said once for the invariants of sessions. -/

namespace Sys2Proof.Machine

/-- A session after the lease table's events: its parked claim may have ended, and lapses may have been posted (R79, R82, R83). -/
inductive Session.Lapsed (x : Session) : Session → Prop
  | same : Lapsed x x
  | unparked {y : Session} (before : Lapsed x y) : Lapsed x { y with parked := none }
  | lapsed {y : Session} (k : Key) (before : Lapsed x y) :
      Lapsed x { y with notices := postNotice k Notice.markLapsed y.notices }

/-- What one step makes of one session. -/
inductive SessionStep (x : Session) : Session → Prop
  | lapsed {y : Session} (lapses : x.Lapsed y) : SessionStep x y
  | posted {y : Session} (posts : x.Posted y) : SessionStep x y
  | closed : SessionStep x .closed
  | bound (rights : Rights) : SessionStep x (x.bind rights)
  | parked (mark : Key × Byte) : SessionStep x { x with parked := some mark }
  | watched (k : Key) (room : ¬(x.watch.contains k = false ∧ 16 ≤ x.watch.length)) : SessionStep x (x.addWatch k)
  | unwatched (k : Key) : SessionStep x (x.dropWatch k)
  | noticeTaken (n : Notice) (rest : List Notice) (notices : x.notices = n :: rest) : SessionStep x { x with notices := rest }
  | groupBegun : SessionStep x { x with groupOpen := true, members := [] }
  | memberPut (c : Change) (isOpen : x.groupOpen = true) (valid : keyValid c.key = true)
      (limits : checkStaging (stageMember c.member x.members) = none) :
      SessionStep x { x with members := stageMember c.member x.members }
  | formatted (rights : Rights) {y : Session} (lapses : x.Lapsed y) : SessionStep x
      { y with rights := rights, watch := [], notices := [], groupOpen := false, members := [] }

theorem SessionStep.same (x : Session) : SessionStep x x := .lapsed .same

/-! ### The lease table's events -/

section
variable {s t : State} {x : Port → Session}

theorem lapsed_setSession (before : ∀ q, (x q).Lapsed (s.session q)) (p : Port) {z : Session} (own : (x p).Lapsed z) :
    ∀ q, (x q).Lapsed ((s.setSession p z).session q) := by
  intro q
  by_cases same : q = p
  · subst same; rw [session_setSession_self]; exact own
  · rw [session_setSession_other s z same]; exact before q

theorem endLease_lapsed (before : ∀ q, (x q).Lapsed (s.session q)) (k : Key) :
    ∀ q, (x q).Lapsed ((s.endLease k).session q) := by
  unfold State.endLease
  split
  · exact before
  · split
    · exact before
    · exact lapsed_setSession before _ (.unparked (before _))

theorem releaseAll_lapsed (before : ∀ q, (x q).Lapsed (s.session q)) (p : Port) :
    ∀ q, (x q).Lapsed ((s.releaseAll p).session q) := by
  unfold State.releaseAll
  generalize (s.leases.filter fun e => decide (e.holder = p)).map Lease.key = keys
  induction keys generalizing s with
  | nil => exact before
  | cons k keys ih => exact ih (endLease_lapsed before k)

theorem removeParked_lapsed (before : ∀ q, (x q).Lapsed (s.session q)) (p : Port) :
    ∀ q, (x q).Lapsed ((s.removeParked p).session q) :=
  lapsed_setSession before p (.unparked (before p))

theorem dropParked_lapsed (before : ∀ q, (x q).Lapsed (s.session q)) (p : Port) (answered : Bool) :
    ∀ q, (x q).Lapsed ((s.dropParked p answered).session q) := by
  unfold State.dropParked
  split
  · exact before
  · split <;> exact removeParked_lapsed before p

theorem takeExpiry_lapsed (before : ∀ q, (x q).Lapsed (s.session q)) (e : Expiry) :
    ∀ q, (x q).Lapsed ((s.takeExpiry e).session q) := by
  cases e with
  | lease k =>
    unfold State.takeExpiry State.expireLease
    dsimp only
    split
    · exact before
    · split
      · exact endLease_lapsed (lapsed_setSession before _ (.lapsed k (before _))) k
      · exact before
  | wait p =>
    unfold State.takeExpiry State.expireWait
    dsimp only
    split
    · exact before
    · split
      · exact removeParked_lapsed before p
      · exact before

theorem advanceClock_lapsed (first : List Expiry) : ∀ q, (s.session q).Lapsed ((s.advanceClock first).session q) := by
  unfold State.advanceClock
  have before : ∀ q, (s.session q).Lapsed (s.tickClock.session q) := fun _ => .same
  generalize s.tickClock = u at before
  generalize first ++ s.expiries = expiries
  induction expiries generalizing u with
  | nil => exact before
  | cons e expiries ih => exact ih _ (takeExpiry_lapsed before e)

/-! ### Every step -/

/-- A step of one session beside others that stand. -/
theorem sessionStep_set {p : Port} {z : Session} (own : SessionStep (s.session p) z)
    (sessions : t.sessions = s.sessions.set p z) : ∀ q, SessionStep (s.session q) (t.session q) := by
  intro q
  rw [State.session, State.session, sessions, get_set]
  split
  · next same => exact same ▸ own
  · exact .same _

theorem sessionStep_same (sessions : t.sessions = s.sessions) : ∀ q, SessionStep (s.session q) (t.session q) := by
  intro q
  rw [State.session, State.session, sessions]
  exact .same _

theorem tearDown_sessionStep (p : Port) (answered : Bool) : ∀ q, SessionStep (s.session q) ((s.tearDown p answered).session q) := by
  intro q
  unfold State.tearDown State.closeSession
  by_cases same : q = p
  · subst same; rw [session_setSession_self]; exact .closed
  · rw [session_setSession_other _ _ same]
    exact .lapsed (dropParked_lapsed (releaseAll_lapsed (fun _ => .same) p) p answered q)

theorem claimAct_sessionStep (p : Port) (r : Request) (c : ClaimBody) :
    ∀ q, SessionStep (s.session q) ((claimAct p r c s).session q) := by
  unfold claimAct
  split
  · split <;> exact sessionStep_same rfl
  · split
    · exact sessionStep_same rfl
    · unfold State.claimHeld
      split
      · exact sessionStep_same rfl
      · split
        · exact sessionStep_same rfl
        · split
          · exact sessionStep_same rfl
          · exact sessionStep_set (.parked (c.key, r.tag)) rfl

theorem ClientEffect.sessionStep {kind : CommandKind} (effect : ClientEffect s kind t) :
    ∀ q, SessionStep (s.session q) (t.session q) := by
  cases effect with
  | nothing | supplied | framed | fetched | answered | compacted => exact sessionStep_same rfl
  | selected p => exact sessionStep_same (by unfold State.select; split <;> rfl)
  | submitted p input part => exact sessionStep_same (by unfold State.submitFrame; split <;> rfl)
  | portReset p input part => exact sessionStep_same (by unfold State.portResetFrame; split <;> rfl)
  | granted idle =>
    refine sessionStep_same ?_
    cases s.choice with
    | none | reclaim => rfl
    | port p =>
      unfold State.grant State.grantPort
      dsimp only
      split
      · rfl
      · split <;> rfl
  | opened p r e inHand => exact sessionStep_set (.bound (s.rightsInForce.get p)) rfl
  | closed p r inHand passed => exact tearDown_sessionStep p true
  | claimed p r c inHand passed => exact claimAct_sessionStep p r c
  | renewed p r c inHand passed => exact sessionStep_same (by unfold renewAct; split <;> rfl)
  | released p r k inHand =>
    unfold releaseAct
    split
    · exact fun q => .lapsed (endLease_lapsed (fun _ => .same) k q)
    · exact sessionStep_same rfl
  | watched p r k inHand passed =>
    unfold watchAct
    split
    · exact sessionStep_same rfl
    · next room => exact sessionStep_set (.watched k room) rfl
  | unwatched p r k inHand passed => exact sessionStep_set (.unwatched k) rfl
  | noticeTaken p r inHand passed =>
    unfold takeNoticeAct
    split
    · exact sessionStep_same rfl
    · next n rest notices => exact sessionStep_set (.noticeTaken n rest notices) rfl
  | groupBegun p r inHand passed => exact sessionStep_set .groupBegun rfl
  | memberPut p r c inHand passed =>
    obtain ⟨-, -, later⟩ := judge_ok_iff.mp passed
    rw [firstFailing_eq_none] at later
    have grouped : checkGroup s p = none := later _ (by simp)
    have valid : checkKey c.key = none := later _ (by simp)
    have limits : checkStaging (stagedAfter s p c) = none := later _ (by simp)
    exact sessionStep_set (.memberPut c (failUnless_eq_none.mp grouped) (failUnless_eq_none.mp valid) limits) rfl
  | groupCleared p r body inHand => exact sessionStep_set (.posted (.cleared .same)) rfl
  | tornDown p inHand => exact tearDown_sessionStep p false
  | advanced first => exact fun q => .lapsed (advanceClock_lapsed first q)

theorem formatComplete_sessionStep (f : FormatWork) : ∀ q, SessionStep (s.session q) ((s.formatComplete f).session q) := by
  intro q
  have lapses := releaseAll_lapsed (s := s.formatStore) (x := s.session) (fun _ => .same) f.port q
  unfold State.formatComplete State.formatSession
  dsimp only
  rw [session_answer]
  by_cases same : q = f.port
  · subst same
    rw [State.session, State.session, setSession_sessions, get_set_self]
    exact .formatted _ lapses
  · rw [State.session, State.session, setSession_sessions, get_set_other _ _ same]
    exact .lapsed lapses

theorem ClientStep.sessionStep {kind : CommandKind} (step : ClientStep kind s t) :
    ∀ q, SessionStep (s.session q) (t.session q) := by
  cases step with
  | kept same => exact sessionStep_same same.sessions
  | answered p tag st body owner idle leases clock sessions => exact fun q => .posted (sessions q)
  | formatted f u same serves done =>
    intro q
    have step := formatComplete_sessionStep (s := u) f q
    have stands : u.session q = s.session q := by rw [State.session, State.session, same.sessions]
    rw [done, ← stands]
    exact step
  | reset _ work leases clock sessions =>
    intro q
    rw [sessions q]
    exact .closed

end

/-- Every step makes of each session one of these. -/
theorem step_sessionStep {s t : State} (ran : step s = .next t) (q : Port) : SessionStep (s.session q) (t.session q) := by
  obtain rfl | ⟨c, rest, ran⟩ := step_cases ran
  · exact .same _
  · rcases exec_effect ran with effect | effect
    · exact effect.sessionStep q
    · exact effect.client.sessionStep q

end Sys2Proof.Machine
end

