-- ==== Sys2Proof/Proofs/StepKeepsDirectoryOrdered.lean ====
section
/-! PROOF. Every step keeps the lists of each session within their limits, and the directory ordered: the lists by what a step makes of one
session, and the directory by what was checked when the records in hand were taken. -/

namespace Sys2Proof.Machine

/-! ### Staged members and notices -/

section
variable {x y : Session}

theorem mem_stageMember {m n : Member} : ∀ {ms : List Member}, n ∈ stageMember m ms → n = m ∨ n ∈ ms
  | [], h => .inl (List.mem_singleton.mp h)
  | z :: zs, h => by
    unfold stageMember at h
    split at h
    · exact (List.mem_cons.mp h).imp id (List.mem_cons_of_mem z)
    · rcases List.mem_cons.mp h with rfl | later
      · exact .inr List.mem_cons_self
      · exact (mem_stageMember later).imp id (List.mem_cons_of_mem z)

theorem stageMember_nodup {m : Member} : ∀ {ms : List Member}, (ms.map Member.key).Nodup →
    ((stageMember m ms).map Member.key).Nodup
  | [], _ => by simp [stageMember]
  | z :: zs, distinct => by
    obtain ⟨fresh, rest⟩ := List.nodup_cons.mp distinct
    unfold stageMember
    split
    · next same => exact List.nodup_cons.mpr ⟨same ▸ fresh, rest⟩
    · next other =>
      refine List.nodup_cons.mpr ⟨fun listed => ?_, stageMember_nodup rest⟩
      obtain ⟨n, hn, key⟩ := List.mem_map.mp listed
      rcases mem_stageMember hn with rfl | old
      · exact other key.symm
      · exact fresh (List.mem_map.mpr ⟨n, old, key⟩)

theorem mem_postNotice {k : Key} {f : Notice → Notice} {n : Notice} : ∀ {ns : List Notice}, n ∈ postNotice k f ns →
    n ∈ ns ∨ n = f ⟨k, false, 0, false⟩ ∨ ∃ m ∈ ns, m.key = k ∧ n = f m
  | [], h => .inr (.inl (List.mem_singleton.mp h))
  | z :: zs, h => by
    unfold postNotice at h
    split at h
    · next same =>
      rcases List.mem_cons.mp h with rfl | later
      · exact .inr (.inr ⟨z, List.mem_cons_self, same, rfl⟩)
      · exact .inl (List.mem_cons_of_mem z later)
    · rcases List.mem_cons.mp h with rfl | later
      · exact .inl List.mem_cons_self
      · rcases mem_postNotice later with old | fresh | ⟨m, hm, key, rfl⟩
        · exact .inl (List.mem_cons_of_mem z old)
        · exact .inr (.inl fresh)
        · exact .inr (.inr ⟨m, List.mem_cons_of_mem z hm, key, rfl⟩)

/-- A posting that keeps keys adds no second entry of a key (R96). -/
theorem postNotice_nodup {k : Key} {f : Notice → Notice} (keeps : ∀ n, (f n).key = n.key) : ∀ {ns : List Notice},
    (ns.map Notice.key).Nodup → ((postNotice k f ns).map Notice.key).Nodup
  | [], _ => by simp [postNotice]
  | z :: zs, distinct => by
    obtain ⟨fresh, rest⟩ := List.nodup_cons.mp distinct
    unfold postNotice
    split
    · rw [List.map_cons, keeps]; exact distinct
    · next other =>
      refine List.nodup_cons.mpr ⟨fun listed => ?_, postNotice_nodup keeps rest⟩
      obtain ⟨n, hn, key⟩ := List.mem_map.mp listed
      rcases mem_postNotice hn with old | rfl | ⟨m, hm, -, rfl⟩
      · exact fresh (List.mem_map.mpr ⟨n, old, key⟩)
      · rw [keeps] at key; exact other key.symm
      · rw [keeps] at key; exact fresh (List.mem_map.mpr ⟨m, hm, key⟩)

/-- A notice is of a watched key, or of a lapse alone (R94, R95). -/
def Notice.soundFor (watch : List Key) (n : Notice) : Prop :=
  (n.changed = true ∧ n.key ∈ watch) ∨ (n.changed = false ∧ n.lapsed = true)

theorem noticesSound_iff : x.noticesSound ↔ (x.notices.map Notice.key).Nodup ∧ ∀ n ∈ x.notices, n.soundFor x.watch := Iff.rfl

/-- A lapse is posted (R82, R96). -/
theorem noticesSound_lapsed (k : Key) (sound : x.noticesSound) :
    ({ x with notices := postNotice k Notice.markLapsed x.notices } : Session).noticesSound := by
  obtain ⟨distinct, each⟩ := noticesSound_iff.mp sound
  refine ⟨postNotice_nodup (f := Notice.markLapsed) (fun _ => rfl) distinct, fun n hn => ?_⟩
  rcases mem_postNotice hn with old | rfl | ⟨m, hm, -, rfl⟩
  · exact each n old
  · exact .inr ⟨rfl, rfl⟩
  · exact (each m hm).imp id fun h => ⟨h.1, rfl⟩

/-- A change is posted to a session that watches the key (R95). -/
theorem noticesSound_takeChanged (k : Key) (v : SeqNo) (sound : x.noticesSound) : (x.takeChanged k v).noticesSound := by
  obtain ⟨distinct, each⟩ := noticesSound_iff.mp sound
  unfold Session.takeChanged
  split
  · next watched =>
    have key : k ∈ x.watch := by simpa using (Bool.and_eq_true_iff.mp watched).2
    refine ⟨postNotice_nodup (f := Notice.markChanged v) (fun _ => rfl) distinct, fun n hn => ?_⟩
    rcases mem_postNotice hn with old | rfl | ⟨m, hm, same, rfl⟩
    · exact each n old
    · exact .inl ⟨rfl, key⟩
    · exact .inl ⟨rfl, same.symm ▸ key⟩
  · exact sound

theorem mem_clearChanged {k : Key} {n : Notice} : ∀ {ns : List Notice}, (ns.map Notice.key).Nodup → n ∈ clearChanged k ns →
    (n ∈ ns ∧ n.key ≠ k) ∨ (n.changed = false ∧ n.lapsed = true)
  | [], _, h => by cases h
  | z :: zs, distinct, h => by
    obtain ⟨fresh, rest⟩ := List.nodup_cons.mp distinct
    have later_other (same : z.key = k) (hn : n ∈ zs) : n ∈ z :: zs ∧ n.key ≠ k :=
      ⟨List.mem_cons_of_mem z hn, fun key => fresh (List.mem_map.mpr ⟨n, hn, key.trans same.symm⟩)⟩
    unfold clearChanged at h
    split at h
    · next same =>
      split at h
      · next lapsed =>
        rcases List.mem_cons.mp h with rfl | later
        · exact .inr ⟨rfl, lapsed⟩
        · exact .inl (later_other same later)
      · exact .inl (later_other same h)
    · next other =>
      rcases List.mem_cons.mp h with rfl | later
      · exact .inl ⟨List.mem_cons_self, other⟩
      · exact (mem_clearChanged rest later).imp (fun old => ⟨List.mem_cons_of_mem z old.1, old.2⟩) id

theorem clearChanged_keys (k : Key) : ∀ ns : List Notice, List.Sublist ((clearChanged k ns).map Notice.key) (ns.map Notice.key)
  | [] => .slnil
  | z :: zs => by
    unfold clearChanged
    split
    · split
      · exact List.Sublist.refl _
      · exact List.sublist_cons_self _ _
    · exact (clearChanged_keys k zs).cons_cons _

/-- A key leaves the watch list with its changed flag (R93). -/
theorem noticesSound_dropWatch (k : Key) (sound : x.noticesSound) : (x.dropWatch k).noticesSound := by
  obtain ⟨distinct, each⟩ := noticesSound_iff.mp sound
  have stays {n : Notice} (hn : n ∈ x.notices) (other : n.key = k → n.changed = false) :
      n.soundFor (x.watch.filter fun y => y != k) := by
    refine (each n hn).imp (fun watched => ⟨watched.1, List.mem_filter.mpr ⟨watched.2, ?_⟩⟩) id
    rw [bne_iff_ne]
    intro same
    rw [other same] at watched
    cases watched.1
  unfold Session.dropWatch
  split
  · refine ⟨distinct.sublist (clearChanged_keys k x.notices), fun n hn => ?_⟩
    rcases mem_clearChanged distinct hn with ⟨old, other⟩ | lapse
    · exact stays old fun same => absurd same other
    · exact .inr lapse
  · next unwatched =>
    refine ⟨distinct, fun n hn => stays hn fun same => ?_⟩
    rcases each n hn with watched | lapse
    · exact absurd (by simpa [same] using watched.2) unwatched
    · exact lapse.1

/-! ### One session -/

/-- The lists of a session are within their limits. -/
def Session.limited (x : Session) : Prop :=
  x.watch.Nodup ∧ x.watch.length ≤ 16 ∧ x.noticesSound ∧ x.stagingSound

theorem closed_limited : Session.closed.limited :=
  ⟨.nil, Nat.zero_le _, ⟨.nil, fun _ h => (by cases h)⟩, .nil, Nat.zero_le _, Nat.zero_le _, fun _ => rfl⟩

theorem Session.Lapsed.limited (lapses : x.Lapsed y) (limited : x.limited) : y.limited := by
  induction lapses with
  | same => exact limited
  | unparked before ih => exact ih
  | lapsed k before ih => exact ⟨ih.1, ih.2.1, noticesSound_lapsed k ih.2.2.1, ih.2.2.2⟩

theorem Session.Posted.limited (posts : x.Posted y) (limited : x.limited) : y.limited := by
  induction posts with
  | same => exact limited
  | changed k v before ih => exact ⟨ih.1, ih.2.1, noticesSound_takeChanged k v ih.2.2.1, ih.2.2.2⟩
  | cleared before ih => exact ⟨ih.1, ih.2.1, ih.2.2.1, .nil, Nat.zero_le _, Nat.zero_le _, fun _ => rfl⟩

theorem addWatch_limited {k : Key} (room : ¬(x.watch.contains k = false ∧ 16 ≤ x.watch.length)) (limited : x.limited) :
    (x.addWatch k).limited := by
  obtain ⟨distinct, short, ⟨keys, each⟩, staging⟩ := limited
  unfold Session.addWatch
  split
  · exact ⟨distinct, short, ⟨keys, each⟩, staging⟩
  · next absent =>
    have fresh : k ∉ x.watch := by simpa using absent
    have fits : x.watch.length < 16 := by simpa [fresh] using room
    refine ⟨List.nodup_append.mpr ⟨distinct, List.nodup_singleton k, fun a ha b hb same => ?_⟩, ?_, ⟨keys, fun n hn => ?_⟩, staging⟩
    · obtain rfl := List.mem_singleton.mp hb
      exact fresh (same ▸ ha)
    · rw [List.length_append]; exact fits
    · exact (each n hn).imp (fun watched => ⟨watched.1, List.mem_append_left _ watched.2⟩) id

theorem memberPut_limited {c : Change} (isOpen : x.groupOpen = true) (limits : checkStaging (stageMember c.member x.members) = none)
    (limited : x.limited) : ({ x with members := stageMember c.member x.members } : Session).limited := by
  obtain ⟨distinct, short, notices, keys, -⟩ := limited
  simp only [checkStaging, failUnless_eq_none, Bool.and_eq_true, decide_eq_true_eq] at limits
  exact ⟨distinct, short, notices, stageMember_nodup keys, limits.1, limits.2, fun shut => by rw [isOpen] at shut; cases shut⟩

theorem SessionStep.limited (step : SessionStep x y) (limited : x.limited) : y.limited := by
  cases step with
  | lapsed lapses => exact lapses.limited limited
  | posted posts => exact posts.limited limited
  | closed => exact closed_limited
  | bound | parked => exact limited
  | watched k room => exact addWatch_limited room limited
  | unwatched k =>
    obtain ⟨distinct, short, notices, staging⟩ := limited
    exact ⟨distinct.filter _, (List.length_filter_le _ _).trans short, noticesSound_dropWatch k notices, staging⟩
  | noticeTaken n rest notices =>
    obtain ⟨distinct, short, ⟨keys, each⟩, staging⟩ := limited
    rw [notices] at keys each
    exact ⟨distinct, short, ⟨(List.nodup_cons.mp keys).2, fun m hm => each m (List.mem_cons_of_mem n hm)⟩, staging⟩
  | groupBegun =>
    obtain ⟨distinct, short, notices, -⟩ := limited
    exact ⟨distinct, short, notices, .nil, Nat.zero_le _, Nat.zero_le _, fun _ => rfl⟩
  | memberPut c isOpen valid limits => exact memberPut_limited isOpen limits limited
  | formatted rights lapses => exact closed_limited

theorem Session.Lapsed.members (lapses : x.Lapsed y) : y.members = x.members := by
  induction lapses with
  | same => rfl
  | unparked before ih => exact ih
  | lapsed k before ih => exact ih

theorem Session.Posted.membersSound (posts : x.Posted y) (sound : x.membersSound) : y.membersSound := by
  induction posts with
  | same => exact sound
  | changed k v before ih => exact ih
  | cleared before ih => exact fun _ h => (by cases h)

theorem SessionStep.membersSound (step : SessionStep x y) (sound : x.membersSound) : y.membersSound := by
  have empty {z : Session} (none : z.members = []) : z.membersSound := fun m hm => by rw [none] at hm; cases hm
  cases step with
  | lapsed lapses => rw [Session.membersSound, lapses.members]; exact sound
  | posted posts => exact posts.membersSound sound
  | closed | groupBegun | formatted => exact empty rfl
  | bound | parked | watched | unwatched | noticeTaken => exact sound
  | memberPut c isOpen valid limits =>
    intro m hm
    rcases mem_stageMember hm with rfl | old
    · exact valid
    · exact sound m old

end

/-- Settles O50: the directory by what an effect makes of it, the staged members by what a step makes of one session. -/
theorem stepKeepsDirectoryOrdered : Obligations.StepKeepsDirectoryOrdered := by
  intro s t sound ran
  have members : ∀ p, (t.session p).membersSound := fun p => (step_sessionStep ran p).membersSound (sound.2.2 p)
  obtain rfl | ⟨c, rest, ran⟩ := step_cases ran
  · exact sound
  · suffices store : directoryOrdered t.directory ∧ t.work.directorySound from ⟨store.1, store.2, members⟩
    rcases exec_effect ran with effect | effect
    · exact effect.storeKept.directorySound sound
    · exact effect.content.directorySound sound

end Sys2Proof.Machine
end

