-- ==== Sys2Proof/Proofs/StepKeepsListLimits.lean ====
section
/-! PROOF. Every step keeps the directory, watch lists, staging areas and notice lists within their limits. The directory's count was
checked when the change in hand was taken, for the keys that it will leave. -/

namespace Sys2Proof.Machine

/-! ### The keys of a directory -/

section
variable {keys : List Key} {k : Key}

/-- Keys in strictly ascending order. -/
def ascending (keys : List Key) : Prop := keysAscending id keys

theorem map_insertKeyed (e : DirEntry) : ∀ d : List DirEntry,
    (insertKeyed DirEntry.key e d).map DirEntry.key = insertKeyed id e.key (d.map DirEntry.key)
  | [] => rfl
  | y :: ys => by
    simp only [insertKeyed, List.map_cons, id]
    split
    · rfl
    · split
      · rfl
      · rw [List.map_cons, map_insertKeyed e ys]

theorem map_removeKeyed (k : Key) (d : List DirEntry) :
    (removeKeyed DirEntry.key k d).map DirEntry.key = removeKeyed id k (d.map DirEntry.key) := by
  simp only [removeKeyed, List.filter_map]; rfl

theorem mem_insertKeyed_iff {j : Key} : ∀ {keys : List Key}, j ∈ insertKeyed id k keys ↔ j = k ∨ j ∈ keys
  | [] => by simp [insertKeyed]
  | y :: ys => by
    simp only [insertKeyed, id]
    split
    · exact List.mem_cons
    · split
      · next same => simp [same]
      · rw [List.mem_cons, mem_insertKeyed_iff, List.mem_cons]; tauto

theorem length_insertKeyed_fresh : ∀ {keys : List Key}, k ∉ keys → (insertKeyed id k keys).length = keys.length + 1
  | [], _ => rfl
  | y :: ys, fresh => by
    simp only [insertKeyed, id]
    split
    · rfl
    · split
      · next same => exact absurd (same ▸ List.mem_cons_self) fresh
      · rw [List.length_cons, length_insertKeyed_fresh fun h => fresh (List.mem_cons_of_mem y h), List.length_cons]

theorem length_insertKeyed_listed : ∀ {keys : List Key}, ascending keys → k ∈ keys →
    (insertKeyed id k keys).length = keys.length
  | [], _, listed => by cases listed
  | y :: ys, order, listed => by
    obtain ⟨below, rest⟩ := List.pairwise_cons.mp order
    simp only [insertKeyed, id]
    split
    · next lower =>
      rcases List.mem_cons.mp listed with rfl | later
      · exact absurd lower (Nat.lt_irrefl _)
      · exact absurd (Nat.lt_trans lower (below k later)) (Nat.lt_irrefl _)
    · split
      · rfl
      · next other =>
        rw [List.length_cons, length_insertKeyed_listed rest ((List.mem_cons.mp listed).resolve_left other), List.length_cons]

theorem length_removeKeyed_fresh (fresh : k ∉ keys) : (removeKeyed id k keys).length = keys.length := by
  rw [removeKeyed, List.filter_eq_self.mpr]
  intro j hj
  simpa using fun same : j = k => fresh (same ▸ hj)

theorem length_removeKeyed_listed : ∀ {keys : List Key}, ascending keys → k ∈ keys →
    (removeKeyed id k keys).length + 1 = keys.length
  | [], _, listed => by cases listed
  | y :: ys, order, listed => by
    obtain ⟨below, rest⟩ := List.pairwise_cons.mp order
    by_cases same : y = k
    · have gone : k ∉ ys := fun later => absurd (below k later) (by rw [same]; exact Nat.lt_irrefl _)
      have kept := length_removeKeyed_fresh gone
      simpa [removeKeyed, same] using kept
    · have kept := length_removeKeyed_listed rest ((List.mem_cons.mp listed).resolve_left (Ne.symm same))
      simpa [removeKeyed, same] using kept

theorem mem_removeKeyed_iff {j : Key} : j ∈ removeKeyed id k keys ↔ j ∈ keys ∧ j ≠ k := by
  simpa using mem_removeKeyed (key := (id : Key → Key)) (k := k) (y := j) (l := keys)

end

section
variable {s t : State}

theorem entry_isSome_iff {k : Key} : (s.entry k).isSome = true ↔ k ∈ s.directory.map DirEntry.key := by
  unfold State.entry findKeyed
  rw [List.find?_isSome, List.mem_map]
  simp only [beq_iff_eq]

theorem directoryOrdered.keys {d : List DirEntry} (ordered : directoryOrdered d) : ascending (d.map DirEntry.key) := by
  exact List.pairwise_map.mpr ordered.1

/-! ### What the change in hand will leave -/

/-- What a member changes in the count of keys (R26, R107). -/
def Member.changes (keys : List Key) (m : Member) : Int :=
  if m.delete = true then (if m.key ∈ keys then -1 else 0) else if m.key ∈ keys then 0 else 1

theorem countChange_eq (m : Member) : Member.countChange s m = m.changes (s.directory.map DirEntry.key) := by
  have listed := entry_isSome_iff (s := s) (k := m.key)
  unfold Member.countChange Member.changes
  cases deletes : m.delete <;> cases found : (s.entry m.key).isSome
  · rw [if_neg (by simp), if_neg (by rw [← listed, found]; simp)]
  · rw [if_neg (by simp), if_pos (by rw [← listed, found])]
  · rw [if_pos rfl, if_neg (by rw [← listed, found]; simp)]
  · rw [if_pos rfl, if_pos (by rw [← listed, found])]

/-- One member's record. -/
def applyMemberKey (keys : List Key) (m : Member) : List Key :=
  if m.delete = true then removeKeyed id m.key keys else insertKeyed id m.key keys

theorem applyKey_memberRecord (count pos : Nat) (m : Member) (keys : List Key) :
    applyKey keys (memberRecord count pos m) = applyMemberKey keys m := by
  unfold memberRecord applyMemberKey
  split <;> rfl

theorem applyMemberKey_length {keys : List Key} (order : ascending keys) (m : Member) :
    ((applyMemberKey keys m).length : Int) = keys.length + m.changes keys := by
  unfold applyMemberKey Member.changes
  split
  · split
    · next listed => have := length_removeKeyed_listed order listed; omega
    · next fresh => rw [length_removeKeyed_fresh fresh]; omega
  · split
    · next listed => rw [length_insertKeyed_listed order listed]; omega
    · next fresh => rw [length_insertKeyed_fresh fresh]; omega

theorem applyMemberKey_ascending {keys : List Key} (order : ascending keys) (m : Member) : ascending (applyMemberKey keys m) := by
  unfold applyMemberKey
  split
  · exact removeKeyed_ascending id order
  · exact insertKeyed_ascending id order

/-- A member leaves the keys of the others in or out of the directory as they were. -/
theorem applyMemberKey_other {keys : List Key} (m n : Member) (other : n.key ≠ m.key) :
    n.changes (applyMemberKey keys m) = n.changes keys := by
  have stands : n.key ∈ applyMemberKey keys m ↔ n.key ∈ keys := by
    unfold applyMemberKey
    split
    · rw [mem_removeKeyed_iff]; tauto
    · rw [mem_insertKeyed_iff]; tauto
  simp only [Member.changes, stands]

/-- The members of a group change the count by what R107 tests, since their keys are distinct (R105). -/
theorem foldl_applyKey_length (count : Nat) (ms : List Member) : ∀ (pos : Nat) (keys : List Key), ascending keys →
    (ms.map Member.key).Nodup → (((memberRecords count pos ms).foldl applyKey keys).length : Int) =
      keys.length + (ms.map (Member.changes keys)).sum := by
  induction ms with
  | nil => intro pos keys _ _; simp [memberRecords]
  | cons m ms ih =>
    intro pos keys order distinct
    obtain ⟨fresh, rest⟩ := List.nodup_cons.mp distinct
    have later : ms.map (Member.changes (applyMemberKey keys m)) = ms.map (Member.changes keys) :=
      List.map_congr_left fun n hn => applyMemberKey_other m n fun same => fresh (List.mem_map.mpr ⟨n, hn, same⟩)
    rw [memberRecords, List.foldl_cons, applyKey_memberRecord, ih (pos + 1) _ (applyMemberKey_ascending order m) rest, later,
      applyMemberKey_length order, List.map_cons, List.sum_cons]
    omega

theorem checkRoom_passed {k : Key} (room : checkRoom s k = none) :
    k ∈ s.directory.map DirEntry.key ∨ s.directory.length < 1024 := by
  rw [checkRoom, failUnless_eq_none, Bool.or_eq_true, entry_isSome_iff, decide_eq_true_eq] at room
  exact room

/-- A placement that a grant begins has room for the keys it will leave (R26). -/
theorem begun_room {goal : Goal} {records : List RecordSpec} (ordered : directoryOrdered s.directory)
    (short : s.directory.length ≤ 1024) (staging : ∀ p, (s.session p).stagingSound) (passed : Begun s goal records)
    {pl : Placement} (goals : pl.goal = goal) (placed : pl.records = records) :
    (pl.keysAfter (s.directory.map DirEntry.key)).length ≤ 1024 := by
  have order := ordered.keys
  unfold Placement.keysAfter
  rw [goals, placed]
  cases passed with
  | write p r c passed =>
    obtain ⟨-, -, -, room⟩ := writeVerdict_passed passed
    show (insertKeyed id c.key _).length ≤ 1024
    rcases checkRoom_passed room with listed | fits
    · rw [length_insertKeyed_listed order listed, List.length_map]; exact short
    · by_cases listed : c.key ∈ s.directory.map DirEntry.key
      · rw [length_insertKeyed_listed order listed, List.length_map]; exact short
      · rw [length_insertKeyed_fresh listed, List.length_map]; exact fits
  | delete p r c passed => rw [List.length_map]; exact short
  | commit p r passed some =>
    obtain ⟨-, -, later⟩ := judge_ok_iff.mp passed
    obtain ⟨-, checks⟩ := firstFailing_append later
    rw [if_neg some, firstFailing_eq_none] at checks
    have room : checkGroupRoom s (s.session p).members = none := checks _ (by simp [groupChecks])
    rw [checkGroupRoom, failUnless_eq_none, decide_eq_true_eq] at room
    have counts : (s.session p).members.map (Member.countChange s) =
        (s.session p).members.map (Member.changes (s.directory.map DirEntry.key)) :=
      List.map_congr_left fun m _ => countChange_eq m
    have after := foldl_applyKey_length (s.session p).members.length (s.session p).members 1 _ order (staging p).1
    rw [List.length_map, ← counts] at after
    simp only [groupRecords, List.foldl_append, List.foldl_cons, List.foldl_nil, applyKey]
    omega
  | copy i line found =>
    obtain ⟨-, -, live⟩ := scanTail_sound (s.sector i).fill s.reclaim.cursor .start found
    obtain ⟨e, entry⟩ := recordLive_entry live
    have listed := entry_isSome_iff.mp (by rw [entry]; rfl : (s.entry (s.copyRecord i line).key).isSome = true)
    show (insertKeyed id (s.copyRecord i line).key _).length ≤ 1024
    rw [length_insertKeyed_listed order listed, List.length_map]; exact short
  | wipe p tag => rw [List.length_map]; exact short

theorem keys_applyMembers (h : Nat) (rs : List RecordSpec) : ∀ (u : State) (q : SeqNo) (line : Nat),
    (u.applyMembers h rs q line).directory.map DirEntry.key = rs.foldl applyKey (u.directory.map DirEntry.key) := by
  induction rs with
  | nil => exact fun _ _ _ => rfl
  | cons r rs ih =>
    intro u q line
    rw [State.applyMembers, ih, List.foldl_cons]
    congr 1
    unfold State.applyMember applyKey
    cases r.kind with
    | value => exact map_insertKeyed _ u.directory
    | tombstone => exact map_removeKeyed r.key u.directory
    | commit => rfl
    | wipe => rfl

/-- There are three system keys (R22). -/
theorem systemKeys_le {d : List DirEntry} (ordered : directoryOrdered d) : (d.filter fun e => systemKey e.key).length ≤ 3 := by
  have order : ((d.filter fun e => systemKey e.key).map DirEntry.key).Nodup :=
    (ordered.1.filter _).map DirEntry.key fun x y below => fun same => by rw [same] at below; exact Nat.lt_irrefl _ below
  have among : ((d.filter fun e => systemKey e.key).map DirEntry.key) ⊆ [rightsKey, freezeKey, periodKey] := by
    intro k hk
    obtain ⟨e, he, rfl⟩ := List.mem_map.mp hk
    have system := (List.mem_filter.mp he).2
    simp only [systemKey, Bool.and_eq_true, decide_eq_true_eq] at system
    have key : e.key = rightsKey ∨ e.key = freezeKey ∨ e.key = periodKey := by
      have places : rightsKey.toNat = 0x0F01 ∧ freezeKey.toNat = 0x0F02 ∧ periodKey.toNat = 0x0F03 := ⟨rfl, rfl, rfl⟩
      simp only [← BitVec.toNat_inj]
      omega
    simpa using key
  simpa using (List.subperm_of_subset order among).length_le

theorem limitDirectory_length {d : List DirEntry} (ordered : directoryOrdered d) : (limitDirectory d).length ≤ 1024 := by
  have few := systemKeys_le ordered
  unfold limitDirectory
  rw [List.length_append, List.length_take]
  omega

/-! ### The invariant -/

/-- The directory is within its limit, and so it will be (R23, R26). -/
def State.directoryLimited (s : State) : Prop := s.directory.length ≤ 1024 ∧ s.roomSound

theorem ContentStep.directoryLimited (step : ContentStep s t) (sound : s.directorySound) (limited : s.directoryLimited)
    (staging : ∀ p, (s.session p).stagingSound) : t.directoryLimited := by
  obtain ⟨short, room⟩ := limited
  obtain ⟨ordered, work, members⟩ := sound
  have unplaced (idle : t.work = .idle) : t.roomSound := fun pl h => by rw [idle] at h; cases h
  have inserted {pl : Placement} {r : RecordSpec} {rest : List RecordSpec} {e : DirEntry} (inHand : s.work = .place pl)
      (records : pl.records = r :: rest) (enters : pl.goal.entersFirst = true) (key : e.key = r.key) :
      (insertKeyed DirEntry.key e s.directory).length ≤ 1024 := by
    have after := room pl inHand
    have keys : pl.keysAfter (s.directory.map DirEntry.key) = insertKeyed id r.key (s.directory.map DirEntry.key) := by
      unfold Placement.keysAfter
      cases goal : pl.goal with
      | write | copy => rw [records]; rfl
      | delete | commit | wipe => rw [goal] at enters; cases enters
    rw [keys, ← key, ← map_insertKeyed, List.length_map] at after
    exact after
  cases step with
  | carried same carries =>
    refine ⟨same.directory ▸ short, fun pl inHand => ?_⟩
    rw [same.directory]
    rcases carries.1 pl inHand with ⟨pl', before, goal, records⟩ | ⟨p, tag, goal, records⟩
    · have after := room pl' before
      unfold Placement.keysAfter at after ⊢
      rw [goal, records]
      exact after
    · unfold Placement.keysAfter
      rw [goal, List.length_map]
      exact short
  | begun goal records same passed places =>
    refine ⟨same.directory ▸ short, fun pl inHand => ?_⟩
    obtain ⟨goals, placed⟩ := places.1 pl inHand
    rw [same.directory]
    exact begun_room ordered short staging passed goals placed
  | emptied empty => exact ⟨empty.directory ▸ Nat.zero_le _, fun pl h => absurd h (empty.unplaced pl)⟩
  | mounted m held working inHand same =>
    exact ⟨same.directory ▸ short, fun pl h => by rw [inHand] at h; cases h⟩
  | mountEnded m inHand idle directory =>
    refine ⟨directory ▸ limitDirectory_length ?_, unplaced idle⟩
    rcases inHand with ⟨m', before, working⟩ | ⟨held, working⟩
    · rw [before] at work; exact working ▸ work
    · exact working ▸ replayedDirectory_ordered s
  | written pl r rest p tag q h base inHand records goal idle directory =>
    exact ⟨directory ▸ inserted inHand records (by rw [goal]; rfl) rfl, unplaced idle⟩
  | deleted k idle directory => exact ⟨directory ▸ (List.length_filter_le _ _).trans short, unplaced idle⟩
  | committed pl p tag u q h base inHand goal idle before directory =>
    refine ⟨directory ▸ ?_, unplaced idle⟩
    have after := room pl inHand
    unfold Placement.keysAfter at after
    rw [goal, ← before, ← keys_applyMembers h pl.records u q base, List.length_map] at after
    exact after
  | copied pl r rest line q h base inHand records goal idle directory =>
    exact ⟨directory ▸ inserted inHand records (by rw [goal]; rfl) rfl, unplaced idle⟩

theorem StoreKept.directoryLimited (kept : StoreKept s t) (limited : s.directoryLimited) : t.directoryLimited := by
  obtain ⟨short, room⟩ := limited
  refine ⟨kept.directory ▸ short, fun pl inHand => ?_⟩
  rw [kept.directory]
  exact room pl (kept.placed inHand)

/-! ### Notices -/

/-- The notices with the changed flag are of distinct watched keys, and the others are lapses (R94, R95). -/
theorem notices_length_le {x : Session} (sound : x.noticesSound) :
    x.notices.length ≤ x.watch.length + (x.notices.filter fun n => n.lapsed).length := by
  obtain ⟨keys, each⟩ := sound
  have split : x.notices.length = (x.notices.filter fun n => n.changed).length +
      (x.notices.filter fun n => !n.changed).length := by
    rw [← List.countP_eq_length_filter, ← List.countP_eq_length_filter]
    simpa using List.length_eq_countP_add_countP (l := x.notices) fun n => n.changed
  have watched : (x.notices.filter fun n => n.changed).length ≤ x.watch.length := by
    have among : (x.notices.filter fun n => n.changed).map Notice.key ⊆ x.watch := by
      intro k hk
      obtain ⟨n, hn, rfl⟩ := List.mem_map.mp hk
      obtain ⟨listed, changed⟩ := List.mem_filter.mp hn
      rcases each n listed with ⟨-, key⟩ | ⟨unchanged, -⟩
      · exact key
      · rw [changed] at unchanged; cases unchanged
    have fits := (List.subperm_of_subset (keys.sublist ((List.filter_sublist).map _)) among).length_le
    rwa [List.length_map] at fits
  have lapses : (x.notices.filter fun n => !n.changed).length ≤ (x.notices.filter fun n => n.lapsed).length := by
    rw [← List.countP_eq_length_filter, ← List.countP_eq_length_filter]
    refine List.countP_mono_left fun n hn unchanged => ?_
    rcases each n hn with ⟨changed, -⟩ | ⟨-, lapsed⟩
    · rw [changed] at unchanged; cases unchanged
    · exact lapsed
  omega

/-- Settles O51: the directory by the keys that the change in hand will leave, and the lists by what a step makes of one session. -/
theorem stepKeepsListLimits : Obligations.StepKeepsListLimits := by
  refine ⟨fun s t sound limits ran => ?kept, fun s p limits budget => ?notices⟩
  case kept =>
    obtain ⟨short, room, sessions⟩ := limits
    have lists : ∀ p, (t.session p).limited := fun p => (step_sessionStep ran p).limited (sessions p)
    suffices directory : t.directoryLimited from ⟨directory.1, directory.2, lists⟩
    obtain rfl | ⟨c, rest, ran⟩ := step_cases ran
    · exact ⟨short, room⟩
    · rcases exec_effect ran with effect | effect
      · exact effect.storeKept.directoryLimited ⟨short, room⟩
      · exact effect.content.directoryLimited sound ⟨short, room⟩ fun p => (sessions p).2.2.2
  case notices =>
    obtain ⟨-, watches, notices, -⟩ := limits.2.2 p
    have bound := notices_length_le notices
    have lapses : ((s.session p).notices.filter fun n => n.lapsed).length ≤ 4 :=
      (Nat.le_add_left _ _).trans (budget p)
    omega

end

end Sys2Proof.Machine
end

