-- ==== Sys2Proof/Proofs/StepKeepsOneHead.lean ====
section
/-! PROOF. Every step keeps at most one sector OPEN: a head is opened only where none is, every other change of a sector's state
closes it, and mount closes all but the last OPEN sector of the ring. -/

namespace Sys2Proof.Machine

/-! ### The OPEN sectors -/

section
variable {s t u : State} {i j : Nat}

/-- The same sectors are OPEN in both. -/
theorem openSectors_congr (length : t.sectors.length = s.sectors.length)
    (states : ∀ j, (t.sector j).state = .opened ↔ (s.sector j).state = .opened) : t.openSectors = s.openSectors := by
  unfold State.openSectors
  rw [length]
  exact List.filter_congr fun j _ => decide_eq_decide.mpr (states j)

theorem mem_openSectors : j ∈ s.openSectors ↔ (s.sector j).state = .opened := by
  unfold State.openSectors
  rw [List.mem_filter, List.mem_range, decide_eq_true_eq]
  exact ⟨fun h => h.2, fun h => ⟨lt_length_of_state (by rw [h]; simp), h⟩⟩

theorem openSectors_nodup : s.openSectors.Nodup := List.nodup_range.filter _

/-- The entry written has the state that it had. -/
theorem openSectors_sameState {e : Sector} (sectors : t.sectors = s.sectors.set i e) (state : e.state = (s.sector i).state) :
    t.openSectors = s.openSectors := by
  refine openSectors_congr (by rw [sectors]; exact List.length_set ..) fun j => ?_
  rw [show t.sector j = (s.setSector i e).sector j by rw [State.sector, sectors]; rfl, sector_setSector]
  split
  · next here => rw [state, here.1]
  · rfl

/-- The entry written is not OPEN. -/
theorem openSectors_closed {e : Sector} (sectors : t.sectors = s.sectors.set i e) (state : e.state ≠ .opened) :
    t.openSectors = s.openSectors.filter fun j => !decide (j = i) := by
  have length : t.sectors.length = s.sectors.length := by rw [sectors]; exact List.length_set ..
  unfold State.openSectors
  rw [length, List.filter_filter]
  refine List.filter_congr fun j hj => ?_
  rw [show t.sector j = (s.setSector i e).sector j by rw [State.sector, sectors]; rfl, sector_setSector]
  by_cases here : j = i
  · subst here
    rw [if_pos ⟨rfl, List.mem_range.mp hj⟩]
    simp [state]
  · rw [if_neg fun h => here h.1]
    simp [here]

theorem openSectors_head (head : s.head? = some i) (one : s.openSectors.length ≤ 1) : s.openSectors = [i] := by
  have first : s.openSectors.head? = some i := by
    rw [← head]
    unfold State.head? State.openSectors
    exact List.head?_filter ..
  cases opens : s.openSectors with
  | nil => rw [opens] at first; cases first
  | cons x rest =>
    rw [opens] at first one
    cases first
    rw [List.length_eq_zero_iff.mp (Nat.le_zero.mp (Nat.le_of_succ_le_succ one))]

theorem openSectors_headless (headless : s.head? = none) : s.openSectors = [] := by
  unfold State.head? at headless
  unfold State.openSectors
  exact List.filter_eq_nil_iff.mpr fun j hj => List.find?_eq_none.mp headless j hj

theorem openSectors_live (touch : ∀ j, ∃ v, t.sector j = { s.sector j with live := v })
    (length : t.sectors.length = s.sectors.length) : t.openSectors = s.openSectors := by
  refine openSectors_congr length fun j => ?_
  obtain ⟨v, same⟩ := touch j
  rw [same]

theorem openSectors_setEntry (e : DirEntry) : (s.setEntry e).openSectors = s.openSectors :=
  openSectors_live (fun _ => liveOnly_setEntry e) (length_setEntry e)

theorem openSectors_removeEntry (k : Key) : (s.removeEntry k).openSectors = s.openSectors :=
  openSectors_live (fun _ => liveOnly_removeEntry k) (length_removeEntry k)

theorem openSectors_applyMembers (h : Nat) (rs : List RecordSpec) : ∀ (s : State) (q : SeqNo) (line : Nat),
    (s.applyMembers h rs q line).openSectors = s.openSectors := by
  induction rs with
  | nil => exact fun _ _ _ => rfl
  | cons r rs ih =>
    intro s q line
    refine (ih _ _ _).trans ?_
    unfold State.applyMember
    split
    · exact openSectors_setEntry _
    · exact openSectors_removeEntry _
    · rfl
    · rfl

theorem sectorAt_setLive (t : List Sector) (d : List DirEntry) (j : Nat) :
    ∃ v, sectorAt (setLive t d) j = { sectorAt t j with live := v } := by
  by_cases inside : j < t.length
  · exact ⟨liveOf d j, by unfold setLive; rw [sectorAt, List.getD_eq_getElem?_getD, List.getElem?_map, List.getElem?_range inside]; rfl⟩
  · refine ⟨0, ?_⟩
    have beyond : t.length ≤ j := Nat.le_of_not_lt inside
    rw [sectorAt, sectorAt, List.getD_eq_default _ _ beyond,
      List.getD_eq_default _ _ (by rw [setLive, List.length_map, List.length_range]; exact beyond)]
    rfl

theorem openSectors_installDirectory (d : List DirEntry) : (s.installDirectory d).openSectors = s.openSectors :=
  openSectors_live (fun j => sectorAt_setLive s.sectors _ j) (by simp [State.installDirectory, setLive])

theorem openSectors_formatStore : s.formatStore.openSectors = s.openSectors := by
  refine openSectors_live (fun j => ?_) (by simp [State.formatStore])
  unfold State.sector State.formatStore sectorAt
  dsimp only
  rw [List.getD_eq_getElem?_getD, List.getD_eq_getElem?_getD, List.getElem?_map]
  cases s.sectors[j]? with
  | none => exact ⟨0, rfl⟩
  | some e => exact ⟨0, rfl⟩

theorem formatComplete_sectors (f : FormatWork) : (s.formatComplete f).sectors = s.formatStore.sectors :=
  (releaseAll_clients s.formatStore f.port).storeKept.sectors

/-! ### FORMAT and placements -/

/-- At most one sector is OPEN. -/
def State.oneHead (s : State) : Prop := s.openSectors.length ≤ 1

theorem oneHead_filter {p : Nat → Bool} (one : s.oneHead) (opens : t.openSectors = s.openSectors.filter p) : t.oneHead := by
  rw [State.oneHead, opens]
  exact (List.length_filter_le _ _).trans one

theorem oneHead_of_eq (opens : t.openSectors = s.openSectors) (one : s.oneHead) : t.oneHead := by
  rw [State.oneHead, opens]; exact one

/-- Work that is neither a placement nor mount asks for no more than one head. -/
theorem headSound_plain (plain : s.work.plain) (one : s.oneHead) : s.headSound := by
  unfold State.headSound
  split
  · next pl work => exact absurd work (plain.1 pl)
  · next m work => exact absurd work (plain.2 m)
  · exact one

theorem headSound_place {pl : Placement} (work : s.work = .place pl) (sound : s.placingSound pl.phase) : s.headSound := by
  unfold State.headSound
  rw [work]
  exact sound

theorem oneHead_of_headSound (plain : s.work.plain) (sound : s.headSound) : s.oneHead := by
  unfold State.headSound at sound
  split at sound
  · next pl work => exact absurd work (plain.1 pl)
  · next m work => exact absurd work (plain.2 m)
  · exact sound

section
variable {pl : Placement} {f : FormatWork} {ok : Bool}

theorem openSectors_of_sectors (sectors : t.sectors = s.sectors) : t.openSectors = s.openSectors :=
  openSectors_congr (by rw [sectors]) fun j => by rw [State.sector, State.sector, sectors]

theorem FormatGoesOn.oneHead (on : FormatGoesOn f s t) (one : s.oneHead) : t.headSound := by
  cases on with
  | sweeps j => exact headSound_plain (plain_format _) one
  | completes =>
    exact headSound_plain plain_idle
      (oneHead_of_eq ((openSectors_of_sectors (formatComplete_sectors f)).trans openSectors_formatStore) one)
  | erases i => exact headSound_plain (plain_format _) (oneHead_of_eq (openSectors_sameState rfl (by rfl)) one)
  | pauses => exact headSound_plain (plain_format _) one

theorem endPlacement_sectors (st : Status) : (s.endPlacement pl st).sectors = s.sectors := by
  unfold State.endPlacement
  split <;> rfl

theorem oneHead_of_nil (none : s.openSectors = []) : s.oneHead := by rw [State.oneHead, none]; exact Nat.zero_le _

theorem oneHead_of_single (single : s.openSectors = [i]) : s.oneHead := by rw [State.oneHead, single]; exact Nat.le_refl _

theorem endPlacement_oneHead (st : Status) (one : s.oneHead) : (s.endPlacement pl st).headSound :=
  headSound_plain (endPlacement_content st).2 (oneHead_of_eq (openSectors_of_sectors (endPlacement_sectors st)) one)

theorem chooseFree_mem (free : s.chooseFree = some i) : i ∈ s.freePool := by
  have among (js : List Nat) : ∀ b, js.foldl (lessWorn s) b = b ∨ js.foldl (lessWorn s) b ∈ js := by
    induction js with
    | nil => exact fun _ => .inl rfl
    | cons j js ih =>
      intro b
      rw [List.foldl_cons]
      rcases ih (lessWorn s b j) with stands | later
      · rw [stands]
        unfold lessWorn
        split
        · exact .inr List.mem_cons_self
        · exact .inl rfl
      · exact .inr (List.mem_cons_of_mem j later)
  unfold State.chooseFree at free
  split at free
  · cases free
  · next b js pool =>
    cases free
    rw [pool]
    rcases among js b with stands | later
    · rw [stands]; exact List.mem_cons_self
    · exact List.mem_cons_of_mem b later

theorem mem_freePool : i ∈ s.freePool ↔
    i < s.sectors.length ∧ (s.sector i).state = .erased ∧ (s.sector i).erasePending = false := by
  simp [State.freePool]

/-- A head is opened where there is none (R12). -/
theorem Opening.headSound (opening : Opening pl s t) (headless : s.openSectors = []) : t.headSound := by
  cases opening with
  | opens i free =>
    refine headSound_place rfl ⟨(openSectors_sameState rfl (by rfl)).trans headless, ?_⟩
    exact (List.length_set ..).symm ▸ (mem_freePool.mp (chooseFree_mem free)).1
  | ends mode st => exact endPlacement_oneHead st (oneHead_of_nil headless)
  | formats f wipe on => exact on.oneHead (oneHead_of_nil headless)

theorem Placing.headSound (placing : Placing pl s t) (one : s.oneHead) : t.headSound := by
  cases placing with
  | body h head => exact headSound_place rfl (openSectors_head head one)
  | closes h head => exact headSound_place rfl (openSectors_head head one)
  | opening headless opening => exact opening.headSound (openSectors_headless headless)

theorem commitDone_openSectors (q : SeqNo) (h base : Nat) (p : Port) (tag : Byte) :
    (s.commitDone pl q h base p tag).openSectors = s.openSectors := by
  refine Eq.trans ?_ (openSectors_applyMembers h pl.records s q base)
  obtain ⟨sessions, posted⟩ := postMembers_touches p pl.records ((s.applyMembers h pl.records q base).clearGroup p) q
  unfold State.commitDone
  rw [posted]
  rfl

theorem copyDone_openSectors (r : RecordSpec) (q : SeqNo) (h base line : Nat) :
    (s.copyDone r q h base line).openSectors = s.openSectors := by
  have entered := openSectors_setEntry (s := s) ⟨r.key, q, r.value.length, h, 8 * base, false⟩
  unfold State.copyDone
  split
  · rfl
  · dsimp only
    split
    · exact (openSectors_sameState rfl (by rfl)).trans entered
    · exact entered

theorem copyDone_idle (r : RecordSpec) (q : SeqNo) (h base line : Nat) : (s.copyDone r q h base line).work = .idle := by
  unfold State.copyDone
  split
  · rfl
  · dsimp only
    split <;> rfl

theorem commitDone_idle (q : SeqNo) (h base : Nat) (p : Port) (tag : Byte) :
    (s.commitDone pl q h base p tag).work = .idle := rfl

theorem idle_plain (idle : s.work = .idle) : s.work.plain := idle ▸ plain_idle

theorem Finished.headSound {h base : Nat} (done : Finished pl h base s t) (one : s.oneHead) : t.headSound := by
  cases done with
  | empty => exact headSound_plain plain_idle one
  | written r rest p tag => exact headSound_plain plain_idle (oneHead_of_eq (openSectors_setEntry _) one)
  | deleted r rest p tag => exact headSound_plain plain_idle (oneHead_of_eq (openSectors_removeEntry _) one)
  | committed p tag goal => exact headSound_plain plain_idle (oneHead_of_eq (commitDone_openSectors _ h base p tag) one)
  | copied r rest line =>
    exact headSound_plain (idle_plain (copyDone_idle r _ h base line)) (oneHead_of_eq (copyDone_openSectors r _ h base line) one)
  | wiped p tag goal on => exact on.oneHead one

theorem nodup_length_le_one {l : List Nat} (distinct : l.Nodup) (one : ∀ i ∈ l, ∀ j ∈ l, i = j) : l.length ≤ 1 := by
  cases l with
  | nil => exact Nat.zero_le _
  | cons i rest =>
    have all : i :: rest = List.replicate (i :: rest).length i :=
      List.eq_replicate_of_mem fun j hj => one j hj i List.mem_cons_self
    exact List.nodup_replicate.mp (all ▸ distinct)

theorem nodup_singleton {l : List Nat} (distinct : l.Nodup) (listed : i ∈ l) (other : ∀ j ∈ l, j = i) : l = [i] := by
  have all : l = List.replicate l.length i := List.eq_replicate_of_mem other
  have one : l.length ≤ 1 := List.nodup_replicate.mp (all ▸ distinct)
  have some : 0 < l.length := List.length_pos_of_mem listed
  rw [all, show l.length = 1 by omega]
  rfl

theorem markClosed_headless (head : s.openSectors = [i]) : (s.markClosed i ok).openSectors = [] := by
  refine (openSectors_closed rfl (by simp)).trans ?_
  simp [head]

theorem becomeHead_opens (headless : s.openSectors = []) (inside : i < s.sectors.length) :
    (s.becomeHead i).openSectors = [i] := by
  have opened : i ∈ (s.becomeHead i).openSectors := by
    rw [mem_openSectors, State.becomeHead, sector_setSector_self inside]
  have other : ∀ j ∈ (s.becomeHead i).openSectors, j = i := by
    intro j hj
    by_contra away
    rw [mem_openSectors, State.becomeHead, sector_setSector_other away, ← mem_openSectors, headless] at hj
    cases hj
  exact nodup_singleton openSectors_nodup opened other

theorem retireSector_oneHead (one : s.oneHead) : (s.retireSector i ok).oneHead :=
  oneHead_filter one (openSectors_closed rfl (by simp))

theorem PlacementLine.headSound (line : PlacementLine pl ok s t) (sound : s.placingSound pl.phase) : t.headSound := by
  cases line with
  | closed h phase opening =>
    rw [phase] at sound
    exact opening.headSound (markClosed_headless sound)
  | secondLine i phase => rw [phase] at sound; exact headSound_place rfl sound
  | headerFailed i phase =>
    have headless : s.openSectors = [] := by
      rcases phase with phase | phase <;> rw [phase] at sound <;> exact sound.1
    exact headSound_place rfl ((openSectors_sameState rfl (by rfl)).trans headless)
  | opened i phase =>
    rw [phase] at sound
    exact headSound_place rfl (becomeHead_opens sound.1 sound.2)
  | retired i phase opening =>
    rw [phase] at sound
    exact opening.headSound ((openSectors_closed rfl (by simp)).trans (by rw [show s.openSectors = [] from sound]; rfl))
  | nextLine h base k l phase => rw [phase] at sound; exact headSound_place rfl sound
  | nextRecord h base k l n phase =>
    rw [phase] at sound
    exact headSound_place rfl ((openSectors_sameState rfl (by rfl)).trans sound)
  | held h base k l n phase =>
    rw [phase] at sound
    exact endPlacement_oneHead .hold (oneHead_of_single ((openSectors_sameState rfl (by rfl)).trans sound))
  | finished h base k l n phase done =>
    rw [phase] at sound
    exact done.headSound (oneHead_of_single ((openSectors_sameState rfl (by rfl)).trans sound))
  | failed h base k l phase =>
    rw [phase] at sound
    exact headSound_place rfl ((openSectors_sameState rfl (by rfl)).trans sound)
  | again h phase opening =>
    rw [phase] at sound
    exact opening.headSound (markClosed_headless sound)
  | wipeAgain h f phase wipe on =>
    rw [phase] at sound
    have one := oneHead_of_nil (markClosed_headless (ok := ok) sound)
    exact on.elim (·.headSound one) (·.oneHead one)

/-! ### Mount -/

/-- The OPEN sectors that mount has not to close are at most one, `closing` being closed now. -/
def State.mountsOneHead (s : State) (toClose : List Nat) (closing : MountPhase) : Prop :=
  (s.openSectors.filter fun i => !toClose.contains i && !decide (closing = .closing i)).length ≤ 1

theorem headSound_mount {m : MountWork} (work : s.work = .mount m) (one : s.mountsOneHead m.toClose m.phase) : s.headSound := by
  unfold State.headSound
  rw [work]
  exact one

theorem mountsOneHead_of_headSound {m : MountWork} (work : s.work = .mount m) (sound : s.headSound) :
    s.mountsOneHead m.toClose m.phase := by
  unfold State.headSound at sound
  rw [work] at sound
  exact sound

/-- A phase in which nothing is being closed. -/
theorem mountsOneHead_phase {toClose : List Nat} {phase phase' : MountPhase} (other : ∀ i, phase ≠ .closing i)
    (other' : ∀ i, phase' ≠ .closing i) (opens : t.openSectors = s.openSectors) (one : s.mountsOneHead toClose phase) :
    t.mountsOneHead toClose phase' := by
  unfold State.mountsOneHead at one ⊢
  simpa [opens, other, other'] using one

/-- Mount goes from a phase that closes nothing to another. -/
theorem mountsOneHead_next {m : MountWork} {phase : MountPhase} (inHand : s.work = .mount m) (sound : s.headSound)
    (quiet : ∀ i, m.phase ≠ .closing i) (quiet' : ∀ i, phase ≠ .closing i) (opens : t.openSectors = s.openSectors) :
    t.mountsOneHead m.toClose phase :=
  mountsOneHead_phase quiet quiet' opens (mountsOneHead_of_headSound inHand sound)

/-- Mount goes on to wait, or ends with at most one OPEN sector. -/
theorem mountContinue_headSound {m : MountWork} (one : s.mountsOneHead m.toClose .waiting) : (s.mountContinue m).headSound := by
  unfold State.mountContinue
  split
  · next settled =>
    refine headSound_plain plain_idle (oneHead_of_eq (openSectors_installDirectory m.working) ?_)
    simpa [State.mountsOneHead, State.oneHead, settled.1] using one
  · exact headSound_mount rfl one

/-- The sector leaves the OPEN ones, if it was one of them. -/
theorem mountsOneHead_closed {toClose : List Nat} {e : Sector} {phase : MountPhase} (sectors : t.sectors = s.sectors.set i e)
    (state : e.state ≠ .opened) (among : ∀ j, phase = .closing j → j = i) (one : s.mountsOneHead toClose phase) :
    t.mountsOneHead toClose .waiting := by
  unfold State.mountsOneHead at one ⊢
  rw [openSectors_closed sectors state, List.filter_filter]
  refine Nat.le_trans (List.Sublist.length_le (List.monotone_filter_right _ fun j hj => ?_)) one
  simp only [Bool.and_eq_true, Bool.not_eq_true', decide_eq_false_iff_not, reduceCtorEq, not_false_eq_true,
    and_true] at hj ⊢
  exact ⟨hj.1, fun closing => hj.2 (among j closing)⟩

/-! ### The end of a flash operation -/

theorem LineEnded.headSound (ended : LineEnded ok s t) (sound : s.headSound) : t.headSound := by
  have one {w : Work} (inHand : s.work = w) (plain : w.plain) : s.oneHead := oneHead_of_headSound (inHand ▸ plain) sound
  cases ended with
  | unawaited none => exact sound
  | placed pl inHand line =>
    refine line.headSound ?_
    unfold State.headSound at sound
    rw [inHand] at sound
    exact sound
  | marked i inHand =>
    refine headSound_plain plain_idle (oneHead_filter (one inHand ?_) (openSectors_closed rfl (by simp)))
    exact ⟨fun _ h => (by cases h), fun _ h => (by cases h)⟩
  | tailRetired i inHand =>
    refine headSound_plain plain_idle (oneHead_filter (one inHand ?_) (openSectors_closed rfl (by simp)))
    exact ⟨fun _ h => (by cases h), fun _ h => (by cases h)⟩
  | mountClosed m i inHand phase =>
    exact mountContinue_headSound (mountsOneHead_closed rfl (by simp)
      (fun j closing => by rw [phase] at closing; cases closing; rfl) (mountsOneHead_of_headSound inHand sound))
  | mountRetired m i inHand phase =>
    exact mountContinue_headSound (mountsOneHead_closed (toClose := m.toClose) rfl (by simp)
      (fun j closing => by rw [phase] at closing; cases closing) (mountsOneHead_of_headSound inHand sound))
  | formatRetired f i n inHand on => exact on.oneHead (retireSector_oneHead (one inHand (plain_format f)))

theorem tailFailed_headSound (one : s.oneHead) : (s.tailFailed i).headSound := by
  unfold State.tailFailed
  split
  · exact headSound_plain plain_idle one
  · exact headSound_plain ⟨fun _ h => (by cases h), fun _ h => (by cases h)⟩ one

theorem countErase_openSectors : (s.countErase i).openSectors = s.openSectors := openSectors_sameState rfl (by rfl)

theorem freeErased_oneHead (one : s.oneHead) : ((s.countErase i).freeSector i).oneHead :=
  oneHead_filter (oneHead_of_eq countErase_openSectors one) (openSectors_closed rfl (by simp))

theorem EraseEnded.headSound (ended : EraseEnded s t) (sound : s.headSound) : t.headSound := by
  have one {w : Work} (inHand : s.work = w) (plain : w.plain) : s.oneHead := oneHead_of_headSound (inHand ▸ plain) sound
  have tail {i : Nat} {suspect : Bool} : (Work.tailErase i suspect).plain := ⟨fun _ h => (by cases h), fun _ h => (by cases h)⟩
  cases ended with
  | unawaited none => exact sound
  | tailFreed i suspect inHand =>
    exact headSound_plain plain_idle (oneHead_of_eq rfl (freeErased_oneHead (i := i) (one inHand tail)))
  | tailErased i suspect inHand =>
    exact headSound_plain ⟨fun _ h => (by cases h), fun _ h => (by cases h)⟩
      (oneHead_of_eq countErase_openSectors (one inHand tail))
  | tailFailed i suspect inHand => exact tailFailed_headSound (one inHand tail)
  | tailAborted i suspect inHand => exact headSound_plain plain_idle (one inHand tail)
  | mountFreed m i inHand phase =>
    have before := mountsOneHead_of_headSound inHand sound
    have counted : (s.countErase i).mountsOneHead m.toClose .waiting :=
      mountsOneHead_phase (fun j h => by rw [phase] at h; cases h) (fun j h => by cases h) countErase_openSectors before
    exact mountContinue_headSound (mountsOneHead_closed (toClose := m.toClose) rfl (by simp) (fun j h => by cases h) counted)
  | mountErased m i inHand phase =>
    exact headSound_mount rfl (mountsOneHead_next (m := m) inHand sound (fun j h => by rw [phase] at h; cases h)
      (fun j h => by cases h) countErase_openSectors)
  | mountRetiring m i inHand phase | mountWaits m i n inHand phase =>
    exact headSound_mount rfl (mountsOneHead_next (m := m) inHand sound (fun j h => by rw [phase] at h; cases h)
      (fun j h => by cases h) rfl)
  | formatErased f i phase inHand =>
    exact headSound_plain (plain_format _) (oneHead_of_eq countErase_openSectors (one inHand (plain_format f)))
  | formatRetiring f i phase inHand | formatWaits f phase n inHand =>
    exact headSound_plain (plain_format _) (one inHand (plain_format f))
  | formatFreed f i inHand on =>
    have freed : ((s.countErase i).freeSector i).oneHead := freeErased_oneHead (one inHand (plain_format f))
    rcases on with placing | on | on
    · exact placing.headSound freed
    · exact on.oneHead freed
    · exact on.oneHead freed
  | formatAgain f inHand on => exact on.oneHead (one inHand (plain_format f))

end

/-! ### What mount reads -/

/-- Two tables whose sectors have the same states. -/
def sameStates (t t' : List Sector) : Prop := t'.length = t.length ∧ ∀ i, (sectorAt t' i).state = (sectorAt t i).state

theorem sameStates.trans {t t' t'' : List Sector} (h : sameStates t t') (k : sameStates t' t'') : sameStates t t'' :=
  ⟨k.1.trans h.1, fun i => (k.2 i).trans (h.2 i)⟩

theorem sectorAt_set (t : List Sector) (i j : Nat) (e : Sector) :
    sectorAt (t.set i e) j = if j = i ∧ i < t.length then e else sectorAt t j :=
  sector_setSector (s := { State.reset with sectors := t }) e

theorem sameStates_set {t : List Sector} {i : Nat} {e : Sector} (state : e.state = (sectorAt t i).state) :
    sameStates t (t.set i e) := by
  refine ⟨List.length_set .., fun j => ?_⟩
  rw [sectorAt_set]
  split
  · next here => rw [state, here.1]
  · rfl

/-- The replay leaves the states of the sectors. -/
theorem replayRing_states (m : List Host.Cell) (ring : List Nat) : ∀ (t : List Sector) (a : Replay),
    sameStates t (replayRing m ring t a).1 := by
  induction ring with
  | nil => exact fun t a => ⟨rfl, fun _ => rfl⟩
  | cons i ring ih =>
    intro t a
    unfold replayRing
    exact (sameStates_set (by rfl)).trans (ih _ _)

/-- Every OPEN sector of the ring but the last is to be closed (R151). -/
theorem replayRing_closes (m : List Host.Cell) (ring : List Nat) : ∀ (t : List Sector) (a : Replay) (i : Nat), i ∈ ring →
    (sectorAt t i).state = .opened → i ∈ (replayRing m ring t a).2.2 ∨ ring.getLast? = some i := by
  induction ring with
  | nil => exact fun _ _ _ h => (by cases h)
  | cons j ring ih =>
    intro t a i hi state
    unfold replayRing
    dsimp only
    cases ring with
    | nil => exact .inr (by rw [List.mem_singleton.mp hi]; rfl)
    | cons k ring =>
      rcases List.mem_cons.mp hi with rfl | later
      · left
        rw [if_pos (by simp [mustClose, state])]
        exact List.mem_cons_self
      · have still := (sameStates_set (t := t) (i := j)
          (e := replayedSector (sectorAt t j) (replaySector (sectorCells m j) j 126 0 a).2.1
            (replaySector (sectorCells m j) j 126 0 a).2.2 (k :: ring).isEmpty) rfl).2 i
        rcases ih _ (replaySector (sectorCells m j) j 126 0 a).1 i later (still.trans state) with closes | last
        · left
          split
          · exact List.mem_cons_of_mem j closes
          · exact closes
        · exact .inr (by rw [List.getLast?_cons_cons]; exact last)

theorem mem_insertByGeneration {t : List Sector} {i j : Nat} : ∀ {l : List Nat},
    j ∈ insertByGeneration t i l ↔ j = i ∨ j ∈ l
  | [] => by simp [insertByGeneration]
  | k :: l => by
    unfold insertByGeneration
    split
    · simp
    · rw [List.mem_cons, mem_insertByGeneration, List.mem_cons]; tauto

/-- The ring holds the sectors OPEN, CLOSED and RECLAIMING (R7). -/
theorem mem_ringOf {t : List Sector} {i : Nat} : i ∈ ringOf t ↔ i < t.length ∧ (sectorAt t i).inRing = true := by
  have inserted (l : List Nat) : i ∈ l.foldr (insertByGeneration t) [] ↔ i ∈ l := by
    induction l with
    | nil => rfl
    | cons j l ih => rw [List.foldr_cons, mem_insertByGeneration, ih, List.mem_cons]
  rw [ringOf, inserted, List.mem_filter, List.mem_range]

theorem inRing_of_opened {e : Sector} (state : e.state = .opened) : e.inRing = true := by
  rw [Sector.inRing, state]

theorem readStore_mountsOneHead (s : State) : s.readStore.mountsOneHead s.replayed.2.2 .waiting := by
  have opens : s.readStore.openSectors = ({ s with sectors := builtTable s.flash s.draws } : State).openSectors := by
    have replayed : sameStates (builtTable s.flash s.draws) s.replayed.1 := by
      unfold State.replayed
      exact replayRing_states _ _ _ _
    refine openSectors_congr (Eq.trans (by simp [State.readStore, setLive]) replayed.1) fun j => ?_
    obtain ⟨v, live⟩ := sectorAt_setLive s.replayed.1 s.replayedDirectory j
    show (sectorAt (setLive _ _) j).state = _ ↔ _
    rw [live]
    exact iff_of_eq (congrArg (· = SectorState.opened) (replayed.2 j))
  have last {i : Nat} (hi : i ∈ s.readStore.openSectors) (open_ : i ∉ s.replayed.2.2) :
      (ringOf (builtTable s.flash s.draws)).getLast? = some i := by
    rw [opens] at hi
    have state := mem_openSectors.mp hi
    have inside : i < (builtTable s.flash s.draws).length := List.mem_range.mp (List.mem_filter.mp hi).1
    have ring := mem_ringOf.mpr ⟨inside, inRing_of_opened state⟩
    unfold State.replayed at open_
    exact (replayRing_closes s.flash _ _ _ i ring state).resolve_left open_
  unfold State.mountsOneHead
  have distinct := (openSectors_nodup (s := s.readStore)).filter
    fun i => !s.replayed.2.2.contains i && !decide (MountPhase.waiting = .closing i)
  refine nodup_length_le_one distinct fun i hi j hj => ?_
  simp only [List.mem_filter, Bool.and_eq_true, Bool.not_eq_true', List.contains_eq_mem, decide_eq_false_iff_not] at hi hj
  exact Option.some.inj ((last hi.1 hi.2.1).symm.trans (last hj.1 hj.2.1))

/-! ### Every step -/

theorem StoreEffect.headSound {kind : CommandKind} {s t : State} (h : StoreEffect s kind t)
    (sound : s.headSound) : t.headSound := by
  have one {w : Work} (inHand : s.work = w) (plain : w.plain) : s.oneHead := oneHead_of_headSound (inHand ▸ plain) sound
  have granted {p : Port} {r : Request} : (Work.request p r).plain := ⟨fun _ h => (by cases h), fun _ h => (by cases h)⟩
  have reclaiming : Work.reclaimGrant.plain := ⟨fun _ h => (by cases h), fun _ h => (by cases h)⟩
  cases h with
  | reset pin hold held => exact headSound_mount rfl (Nat.zero_le _)
  | stillHeld pin hold inReset held => exact sound
  | mounted inReset =>
    rw [mountRead_eq]
    exact mountContinue_headSound (readStore_mountsOneHead _)
  | closeBegun m i rest inHand waiting next =>
    have before := mountsOneHead_of_headSound inHand sound
    rw [next, waiting] at before
    refine headSound_mount rfl (Nat.le_trans (List.Sublist.length_le (List.monotone_filter_right _ fun j hj => ?_)) before)
    simp only [Bool.and_eq_true, Bool.not_eq_true', List.contains_eq_mem, decide_eq_false_iff_not, MountPhase.closing.injEq,
      reduceCtorEq, not_false_eq_true, and_true, List.mem_cons] at hj ⊢
    exact fun among => among.elim (fun here => hj.2 here.symm) hj.1
  | dirtyBegun m i inHand waiting =>
    exact headSound_mount rfl (mountsOneHead_next (m := m) inHand sound (fun j h => by rw [waiting] at h; cases h)
      (fun j h => by cases h) rfl)
  | writeBegun p r c inHand | deleteBegun p r c inHand => exact startPlacement_placing.headSound (one inHand granted)
  | commitBegun p r inHand => exact startPlacement_placing.headSound (one inHand granted)
  | formatBegun p r inHand =>
    exact wipePlace_cases.elim (·.headSound (one inHand granted)) (·.oneHead (one inHand granted))
  | tailMarked i inHand =>
    unfold State.markTail
    split
    · exact headSound_plain ⟨fun _ h => (by cases h), fun _ h => (by cases h)⟩ (one inHand reclaiming)
    · exact headSound_plain plain_idle (oneHead_filter (one inHand reclaiming) (openSectors_closed rfl (by simp)))
  | copyBegun i line inHand =>
    unfold State.copyFrom
    split
    · exact startPlacement_placing.headSound (s := s.moveCursor line) (one inHand reclaiming)
    · exact endPlacement_oneHead .readOnly (one inHand reclaiming)
  | tailEraseBegun i inHand =>
    have pending : (s.decideErase i).openSectors = s.openSectors := openSectors_sameState rfl (by rfl)
    unfold State.eraseTail
    split
    · exact headSound_plain ⟨fun _ h => (by cases h), fun _ h => (by cases h)⟩ (oneHead_of_eq pending (one inHand reclaiming))
    · exact headSound_plain plain_idle (oneHead_of_eq pending (one inHand reclaiming))
  | sweepBegun f i inHand =>
    unfold State.startSweep
    split
    · exact headSound_plain (plain_format _) (oneHead_of_eq (openSectors_sameState rfl (by rfl)) (one inHand (plain_format f)))
    · exact headSound_plain (plain_format _) (one inHand (plain_format f))
  | wipePlaced f inHand =>
    exact wipePlace_cases.elim (·.headSound (one inHand (plain_format f))) (·.oneHead (one inHand (plain_format f)))
  | lineDone i l data bits ok => exact lineEnded_ended.headSound sound
  | eraseDone i d bits v high o => exact (eraseEnded_ended o).headSound sound

theorem StoreKept.headSound {s t : State} (kept : StoreKept s t) (sound : s.headSound) : t.headSound := by
  have opens : t.openSectors = s.openSectors := openSectors_of_sectors kept.sectors
  have length : t.sectors.length = s.sectors.length := by rw [kept.sectors]
  rcases kept.work with same | ⟨light, lighter⟩
  · unfold State.headSound State.placingSound at *
    rw [same, opens, length]
    exact sound
  · have plain {w : Work} (light : w.light = true) : w.plain := ⟨light_not_place light, light_not_mount light⟩
    exact headSound_plain (plain lighter) (oneHead_of_eq opens (oneHead_of_headSound (plain light) sound))

/-- Settles O52: the state of a sector becomes OPEN in one place alone, where no sector is. -/
theorem stepKeepsOneHead : Obligations.StepKeepsOneHead := by
  intro s t sound ran
  exact step_keeps (P := State.headSound) (fun _ _ h => h) (fun _ _ _ h effect => effect.storeKept.headSound h)
    (fun _ _ _ h effect => effect.headSound h) sound ran

end

end Sys2Proof.Machine
end

