-- ==== Sys2Proof/Proofs/NotStepKeepsLiveBytes.lean ====
section
/-! PROOF. The ring invariant is not kept from every state that meets it: nothing in it keeps mount from closing a sector that is in
no ring. A RETIRED sector may carry any generation (log 30), and its CLOSED marker would bring it into the ring with it. -/

namespace Sys2Proof.Machine

/-- A mount at its last write: the CLOSED marker of sector 0, which is RETIRED with generation 5, while the next generation is 1. -/
def closesRetired : State :=
  { State.reset with
    pending := [.lineProgramComplete .good]
    powerHold := false
    work := .mount ⟨.closing 0, [], [], 0⟩
    controller := .programming 0 2 closedMarker
    sectors := [⟨.retired, some 5, 0, 0, 0, false, false⟩]
    nextSeq := 1
    nextGen := 1 }

/-- Its entries beyond the first read as ERASED ones. -/
theorem closesRetired_sector (i : Nat) : (closesRetired.sector i).inRing = false := by
  cases i with
  | zero => rfl
  | succ i => rw [sector_beyond (Nat.le_add_left 1 i)]; rfl

theorem closesRetired_directorySound : closesRetired.directorySound :=
  ⟨directoryOrdered_nil, directoryOrdered_nil, fun p => by cases p <;> exact fun _ h => (by cases h)⟩

theorem closesRetired_headSound : closesRetired.headSound := by
  show ([] : List Nat).length ≤ 1
  decide

theorem closesRetired_ringSound : closesRetired.ringSound := by
  refine ⟨fun h => (by cases h), fun i ring => ?_, ⟨fun _ h => (by cases h), trivial⟩, fun h => (by cases h), fun h => (by cases h)⟩
  rw [closesRetired_sector] at ring
  cases ring

/-- The marker's end makes the sector CLOSED, with generation 5, and ends the mount. -/
theorem closesRetired_step : ∃ t, step closesRetired = .next t ∧ t.nextGen = 1 ∧
    (t.sector 0).inRing = true ∧ (t.sector 0).generationNat = 5 := by
  refine ⟨_, rfl, rfl, rfl, rfl⟩

/-- Refutes O53: in `closesRetired` the premises hold, and after its step sector 0 stands in the ring with generation 5, which is not
below the next generation 1. -/
theorem not_stepKeepsLiveBytes : ¬ Obligations.StepKeepsLiveBytes := by
  intro claim
  obtain ⟨t, ran, nextGen, ring, generation⟩ := closesRetired_step
  obtain ⟨-, generations, -⟩ := claim closesRetired t closesRetired_directorySound closesRetired_headSound
    closesRetired_ringSound ran fun zero => by rw [nextGen] at zero; cases zero
  have below := generations 0 ring
  rw [generation, nextGen] at below
  exact absurd below (by decide)

end Sys2Proof.Machine
end

