-- ==== Sys2Proof/Proofs/LeaseTables.lean ====
section
/-! PROOF. The lease table and the sessions agree: what each operation of the lease table leaves of that agreement, apart from the
order of the entries. -/

namespace Sys2Proof.Machine

/-! ### An entry beside the rest of its table -/

section
variable {α : Type} {key : α → Key} {l : List α} {x : α} {k : Key}

theorem removeKeyed_absent (absent : ∀ y ∈ l, key y ≠ k) : removeKeyed key k l = l :=
  List.filter_eq_self.mpr fun y hy => by simpa using absent y hy

theorem removeKeyed_cons (y : α) : removeKeyed key k (y :: l) = if key y = k then removeKeyed key k l else y :: removeKeyed key k l := by
  by_cases same : key y = k <;> simp [removeKeyed, same]

theorem insertKeyed_perm (order : keysAscending key l) : (insertKeyed key x l).Perm (x :: removeKeyed key (key x) l) := by
  induction l with
  | nil => exact .refl _
  | cons y ys ih =>
    obtain ⟨below, rest⟩ := List.pairwise_cons.mp order
    unfold insertKeyed
    split
    · next lower =>
      rw [removeKeyed_absent fun z hz same => ?_]
      rcases List.mem_cons.mp hz with rfl | later
      · rw [same] at lower; exact Nat.lt_irrefl _ lower
      · have := below z later; rw [same] at this; omega
    · split
      · next same =>
        rw [removeKeyed_cons, if_pos same.symm, removeKeyed_absent fun z hz again => ?_]
        have := below z hz
        rw [again, same] at this
        exact Nat.lt_irrefl _ this
      · next other =>
        rw [removeKeyed_cons, if_neg (Ne.symm other)]
        exact ((ih rest).cons y).trans (.swap x y _)

theorem find_perm (order : keysAscending key l) (found : findKeyed key k l = some x) : l.Perm (x :: removeKeyed key k l) := by
  induction l with
  | nil => cases found
  | cons y ys ih =>
    obtain ⟨below, rest⟩ := List.pairwise_cons.mp order
    by_cases same : key y = k
    · have first : y = x := by simpa [findKeyed, same] using found
      rw [removeKeyed_cons, if_pos same, first, removeKeyed_absent fun z hz again => ?_]
      have := below z hz
      rw [same, again] at this
      exact Nat.lt_irrefl _ this
    · have later : findKeyed key k ys = some x := by simpa [findKeyed, same] using found
      rw [removeKeyed_cons, if_neg same]
      exact ((ih rest later).cons y).trans (.swap x y _)

theorem find_eq_some_iff (order : keysAscending key l) : findKeyed key k l = some x ↔ x ∈ l ∧ key x = k := by
  refine ⟨find_mem key, fun ⟨listed, same⟩ => ?_⟩
  cases found : findKeyed key k l with
  | none => exact absurd same (by simpa using List.find?_eq_none.mp found x listed)
  | some y =>
    have perm := find_perm order found
    rcases List.mem_cons.mp (perm.mem_iff.mp listed) with rfl | other
    · rfl
    · exact absurd same ((mem_removeKeyed key).mp other).2

end

/-! ### The agreement -/

/-- The entries of a lease table agree with the sessions, whatever their order (R72, R170). -/
structure TableSound (leases : List Lease) (session : Port → Session) : Prop where
  waiters : ((leases.flatMap Lease.waiters).map Waiter.port).Nodup
  entries : ∀ e ∈ leases, (session e.holder).isOpen = true ∧
    ∀ w ∈ e.waiters, w.port ≠ e.holder ∧ (session w.port).parked = some (e.key, w.tag)
  markers : ∀ p mark, (session p).parked = some mark →
    ∃ e ∈ leases, e.key = mark.1 ∧ ∃ w ∈ e.waiters, w.port = p ∧ w.tag = mark.2
  tidy : ∀ p, (session p).tidy

theorem leasesSound_iff {s : State} : s.leasesSound ↔ keysAscending Lease.key s.leases ∧ TableSound s.leases s.session ∧
    ∀ p, s.work.formatPort = some p → (s.session p).isOpen = true :=
  ⟨fun ⟨order, waiters, entries, markers, tidy, format⟩ => ⟨order, ⟨waiters, entries, markers, tidy⟩, format⟩,
    fun ⟨order, ⟨waiters, entries, markers, tidy⟩, format⟩ => ⟨order, waiters, entries, markers, tidy, format⟩⟩

section
variable {leases rest : List Lease} {session session' : Port → Session} {e : Lease} {p : Port}

theorem TableSound.perm {leases' : List Lease} (sound : TableSound leases session) (perm : leases.Perm leases') :
    TableSound leases' session where
  waiters := ((perm.flatMap_right Lease.waiters).map Waiter.port).nodup_iff.mp sound.waiters
  entries := fun e he => sound.entries e (perm.mem_iff.mpr he)
  markers := fun p mark parked => by
    obtain ⟨e, he, found⟩ := sound.markers p mark parked
    exact ⟨e, perm.mem_iff.mp he, found⟩
  tidy := sound.tidy

/-- A session with a parked claim is OPEN (R170). -/
theorem TableSound.open_of_parked (sound : TableSound leases session) {mark : Key × Byte} (parked : (session p).parked = some mark) :
    (session p).isOpen = true := by
  by_contra shut
  rw [sound.tidy p (Bool.eq_false_iff.mpr shut)] at parked
  cases parked

/-- A port with no parked claim waits in no list. -/
theorem TableSound.waits_nowhere (sound : TableSound leases session) (unparked : (session p).parked = none) :
    ∀ e ∈ leases, ∀ w ∈ e.waiters, w.port ≠ p := by
  rintro e he w hw rfl
  rw [((sound.entries e he).2 w hw).2] at unparked
  cases unparked

/-- The sessions change, but for their parked claims, and none is closed. -/
theorem TableSound.sessions (sound : TableSound leases session) (parked : ∀ p, (session' p).parked = (session p).parked)
    (stays : ∀ p, (session p).isOpen = true → (session' p).isOpen = true) (tidy : ∀ p, (session' p).tidy) :
    TableSound leases session' where
  waiters := sound.waiters
  entries := fun e he => ⟨stays _ (sound.entries e he).1, fun w hw => by rw [parked]; exact (sound.entries e he).2 w hw⟩
  markers := fun p mark h => sound.markers p mark (by rw [← parked]; exact h)
  tidy := tidy

/-- A lease without waiters ends (R79). -/
theorem TableSound.drop (sound : TableSound (e :: rest) session) (unwaited : e.waiters = []) : TableSound rest session where
  waiters := by simpa [unwaited] using sound.waiters
  entries := fun x hx => sound.entries x (List.mem_cons_of_mem e hx)
  markers := fun p mark parked => by
    obtain ⟨x, hx, key, w, hw, found⟩ := sound.markers p mark parked
    rcases List.mem_cons.mp hx with rfl | other
    · rw [unwaited] at hw; cases hw
    · exact ⟨x, other, key, w, hw, found⟩
  tidy := sound.tidy

/-- A new lease stands for an OPEN session (R76). -/
theorem TableSound.grant (sound : TableSound rest session) (unwaited : e.waiters = []) (opened : (session e.holder).isOpen = true) :
    TableSound (e :: rest) session where
  waiters := by simpa [unwaited] using sound.waiters
  entries := fun x hx => by
    rcases List.mem_cons.mp hx with rfl | other
    · exact ⟨opened, fun w hw => by rw [unwaited] at hw; cases hw⟩
    · exact sound.entries x other
  markers := fun p mark parked => by
    obtain ⟨x, hx, found⟩ := sound.markers p mark parked
    exact ⟨x, List.mem_cons_of_mem e hx, found⟩
  tidy := sound.tidy

/-- A lease restarts (R77, R80). -/
theorem TableSound.restart {e' : Lease} (sound : TableSound (e :: rest) session) (key : e'.key = e.key)
    (holder : e'.holder = e.holder) (waiters : e'.waiters = e.waiters) : TableSound (e' :: rest) session where
  waiters := by simpa [waiters] using sound.waiters
  entries := fun x hx => by
    rcases List.mem_cons.mp hx with rfl | other
    · rw [key, holder, waiters]; exact sound.entries e List.mem_cons_self
    · exact sound.entries x (List.mem_cons_of_mem e other)
  markers := fun p mark parked => by
    obtain ⟨x, hx, keyed, waits⟩ := sound.markers p mark parked
    rcases List.mem_cons.mp hx with rfl | other
    · exact ⟨e', List.mem_cons_self, key.trans keyed, waiters ▸ waits⟩
    · exact ⟨x, List.mem_cons_of_mem e' other, keyed, waits⟩
  tidy := sound.tidy

/-- The lease passes to its oldest waiter (R79). -/
theorem TableSound.pass {w : Waiter} {others : List Waiter} {e' : Lease} (sound : TableSound (e :: rest) session)
    (oldest : e.waiters = w :: others) (key : e'.key = e.key) (holder : e'.holder = w.port) (waiters : e'.waiters = others) :
    TableSound (e' :: rest) (Function.update session w.port { session w.port with parked := none }) := by
  have distinct : w.port ∉ (others ++ rest.flatMap Lease.waiters).map Waiter.port ∧
      ((others ++ rest.flatMap Lease.waiters).map Waiter.port).Nodup := by
    simpa [List.flatMap_cons, oldest] using sound.waiters
  have parked : (session w.port).parked = some (e.key, w.tag) :=
    ((sound.entries e List.mem_cons_self).2 w (by rw [oldest]; exact List.mem_cons_self)).2
  have opened := sound.open_of_parked parked
  have elsewhere {v : Waiter} (hv : v ∈ others ++ rest.flatMap Lease.waiters) : v.port ≠ w.port :=
    fun same => distinct.1 (List.mem_map.mpr ⟨v, hv, same⟩)
  have stays (q : Port) : (Function.update session w.port { session w.port with parked := none } q).isOpen = (session q).isOpen := by
    by_cases same : q = w.port
    · subst same; rw [Function.update_self]
    · rw [Function.update_of_ne same]
  refine ⟨by simpa [List.flatMap_cons, waiters] using distinct.2, fun x hx => ?_, fun p mark marked => ?_, fun q => ?_⟩
  · rcases List.mem_cons.mp hx with rfl | other
    · refine ⟨by rw [stays, holder]; exact opened, fun v hv => ?_⟩
      rw [waiters] at hv
      have away := elsewhere (List.mem_append_left _ hv)
      rw [holder, key, Function.update_of_ne away]
      exact ⟨away, ((sound.entries e List.mem_cons_self).2 v (by rw [oldest]; exact List.mem_cons_of_mem w hv)).2⟩
    · obtain ⟨holds, waits⟩ := sound.entries x (List.mem_cons_of_mem e other)
      refine ⟨by rw [stays]; exact holds, fun v hv => ?_⟩
      rw [Function.update_of_ne (elsewhere (List.mem_append_right _ (List.mem_flatMap.mpr ⟨x, other, hv⟩)))]
      exact waits v hv
  · have away : p ≠ w.port := by rintro rfl; rw [Function.update_self] at marked; cases marked
    rw [Function.update_of_ne away] at marked
    obtain ⟨x, hx, keyed, v, hv, port, tag⟩ := sound.markers p mark marked
    rcases List.mem_cons.mp hx with rfl | other
    · rw [oldest] at hv
      rcases List.mem_cons.mp hv with rfl | later
      · exact absurd port.symm away
      · exact ⟨e', List.mem_cons_self, key.trans keyed, v, waiters ▸ later, port, tag⟩
    · exact ⟨x, List.mem_cons_of_mem e' other, keyed, v, hv, port, tag⟩
  · by_cases same : q = w.port
    · subst same
      intro shut
      rw [stays, opened] at shut
      cases shut
    · rw [Function.update_of_ne same]; exact sound.tidy q

/-- A claim is parked by an OPEN session that has none parked, on a lease of another port (R78). -/
theorem TableSound.park {w : Waiter} {e' : Lease} (sound : TableSound (e :: rest) session) (key : e'.key = e.key)
    (holder : e'.holder = e.holder) (waiters : e'.waiters = e.waiters ++ [w]) (other : w.port ≠ e.holder)
    (unparked : (session w.port).parked = none) (opened : (session w.port).isOpen = true) :
    TableSound (e' :: rest) (Function.update session w.port { session w.port with parked := some (e.key, w.tag) }) := by
  have nowhere := sound.waits_nowhere unparked
  have stays (q : Port) :
      (Function.update session w.port { session w.port with parked := some (e.key, w.tag) } q).isOpen = (session q).isOpen := by
    by_cases same : q = w.port
    · subst same; rw [Function.update_self]
    · rw [Function.update_of_ne same]
  refine ⟨?_, fun x hx => ?_, fun p mark marked => ?_, fun q => ?_⟩
  · have moved : ((e' :: rest).flatMap Lease.waiters).Perm (w :: (e :: rest).flatMap Lease.waiters) := by
      simp only [List.flatMap_cons, waiters, List.append_assoc, List.singleton_append]
      exact List.perm_middle
    refine (moved.map Waiter.port).nodup_iff.mpr (List.nodup_cons.mpr ⟨fun listed => ?_, sound.waiters⟩)
    obtain ⟨v, hv, port⟩ := List.mem_map.mp listed
    obtain ⟨x, hx, hv⟩ := List.mem_flatMap.mp hv
    exact nowhere x hx v hv port
  · rcases List.mem_cons.mp hx with rfl | other'
    · obtain ⟨holds, waits⟩ := sound.entries e List.mem_cons_self
      refine ⟨by rw [stays, holder]; exact holds, fun v hv => ?_⟩
      rw [waiters] at hv
      rw [holder, key]
      rcases List.mem_append.mp hv with old | new
      · rw [Function.update_of_ne (nowhere e List.mem_cons_self v old)]; exact waits v old
      · obtain rfl := List.mem_singleton.mp new
        rw [Function.update_self]; exact ⟨other, rfl⟩
    · obtain ⟨holds, waits⟩ := sound.entries x (List.mem_cons_of_mem e other')
      refine ⟨by rw [stays]; exact holds, fun v hv => ?_⟩
      rw [Function.update_of_ne (nowhere x (List.mem_cons_of_mem e other') v hv)]
      exact waits v hv
  · by_cases same : p = w.port
    · subst same
      rw [Function.update_self] at marked
      cases marked
      exact ⟨e', List.mem_cons_self, key, w, by rw [waiters]; simp, rfl, rfl⟩
    · rw [Function.update_of_ne same] at marked
      obtain ⟨x, hx, keyed, v, hv, found⟩ := sound.markers p mark marked
      rcases List.mem_cons.mp hx with rfl | other'
      · exact ⟨e', List.mem_cons_self, key.trans keyed, v, by rw [waiters]; exact List.mem_append_left _ hv, found⟩
      · exact ⟨x, List.mem_cons_of_mem e' other', keyed, v, hv, found⟩
  · by_cases same : q = w.port
    · subst same
      intro shut
      rw [stays, opened] at shut
      cases shut
    · rw [Function.update_of_ne same]; exact sound.tidy q

/-- The waiter records of a port leave the list of a lease (R83, R87). -/
def Lease.without (e : Lease) (p : Port) : Lease := { e with waiters := e.waiters.filter fun w => !decide (w.port = p) }

/-- The parked claim of a port ends (R83, R87). -/
theorem TableSound.unpark (sound : TableSound leases session) (p : Port) :
    TableSound (leases.map (Lease.without · p)) (Function.update session p { session p with parked := none }) := by
  have kept {e : Lease} {w : Waiter} (hw : w ∈ (e.without p).waiters) : w ∈ e.waiters ∧ w.port ≠ p := by
    simpa [Lease.without] using hw
  have stays (q : Port) : (Function.update session p { session p with parked := none } q).isOpen = (session q).isOpen := by
    by_cases same : q = p
    · subst same; rw [Function.update_self]
    · rw [Function.update_of_ne same]
  refine ⟨?_, fun x hx => ?_, fun q mark marked => ?_, fun q => ?_⟩
  · refine sound.waiters.sublist (List.Sublist.map _ ?_)
    have fewer : ∀ l : List Lease, List.Sublist ((l.map (Lease.without · p)).flatMap Lease.waiters) (l.flatMap Lease.waiters) := by
      intro l
      induction l with
      | nil => exact .slnil
      | cons e l ih =>
        rw [List.map_cons, List.flatMap_cons, List.flatMap_cons]
        exact List.Sublist.append List.filter_sublist ih
    exact fewer leases
  · obtain ⟨e, he, rfl⟩ := List.mem_map.mp hx
    obtain ⟨holds, waits⟩ := sound.entries e he
    refine ⟨by rw [stays]; exact holds, fun w hw => ?_⟩
    rw [Function.update_of_ne (kept hw).2]
    exact waits w (kept hw).1
  · have away : q ≠ p := by rintro rfl; rw [Function.update_self] at marked; cases marked
    rw [Function.update_of_ne away] at marked
    obtain ⟨e, he, keyed, w, hw, port, tag⟩ := sound.markers q mark marked
    refine ⟨e.without p, List.mem_map.mpr ⟨e, he, rfl⟩, keyed, w, ?_, port, tag⟩
    simpa [Lease.without, hw, port] using away
  · by_cases same : q = p
    · subst same
      intro shut
      rw [stays] at shut
      rw [Function.update_self, sound.tidy q shut]
      rfl
    · rw [Function.update_of_ne same]; exact sound.tidy q

/-- A session that holds no lease and waits for none is closed (R173). -/
theorem TableSound.close (sound : TableSound leases session) (holds : ∀ e ∈ leases, e.holder ≠ p)
    (unparked : (session p).parked = none) : TableSound leases (Function.update session p .closed) where
  waiters := sound.waiters
  entries := fun e he => by
    rw [Function.update_of_ne (holds e he)]
    refine ⟨(sound.entries e he).1, fun w hw => ?_⟩
    rw [Function.update_of_ne (sound.waits_nowhere unparked e he w hw)]
    exact (sound.entries e he).2 w hw
  markers := fun q mark marked => by
    have away : q ≠ p := by rintro rfl; rw [Function.update_self] at marked; cases marked
    rw [Function.update_of_ne away] at marked
    exact sound.markers q mark marked
  tidy := fun q => by
    by_cases same : q = p
    · subst same; rw [Function.update_self]; exact fun _ => rfl
    · rw [Function.update_of_ne same]; exact sound.tidy q

end

/-! ### The operations of the lease table -/

/-- The entry that a lease leaves when it ends: that of its oldest waiter, or none (R79). -/
def State.passed (s : State) (e : Lease) : Option Lease :=
  match e.waiters with
  | [] => none
  | w :: rest => some (e.passTo w rest (s.periodUsed w.period) s.leaseClock)

section
variable {s t : State} {k : Key} {p : Port} {e : Lease}

theorem session_setSession (p : Port) (x : Session) : (s.setSession p x).session = Function.update s.session p x := by
  funext q
  by_cases same : q = p
  · subst same; rw [session_setSession_self, Function.update_self]
  · rw [session_setSession_other _ _ same, Function.update_of_ne same]

/-- The lease table is in ascending order and agrees with the sessions. -/
def State.tableSound (s : State) : Prop := keysAscending Lease.key s.leases ∧ TableSound s.leases s.session

theorem State.leasesSound.table (sound : s.leasesSound) : s.tableSound :=
  ⟨(leasesSound_iff.mp sound).1, (leasesSound_iff.mp sound).2.1⟩

theorem leaseOf_eq_some_iff (sound : s.tableSound) : s.leaseOf k = some e ↔ e ∈ s.leases ∧ e.key = k :=
  find_eq_some_iff sound.1

theorem endLease_absent (absent : s.leaseOf k = none) : s.endLease k = s := by
  simp only [State.endLease, absent]

theorem endLease_tableSound (k : Key) (sound : s.tableSound) : (s.endLease k).tableSound := by
  obtain ⟨order, table⟩ := sound
  cases entry : s.leaseOf k with
  | none => rw [endLease_absent entry]; exact ⟨order, table⟩
  | some e =>
    have keyed : e.key = k := (find_mem Lease.key entry).2
    have perm := find_perm order entry
    cases waiting : e.waiters with
    | nil =>
      rw [endLease_removes entry waiting]
      exact ⟨removeKeyed_ascending Lease.key order, (table.perm perm).drop waiting⟩
    | cons w rest =>
      unfold State.endLease
      rw [entry]
      dsimp only
      rw [waiting]
      refine ⟨insertKeyed_ascending Lease.key order, ?_⟩
      have passed := (table.perm perm).pass (e' := e.passTo w rest (s.periodUsed w.period) s.leaseClock) waiting rfl rfl rfl
      refine (TableSound.perm ?_ (insertKeyed_perm order).symm)
      rw [show Lease.key (e.passTo w rest (s.periodUsed w.period) s.leaseClock) = k from keyed]
      have sessions := session_setSession (s := s) w.port { s.session w.port with parked := none }
      exact sessions ▸ passed

/-- A lease that ends leaves the entries of other keys (R79). -/
theorem leaseOf_endLease (j : Key) : (s.endLease k).leaseOf j = if j = k then (s.leaseOf k).bind s.passed else s.leaseOf j := by
  cases entry : s.leaseOf k with
  | none =>
    rw [endLease_absent entry]
    split
    · next same => rw [same, entry]; rfl
    · rfl
  | some e =>
    have keyed : e.key = k := (find_mem Lease.key entry).2
    cases waiting : e.waiters with
    | nil =>
      rw [endLease_removes entry waiting]
      split
      · next same => subst same; simp only [State.leaseOf, find_remove_self, Option.bind_some, State.passed, waiting]
      · next other => exact find_remove_other Lease.key other
    | cons w rest =>
      rw [endLease_passes entry waiting]
      show findKeyed Lease.key j (insertKeyed Lease.key _ s.leases) = _
      split
      · next same =>
        subst same
        rw [Option.bind_some, State.passed, waiting, ← keyed]
        exact find_insert_self Lease.key (x := e.passTo w rest (s.periodUsed w.period) s.leaseClock)
      · next other => exact find_insert_other Lease.key fun same => other (same.symm.trans keyed)

theorem endLease_default (k : Key) : (s.endLease k).defaultPeriod = s.defaultPeriod := (endLease_clients s k).storeKept.defaultPeriod

/-- The clock and the default period that a passed lease is given stand while leases end. -/
theorem passed_endLease (k : Key) : (s.endLease k).passed = s.passed := by
  funext e
  have clock := (endLease_keeps s k).leaseClock
  unfold State.passed State.periodUsed
  rw [clock, endLease_default]

/-- Leases of distinct keys end one after another, each by itself. -/
theorem leaseOf_foldl_endLease (keys : List Key) : ∀ (s : State), keys.Nodup → ∀ j,
    (keys.foldl State.endLease s).leaseOf j = if j ∈ keys then (s.leaseOf j).bind s.passed else s.leaseOf j := by
  induction keys with
  | nil => exact fun _ _ _ => rfl
  | cons k keys ih =>
    intro s distinct j
    obtain ⟨fresh, rest⟩ := List.nodup_cons.mp distinct
    rw [List.foldl_cons, ih _ rest, leaseOf_endLease, passed_endLease]
    by_cases same : j = k
    · subst same
      rw [if_neg fresh, if_pos rfl, if_pos List.mem_cons_self]
    · by_cases later : j ∈ keys
      · rw [if_pos later, if_neg same, if_pos (List.mem_cons_of_mem k later)]
      · rw [if_neg later, if_neg same, if_neg (by simp [same, later])]

theorem foldl_endLease_tableSound (keys : List Key) : ∀ (s : State), s.tableSound → (keys.foldl State.endLease s).tableSound := by
  induction keys with
  | nil => exact fun _ sound => sound
  | cons k keys ih => exact fun s sound => ih _ (endLease_tableSound k sound)

/-- The keys of the leases that a port holds. -/
def State.keysHeld (s : State) (p : Port) : List Key := (s.leases.filter fun e => decide (e.holder = p)).map Lease.key

theorem releaseAll_eq : s.releaseAll p = (s.keysHeld p).foldl State.endLease s := rfl

theorem keysHeld_nodup (sound : s.tableSound) : (s.keysHeld p).Nodup :=
  (sound.1.filter _).map Lease.key fun x y below same => by rw [same] at below; exact Nat.lt_irrefl _ below

theorem mem_keysHeld (sound : s.tableSound) (listed : e ∈ s.leases) : e.key ∈ s.keysHeld p ↔ e.holder = p := by
  unfold State.keysHeld
  rw [List.mem_map]
  refine ⟨fun ⟨x, hx, key⟩ => ?_, fun holds => ⟨e, List.mem_filter.mpr ⟨listed, by simpa using holds⟩, rfl⟩⟩
  obtain ⟨listed', holds⟩ := List.mem_filter.mp hx
  have same : x = e := Option.some.inj
    (((leaseOf_eq_some_iff sound).mpr ⟨listed', key⟩).symm.trans ((leaseOf_eq_some_iff sound).mpr ⟨listed, rfl⟩))
  simpa [same] using holds

theorem leaseOf_releaseAll (sound : s.tableSound) (j : Key) :
    (s.releaseAll p).leaseOf j = if j ∈ s.keysHeld p then (s.leaseOf j).bind s.passed else s.leaseOf j :=
  leaseOf_foldl_endLease _ s (keysHeld_nodup sound) j

theorem releaseAll_tableSound (p : Port) (sound : s.tableSound) : (s.releaseAll p).tableSound :=
  foldl_endLease_tableSound _ s sound

/-- A port that has released all holds none: each lease has passed to a waiter, and no holder waits for its own (R87). -/
theorem releaseAll_holds_none (sound : s.tableSound) : ∀ e ∈ (s.releaseAll p).leases, e.holder ≠ p := by
  intro e he
  have found := (leaseOf_eq_some_iff (releaseAll_tableSound p sound)).mpr ⟨he, rfl⟩
  rw [leaseOf_releaseAll sound] at found
  split at found
  · next held =>
    obtain ⟨x, entry, passed⟩ := Option.bind_eq_some_iff.mp found
    obtain ⟨listed, key⟩ := (leaseOf_eq_some_iff sound).mp entry
    have holds := (mem_keysHeld sound listed).mp (key ▸ held)
    unfold State.passed at passed
    split at passed
    · cases passed
    · next w rest waiting =>
      cases passed
      rw [← holds]
      exact ((sound.2.entries x listed).2 w (by rw [waiting]; exact List.mem_cons_self)).1
  · next unheld =>
    obtain ⟨listed, -⟩ := (leaseOf_eq_some_iff sound).mp found
    exact fun holds => unheld ((mem_keysHeld sound listed).mpr holds)

theorem removeParked_tableSound (p : Port) (sound : s.tableSound) : (s.removeParked p).tableSound := by
  obtain ⟨order, table⟩ := sound
  refine ⟨List.pairwise_map.mpr order, ?_⟩
  have sessions := session_setSession (s := s) p { s.session p with parked := none }
  exact sessions ▸ table.unpark p

theorem dropParked_tableSound (p : Port) (answered : Bool) (sound : s.tableSound) : (s.dropParked p answered).tableSound := by
  unfold State.dropParked
  split
  · exact sound
  · split <;> exact removeParked_tableSound p sound

theorem dropParked_unparks (p : Port) (answered : Bool) : ((s.dropParked p answered).session p).parked = none := by
  have removed : ((s.removeParked p).session p).parked = none := by
    show ((s.sessions.set p _).get p).parked = none
    rw [get_set_self]
  unfold State.dropParked
  split
  · next unparked => exact unparked
  · split <;> exact removed

theorem dropParked_holders (p : Port) (answered : Bool) (q : Port) (none : ∀ e ∈ s.leases, e.holder ≠ q) :
    ∀ e ∈ (s.dropParked p answered).leases, e.holder ≠ q := by
  have removed : ∀ e ∈ (s.removeParked p).leases, e.holder ≠ q := by
    intro e he
    obtain ⟨x, hx, rfl⟩ := List.mem_map.mp he
    exact none x hx
  unfold State.dropParked
  split
  · exact none
  · split <;> exact removed

theorem tearDown_tableSound (p : Port) (answered : Bool) (sound : s.tableSound) : (s.tearDown p answered).tableSound := by
  have released := releaseAll_tableSound p sound
  obtain ⟨order, table⟩ := dropParked_tableSound p answered released
  refine ⟨order, ?_⟩
  have closed := table.close (dropParked_holders p answered p (releaseAll_holds_none sound)) (dropParked_unparks p answered)
  have sessions := session_setSession (s := (s.releaseAll p).dropParked p answered) p .closed
  exact sessions ▸ closed

/-- A session changes, but for its parked claim, and does not close. -/
theorem setSession_tableSound {x : Session} (parked : x.parked = (s.session p).parked)
    (stays : (s.session p).isOpen = true → x.isOpen = true) (tidy : x.tidy) (sound : s.tableSound) :
    (s.setSession p x).tableSound := by
  refine ⟨sound.1, sound.2.sessions (fun q => ?_) (fun q opened => ?_) fun q => ?_⟩
  all_goals
    rw [session_setSession]
    by_cases same : q = p
  · subst same; rw [Function.update_self, parked]
  · rw [Function.update_of_ne same]
  · subst same; rw [Function.update_self]; exact stays opened
  · rw [Function.update_of_ne same]; exact opened
  · subst same; rw [Function.update_self]; exact tidy
  · rw [Function.update_of_ne same]; exact sound.2.tidy q

theorem tidy_of_open {x : Session} (opened : x.isOpen = true) : x.tidy := fun shut => by rw [opened] at shut; cases shut

/-- An OPEN session changes, but for its parked claim. -/
theorem setSession_open_tableSound {x : Session} (opened : x.isOpen = true) (parked : x.parked = (s.session p).parked)
    (sound : s.tableSound) : (s.setSession p x).tableSound :=
  setSession_tableSound parked (fun _ => opened) (tidy_of_open opened) sound

/-- A lapse is posted to the holder of a lease (R82). -/
theorem postLapsed_tableSound (listed : e ∈ s.leases) (sound : s.tableSound) : (s.postLapsed e.holder k).tableSound :=
  setSession_open_tableSound (sound.2.entries e listed).1 rfl sound

theorem takeExpiry_tableSound (x : Expiry) (sound : s.tableSound) : (s.takeExpiry x).tableSound := by
  cases x with
  | lease k =>
    unfold State.takeExpiry State.expireLease
    dsimp only
    split
    · exact sound
    · next e entry =>
      split
      · exact endLease_tableSound k (postLapsed_tableSound ((leaseOf_eq_some_iff sound).mp entry).1 sound)
      · exact sound
  | wait p =>
    unfold State.takeExpiry State.expireWait
    dsimp only
    split
    · exact sound
    · split
      · exact removeParked_tableSound p sound
      · exact sound

theorem advanceClock_tableSound (first : List Expiry) (sound : s.tableSound) : (s.advanceClock first).tableSound := by
  unfold State.advanceClock
  have ticked : s.tickClock.tableSound := sound
  generalize s.tickClock = u at ticked
  generalize first ++ s.expiries = expiries
  induction expiries generalizing u with
  | nil => exact ticked
  | cons x expiries ih => exact ih _ (takeExpiry_tableSound x ticked)

end

end Sys2Proof.Machine
end

