-- ==== Sys2Proof/Proofs/StepKeepsLeasesAndBudget.lean ====
section
/-! PROOF. Every step keeps the lease table in agreement with the sessions, and every port within its claim budget. -/

namespace Sys2Proof.Machine

section
variable {s t : State} {p q : Port} {k : Key} {e : Lease} {x y : Session}

/-! ### Sessions that stay as they were towards the lease table -/

theorem Session.Lapsed.isOpen (lapses : x.Lapsed y) : y.isOpen = x.isOpen := by
  induction lapses with
  | same => rfl
  | unparked before ih => exact ih
  | lapsed k before ih => exact ih

theorem Session.Posted.isOpen (posts : x.Posted y) : y.isOpen = x.isOpen := by
  induction posts with
  | same => rfl
  | changed k v before ih => exact ih
  | cleared before ih => exact ih

theorem Session.Posted.parked (posts : x.Posted y) : y.parked = x.parked := by
  induction posts with
  | same => rfl
  | changed k v before ih => exact ih
  | cleared before ih => exact ih

theorem cleared_tidy (tidy : x.tidy) : ({ x with groupOpen := false, members := [] } : Session).tidy := fun shut => by
  rw [tidy shut]; rfl

/-- A CLOSED session takes no posting (R95, R170). -/
theorem takeChanged_tidy (k : Key) (v : SeqNo) (tidy : x.tidy) : (x.takeChanged k v).tidy := fun shut => by
  rw [tidy shut]; rfl

theorem Session.Posted.tidy (posts : x.Posted y) (tidy : x.tidy) : y.tidy := by
  induction posts with
  | same => exact tidy
  | changed k v before ih => exact takeChanged_tidy k v ih
  | cleared before ih => exact cleared_tidy ih

/-! ### The table -/

/-- The entry of a key is replaced (R77, R78, R80). -/
theorem insertLease_tableSound {e' : Lease} {session : Port → Session} (order : keysAscending Lease.key s.leases)
    (key : e'.key = k) (table : TableSound (e' :: removeKeyed Lease.key k s.leases) session)
    (leases : t.leases = insertKeyed Lease.key e' s.leases) (sessions : t.session = session) : t.tableSound := by
  refine ⟨leases ▸ insertKeyed_ascending Lease.key order, ?_⟩
  rw [leases, sessions]
  exact table.perm (key ▸ insertKeyed_perm order).symm

theorem restartLease_tableSound (period : Nat) (entry : s.leaseOf k = some e) (sound : s.tableSound) :
    (s.restartLease e period).tableSound :=
  insertLease_tableSound (e' := e.restart period s.leaseClock) sound.1 (find_mem Lease.key entry).2
    ((sound.2.perm (find_perm sound.1 entry)).restart rfl rfl rfl) rfl rfl

theorem grantLease_tableSound (period : Nat) (tag : Byte) (absent : s.leaseOf k = none) (opened : (s.session p).isOpen = true)
    (sound : s.tableSound) : (s.grantLease p tag k period).tableSound := by
  have fresh : ∀ y ∈ s.leases, Lease.key y ≠ k := by simpa [State.leaseOf, findKeyed] using absent
  refine insertLease_tableSound sound.1 (k := k) rfl ?_ rfl rfl
  rw [removeKeyed_absent fresh]
  exact sound.2.grant rfl opened

theorem parkClaim_tableSound {c : ClaimBody} (tag : Byte) (entry : s.leaseOf c.key = some e) (other : e.holder ≠ p)
    (unparked : (s.session p).parked = none) (opened : (s.session p).isOpen = true) (sound : s.tableSound) :
    (s.parkClaim p tag e c).tableSound := by
  have keyed : e.key = c.key := (find_mem Lease.key entry).2
  refine insertLease_tableSound (e' := { e with waiters := e.waiters ++ [⟨p, tag, c.period, expiryFrom s.leaseClock c.wait⟩] })
    sound.1 keyed ((sound.2.perm (find_perm sound.1 entry)).park rfl rfl rfl (Ne.symm other) unparked opened) rfl ?_
  rw [keyed]
  exact session_setSession p _

theorem ownLease_eq_some (own : s.ownLease p k = some e) : s.leaseOf k = some e ∧ e.holder = p := by
  unfold State.ownLease at own
  split at own
  · next x entry =>
    split at own
    · next holds => cases own; exact ⟨entry, holds⟩
    · cases own
  · cases own

theorem claimAct_tableSound {r : Request} {c : ClaimBody} (opened : (s.session p).isOpen = true) (sound : s.tableSound) :
    (claimAct p r c s).tableSound := by
  unfold claimAct
  split
  · next absent =>
    split
    · exact sound
    · exact grantLease_tableSound _ _ absent opened sound
  · next e entry =>
    split
    · exact restartLease_tableSound _ entry sound
    · next other =>
      unfold State.claimHeld
      split
      · exact sound
      · split
        · exact sound
        · next unparked =>
          split
          · exact sound
          · exact parkClaim_tableSound _ entry other (by simpa using unparked) opened sound

theorem renewAct_tableSound {r : Request} {c : Key × Nat} (sound : s.tableSound) : (renewAct p r c s).tableSound := by
  unfold renewAct
  split
  · next e own => exact restartLease_tableSound _ (ownLease_eq_some own).1 sound
  · exact sound

theorem releaseAct_tableSound {r : Request} (sound : s.tableSound) : (releaseAct p r k s).tableSound := by
  unfold releaseAct
  split
  · exact endLease_tableSound k sound
  · exact sound

/-- Step 1 of a judged request (R52). -/
theorem judge_session {α : Type} {parsed : Option α} {later : α → List (Option Rejection)} {a : α}
    (passed : judge (checkSession s p) parsed later = .ok a) : (s.session p).isOpen = true :=
  failUnless_eq_none.mp (judge_ok_iff.mp passed).1

theorem grant_leases (g : Grant) : (s.grant g).leases = s.leases ∧ (s.grant g).sessions = s.sessions := by
  cases g with
  | none | reclaim => exact ⟨rfl, rfl⟩
  | port p =>
    unfold State.grant State.grantPort
    dsimp only
    split
    · exact ⟨rfl, rfl⟩
    · split <;> exact ⟨rfl, rfl⟩

theorem tableSound_of_eq (leases : t.leases = s.leases) (sessions : t.sessions = s.sessions) (sound : s.tableSound) :
    t.tableSound := by
  have session : t.session = s.session := by funext q; rw [State.session, State.session, sessions]
  rw [State.tableSound, leases, session]
  exact sound

theorem ClientEffect.tableSound {kind : CommandKind} (effect : ClientEffect s kind t) (sound : s.tableSound) : t.tableSound := by
  cases effect with
  | nothing | supplied | framed | fetched | answered | compacted => exact sound
  | selected p => unfold State.select; split <;> exact sound
  | submitted p input part => unfold State.submitFrame; split <;> exact sound
  | portReset p input part => unfold State.portResetFrame; split <;> exact sound
  | granted idle => exact tableSound_of_eq (grant_leases _).1 (grant_leases _).2 sound
  | opened p r e inHand => exact setSession_open_tableSound (x := (s.session p).bind (s.rightsInForce.get p)) rfl rfl sound
  | closed p r inHand passed => exact tearDown_tableSound p true sound
  | claimed p r c inHand passed => exact claimAct_tableSound (judge_session passed) sound
  | renewed p r c inHand passed => exact renewAct_tableSound sound
  | released p r k inHand => exact releaseAct_tableSound sound
  | watched p r k inHand passed =>
    unfold watchAct
    split
    · exact sound
    · exact setSession_open_tableSound (x := (s.session p).addWatch k) (judge_session passed) rfl sound
  | unwatched p r k inHand passed =>
    exact setSession_open_tableSound (x := (s.session p).dropWatch k) (judge_session passed) rfl sound
  | noticeTaken p r inHand passed =>
    unfold takeNoticeAct
    split
    · exact sound
    · next n rest notices =>
      exact setSession_open_tableSound (x := { s.session p with notices := rest }) (judge_session passed) rfl sound
  | groupBegun p r inHand passed =>
    exact setSession_open_tableSound (x := { s.session p with groupOpen := true, members := [] }) (judge_session passed) rfl sound
  | memberPut p r c inHand passed =>
    exact setSession_open_tableSound (x := { s.session p with members := stagedAfter s p c }) (judge_session passed) rfl sound
  | groupCleared p r body inHand =>
    exact setSession_tableSound (x := { s.session p with groupOpen := false, members := [] }) rfl id
      (cleared_tidy (sound.2.tidy p)) sound
  | tornDown p inHand => exact tearDown_tableSound p false sound
  | advanced first => exact advanceClock_tableSound first sound

/-- The session for which FORMAT runs stays OPEN through what leaves FORMAT in hand (R155). -/
theorem ClientEffect.formatOpen {kind : CommandKind} (effect : ClientEffect s kind t)
    (format : ∀ p, s.work.formatPort = some p → (s.session p).isOpen = true) :
    ∀ p, t.work.formatPort = some p → (t.session p).isOpen = true := by
  have light_none {w : Work} (light : w.light = true) : w.formatPort = none := by
    cases w with
    | idle | request | teardown | reclaimGrant => rfl
    | place | marking | tailErase | tailRetire | mount | format => cases light
  intro p formats
  rcases effect.storeKept.work with same | ⟨-, light⟩
  · rw [same] at formats
    have notLight : s.work.light ≠ true := fun light => by rw [light_none light] at formats; cases formats
    have opened := format p formats
    cases effect with
    | nothing | supplied | framed | fetched => exact opened
    | selected q => unfold State.select; split <;> exact opened
    | submitted q input part => unfold State.submitFrame; split <;> exact opened
    | portReset q input part => unfold State.portResetFrame; split <;> exact opened
    | advanced first => rw [(advanceClock_lapsed first p).isOpen]; exact opened
    | granted inHand | tornDown _ inHand => exact absurd (by rw [inHand]; rfl) notLight
    | answered _ _ _ _ _ inHand | opened _ _ _ inHand | closed _ _ inHand | claimed _ _ _ inHand | renewed _ _ _ inHand
    | released _ _ _ inHand | watched _ _ _ inHand | unwatched _ _ _ inHand | noticeTaken _ _ inHand | groupBegun _ _ inHand
    | memberPut _ _ _ inHand | groupCleared _ _ _ inHand | compacted _ _ _ inHand =>
      exact absurd (by rw [inHand]; rfl) notLight
  · rw [light_none light] at formats; cases formats

theorem releaseAll_isOpen (p q : Port) : ((s.releaseAll p).session q).isOpen = (s.session q).isOpen :=
  (releaseAll_lapsed (x := s.session) (fun _ => .same) p q).isOpen

/-- The end of FORMAT for an OPEN session (R159). -/
theorem formatComplete_tableSound {f : FormatWork} (opened : (s.session f.port).isOpen = true) (sound : s.tableSound) :
    (s.formatComplete f).tableSound := by
  have released : (s.formatStore.releaseAll f.port).tableSound := releaseAll_tableSound (s := s.formatStore) f.port sound
  refine setSession_open_tableSound (s := s.formatStore.releaseAll f.port) (p := f.port)
    (x := { (s.formatStore.releaseAll f.port).session f.port with
      rights := defaultRights.get f.port, watch := [], notices := [], groupOpen := false, members := [] }) ?_ rfl released
  exact (releaseAll_isOpen f.port f.port).trans opened

theorem TableSound.closed {session : Port → Session} (closed : ∀ p, session p = Session.closed) : TableSound [] session where
  waiters := .nil
  entries := fun _ h => (by cases h)
  markers := fun p mark h => by rw [closed] at h; cases h
  tidy := fun p _ => closed p

/-- The session that the request served FORMATs for is OPEN. -/
theorem serves_open {f : FormatWork} (serves : s.serves (.format f))
    (format : ∀ p, s.work.formatPort = some p → (s.session p).isOpen = true) : (s.session f.port).isOpen = true :=
  (serves.2 f.port rfl).elim (format f.port) id

theorem ClientStep.leasesSound {kind : CommandKind} (step : ClientStep kind s t) (sound : s.leasesSound) : t.leasesSound := by
  have table := sound.table
  have format := (leasesSound_iff.mp sound).2.2
  suffices kept : t.tableSound ∧ ∀ p, t.work.formatPort = some p → (t.session p).isOpen = true from
    leasesSound_iff.mpr ⟨kept.1.1, kept.1.2, kept.2⟩
  cases step with
  | kept same serves =>
    refine ⟨tableSound_of_eq same.leases same.sessions table, fun p formats => ?_⟩
    rw [State.session, same.sessions]
    exact (serves.2 p formats).elim (format p) id
  | answered p tag st body owner idle leases clock sessions =>
    refine ⟨⟨leases ▸ table.1, leases ▸ table.2.sessions (fun q => (sessions q).parked)
      (fun q opened => (sessions q).isOpen.trans opened) fun q => (sessions q).tidy (table.2.tidy q)⟩, fun p formats => ?_⟩
    rw [idle] at formats; cases formats
  | formatted f u same serves done =>
    have stands : u.session f.port = s.session f.port := by rw [State.session, State.session, same.sessions]
    rw [done]
    refine ⟨formatComplete_tableSound (stands ▸ serves_open serves format) (tableSound_of_eq same.leases same.sessions table),
      fun p formats => ?_⟩
    cases formats
  | reset _ work leases clock sessions =>
    refine ⟨⟨leases ▸ .nil, leases ▸ TableSound.closed sessions⟩, fun p formats => ?_⟩
    rw [work] at formats; cases formats

theorem ClientEffect.leasesSound {kind : CommandKind} (effect : ClientEffect s kind t) (sound : s.leasesSound) : t.leasesSound := by
  have table := effect.tableSound sound.table
  exact leasesSound_iff.mpr ⟨table.1, table.2, effect.formatOpen (leasesSound_iff.mp sound).2.2⟩

/-! ### The claim budget -/

/-- The leases that a port holds in a table. -/
def heldBy (p : Port) (leases : List Lease) : Nat := (leases.filter fun e => decide (e.holder = p)).length

/-- The notices of lapses in a session. -/
def Session.lapses (x : Session) : Nat := (x.notices.filter fun n => n.lapsed).length

theorem claimCount_eq (p : Port) :
    s.claimCount p = heldBy p s.leases + (s.session p).parked.toList.length + (s.session p).lapses := by
  have one : (s.portParked p).toList.length = (s.session p).parked.toList.length := by
    unfold State.portParked
    cases (s.session p).parked <;> rfl
  rw [State.claimCount, one]
  rfl

theorem heldBy_cons (p : Port) (e : Lease) (l : List Lease) :
    heldBy p (e :: l) = (if e.holder = p then 1 else 0) + heldBy p l := by
  unfold heldBy
  by_cases holds : e.holder = p
  · simp [holds]; omega
  · simp [holds]

theorem heldBy_perm {l l' : List Lease} (perm : l.Perm l') (p : Port) : heldBy p l = heldBy p l' :=
  (perm.filter _).length_eq

theorem lapses_postNotice_le (k : Key) (f : Notice → Notice) : ∀ l : List Notice,
    ((postNotice k f l).filter fun n => n.lapsed).length ≤ (l.filter fun n => n.lapsed).length + 1
  | [] => (List.length_filter_le _ _)
  | n :: l => by
    unfold postNotice
    split
    · rw [lapsedCount_cons, lapsedCount_cons]
      have := Bool.toNat_le (f n).lapsed
      omega
    · rw [lapsedCount_cons, lapsedCount_cons]
      have := lapses_postNotice_le k f l
      omega

/-- A change posted is no lapse (R96). -/
theorem lapses_takeChanged (k : Key) (v : SeqNo) : (x.takeChanged k v).lapses = x.lapses := by
  have posted : ∀ l : List Notice,
      ((postNotice k (Notice.markChanged v) l).filter fun n => n.lapsed).length = (l.filter fun n => n.lapsed).length := by
    intro l
    induction l with
    | nil => rfl
    | cons n l ih =>
      unfold postNotice
      split
      · rw [lapsedCount_cons, lapsedCount_cons]; rfl
      · rw [lapsedCount_cons, lapsedCount_cons, ih]
  unfold Session.takeChanged
  split
  · exact posted x.notices
  · rfl

theorem lapses_dropWatch (k : Key) : (x.dropWatch k).lapses = x.lapses := by
  have cleared : ∀ l : List Notice, ((clearChanged k l).filter fun n => n.lapsed).length = (l.filter fun n => n.lapsed).length := by
    intro l
    induction l with
    | nil => rfl
    | cons n l ih =>
      unfold clearChanged
      split
      · split
        · rw [lapsedCount_cons, lapsedCount_cons]
        · next flag => rw [lapsedCount_cons, Bool.eq_false_iff.mpr flag]; simp
      · rw [lapsedCount_cons, lapsedCount_cons, ih]
  unfold Session.dropWatch
  split
  · exact cleared x.notices
  · rfl

theorem Session.Posted.lapses_eq (posts : x.Posted y) : y.lapses = x.lapses := by
  induction posts with
  | same => rfl
  | changed k v before ih => rw [lapses_takeChanged]; exact ih
  | cleared before ih => exact ih

/-- A lease that ends frees one place of its holder, and the port it passes to gains none: its parked claim ends (R74, R79). -/
theorem claimCount_endLease (entry : s.leaseOf k = some e) (sound : s.tableSound) (q : Port) :
    (s.endLease k).claimCount q + (if e.holder = q then 1 else 0) = s.claimCount q := by
  obtain ⟨order, table⟩ := sound
  obtain ⟨listed, keyed⟩ := find_mem Lease.key entry
  have before : heldBy q s.leases = _ := (heldBy_perm (find_perm order entry) q).trans (heldBy_cons ..)
  cases waiting : e.waiters with
  | nil =>
    rw [endLease_removes entry waiting, claimCount_eq, claimCount_eq, before]
    show heldBy q (removeKeyed Lease.key k s.leases) + (s.session q).parked.toList.length + (s.session q).lapses + _ = _
    omega
  | cons w rest =>
    have waits := (table.entries e listed).2 w (by rw [waiting]; exact List.mem_cons_self)
    have after : heldBy q (insertKeyed Lease.key (e.passTo w rest (s.periodUsed w.period) s.leaseClock) s.leases) =
        (if w.port = q then 1 else 0) + heldBy q (removeKeyed Lease.key k s.leases) := by
      rw [← keyed]
      exact (heldBy_perm (insertKeyed_perm order) q).trans (heldBy_cons ..)
    rw [endLease_passes entry waiting, claimCount_eq, claimCount_eq, before]
    show heldBy q (insertKeyed Lease.key (e.passTo w rest (s.periodUsed w.period) s.leaseClock) s.leases) +
      ((s.sessions.set w.port _).get q).parked.toList.length + ((s.sessions.set w.port _).get q).lapses + _ = _
    rw [after, get_set]
    by_cases same : q = w.port
    · subst same
      rw [if_pos rfl, if_pos rfl, waits.2]
      show _ + 0 + (s.session w.port).lapses + _ = _
      simp only [Option.toList_some, List.length_singleton]
      omega
    · rw [if_neg (Ne.symm same), if_neg same]
      show _ + (s.session q).parked.toList.length + (s.session q).lapses + _ = _
      omega

theorem claimCount_endLease_le (k : Key) (sound : s.tableSound) (q : Port) : (s.endLease k).claimCount q ≤ s.claimCount q := by
  cases entry : s.leaseOf k with
  | none => rw [endLease_absent entry]
  | some e => have := claimCount_endLease entry sound q; omega

theorem claimCount_foldl_endLease_le (keys : List Key) (q : Port) : ∀ s : State, s.tableSound →
    (keys.foldl State.endLease s).claimCount q ≤ s.claimCount q := by
  induction keys with
  | nil => exact fun _ _ => Nat.le_refl _
  | cons k keys ih =>
    exact fun s sound => (ih _ (endLease_tableSound k sound)).trans (claimCount_endLease_le k sound q)

/-- A session changes beside a lease table that stands. -/
theorem claimCount_setSession_le (parked : x.parked.toList.length ≤ (s.session p).parked.toList.length)
    (lapses : x.lapses ≤ (s.session p).lapses) (q : Port) : (s.setSession p x).claimCount q ≤ s.claimCount q := by
  rw [claimCount_eq, claimCount_eq, session_setSession]
  by_cases same : q = p
  · subst same
    rw [Function.update_self, setSession_leases]
    omega
  · rw [Function.update_of_ne same, setSession_leases]

theorem claimCount_removeParked_le (p q : Port) : (s.removeParked p).claimCount q ≤ s.claimCount q := by
  have held : heldBy q (s.removeParked p).leases = heldBy q s.leases := by
    show heldBy q (s.leases.map _) = _
    unfold heldBy
    rw [List.filter_map, List.length_map]
    rfl
  have session : (s.removeParked p).session = (s.setSession p { s.session p with parked := none }).session := rfl
  have cleared := claimCount_setSession_le (s := s) (p := p) (x := { s.session p with parked := none }) (Nat.zero_le _)
    (Nat.le_refl _) q
  rw [claimCount_eq, claimCount_eq, setSession_leases] at cleared
  rw [claimCount_eq, claimCount_eq, held, session]
  exact cleared

theorem claimCount_dropParked_le (p : Port) (answered : Bool) (q : Port) : (s.dropParked p answered).claimCount q ≤ s.claimCount q := by
  unfold State.dropParked
  split
  · exact Nat.le_refl _
  · split <;> exact claimCount_removeParked_le p q

theorem claimCount_tearDown_le (p : Port) (answered : Bool) (sound : s.tableSound) (q : Port) :
    (s.tearDown p answered).claimCount q ≤ s.claimCount q :=
  ((claimCount_setSession_le (x := .closed) (Nat.zero_le _) (Nat.zero_le _) q).trans
    (claimCount_dropParked_le p answered q)).trans (claimCount_foldl_endLease_le _ q s sound)

/-- An expiry trades the lease for its lapsed posting (R74, R82). -/
theorem claimCount_takeExpiry_le (x : Expiry) (sound : s.tableSound) (q : Port) : (s.takeExpiry x).claimCount q ≤ s.claimCount q := by
  cases x with
  | lease k =>
    unfold State.takeExpiry State.expireLease
    dsimp only
    split
    · exact Nat.le_refl _
    · next e entry =>
      split
      · have listed := ((leaseOf_eq_some_iff sound).mp entry).1
        have ended := claimCount_endLease (s := s.postLapsed e.holder k) (k := k) entry (postLapsed_tableSound listed sound) q
        have lapsed : (s.postLapsed e.holder k).claimCount q ≤ s.claimCount q + if e.holder = q then 1 else 0 := by
          unfold State.postLapsed
          rw [claimCount_eq, claimCount_eq, session_setSession, setSession_leases]
          by_cases same : q = e.holder
          · subst same
            have posted := lapses_postNotice_le k Notice.markLapsed (s.session e.holder).notices
            rw [Function.update_self, if_pos rfl]
            exact Nat.add_le_add_left posted _
          · rw [Function.update_of_ne same]
            omega
        omega
      · exact Nat.le_refl _
  | wait p =>
    unfold State.takeExpiry State.expireWait
    dsimp only
    split
    · exact Nat.le_refl _
    · split
      · exact claimCount_removeParked_le p q
      · exact Nat.le_refl _

theorem claimCount_advanceClock_le (first : List Expiry) (sound : s.tableSound) (q : Port) :
    (s.advanceClock first).claimCount q ≤ s.claimCount q := by
  unfold State.advanceClock
  have ticked : s.tickClock.tableSound := sound
  have start : s.tickClock.claimCount q ≤ s.claimCount q := Nat.le_refl _
  generalize s.tickClock = u at ticked start
  generalize first ++ s.expiries = expiries
  induction expiries generalizing u with
  | nil => exact start
  | cons x expiries ih =>
    exact ih _ (takeExpiry_tableSound x ticked) ((claimCount_takeExpiry_le x ticked q).trans start)

/-- A lease is granted within the budget (R76). -/
theorem claimCount_grantLease (period : Nat) (tag : Byte) (absent : s.leaseOf k = none) (sound : s.tableSound) (q : Port) :
    (s.grantLease p tag k period).claimCount q = s.claimCount q + if p = q then 1 else 0 := by
  have fresh : ∀ y ∈ s.leases, Lease.key y ≠ k := by simpa [State.leaseOf, findKeyed] using absent
  have held : heldBy q (s.grantLease p tag k period).leases = (if p = q then 1 else 0) + heldBy q s.leases := by
    have perm := insertKeyed_perm (x := (⟨k, p, period, expiryFrom s.leaseClock period, []⟩ : Lease)) sound.1
    rw [removeKeyed_absent fresh] at perm
    exact (heldBy_perm perm q).trans (heldBy_cons ..)
  rw [claimCount_eq, claimCount_eq, held]
  show _ + (s.session q).parked.toList.length + (s.session q).lapses = _
  omega

/-- An entry is replaced by one of the same holder. -/
theorem heldBy_insert {e' : Lease} (entry : s.leaseOf k = some e) (key : e'.key = e.key) (holder : e'.holder = e.holder)
    (sound : s.tableSound) (q : Port) : heldBy q (insertKeyed Lease.key e' s.leases) = heldBy q s.leases := by
  have keyed : e'.key = k := key.trans (find_mem Lease.key entry).2
  rw [heldBy_perm (insertKeyed_perm sound.1) q, heldBy_perm (find_perm sound.1 entry) q, heldBy_cons, heldBy_cons, keyed, holder]

theorem claimCount_parkClaim {c : ClaimBody} (tag : Byte) (entry : s.leaseOf c.key = some e)
    (unparked : (s.session p).parked = none) (sound : s.tableSound) (q : Port) :
    (s.parkClaim p tag e c).claimCount q = s.claimCount q + if p = q then 1 else 0 := by
  have held : heldBy q (s.parkClaim p tag e c).leases = heldBy q s.leases :=
    heldBy_insert (e' := { e with waiters := e.waiters ++ [⟨p, tag, c.period, expiryFrom s.leaseClock c.wait⟩] }) entry rfl rfl sound q
  have session : (s.parkClaim p tag e c).session = Function.update s.session p { s.session p with parked := some (c.key, tag) } :=
    session_setSession p _
  rw [claimCount_eq, claimCount_eq, held, session]
  by_cases same : q = p
  · subst same
    rw [Function.update_self, if_pos rfl, unparked]
    show _ + 1 + (s.session q).lapses = _ + 0 + _ + 1
    omega
  · rw [Function.update_of_ne same, if_neg (Ne.symm same)]
    rfl

theorem claimAct_budget {r : Request} {c : ClaimBody} (sound : s.tableSound) (budget : s.claimsWithinBudget) :
    (claimAct p r c s).claimsWithinBudget := by
  have room (n : Nat) (within : ¬4 ≤ s.claimCount p) (q : Port) (raised : n = s.claimCount q + if p = q then 1 else 0) : n ≤ 4 := by
    have := budget q
    split at raised
    · next same => subst same; omega
    · omega
  unfold claimAct
  split
  · next absent =>
    split
    · exact budget
    · next within => exact fun q => room _ within q (claimCount_grantLease _ _ absent sound q)
  · next e entry =>
    split
    · intro q
      rw [claimCount_eq]
      show heldBy q (insertKeyed Lease.key _ s.leases) + (s.session q).parked.toList.length + (s.session q).lapses ≤ 4
      rw [heldBy_insert (e' := e.restart (s.periodUsed c.period) s.leaseClock) entry rfl rfl sound, ← claimCount_eq]
      exact budget q
    · unfold State.claimHeld
      split
      · exact budget
      · split
        · exact budget
        · next unparked =>
          split
          · exact budget
          · next within => exact fun q => room _ within q (claimCount_parkClaim _ entry (by simpa using unparked) sound q)

theorem ClientEffect.budget {kind : CommandKind} (effect : ClientEffect s kind t)
    (sound : s.tableSound) (budget : s.claimsWithinBudget) :
    t.claimsWithinBudget := by
  have less (u : State) (le : ∀ q, u.claimCount q ≤ s.claimCount q) : u.claimsWithinBudget := fun q => (le q).trans (budget q)
  have session (p : Port) (x : Session) (parked : x.parked = (s.session p).parked) (lapses : x.lapses ≤ (s.session p).lapses) :
      (s.setSession p x).claimsWithinBudget :=
    less _ (claimCount_setSession_le (Nat.le_of_eq (by rw [parked])) lapses)
  cases effect with
  | nothing | supplied | framed | fetched | answered | compacted => exact budget
  | selected p => unfold State.select; split <;> exact budget
  | submitted p input part => unfold State.submitFrame; split <;> exact budget
  | portReset p input part => unfold State.portResetFrame; split <;> exact budget
  | granted idle =>
    refine less _ fun q => Nat.le_of_eq ?_
    rw [claimCount_eq, claimCount_eq, (grant_leases _).1, State.session, (grant_leases _).2]
    rfl
  | opened p r e inHand => exact session p _ rfl (Nat.le_refl _)
  | closed p r inHand passed => exact less _ (claimCount_tearDown_le p true sound)
  | claimed p r c inHand passed => exact claimAct_budget sound budget
  | renewed p r c inHand passed =>
    unfold renewAct
    split
    · next e own =>
      refine less _ fun q => Nat.le_of_eq ?_
      rw [claimCount_eq, claimCount_eq]
      show heldBy q (insertKeyed Lease.key _ s.leases) + (s.session q).parked.toList.length + (s.session q).lapses = _
      rw [heldBy_insert (e' := e.restart (s.periodUsed c.2) s.leaseClock) (ownLease_eq_some own).1 rfl rfl sound]
    · exact budget
  | released p r k inHand =>
    unfold releaseAct
    split
    · exact less _ (claimCount_endLease_le k sound)
    · exact budget
  | watched p r k inHand passed =>
    unfold watchAct
    split
    · exact budget
    · exact session p _ rfl (Nat.le_refl _)
  | unwatched p r k inHand passed => exact session p _ rfl (Nat.le_of_eq (lapses_dropWatch k))
  | noticeTaken p r inHand passed =>
    unfold takeNoticeAct
    split
    · exact budget
    · next n rest notices =>
      refine session p { s.session p with notices := rest } rfl ?_
      unfold Session.lapses
      rw [notices, lapsedCount_cons]
      exact Nat.le_add_right _ _
  | groupBegun p r inHand passed => exact session p _ rfl (Nat.le_refl _)
  | memberPut p r c inHand passed => exact session p _ rfl (Nat.le_refl _)
  | groupCleared p r body inHand => exact session p _ rfl (Nat.le_refl _)
  | tornDown p inHand => exact less _ (claimCount_tearDown_le p false sound)
  | advanced first => exact less _ (claimCount_advanceClock_le first sound)

theorem claimCount_of_eq (leases : t.leases = s.leases) (sessions : t.sessions = s.sessions) (q : Port) :
    t.claimCount q = s.claimCount q := by
  rw [claimCount_eq, claimCount_eq, leases, State.session, sessions]
  rfl

theorem formatComplete_budget (f : FormatWork) (sound : s.tableSound) (q : Port) :
    (s.formatComplete f).claimCount q ≤ s.claimCount q :=
  (claimCount_setSession_le (s := s.formatStore.releaseAll f.port) (p := f.port)
    (x := { (s.formatStore.releaseAll f.port).session f.port with
      rights := defaultRights.get f.port, watch := [], notices := [], groupOpen := false, members := [] })
    (Nat.le_refl _) (Nat.zero_le _) q).trans (claimCount_foldl_endLease_le _ q s.formatStore sound)

theorem ClientStep.budget {kind : CommandKind} (step : ClientStep kind s t)
    (sound : s.tableSound) (budget : s.claimsWithinBudget) : t.claimsWithinBudget := by
  intro q
  cases step with
  | kept same => rw [claimCount_of_eq same.leases same.sessions]; exact budget q
  | answered p tag st body owner idle leases clock sessions =>
    rw [claimCount_eq, leases, (sessions q).parked, (sessions q).lapses_eq, ← claimCount_eq]
    exact budget q
  | formatted f u same serves done =>
    rw [done]
    refine (formatComplete_budget f (tableSound_of_eq same.leases same.sessions sound) q).trans ?_
    rw [claimCount_of_eq same.leases same.sessions]
    exact budget q
  | reset _ work leases clock sessions =>
    rw [claimCount_eq, leases, sessions]
    exact Nat.zero_le _

/-- Settles O54: the agreement by what each operation of the lease table leaves of it, the budget since only a CLAIM within it takes a
place. -/
theorem stepKeepsLeasesAndBudget : Obligations.StepKeepsLeasesAndBudget := by
  intro s t sound budget ran
  obtain rfl | ⟨c, rest, ran⟩ := step_cases ran
  · exact ⟨sound, budget⟩
  · rcases exec_effect ran with effect | effect
    · exact ⟨effect.leasesSound sound, effect.budget sound.table budget⟩
    · exact ⟨effect.client.leasesSound sound, effect.client.budget sound.table budget⟩

end

end Sys2Proof.Machine
end

