-- ==== Sys2Proof/Proofs/StepKeepsExpiriesAhead.lean ====
section
/-! PROOF. Every stored expiry lies ahead of the lease clock after every step: a lease or a wait is given an expiry ahead of the clock,
and an advance of the clock takes each one that it reaches. -/

namespace Sys2Proof.Machine

/-! ### Clock values -/

/-- `v` lies from 1 to 6,001 granules ahead of the clock (R73). -/
def clockAhead (clock v : ClockValue) : Prop := 1 ≤ (v - clock).toNat ∧ (v - clock).toNat ≤ 6001

/-- A stored value lies ahead of the clock, or the clock stands at it and its expiry is still to be taken. -/
def clockAwaits (clock : ClockValue) (due : List Expiry) (x : Expiry) (v : ClockValue) : Prop :=
  clockAhead clock v ∨ (v = clock ∧ x ∈ due)

/-- The times of a lease entry and of its waiters. -/
structure Lease.timed (clock : ClockValue) (due : List Expiry) (e : Lease) : Prop where
  period : e.period ≤ 6000
  expiry : clockAwaits clock due (.lease e.key) e.expiry
  waiters : ∀ w ∈ e.waiters, w.period ≤ 6000 ∧ clockAwaits clock due (.wait w.port) w.waitExpiry

/-- Every lease entry is within its times, but for the expiries still to be taken. -/
def State.timedBut (s : State) (due : List Expiry) : Prop := ∀ e ∈ s.leases, e.timed s.leaseClock due

/-- The default period is in the range of TABLE 23. -/
def State.periodSound (s : State) : Prop := 1 ≤ s.defaultPeriod ∧ s.defaultPeriod ≤ 6000

section
variable {s t u : State} {p : Port} {k : Key} {e : Lease} {due : List Expiry} {clock v : ClockValue}

theorem clockAwaits_nil {x : Expiry} : clockAwaits clock [] x v ↔ clockAhead clock v := by
  simp [clockAwaits]

theorem leaseTimesSound_iff : s.leaseTimesSound ↔ s.periodSound ∧ s.timedBut [] := by
  refine ⟨fun ⟨low, high, times⟩ => ⟨⟨low, high⟩, fun e he => ?_⟩, fun ⟨⟨low, high⟩, times⟩ => ⟨low, high, fun e he => ?_⟩⟩
  · obtain ⟨period, expiry, waits⟩ := times e he
    exact ⟨period, clockAwaits_nil.mpr expiry, fun w hw => ⟨(waits w hw).1, clockAwaits_nil.mpr (waits w hw).2⟩⟩
  · obtain ⟨period, expiry, waits⟩ := times e he
    exact ⟨period, clockAwaits_nil.mp expiry, fun w hw => ⟨(waits w hw).1, clockAwaits_nil.mp (waits w hw).2⟩⟩

/-- An expiry of at most 6,000 granules is set ahead of the clock (R73). -/
theorem expiryFrom_ahead {n : Nat} (within : n ≤ 6000) : clockAhead clock (expiryFrom clock n) := by
  have distance : (expiryFrom clock n - clock).toNat = n + 1 := by
    unfold expiryFrom
    rw [add_sub_cancel_left, BitVec.toNat_ofNat]
    omega
  exact ⟨by omega, by omega⟩

/-- The clock advances by one granule: a value ahead of it stays ahead, or is reached. -/
theorem clockAhead_tick (ahead : clockAhead clock v) : clockAhead (clock + 1) v ∨ v = clock + 1 := by
  obtain ⟨low, high⟩ := ahead
  by_cases reached : v = clock + 1
  · exact .inr reached
  · refine .inl ⟨?_, ?_⟩ <;> bv_omega

theorem periodUsed_le {n : Nat} (sound : s.periodSound) (within : n ≤ 6000) : s.periodUsed n ≤ 6000 := by
  unfold State.periodUsed
  split
  · exact sound.2
  · exact within

/-! ### The default period -/

theorem setInForce_period (value : List Byte) (sound : s.periodSound) : (s.setInForce k value).periodSound := by
  unfold State.setInForce State.periodSound
  dsimp only
  split
  · exact parsePeriod_getD_inRange (o := some value) sound
  · exact sound

theorem periodSound_of_eq (same : t.defaultPeriod = s.defaultPeriod) (sound : s.periodSound) : t.periodSound := by
  rw [State.periodSound, same]; exact sound

theorem ContentStep.periodSound (step : ContentStep s t) (sound : s.periodSound) : t.periodSound := by
  cases step with
  | carried same | begun _ _ same | mounted _ _ _ _ same => exact periodSound_of_eq same.period sound
  | emptied empty => rw [State.periodSound, empty.period]; decide
  | mountEnded m inHand idle directory inForce =>
    obtain ⟨u, -, -, period⟩ := inForce
    rw [State.periodSound, period]
    exact parsePeriod_getD_inRange (o := u.storedValue periodKey) (d := 500) (by decide)
  | written pl r rest p tag q h base inHand records goal idle directory rights freezeLine period =>
    exact periodSound_of_eq period (setInForce_period r.value sound)
  | deleted k idle directory rights freezeLine period => exact periodSound_of_eq period sound
  | committed pl p tag u q h base inHand goal idle before directory rights freezeLine period => exact periodSound_of_eq period sound
  | copied pl r rest line q h base inHand records goal idle directory rights freezeLine period => exact periodSound_of_eq period sound

/-! ### The operations of the lease table -/

/-- Each entry stood before, or is within its times. -/
theorem timedBut_of (clock : t.leaseClock = s.leaseClock)
    (leases : ∀ e ∈ t.leases, e ∈ s.leases ∨ e.timed s.leaseClock due) (timed : s.timedBut due) : t.timedBut due := by
  intro e he
  rw [clock]
  exact (leases e he).elim (timed e) id

theorem timedBut_of_eq (leases : t.leases = s.leases) (clock : t.leaseClock = s.leaseClock) (timed : s.timedBut due) :
    t.timedBut due :=
  timedBut_of clock (fun e he => .inl (by rw [← leases]; exact he)) timed

/-- An entry is set that is within its times. -/
theorem timedBut_insert (leases : t.leases = insertKeyed Lease.key e s.leases) (clock : t.leaseClock = s.leaseClock)
    (entry : e.timed s.leaseClock due) (timed : s.timedBut due) : t.timedBut due := by
  refine timedBut_of clock (fun x hx => ?_) timed
  rw [leases] at hx
  rcases mem_insertKeyed Lease.key hx with rfl | old
  · exact .inr entry
  · exact .inl old

/-- An entry restarted, granted or passed on with a period (R76, R77, R79, R80). -/
theorem timed_granted {n : Nat} (period : e.period = n) (expiry : e.expiry = expiryFrom clock n) (within : n ≤ 6000)
    (waiters : ∀ w ∈ e.waiters, w.period ≤ 6000 ∧ clockAwaits clock due (.wait w.port) w.waitExpiry) : e.timed clock due :=
  ⟨period ▸ within, .inl (expiry ▸ expiryFrom_ahead within), waiters⟩

theorem endLease_timed (k : Key) (sound : s.periodSound) (timed : s.timedBut due) : (s.endLease k).timedBut due := by
  cases entry : s.leaseOf k with
  | none => rw [endLease_absent entry]; exact timed
  | some e =>
    cases waiting : e.waiters with
    | nil =>
      rw [endLease_removes entry waiting]
      exact timedBut_of (s := s) (t := { s with leases := removeKeyed Lease.key k s.leases }) rfl
        (fun x hx => .inl ((mem_removeKeyed Lease.key).mp hx).1) timed
    | cons w rest =>
      rw [endLease_passes entry waiting]
      have before := (timed e (mem_of_leaseOf entry)).waiters
      rw [waiting] at before
      refine timedBut_insert (e := e.passTo w rest (s.periodUsed w.period) s.leaseClock) rfl rfl
        (timed_granted rfl rfl (periodUsed_le sound (before w List.mem_cons_self).1) fun x hx => ?_) timed
      exact before x (List.mem_cons_of_mem w hx)

theorem endLease_periodSound (k : Key) (sound : s.periodSound) : (s.endLease k).periodSound :=
  periodSound_of_eq (endLease_default k) sound

theorem foldl_endLease_timed (keys : List Key) : ∀ s : State, s.periodSound → s.timedBut due →
    (keys.foldl State.endLease s).timedBut due := by
  induction keys with
  | nil => exact fun _ _ timed => timed
  | cons k keys ih =>
    exact fun s sound timed => ih _ (endLease_periodSound k sound) (endLease_timed k sound timed)

theorem restartLease_timed {n : Nat} (within : n ≤ 6000) (entry : s.leaseOf k = some e) (timed : s.timedBut due) :
    (s.restartLease e n).timedBut due :=
  timedBut_insert (e := e.restart n s.leaseClock) rfl rfl
    (timed_granted rfl rfl within (timed e (mem_of_leaseOf entry)).waiters) timed

theorem grantLease_timed {n : Nat} (tag : Byte) (within : n ≤ 6000) (timed : s.timedBut due) :
    (s.grantLease p tag k n).timedBut due :=
  timedBut_insert (e := ⟨k, p, n, expiryFrom s.leaseClock n, []⟩) rfl rfl
    (timed_granted rfl rfl within fun _ none => (by cases none)) timed

theorem parkClaim_timed {c : ClaimBody} (tag : Byte) (period : c.period ≤ 6000) (wait : c.wait ≤ 6000)
    (entry : s.leaseOf c.key = some e) (timed : s.timedBut due) : (s.parkClaim p tag e c).timedBut due := by
  obtain ⟨periodOk, expiry, waiters⟩ := timed e (mem_of_leaseOf entry)
  refine timedBut_insert (e := { e with waiters := e.waiters ++ [⟨p, tag, c.period, expiryFrom s.leaseClock c.wait⟩] }) rfl rfl
    ⟨periodOk, expiry, fun w hw => ?_⟩ timed
  rcases List.mem_append.mp hw with old | new
  · exact waiters w old
  · obtain rfl := List.mem_singleton.mp new
    exact ⟨period, .inl (expiryFrom_ahead wait)⟩

theorem removeParked_timed (p : Port) (timed : s.timedBut due) : (s.removeParked p).timedBut due := by
  intro e he
  obtain ⟨x, hx, rfl⟩ := List.mem_map.mp he
  obtain ⟨period, expiry, waiters⟩ := timed x hx
  exact ⟨period, expiry, fun w hw => waiters w (List.mem_of_mem_filter hw)⟩

theorem dropParked_timed (p : Port) (answered : Bool) (timed : s.timedBut due) : (s.dropParked p answered).timedBut due := by
  unfold State.dropParked
  split
  · exact timed
  · split <;> exact removeParked_timed p timed

theorem tearDown_timed (p : Port) (answered : Bool) (sound : s.periodSound) (timed : s.timedBut due) :
    (s.tearDown p answered).timedBut due :=
  dropParked_timed p answered (foldl_endLease_timed _ s sound timed)

/-! ### An advance of the clock -/

theorem clockAwaits_taken {x y : Expiry} (taken : x = y → clock ≠ v) (awaits : clockAwaits clock (y :: due) x v) :
    clockAwaits clock due x v := by
  rcases awaits with ahead | ⟨reached, listed⟩
  · exact .inl ahead
  · rcases List.mem_cons.mp listed with same | later
    · exact absurd reached.symm (taken same)
    · exact .inr ⟨reached, later⟩

/-- An expiry is taken: nothing keeps standing at the clock under its name. -/
theorem timedBut_taken {x : Expiry}
    (lease : ∀ e ∈ s.leases, .lease e.key = x → s.leaseClock ≠ e.expiry)
    (wait : ∀ e ∈ s.leases, ∀ w ∈ e.waiters, .wait w.port = x → s.leaseClock ≠ w.waitExpiry) (timed : s.timedBut (x :: due)) :
    s.timedBut due := fun e he =>
  have ⟨period, expiry, waiters⟩ := timed e he
  ⟨period, clockAwaits_taken (lease e he) expiry,
    fun w hw => ⟨(waiters w hw).1, clockAwaits_taken (wait e he w hw) (waiters w hw).2⟩⟩

/-- The lease of a key is one: no other entry has it. -/
theorem leaseOf_unique (sound : s.tableSound) (listed : e ∈ s.leases) (key : e.key = k) : s.leaseOf k = some e :=
  (leaseOf_eq_some_iff sound).mpr ⟨listed, key⟩

theorem expireLease_timed (sound : s.tableSound) (period : s.periodSound) (timed : s.timedBut (.lease k :: due)) :
    (s.expireLease k).timedBut due := by
  have waits {u : State} : ∀ e ∈ u.leases, ∀ w ∈ e.waiters, Expiry.wait w.port = .lease k → u.leaseClock ≠ w.waitExpiry :=
    fun _ _ _ _ other => by cases other
  unfold State.expireLease
  split
  · next absent =>
    refine timedBut_taken (fun e he same => ?_) waits timed
    cases same
    rw [leaseOf_unique sound he rfl] at absent
    cases absent
  · next e entry =>
    split
    · next reached =>
      refine timedBut_taken (fun x hx same => ?_) waits (endLease_timed k (s := s.postLapsed e.holder k) period timed)
      cases same
      have posted := postLapsed_tableSound (k := x.key) (mem_of_leaseOf entry) sound
      have found := leaseOf_unique (endLease_tableSound x.key posted) hx rfl
      rw [leaseOf_endLease, if_pos rfl] at found
      obtain ⟨old, was, passed⟩ := Option.bind_eq_some_iff.mp found
      cases entry.symm.trans was
      have clock : ((s.postLapsed e.holder x.key).endLease x.key).leaseClock = s.leaseClock := (endLease_keeps _ _).leaseClock
      rw [clock]
      unfold State.passed at passed
      split at passed
      · cases passed
      · next w rest waiting =>
        have short : w.period ≤ 6000 := ((timed e (mem_of_leaseOf entry)).waiters w (by rw [waiting]; exact List.mem_cons_self)).1
        have expiry : x.expiry = expiryFrom s.leaseClock (s.periodUsed w.period) := by rw [← Option.some.inj passed]; rfl
        intro stands
        have ahead := (expiryFrom_ahead (clock := s.leaseClock) (periodUsed_le period short)).1
        rw [← expiry, ← stands, BitVec.sub_self] at ahead
        exact absurd ahead (by decide)
    · next unreached =>
      refine timedBut_taken (fun x hx same => ?_) waits timed
      cases same
      cases (leaseOf_unique sound hx rfl).symm.trans entry
      exact Ne.symm unreached

/-- A port waits once. -/
theorem waiterOf_unique (sound : s.tableSound) {w : Waiter} (listed : e ∈ s.leases) (waits : w ∈ e.waiters) :
    s.waiterOf w.port = some w := by
  have mem : w ∈ s.leases.flatMap Lease.waiters := List.mem_flatMap.mpr ⟨e, listed, waits⟩
  cases found : s.waiterOf w.port with
  | none => exact absurd (List.find?_eq_none.mp found w mem) (by simp)
  | some x =>
    have port : x.port = w.port := by simpa using List.find?_some found
    exact congrArg some (List.inj_on_of_nodup_map sound.2.waiters (List.mem_of_find?_eq_some found) mem port)

theorem expireWait_timed (sound : s.tableSound) (timed : s.timedBut (.wait p :: due)) : (s.expireWait p).timedBut due := by
  have leases {u : State} : ∀ e ∈ u.leases, Expiry.lease e.key = .wait p → u.leaseClock ≠ e.expiry :=
    fun _ _ other => by cases other
  unfold State.expireWait
  split
  · next absent =>
    refine timedBut_taken leases (fun e he w hw same => ?_) timed
    cases same
    rw [waiterOf_unique sound he hw] at absent
    cases absent
  · next w entry =>
    split
    · refine timedBut_taken leases (fun e he x hx same => ?_) (removeParked_timed p timed)
      cases same
      obtain ⟨y, -, rfl⟩ := List.mem_map.mp he
      simp at hx
    · next unreached =>
      refine timedBut_taken leases (fun e he x hx same => ?_) timed
      cases same
      cases (waiterOf_unique sound he hx).symm.trans entry
      exact Ne.symm unreached

theorem takeExpiry_timed {x : Expiry} (sound : s.tableSound) (period : s.periodSound) (timed : s.timedBut (x :: due)) :
    (s.takeExpiry x).timedBut due := by
  cases x with
  | lease k => exact expireLease_timed sound period timed
  | wait p => exact expireWait_timed sound timed

theorem takeExpiry_periodSound (x : Expiry) (sound : s.periodSound) : (s.takeExpiry x).periodSound := by
  cases x with
  | lease k =>
    unfold State.takeExpiry State.expireLease
    dsimp only
    split
    · exact sound
    · split
      · exact endLease_periodSound k (s := s.postLapsed _ k) sound
      · exact sound
  | wait p =>
    unfold State.takeExpiry State.expireWait
    dsimp only
    split
    · exact sound
    · split <;> exact sound

/-- Every expiry listed is taken in turn. -/
theorem foldl_takeExpiry_timed : ∀ (xs : List Expiry) (s : State), s.tableSound → s.periodSound → s.timedBut xs →
    (xs.foldl State.takeExpiry s).timedBut []
  | [], _, _, _, timed => timed
  | x :: xs, _, sound, period, timed =>
    foldl_takeExpiry_timed xs _ (takeExpiry_tableSound x sound) (takeExpiry_periodSound x period) (takeExpiry_timed sound period timed)

/-- The clock ticks: what it reaches is among the expiries to be taken (R73). -/
theorem tickClock_timed (first : List Expiry) (timed : s.timedBut []) : s.tickClock.timedBut (first ++ s.expiries) := by
  have awaits {x : Expiry} {v : ClockValue} (before : clockAwaits s.leaseClock [] x v) (listed : x ∈ s.expiries) :
      clockAwaits (s.leaseClock + 1) (first ++ s.expiries) x v :=
    (clockAhead_tick (clockAwaits_nil.mp before)).imp_right fun reached => ⟨reached, List.mem_append_right _ listed⟩
  intro e he
  obtain ⟨period, expiry, waiters⟩ := timed e he
  refine ⟨period, awaits expiry (List.mem_append_left _ (List.mem_map.mpr ⟨e, he, rfl⟩)),
    fun w hw => ⟨(waiters w hw).1, awaits (waiters w hw).2 (List.mem_append_right _ ?_)⟩⟩
  cases w.port <;> decide

theorem advanceClock_timed (first : List Expiry) (sound : s.tableSound) (period : s.periodSound) (timed : s.timedBut []) :
    (s.advanceClock first).timedBut [] :=
  foldl_takeExpiry_timed _ s.tickClock sound period (tickClock_timed first timed)

/-! ### Steps -/

/-- Step 2 of CLAIM (R75). -/
theorem parseClaim_inRange {body : List Byte} {c : ClaimBody} (parsed : parseClaim body = some c) :
    c.period ≤ 6000 ∧ c.wait ≤ 6000 := by
  unfold parseClaim at parsed
  split at parsed
  · split at parsed
    · next inRange => cases parsed; exact inRange
    · cases parsed
  · cases parsed

/-- Step 2 of RENEW (R80). -/
theorem parseRenew_period {body : List Byte} {c : Key × Nat} (parsed : parseRenew body = some c) : c.2 ≤ 6000 := by
  unfold parseRenew at parsed
  split at parsed
  · split at parsed
    · next inRange => cases parsed; exact inRange
    · cases parsed
  · cases parsed

theorem claimAct_timed {r : Request} {c : ClaimBody} (within : c.period ≤ 6000) (wait : c.wait ≤ 6000) (period : s.periodSound)
    (timed : s.timedBut due) : (claimAct p r c s).timedBut due := by
  have used := periodUsed_le period within
  unfold claimAct
  split
  · split
    · exact timed
    · exact grantLease_timed _ used timed
  · next e entry =>
    split
    · exact restartLease_timed used entry timed
    · unfold State.claimHeld
      split
      · exact timed
      · split
        · exact timed
        · split
          · exact timed
          · exact parkClaim_timed _ within wait entry timed

theorem grant_leaseClock (g : Grant) : (s.grant g).leaseClock = s.leaseClock := by
  cases g with
  | none | reclaim => rfl
  | port p =>
    unfold State.grant State.grantPort
    dsimp only
    split
    · rfl
    · split <;> rfl

theorem ClientEffect.timed {kind : CommandKind} (effect : ClientEffect s kind t)
    (sound : s.tableSound) (period : s.periodSound) (timed : s.timedBut []) :
    t.timedBut [] := by
  cases effect with
  | nothing | supplied | framed | fetched | answered | opened | unwatched | groupBegun | memberPut | groupCleared | compacted =>
    exact timed
  | selected p => unfold State.select; split <;> exact timed
  | submitted p input part => unfold State.submitFrame; split <;> exact timed
  | portReset p input part => unfold State.portResetFrame; split <;> exact timed
  | granted idle => exact timedBut_of_eq (grant_leases _).1 (grant_leaseClock _) timed
  | closed p r inHand passed => exact tearDown_timed p true period timed
  | claimed p r c inHand passed =>
    obtain ⟨-, parsed, -⟩ := judge_ok_iff.mp passed
    obtain ⟨within, wait⟩ := parseClaim_inRange parsed
    exact claimAct_timed within wait period timed
  | renewed p r c inHand passed =>
    obtain ⟨-, parsed, -⟩ := judge_ok_iff.mp passed
    unfold renewAct
    split
    · next e own => exact restartLease_timed (periodUsed_le period (parseRenew_period parsed)) (ownLease_eq_some own).1 timed
    · exact timed
  | released p r k inHand =>
    unfold releaseAct
    split
    · exact endLease_timed k period timed
    · exact timed
  | watched p r k inHand passed => unfold watchAct; split <;> exact timed
  | noticeTaken p r inHand passed => unfold takeNoticeAct; split <;> exact timed
  | tornDown p inHand => exact tearDown_timed p false period timed
  | advanced first => exact advanceClock_timed first sound period timed

theorem ClientStep.timed {kind : CommandKind} (step : ClientStep kind s t) (timed : s.timedBut []) : t.timedBut [] := by
  cases step with
  | kept same => exact timedBut_of_eq same.leases same.clock timed
  | answered p tag st body owner idle leases clock => exact timedBut_of_eq leases clock timed
  | formatted f u same serves done =>
    have emptied : u.formatStore.timedBut [] := timedBut_of_eq (t := u.formatStore) same.leases same.clock timed
    rw [done]
    exact foldl_endLease_timed _ u.formatStore (show 1 ≤ 500 ∧ 500 ≤ 6000 by decide) emptied
  | reset _ work leases => intro e he; rw [leases] at he; cases he

/-- Settles O55, by the times that each operation of the lease table sets, and the list of expiries that an advance of the clock takes. -/
theorem stepKeepsExpiriesAhead : Obligations.StepKeepsExpiriesAhead := by
  intro s t sound times ran
  obtain ⟨period, timed⟩ := leaseTimesSound_iff.mp times
  refine leaseTimesSound_iff.mpr ?_
  obtain rfl | ⟨c, rest, ran⟩ := step_cases ran
  · exact ⟨period, timed⟩
  · rcases exec_effect ran with effect | effect
    · exact ⟨periodSound_of_eq effect.storeKept.defaultPeriod period, effect.timed sound.table period timed⟩
    · exact ⟨effect.content.periodSound period, effect.client.timed timed⟩

end

end Sys2Proof.Machine
end

