-- ==== Sys2Proof/Proofs/StepKeepsCreditsAndTags.lean ====
section
/-! PROOF. Every step keeps each port within its credits, under distinct tags: only an admitted SUBMIT takes a credit, and every other
event moves a tag from one place of its port to another, or gives it back. -/

namespace Sys2Proof.Machine

/-! ### The tags of a port -/

/-- The tags that a port frame unit and its session's parked claim use (R162). -/
def PortUnit.tags (u : PortUnit) (parked : Option Byte) : List Byte :=
  u.queue.map Request.tag ++ u.inService.toList ++ parked.toList ++ u.replies.map Reply.tag

/-- At most four tags, pairwise distinct, none of them 0xFF. -/
def tagsSound (tags : List Byte) : Prop := tags.length ≤ 4 ∧ tags.Nodup ∧ (0xFF : Byte) ∉ tags

/-- What an operation leaves of the credits: every port uses no tag that it did not use, and the same request is served. -/
structure CreditsKept (s t : State) : Prop where
  tags : ∀ p, (t.tagsInUse p).Subperm (s.tagsInUse p)
  service : ∀ p, (t.port p).inService = (s.port p).inService

section
variable {s t u : State} {p q : Port} {k : Key} {e : Lease} {tags tags' : List Byte}

theorem tagsInUse_eq (s : State) (p : Port) : s.tagsInUse p = (s.port p).tags (s.portParked p) := rfl

theorem length_tagsInUse (s : State) (p : Port) : (s.tagsInUse p).length = s.creditsInUse p := by
  simp only [State.tagsInUse, State.creditsInUse, List.length_append, List.length_map]

theorem creditsSound_iff : s.creditsSound ↔ (∀ p, tagsSound (s.tagsInUse p)) ∧
    ∀ p tag, s.work.owner = some (p, tag) → (s.port p).inService = some tag :=
  ⟨fun ⟨credits, distinct, reserved, served⟩ =>
      ⟨fun p => ⟨(length_tagsInUse s p).symm ▸ credits p, distinct p, reserved p⟩, served⟩,
    fun ⟨sound, served⟩ => ⟨fun p => length_tagsInUse s p ▸ (sound p).1, fun p => (sound p).2.1, fun p => (sound p).2.2, served⟩⟩

theorem tagsSound_subperm (sub : tags'.Subperm tags) (sound : tagsSound tags) : tagsSound tags' := by
  obtain ⟨short, distinct, reserved⟩ := sound
  obtain ⟨l, perm, sublist⟩ := sub
  exact ⟨perm.length_eq ▸ sublist.length_le.trans short, perm.nodup_iff.mp (distinct.sublist sublist),
    fun listed => reserved (sublist.subset (perm.mem_iff.mpr listed))⟩

theorem CreditsKept.refl (s : State) : CreditsKept s s := ⟨fun _ => .refl _, fun _ => rfl⟩

theorem CreditsKept.trans (h : CreditsKept s t) (k : CreditsKept t u) : CreditsKept s u :=
  ⟨fun p => (k.tags p).trans (h.tags p), fun p => (k.service p).trans (h.service p)⟩

theorem CreditsKept.sound (kept : CreditsKept s t) (work : t.work = s.work) (sound : s.creditsSound) : t.creditsSound := by
  obtain ⟨tags, served⟩ := creditsSound_iff.mp sound
  refine creditsSound_iff.mpr ⟨fun p => tagsSound_subperm (kept.tags p) (tags p), fun p tag owner => ?_⟩
  rw [kept.service]
  exact served p tag (work ▸ owner)

theorem port_of_set {v : PortUnit} (ports : t.ports = s.ports.set p v) : t.port p = v := by
  rw [State.port, ports, get_set_self]

theorem port_of_set_other {v : PortUnit} (ports : t.ports = s.ports.set p v) (away : q ≠ p) : t.port q = s.port q := by
  rw [State.port, ports, get_set_other _ _ away]; rfl

/-- One port's unit and parked claim change. -/
theorem creditsKept_at {v : PortUnit} (p : Port) (ports : t.ports = s.ports.set p v)
    (parked : ∀ q, q ≠ p → t.portParked q = s.portParked q)
    (tags : (v.tags (t.portParked p)).Subperm ((s.port p).tags (s.portParked p))) (service : v.inService = (s.port p).inService) :
    CreditsKept s t := by
  have own : t.port p = v := port_of_set ports
  have others (q : Port) (away : q ≠ p) : t.port q = s.port q := port_of_set_other ports away
  refine ⟨fun q => ?_, fun q => ?_⟩
  all_goals by_cases same : q = p
  · subst same; rw [tagsInUse_eq, own]; exact tags
  · rw [tagsInUse_eq, others q same, parked q same]; exact .refl _
  · subst same; rw [own]; exact service
  · rw [others q same]

/-- Sessions change, but for their parked claims. -/
theorem creditsKept_sessions (ports : t.ports = s.ports) (parked : ∀ q, (t.session q).parked = (s.session q).parked) :
    CreditsKept s t := by
  have port (q : Port) : t.port q = s.port q := by rw [State.port, ports]; rfl
  refine ⟨fun q => ?_, fun q => congrArg _ (port q)⟩
  rw [tagsInUse_eq, port, State.portParked, parked]
  exact .refl _

theorem setSession_parked {x : Session} (parked : x.parked = (s.session p).parked) (q : Port) :
    ((s.setSession p x).session q).parked = (s.session q).parked := by
  rw [session_setSession]
  by_cases same : q = p
  · subst same; rw [Function.update_self, parked]
  · rw [Function.update_of_ne same]

theorem setSession_credits {x : Session} (parked : x.parked = (s.session p).parked) : CreditsKept s (s.setSession p x) :=
  creditsKept_sessions rfl (setSession_parked parked)

theorem portParked_setSession_other {x : Session} (away : q ≠ p) : (s.setSession p x).portParked q = s.portParked q := by
  rw [State.portParked, session_setSession_other s x away]; rfl

/-! ### Replies -/

/-- A reply handed to a port adds its tag, or is discarded (R166, R169). -/
theorem tags_receive (v : PortUnit) (r : Reply) (parked : Option Byte) :
    ((v.receive r).tags parked).Subperm (r.tag :: v.tags parked) := by
  unfold PortUnit.receive PortUnit.tags
  dsimp only
  split
  · exact (List.sublist_cons_self _ _).subperm
  · rw [List.map_append, ← List.append_assoc]
    exact List.Perm.subperm List.perm_append_comm

/-- The tag of a parked claim moves to its reply (R79, R83, R87). -/
theorem tags_receive_unparked {v : PortUnit} {r : Reply} : ((v.receive r).tags none).Subperm (v.tags (some r.tag)) := by
  refine (tags_receive v r none).trans (List.Perm.subperm ?_)
  unfold PortUnit.tags
  simp only [Option.toList_none, List.append_nil, Option.toList_some, List.append_assoc, List.singleton_append]
  rw [← List.append_assoc, ← List.append_assoc]
  exact List.perm_middle.symm

/-- The tag of the request in service moves to its reply (R40). -/
theorem tags_receive_served {v : PortUnit} {r : Reply} (parked : Option Byte) (served : v.inService = some r.tag) :
    ((v.receive r).endService.tags parked).Subperm (v.tags parked) := by
  refine (tags_receive v.endService r parked).trans (List.Perm.subperm ?_)
  unfold PortUnit.tags PortUnit.endService
  simp only [served, Option.toList_none, List.append_nil, Option.toList_some, List.append_assoc, List.singleton_append]
  exact List.perm_middle.symm

theorem tags_unparked (v : PortUnit) (parked : Option Byte) : (v.tags none).Subperm (v.tags parked) := by
  unfold PortUnit.tags
  rw [Option.toList_none, List.append_nil]
  exact ((List.sublist_append_left _ _).append_right _).subperm

/-- The request served is answered, from a state that kept the credits. -/
theorem answer_credits {tag : Byte} (st : Status) (body : List Byte) (kept : CreditsKept s u) (owner : s.work.owner = some (p, tag))
    (sound : s.creditsSound) : (u.answer p tag st body).creditsSound := by
  obtain ⟨tags, served⟩ := creditsSound_iff.mp sound
  have before (q : Port) : tagsSound (u.tagsInUse q) := tagsSound_subperm (kept.tags q) (tags q)
  have inService : (u.port p).inService = some tag := (kept.service p).trans (served p tag owner)
  refine creditsSound_iff.mpr ⟨fun q => ?_, fun q tag owner => by cases owner⟩
  by_cases same : q = p
  · subst same
    have own : (u.answer q tag st body).port q = ((u.port q).receive ⟨tag, st, body⟩).endService := get_set_self ..
    rw [tagsInUse_eq, own]
    exact tagsSound_subperm (tags_receive_served (r := ⟨tag, st, body⟩) _ inService) (before q)
  · have away : (u.answer p tag st body).port q = u.port q := get_set_other _ _ same
    rw [tagsInUse_eq, away]
    exact before q

/-! ### The lease table -/

/-- A parked claim ends; its reply carries its tag (R79, R83, R87). -/
theorem unpark_credits {r : Reply} (parked : s.portParked p = some r.tag) (ports : t.ports = s.ports.set p ((s.port p).receive r))
    (sessions : t.sessions = s.sessions.set p { s.session p with parked := none }) : CreditsKept s t := by
  have unparked : t.portParked p = none := by rw [State.portParked, State.session, sessions, get_set_self]; rfl
  refine creditsKept_at p ports (fun q away => ?_) ?_ rfl
  · rw [State.portParked, State.session, sessions, get_set_other _ _ away]; rfl
  · rw [unparked, parked]; exact tags_receive_unparked

theorem removeParked_credits (p : Port) : CreditsKept s (s.removeParked p) := by
  have unparked : (s.removeParked p).portParked p = none := by
    rw [State.portParked]
    show ((s.sessions.set p _).get p).parked.map _ = none
    rw [get_set_self]
    rfl
  refine creditsKept_at (v := s.port p) p (set_get s.ports p).symm (fun q away => portParked_setSession_other away) ?_ rfl
  rw [unparked]
  exact tags_unparked _ _

theorem parked_of_waits (sound : s.tableSound) {w : Waiter} (listed : e ∈ s.leases) (waits : w ∈ e.waiters) :
    s.portParked w.port = some w.tag := by
  rw [State.portParked, ((sound.2.entries e listed).2 w waits).2]; rfl

theorem endLease_credits (k : Key) (sound : s.tableSound) : CreditsKept s (s.endLease k) := by
  cases entry : s.leaseOf k with
  | none => rw [endLease_absent entry]; exact .refl s
  | some e =>
    cases waiting : e.waiters with
    | nil => rw [endLease_removes entry waiting]; exact creditsKept_sessions rfl (fun _ => rfl)
    | cons w rest =>
      rw [endLease_passes entry waiting]
      exact unpark_credits (p := w.port) (r := ⟨w.tag, .ok, claimBody 1 (s.periodUsed w.period)⟩)
        (parked_of_waits sound (mem_of_leaseOf entry) (by rw [waiting]; exact List.mem_cons_self)) rfl rfl

theorem foldl_endLease_credits (keys : List Key) : ∀ s : State, s.tableSound → CreditsKept s (keys.foldl State.endLease s) := by
  induction keys with
  | nil => exact fun s _ => .refl s
  | cons k keys ih => exact fun s sound => (endLease_credits k sound).trans (ih _ (endLease_tableSound k sound))

theorem dropParked_credits (p : Port) (answered : Bool) : CreditsKept s (s.dropParked p answered) := by
  unfold State.dropParked
  split
  · exact .refl s
  · next key tag parked =>
    split
    · exact unpark_credits (r := ⟨tag, .aborted, []⟩) (by rw [State.portParked, parked]; rfl) rfl rfl
    · exact removeParked_credits p

theorem closeSession_credits (p : Port) : CreditsKept s (s.closeSession p) := by
  have unparked : (s.closeSession p).portParked p = none := by
    rw [State.portParked, State.closeSession, session_setSession_self]; rfl
  refine creditsKept_at (v := s.port p) p (set_get s.ports p).symm (fun q away => portParked_setSession_other away) ?_ rfl
  rw [unparked]
  exact tags_unparked _ _

theorem tearDown_credits (p : Port) (answered : Bool) (sound : s.tableSound) : CreditsKept s (s.tearDown p answered) :=
  ((foldl_endLease_credits _ s sound).trans (dropParked_credits p answered)).trans (closeSession_credits p)

theorem takeExpiry_credits (x : Expiry) (sound : s.tableSound) : CreditsKept s (s.takeExpiry x) := by
  cases x with
  | lease k =>
    unfold State.takeExpiry State.expireLease
    dsimp only
    split
    · exact .refl s
    · next e entry =>
      split
      · exact (setSession_credits (p := e.holder)
            (x := { s.session e.holder with notices := postNotice k Notice.markLapsed (s.session e.holder).notices }) rfl).trans
          (endLease_credits (s := s.postLapsed e.holder k) k (postLapsed_tableSound (mem_of_leaseOf entry) sound))
      · exact .refl s
  | wait p =>
    unfold State.takeExpiry State.expireWait
    dsimp only
    split
    · exact .refl s
    · next w entry =>
      split
      · obtain ⟨e, listed, waits⟩ := mem_of_waiterOf entry
        have port : w.port = p := by simpa using List.find?_some entry
        exact unpark_credits (r := ⟨w.tag, .timeout, []⟩) (port ▸ parked_of_waits sound listed waits) rfl rfl
      · exact .refl s

theorem advanceClock_work (first : List Expiry) : (s.advanceClock first).work = s.work := by
  obtain ⟨leases, sessions, ports, eq⟩ := touchesClients_foldl takeExpiry_clients (first ++ s.expiries) s.tickClock
  rw [State.advanceClock, eq]
  rfl

theorem advanceClock_credits (first : List Expiry) (sound : s.tableSound) : CreditsKept s (s.advanceClock first) := by
  unfold State.advanceClock
  have ticked : s.tickClock.tableSound := sound
  have start : CreditsKept s s.tickClock := creditsKept_sessions rfl (fun _ => rfl)
  generalize s.tickClock = u at ticked start
  generalize first ++ s.expiries = expiries
  induction expiries generalizing u with
  | nil => exact start
  | cons x expiries ih => exact ih _ (takeExpiry_tableSound x ticked) (start.trans (takeExpiry_credits x ticked))

/-- A claim is parked: the tag moves from the service to the session (R78). -/
theorem parkClaim_credits {c : ClaimBody} {tag : Byte} (unparked : (s.session p).parked = none)
    (owner : s.work.owner = some (p, tag)) (sound : s.creditsSound) : (s.parkClaim p tag e c).creditsSound := by
  obtain ⟨tags, served⟩ := creditsSound_iff.mp sound
  refine creditsSound_iff.mpr ⟨fun q => ?_, fun q tag owner => by cases owner⟩
  by_cases same : q = p
  · subst same
    have port : (s.parkClaim q tag e c).port q = (s.port q).endService := get_set_self ..
    have parked : (s.parkClaim q tag e c).portParked q = some tag := by
      show ((s.sessions.set q _).get q).parked.map Prod.snd = some tag
      rw [get_set_self]
      rfl
    have moved : s.tagsInUse q = (s.parkClaim q tag e c).tagsInUse q := by
      have before : s.portParked q = none := by rw [State.portParked, unparked]; rfl
      rw [tagsInUse_eq, tagsInUse_eq, port, parked, before]
      unfold PortUnit.tags PortUnit.endService
      rw [served q tag owner]
      simp only [Option.toList_none, List.append_nil, Option.toList_some]
    exact moved ▸ tags q
  · have port : (s.parkClaim p tag e c).port q = s.port q := get_set_other _ _ same
    have parked : (s.parkClaim p tag e c).portParked q = s.portParked q :=
      portParked_setSession_other (x := { s.session p with parked := some (c.key, tag) }) same
    rw [tagsInUse_eq, port, parked]
    exact tags q

theorem claimAct_credits {r : Request} {c : ClaimBody} (inHand : s.work = .request p r) (sound : s.creditsSound) :
    (claimAct p r c s).creditsSound := by
  have owner : s.work.owner = some (p, r.tag) := by rw [inHand]; rfl
  have leases (l : List Lease) : CreditsKept s { s with leases := l } := creditsKept_sessions rfl (fun _ => rfl)
  unfold claimAct
  split
  · split
    · exact answer_credits _ _ (.refl s) owner sound
    · exact answer_credits _ _ (leases _) owner sound
  · next e entry =>
    split
    · exact answer_credits _ _ (leases _) owner sound
    · unfold State.claimHeld
      split
      · exact answer_credits _ _ (.refl s) owner sound
      · split
        · exact answer_credits _ _ (.refl s) owner sound
        · next unparked =>
          split
          · exact answer_credits _ _ (.refl s) owner sound
          · exact parkClaim_credits (by simpa using unparked) owner sound

/-! ### Frames and grants -/

/-- A frame changes its own port alone, and keeps its tags. -/
theorem setPort_credits {v : PortUnit} (p : Port) (tags : (v.tags (s.portParked p)).Subperm ((s.port p).tags (s.portParked p)))
    (service : v.inService = (s.port p).inService) : CreditsKept s (s.setPort p v) :=
  creditsKept_at p rfl (fun _ _ => rfl) tags service

/-- What a frame keeps of its port's tags: queue and service stand, and the replies lose none but the acknowledged. -/
theorem tags_subperm {v w : PortUnit} {parked : Option Byte} (queue : v.queue.Sublist w.queue) (service : v.inService = w.inService)
    (replies : v.replies.Sublist w.replies) : (v.tags parked).Subperm (w.tags parked) := by
  unfold PortUnit.tags
  rw [service]
  exact ((((queue.map _).append_right _).append_right _).append (replies.map _)).subperm

theorem plainFrame_credits (p : Port) (n : Nat) (result : FrameResult) : CreditsKept s (s.plainFrame p n result) :=
  setPort_credits p (tags_subperm (.refl _) rfl (.refl _)) rfl

theorem acknowledge_cases (v : PortUnit) (ack : Byte) :
    v.acknowledge ack = v ∨ v.acknowledge ack = { v with replies := v.replies.tail, headSent := false } := by
  unfold PortUnit.acknowledge
  split
  · exact .inr rfl
  · exact .inl rfl

theorem fetchFrame_credits (p : Port) (ack : Byte) (n : Nat) (result : FrameResult) : CreditsKept s (s.fetchFrame p ack n result) := by
  refine setPort_credits p ?_ ?_
  · rcases acknowledge_cases (s.port p) ack with stays | taken
    · rw [stays]; exact tags_subperm (.refl _) rfl (.refl _)
    · rw [taken]; exact tags_subperm (.refl _) rfl (List.tail_sublist _)
  · rcases acknowledge_cases (s.port p) ack with stays | taken
    · rw [stays]; rfl
    · rw [taken]; rfl

theorem portReset_credits (p : Port) (input : List Byte) (part : Bool) : CreditsKept s (s.portResetFrame p input part) := by
  unfold State.portResetFrame
  split
  · refine (plainFrame_credits p (input.length + 1) .ok).trans (setPort_credits p ?_ ?_)
    · unfold PortUnit.portReset
      split
      · exact tags_subperm (List.nil_sublist _) rfl (List.nil_sublist _)
      · exact .refl _
    · unfold PortUnit.portReset
      split <;> rfl
  · exact plainFrame_credits p _ _

theorem select_credits (p : Port) : CreditsKept s (s.select p) := by
  unfold State.select
  split
  · exact .refl s
  · exact setPort_credits p (tags_subperm (.refl _) rfl (.refl _)) rfl

/-- A SUBMIT is admitted under a free tag and a free credit (R164, TABLE 79). -/
theorem submitResult_ok {input : List Byte} {part : Bool} (ok : s.submitResult p input part = .ok) :
    s.tagFree p (byteAt input 0) = true ∧ s.freeCredits p ≠ 0 := by
  unfold State.submitResult at ok
  split at ok
  · cases ok
  · split at ok
    · cases ok
    · split at ok
      · cases ok
      · split at ok
        · cases ok
        · next free =>
          split at ok
          · cases ok
          · next credits => exact ⟨by simpa using free, credits⟩

theorem submitFrame_credits (p : Port) (input : List Byte) (part : Bool) (sound : s.creditsSound) :
    (s.submitFrame p input part).creditsSound := by
  unfold State.submitFrame
  split
  · next ok =>
    obtain ⟨free, credits⟩ := submitResult_ok ok
    have framed := plainFrame_credits (s := s) p (input.length + 1) .ok
    have sound' := framed.sound rfl sound
    obtain ⟨tags, served⟩ := creditsSound_iff.mp sound'
    have short : (s.tagsInUse p).length < 4 := by
      rw [length_tagsInUse]
      unfold State.freeCredits at credits
      omega
    have fresh : byteAt input 0 ≠ 0xFF ∧ byteAt input 0 ∉ s.tagsInUse p := by
      simpa [State.tagFree] using free
    generalize s.plainFrame p (input.length + 1) .ok = u at framed sound' tags served
    refine creditsSound_iff.mpr ⟨fun q => ?_, fun q tag owner => ?_⟩
    · by_cases same : q = p
      · subst same
        have port : (u.setPort q ((u.port q).enqueue (submitRequest input))).port q = (u.port q).enqueue (submitRequest input) :=
          get_set_self ..
        have perm : (((u.port q).enqueue (submitRequest input)).tags (u.portParked q)).Perm (byteAt input 0 :: u.tagsInUse q) := by
          rw [tagsInUse_eq]
          unfold PortUnit.tags PortUnit.enqueue
          simp only [List.map_append, List.map_cons, List.map_nil, List.append_assoc, List.singleton_append]
          exact List.perm_middle
        rw [tagsInUse_eq, port]
        refine tagsSound_subperm perm.subperm ⟨?_, List.nodup_cons.mpr ⟨fun listed => ?_, (tags q).2.1⟩, fun listed => ?_⟩
        · have := (framed.tags q).length_le
          rw [List.length_cons]
          omega
        · exact fresh.2 ((framed.tags q).subset listed)
        · rcases List.mem_cons.mp listed with reserved | listed
          · exact fresh.1 reserved.symm
          · exact (tags q).2.2 listed
      · have port : (u.setPort p ((u.port p).enqueue (submitRequest input))).port q = u.port q := get_set_other _ _ same
        rw [tagsInUse_eq, port]
        exact tags q
    · have service : ((u.setPort p ((u.port p).enqueue (submitRequest input))).port q).inService = (u.port q).inService := by
        by_cases same : q = p
        · subst same
          rw [show (u.setPort q ((u.port q).enqueue (submitRequest input))).port q = _ from get_set_self ..]
          rfl
        · rw [show (u.setPort p ((u.port p).enqueue (submitRequest input))).port q = _ from get_set_other _ _ same]
          rfl
      rw [service]
      exact served q tag owner
  · exact (plainFrame_credits p _ _).sound rfl sound

/-- A grant takes the oldest request of a port into service, or a teardown (R47, R50, R51). -/
theorem grant_credits (g : Grant) (sound : s.creditsSound) : (s.grant g).creditsSound := by
  obtain ⟨tags, served⟩ := creditsSound_iff.mp sound
  have unowned {u : State} (owner : u.work.owner = none) (tags : ∀ q, (u.tagsInUse q).Subperm (s.tagsInUse q)) : u.creditsSound :=
    creditsSound_iff.mpr ⟨fun q => tagsSound_subperm (tags q) (creditsSound_iff.mp sound |>.1 q),
      fun q tag own => by rw [owner] at own; cases own⟩
  cases g with
  | none => exact sound
  | reclaim => exact unowned rfl fun _ => .refl _
  | port p =>
    unfold State.grant State.grantPort
    dsimp only
    split
    · refine unowned rfl fun q => ?_
      exact (creditsKept_at (s := s) (t := { s with ports := s.ports.set p { s.port p with teardown := .inService } }) p rfl
        (fun _ _ => rfl) (.refl _) rfl).tags q
    · split
      · exact sound
      · next r rest queue =>
        refine creditsSound_iff.mpr ⟨fun q => ?_, fun q tag owner => ?_⟩
        · by_cases same : q = p
          · subst same
            have taken : ({ s.port q with queue := rest, inService := some r.tag }.tags (s.portParked q)).Subperm
                (s.tagsInUse q) := by
              rw [tagsInUse_eq]
              unfold PortUnit.tags
              simp only [queue, List.map_cons, Option.toList_some, List.append_assoc, List.cons_append]
              refine List.perm_middle.subperm.trans (List.Sublist.subperm (.cons_cons _ ?_))
              exact (List.sublist_append_right _ _).append_left _
            rw [tagsInUse_eq, port_of_set (s := s) (p := q) rfl]
            exact tagsSound_subperm taken (tags q)
          · rw [tagsInUse_eq, port_of_set_other (s := s) (p := p) rfl same]
            exact tags q
        · cases owner
          rw [port_of_set (s := s) (p := p) rfl]

/-! ### Steps -/

theorem ClientEffect.credits {kind : CommandKind} (effect : ClientEffect s kind t)
    (table : s.tableSound) (sound : s.creditsSound) : t.creditsSound := by
  have answered {p : Port} {r : Request} (inHand : s.work = .request p r) {u : State} (kept : CreditsKept s u) (st : Status)
      (body : List Byte) : (u.answer p r.tag st body).creditsSound :=
    answer_credits st body kept (by rw [inHand]; rfl) sound
  cases effect with
  | nothing | supplied => exact sound
  | selected p =>
    refine (select_credits p).sound ?_ sound
    unfold State.select
    split <;> rfl
  | framed p n result => exact (plainFrame_credits p n result).sound rfl sound
  | submitted p input part => exact submitFrame_credits p input part sound
  | fetched p ack n result => exact (fetchFrame_credits p ack n result).sound rfl sound
  | portReset p input part =>
    refine (portReset_credits p input part).sound ?_ sound
    unfold State.portResetFrame
    split <;> rfl
  | granted idle => exact grant_credits _ sound
  | answered p r d st body inHand =>
    exact answered inHand (u := { s with draws := d }) (creditsKept_sessions rfl (fun _ => rfl)) st body
  | opened p r e inHand =>
    have bound : CreditsKept s (s.setSession p ((s.session p).bind (s.rightsInForce.get p))) := setSession_credits rfl
    exact answered inHand (bound.trans (setPort_credits (v := (s.port p).setEnables e) p (tags_subperm (.refl _) rfl (.refl _)) rfl)) _ _
  | closed p r inHand passed => exact answered inHand (tearDown_credits p true table) _ _
  | claimed p r c inHand passed => exact claimAct_credits inHand sound
  | renewed p r c inHand passed =>
    unfold renewAct
    split
    · exact answered inHand (creditsKept_sessions rfl (fun _ => rfl)) _ _
    · exact answered inHand (.refl s) _ _
  | released p r k inHand =>
    unfold releaseAct
    split
    · exact answered inHand (endLease_credits k table) _ _
    · exact answered inHand (.refl s) _ _
  | watched p r k inHand passed =>
    unfold watchAct
    split
    · exact answered inHand (.refl s) _ _
    · exact answered inHand (setSession_credits (x := (s.session p).addWatch k) rfl) _ _
  | unwatched p r k inHand passed => exact answered inHand (setSession_credits (x := (s.session p).dropWatch k) rfl) _ _
  | noticeTaken p r inHand passed =>
    unfold takeNoticeAct
    split
    · exact answered inHand (.refl s) _ _
    · next n rest notices => exact answered inHand (setSession_credits (x := { s.session p with notices := rest }) rfl) _ _
  | groupBegun p r inHand passed =>
    exact answered inHand (setSession_credits (x := { s.session p with groupOpen := true, members := [] }) rfl) _ _
  | memberPut p r c inHand passed =>
    exact answered inHand (setSession_credits (x := { s.session p with members := stagedAfter s p c }) rfl) _ _
  | groupCleared p r body inHand =>
    exact answered inHand (setSession_credits (x := { s.session p with groupOpen := false, members := [] }) rfl) _ _
  | compacted p r n inHand => exact answered inHand (u := s.setCompact n) (creditsKept_sessions rfl (fun _ => rfl)) _ _
  | tornDown p inHand =>
    have torn := tearDown_credits p false table
    have ended : CreditsKept (s.tearDown p false) ((s.tearDown p false).setPort p ((s.tearDown p false).port p).endTeardown) :=
      setPort_credits p (tags_subperm (.refl _) rfl (.refl _)) rfl
    obtain ⟨tags, -⟩ := creditsSound_iff.mp sound
    exact creditsSound_iff.mpr ⟨fun q => tagsSound_subperm ((torn.trans ended).tags q) (tags q), fun q tag owner => by cases owner⟩
  | advanced first => exact (advanceClock_credits first table).sound (advanceClock_work first) sound

theorem ClientsSame.credits (same : ClientsSame s t) : CreditsKept s t :=
  creditsKept_sessions same.ports fun q => by rw [State.session, same.sessions]; rfl

theorem ClientStep.credits {kind : CommandKind} (step : ClientStep kind s t)
    (table : s.tableSound) (sound : s.creditsSound) : t.creditsSound := by
  obtain ⟨tags, served⟩ := creditsSound_iff.mp sound
  cases step with
  | kept same serves =>
    have port (q : Port) : t.port q = s.port q := by rw [State.port, same.ports]; rfl
    refine creditsSound_iff.mpr ⟨fun q => ?_, fun q tag owner => ?_⟩
    · rw [tagsInUse_eq, port, State.portParked, State.session, same.sessions]
      exact tags q
    · rw [port]
      exact served q tag (serves.1 _ owner)
  | answered p tag st body owner idle leases clock sessions ports =>
    have parked (q : Port) : t.portParked q = s.portParked q := by
      rw [State.portParked, (sessions q).parked]; rfl
    refine creditsSound_iff.mpr ⟨fun q => ?_, fun q tag owner => by rw [idle] at owner; cases owner⟩
    by_cases same : q = p
    · subst same
      rw [tagsInUse_eq, port_of_set ports, parked]
      exact tagsSound_subperm (tags_receive_served (r := ⟨tag, st, body⟩) _ (served q tag owner)) (tags q)
    · rw [tagsInUse_eq, port_of_set_other ports same, parked]
      exact tags q
  | formatted f u same serves done =>
    have owner : s.work.owner = some (f.port, f.tag) := serves.1 _ rfl
    have released : CreditsKept u.formatStore (u.formatStore.releaseAll f.port) :=
      foldl_endLease_credits _ u.formatStore (tableSound_of_eq (t := u.formatStore) same.leases same.sessions table)
    have start : CreditsKept s u.formatStore := ClientsSame.credits (t := u.formatStore) ⟨same.leases, same.sessions, same.ports, same.clock⟩
    have session := setSession_credits (s := u.formatStore.releaseAll f.port) (p := f.port)
      (x := { (u.formatStore.releaseAll f.port).session f.port with
        rights := defaultRights.get f.port, watch := [], notices := [], groupOpen := false, members := [] }) rfl
    have formatted : CreditsKept u.formatStore (u.formatStore.formatSession f.port) := released.trans session
    rw [done]
    exact answer_credits (u := { u.formatStore.formatSession f.port with
      mode := if (u.formatStore.formatSession f.port).usable < 8 then .readOnly else .ready }) _ _
      ((start.trans formatted).trans (creditsKept_sessions rfl fun _ => rfl)) owner sound
  | reset _ work leases clock sessions ports =>
    refine creditsSound_iff.mpr ⟨fun q => ?_, fun q tag owner => by rw [work] at owner; cases owner⟩
    rw [tagsInUse_eq, ports, State.portParked, sessions]
    exact ⟨Nat.zero_le _, .nil, List.not_mem_nil⟩

/-- Settles O56, by what each event does with the tags of a port. -/
theorem stepKeepsCreditsAndTags : Obligations.StepKeepsCreditsAndTags := by
  intro s t leases sound ran
  obtain rfl | ⟨c, rest, ran⟩ := step_cases ran
  · exact sound
  · rcases exec_effect ran with effect | effect
    · exact effect.credits leases.table sound
    · exact effect.client.credits leases.table sound

end

end Sys2Proof.Machine
end

