-- ==== Sys2Proof/Proofs/StepsAndReplies.lean ====
section
/-! PROOF. A step, a reply, the state after reset, and the events that are none in the present state (logs 1, 2, 3, 6 and 25). -/

namespace Sys2Proof.Machine

section
variable {s : State} {p : Port}

/-- Settles O1: by the two cases of the queue. -/
theorem stepRunsFrontCommand : Obligations.StepRunsFrontCommand :=
  ⟨fun _ _ _ => rfl, fun s empty => by unfold step; rw [empty]⟩

/-- The port that the engine answers (R40, R166). -/
theorem port_answer (s : State) (p : Port) (tag : Byte) (st : Status) (body : List Byte) :
    (s.answer p tag st body).port p = ((s.port p).receive ⟨tag, st, body⟩).endService :=
  port_of_set rfl

/-- Settles O2: only the port answered and the work in hand change. -/
theorem replyJoinsTailOrIsDiscarded : Obligations.ReplyJoinsTailOrIsDiscarded := by
  refine fun s p tag st body => ⟨?_, ?_, fun q away => port_of_set_other (s := s) (p := p) rfl away⟩
  · rw [port_answer]; rfl
  · rw [port_answer]; rfl

/-! ### The state after reset -/

theorem reset_standsReset : State.reset.standsReset :=
  ⟨rfl, rfl, rfl, rfl, rfl, rfl, rfl, rfl, rfl, rfl, rfl, fun p => by
    cases p <;> exact ⟨rfl, rfl, rfl, rfl, rfl, rfl, rfl, rfl, rfl, rfl, rfl⟩⟩

theorem session_reset (p : Port) : State.reset.session p = Session.closed := by cases p <;> rfl

theorem port_reset (p : Port) : State.reset.port p = PortUnit.reset := by cases p <;> rfl

theorem reset_leasesSound : State.reset.leasesSound :=
  leasesSound_iff.mpr ⟨.nil, .closed session_reset, fun p h => by cases h⟩

theorem reset_creditsSound : State.reset.creditsSound := by
  refine creditsSound_iff.mpr ⟨fun p => ?_, fun p tag h => by cases h⟩
  rw [tagsInUse_eq, port_reset, State.portParked, session_reset]
  exact ⟨Nat.zero_le _, .nil, List.not_mem_nil⟩

theorem closed_stagingSound : Session.closed.stagingSound := ⟨.nil, Nat.zero_le _, Nat.zero_le _, fun _ => rfl⟩

theorem closed_noticesSound : Session.closed.noticesSound := ⟨.nil, fun _ h => absurd h List.not_mem_nil⟩

theorem reset_limitsSound : State.reset.limitsSound := by
  refine ⟨Nat.zero_le _, fun pl h => (by cases h), fun p => ?_⟩
  rw [session_reset]
  exact ⟨.nil, Nat.zero_le _, closed_noticesSound, closed_stagingSound⟩

/-- With no sector table no sector is in the ring. -/
theorem reset_ringSound : State.reset.ringSound := by
  have outside (i : Nat) : (State.reset.sector i).inRing = false := rfl
  refine ⟨fun format => (by cases format), fun i ring => ?_, ⟨fun e h => absurd h List.not_mem_nil, trivial⟩,
    fun h => (by cases h), fun h => (by cases h)⟩
  rw [outside] at ring
  cases ring

/-- Settles O60: each invariant of the state after reset, whose tables are empty and whose sessions are closed. -/
theorem resetMeetsInvariants : Obligations.ResetMeetsInvariants := by
  have unplaced (P : Placement → Prop) : ∀ pl, State.reset.work = .place pl → P pl := fun pl h => by cases h
  refine ⟨reset_standsReset, rfl, ⟨?_, ?_, fun p => ?_⟩, reset_leasesSound, fun p => ?_, ?_, reset_creditsSound,
    ⟨rfl, unplaced _⟩, ⟨by decide, by decide, by decide, by decide⟩, unplaced _, ⟨rfl, fun _ => rfl⟩, reset_limitsSound,
    Nat.zero_le _, reset_ringSound⟩
  · exact ⟨.nil, fun _ h => absurd h List.not_mem_nil⟩
  · exact ⟨.nil, fun _ h => absurd h List.not_mem_nil⟩
  · rw [session_reset]; exact fun _ h => absurd h List.not_mem_nil
  · rw [claimCount_eq, session_reset]; exact Nat.zero_le _
  · exact ⟨by decide, by decide, fun _ h => absurd h List.not_mem_nil⟩

/-! ### Events that are not possible -/

/-- A reclaim step acts on a tail in the unit's state alone (R119, TABLE 63). -/
theorem exec_reclaimMark_idle
    (other : s.work = .reclaimGrant → s.reclaim.state = .idle → ∀ i, s.tail? = some i → (s.sector i).state ≠ .closed) :
    exec .reclaimMark s = .next s := by
  show execReclaimMark s = .next s
  unfold execReclaimMark
  split
  · next i inHand unit tail => exact if_neg (other inHand unit i tail)
  · rfl

theorem exec_reclaimCopy_idle
    (other : s.work = .reclaimGrant → s.reclaim.state = .copying → ∀ i, s.tail? = some i → (s.sector i).live = 0) :
    exec .reclaimCopy s = .next s := by
  show execReclaimCopy s = .next s
  unfold execReclaimCopy
  split
  · next i inHand unit tail => exact if_pos (other inHand unit i tail)
  · rfl

theorem eraseStep_iff {i : Nat} :
    s.eraseStep i = true ↔ s.reclaim.state = .erasing ∨ (s.reclaim.state = .copying ∧ (s.sector i).live = 0) := by
  unfold State.eraseStep
  cases s.reclaim.state <;> simp

theorem exec_reclaimErase_idle (other : s.work = .reclaimGrant → ∀ i, s.tail? = some i →
      s.reclaim.state ≠ .erasing ∧ (s.reclaim.state = .copying → (s.sector i).live ≠ 0)) :
    exec .reclaimErase s = .next s := by
  show execReclaimErase s = .next s
  unfold execReclaimErase
  split
  · next i inHand tail =>
    obtain ⟨notErasing, notEmpty⟩ := other inHand i tail
    refine if_neg fun step => ?_
    rcases eraseStep_iff.mp step with erasing | ⟨copying, empty⟩
    · exact notErasing erasing
    · exact notEmpty copying empty
  · rfl

theorem exec_unknownRequestCode_idle (known : ∀ p r, s.work = .request p r → 1 ≤ r.code.toNat ∧ r.code.toNat ≤ 0x14) :
    exec .unknownRequestCode s = .next s := by
  show execUnknownRequestCode s = .next s
  unfold execUnknownRequestCode
  split
  · next p r inHand =>
    obtain ⟨low, high⟩ := known p r inHand
    exact if_pos (by simp [knownCode, low, high])
  · rfl

theorem exec_teardown_idle (other : ∀ p, s.work ≠ .teardown p) : exec .teardown s = .next s := by
  show execTeardown s = .next s
  unfold execTeardown
  split
  · next p inHand => exact absurd inHand (other p)
  · rfl

/-- Mount's first write is due while the settling phase waits in NORMAL (R151). -/
theorem exec_mountClose_idle
    (other : ∀ m, s.work = .mount m → m.phase = .waiting → s.supply = .normal → m.toClose = []) :
    exec .mountClose s = .next s := by
  show execMountClose s = .next s
  unfold execMountClose
  split
  · next m inHand =>
    split
    · next due => unfold State.mountCloseNext; rw [other m inHand due.1 due.2]
    · rfl
  · rfl

/-- R152: there is a next DIRTY sector when one is in the table. -/
theorem nextDirty_eq_none_iff : s.nextDirty = none ↔ ∀ e ∈ s.sectors, e.state ≠ .dirty := by
  have entry (i : Nat) (hi : i < s.sectors.length) : s.sector i = s.sectors[i] := List.getD_eq_getElem _ _ hi
  unfold State.nextDirty
  rw [List.find?_eq_none]
  refine ⟨fun none e he => ?_, fun none i hi => ?_⟩
  · obtain ⟨i, hi, rfl⟩ := List.mem_iff_getElem.mp he
    simpa [entry i hi] using none i (List.mem_range.mpr hi)
  · have hi := List.mem_range.mp hi
    simpa [entry i hi] using none _ (List.getElem_mem hi)

theorem exec_dirtyErase_idle (other : ∀ m, s.work = .mount m → m.phase = .waiting → s.supply = .normal → m.toClose = [] →
      ∀ e ∈ s.sectors, e.state ≠ .dirty) : exec .dirtyErase s = .next s := by
  show execDirtyErase s = .next s
  unfold execDirtyErase
  split
  · next m inHand =>
    split
    · next due =>
      unfold State.dirtyEraseNext
      split
      · next i none dirty =>
        rw [nextDirty_eq_none_iff.mpr (other m inHand due.1 due.2 none)] at dirty
        cases dirty
      · rfl
    · rfl
  · rfl

theorem exec_formatErase_idle (other : ∀ f i, s.work = .format f → f.phase = .sweep i → s.supply = .guard) :
    exec .formatErase s = .next s := by
  show execFormatErase s = .next s
  unfold execFormatErase
  split
  · next f inHand =>
    split
    · next i phase => exact if_neg (by rw [other f i inHand phase]; decide)
    · rfl
  · rfl

theorem exec_wipeRePlacement_idle (other : ∀ f, s.work = .format f → f.phase = .paused → s.supply = .guard) :
    exec .wipeRePlacement s = .next s := by
  show execWipeRePlacement s = .next s
  unfold execWipeRePlacement
  split
  · next f inHand =>
    split
    · next phase => exact if_neg (by rw [other f inHand phase]; decide)
    · rfl
  · rfl

theorem exec_lineProgramComplete_idle (result : LineResult) (none : ∀ i l data, s.controller ≠ .programming i l data) :
    exec (.lineProgramComplete result) s = .next s := by
  show execLineProgramComplete result s = .next s
  unfold execLineProgramComplete
  split
  · next i l data inFlight => exact absurd inFlight (none i l data)
  · rfl
  · rfl

theorem exec_eraseComplete_idle (stuck : List (Nat × Byte)) (none : ∀ i, s.controller ≠ .erasing i) :
    exec (.eraseComplete stuck) s = .next s := by
  show execEraseComplete stuck s = .next s
  unfold execEraseComplete
  split
  · next i inFlight => exact absurd inFlight (none i)
  · rfl
  · rfl

theorem exec_guardArrival_guard (running : s.inReset = false) (guard : s.supply = .guard) :
    exec .guardArrival s = .next s := by
  show execGuardArrival s = .next s
  rw [execGuardArrival, if_neg (by simp [running]), if_pos guard]

theorem inReset_eq_false : s.inReset = false ↔ s.resetPin = false ∧ s.powerHold = false := by
  simp [State.inReset]

theorem exec_normalArrival (running : s.inReset = false) :
    exec .normalArrival s = .next { s with supply := .normal, supplyHigh := true } := by
  obtain ⟨pin, hold⟩ := inReset_eq_false.mp running
  show execNormalArrival s = _
  rw [execNormalArrival, if_neg (by simp [hold]), if_neg (by simp [pin])]

/-- An expiry not reached is no event (R82, R83; log 12). -/
theorem whenRunning_unreached {x : Expiry} (xs : List Expiry) (unreached : s.reachesNext x = false) :
    whenRunning (fun t => t.reachExpiry x xs) s = .next s := by
  rcases whenRunning_cases (fun t : State => t.reachExpiry x xs) s with still | acts
  · exact still
  · rw [acts, reachExpiry_not_reached xs unreached]

theorem reachesNext_lease {k : Key} (unreached : ∀ e, s.leaseOf k = some e → e.expiry ≠ s.leaseClock + 1) :
    s.reachesNext (.lease k) = false := by
  unfold State.reachesNext
  dsimp only
  cases entry : s.leaseOf k with
  | none => rfl
  | some e => simpa using unreached e entry

theorem reachesNext_wait (unreached : ∀ w, s.waiterOf p = some w → w.waitExpiry ≠ s.leaseClock + 1) :
    s.reachesNext (.wait p) = false := by
  unfold State.reachesNext
  dsimp only
  cases entry : s.waiterOf p with
  | none => rfl
  | some w => simpa using unreached w entry

/-- Every frame's command is a moment of its frame (R163). -/
theorem exec_frame {e : FrameEvent} {kind : Byte} {input : List Byte} {part : Bool} {c : Instr}
    (frame : c ∈ [Instr.submit e input part, .fetch e input, .peek e input, .portReset e input part, .unknownKind e kind input,
      .frameTimeout e input, .frameReleasedBeforeKind e]) (s : State) : ∃ act, exec c s = atMoment e act s := by
  simp only [List.mem_cons, List.not_mem_nil, or_false] at frame
  rcases frame with rfl | rfl | rfl | rfl | rfl | rfl | rfl
  all_goals
    simp only [exec, execSubmit, execFetch, execPeek, execPortReset, execUnknownKind, execFrameTimeout, execFrameReleasedBeforeKind]
    exact ⟨_, rfl⟩

/-- SEL# asserted already is no event (log 1), nor is a frame in reset (log 25). -/
theorem atMoment_idle {e : FrameEvent} {act : State → Port → State}
    (idle : s.inReset = true ∨ (e = ⟨p, .asserted⟩ ∧ (s.port p).selected = true)) : atMoment e act s = .next s := by
  rcases idle with held | ⟨rfl, selected⟩
  · exact atMoment_reset e held
  · rcases whenRunning_cases (fun t : State => t.select p) s with still | acts
    · exact still
    · refine acts.trans (congrArg _ ?_)
      exact if_pos selected

/-- Settles O3: each command by the test that its guard makes. -/
theorem eventsNotPossibleChangeNothing : Obligations.EventsNotPossibleChangeNothing := by
  refine ⟨fun s => ⟨fun x listed other => ?served, exec_unknownRequestCode_idle, exec_teardown_idle, exec_reclaimMark_idle,
      exec_reclaimCopy_idle, exec_reclaimErase_idle⟩,
    fun s => ⟨exec_mountClose_idle, exec_dirtyErase_idle, exec_formatErase_idle, exec_wipeRePlacement_idle,
      exec_lineProgramComplete_idle, exec_eraseComplete_idle, fun free => ?hold, fun free => ?pin, exec_guardArrival_guard,
      fun running normal high => ?normal⟩,
    fun s p k kind input part xs => ⟨fun unreached => whenRunning_unreached xs (reachesNext_lease unreached),
      fun unreached => whenRunning_unreached xs (reachesNext_wait unreached), fun low high => ?kind,
      fun e idle c frame => ?frame, fun held c clock => ?clock⟩⟩
  case served => fin_cases listed <;> exact serve_other other
  case hold => exact if_neg (by simp [free])
  case pin => exact if_neg (by simp [free])
  case normal => rw [exec_normalArrival running, ← normal, ← high]
  case kind =>
    rcases whenRunning_cases (fun t : State => if 1 ≤ kind.toNat ∧ kind.toNat ≤ 4 then t
      else t.plainFrame p (input.length + 1) .unknownKind) s with still | acts
    · exact still
    · exact acts.trans (congrArg _ (if_pos ⟨low, high⟩))
  case frame =>
    obtain ⟨act, moment⟩ := exec_frame frame s
    exact moment.trans (atMoment_idle idle)
  case clock =>
    simp only [List.mem_cons, List.not_mem_nil, or_false] at clock
    rcases clock with rfl | rfl | rfl
    · exact whenRunning_reset (act := fun t => t.advanceClock []) held
    · exact whenRunning_reset (act := fun t => t.reachExpiry (.lease k) xs) held
    · exact whenRunning_reset (act := fun t => t.reachExpiry (.wait p) xs) held

end

end Sys2Proof.Machine
end

