-- ==== Sys2Proof/Proofs/FlashSupplyAndResets.lean ====
section
/-! PROOF. What a flash operation leaves in the array, whether it ends, a GUARD arrival stops it or a reset cuts it off; and the
supply and reset events themselves (R1, R134 to R139). -/

namespace Sys2Proof.Machine

/-! ### The array -/

section
variable {m : List Host.Cell} {bits : Nat → Byte} {i l a n : Nat}

theorem readBytes_eq_map (m : List Host.Cell) : ∀ n a, readBytes m a n = (List.range n).map fun k => readByte m (a + k)
  | 0, _ => rfl
  | n + 1, a => by
    rw [readBytes, readBytes_eq_map m n (a + 1), List.range_succ_eq_map, List.map_cons, List.map_map]
    congr 2
    funext k
    exact congrArg (readByte m) (Nat.add_right_comm a 1 k)

theorem sectorErased_iff (wf : Memory.wf m = true) :
    sectorErased m i = true ↔ ∀ c, inSector i c → readByte m c = 0xFF :=
  (allErased_iff wf _ _).trans ⟨fun erased c inside => erased c inside.1 inside.2, fun erased c low high => erased c ⟨low, high⟩⟩

/-- An erase turns bits only to one (R1, R136). -/
theorem eraseSector_raises (wf : Memory.wf m = true) :
    readByte m a ||| readByte (eraseSector bits i m) a = readByte (eraseSector bits i m) a := by
  have raised (b x : Byte) (c : Prop) [Decidable c] : b ||| (if c then b ||| x else b) = if c then b ||| x else b := by
    split
    · rw [← BitVec.or_assoc, BitVec.or_self]
    · exact BitVec.or_self
  have header := (wf_iff_rising m).mp wf
  have payload := (wf_iff_rising _).mp (wf_raiseBytes bits (sectorBase i) (sectorBase i) (sectorBase i + 40) wf)
  unfold eraseSector
  split
  · rw [readByte_raise _ _ _ _ _ payload, readByte_raise _ _ _ _ _ header]
    split
    · rw [← BitVec.or_assoc, raised]
    · exact raised ..
  · rw [readByte_raise _ _ _ _ _ header]
    exact raised ..

theorem eraseSector_erasedSome (bits : Nat → Byte) (i : Nat) (wf : Memory.wf m = true) :
    erasedSome m (eraseSector bits i m) i := by
  refine ⟨fun a outside => read_eraseSector_outside bits i a wf ?_, fun a => eraseSector_raises wf,
    fun partway a payload => read_eraseSector_payload bits i a wf partway payload⟩
  have base : sectorBase i = 2048 * i := rfl
  have size : sectorBytes = 2048 := rfl
  unfold inSector at outside
  omega

/-- Programming a line leaves the other lines (R135). -/
theorem read_program_outside (wf : Memory.wf m = true) {data : List Byte} (length : data.length = 8) (outside : ¬inLine i l a) :
    readByte (programBytes m (lineAddress i l) data) a = readByte m a := by
  have base : lineAddress i l = 2048 * i + 8 * l := rfl
  unfold inLine at outside
  rw [read_programBytes data _ _ wf, if_neg (by omega)]

theorem read_program_inside (wf : Memory.wf m = true) {data : List Byte} (length : data.length = 8) {k : Nat} (inside : k < 8) :
    readByte (programBytes m (lineAddress i l) data) (2048 * i + 8 * l + k) =
      readByte m (2048 * i + 8 * l + k) &&& data.getD k 0xFF := by
  have base : lineAddress i l = 2048 * i + 8 * l := rfl
  rw [read_programBytes data _ _ wf, if_pos (by omega), base, Nat.add_sub_cancel_left]

/-- Programming turns bits only to zero (R1). -/
theorem programBytes_lowers (wf : Memory.wf m = true) (data : List Byte) :
    readByte m a &&& readByte (programBytes m n data) a = readByte (programBytes m n data) a := by
  rw [read_programBytes data _ _ wf]
  split
  · rw [← BitVec.and_assoc, BitVec.and_self]
  · exact BitVec.and_self

/-- What a line program cut off had still to turn, it leaves (R134; log 8). -/
theorem and_unprogrammed (b d u : Byte) : b &&& d &&& (b &&& (d ||| u)) = b &&& d := by
  ext k hk
  simp only [BitVec.getElem_and, BitVec.getElem_or]
  cases b[k] <;> cases d[k] <;> rfl

end

section
variable {s : State}

/-- The bytes that a well-formed outcome leaves of a line are eight (R1). -/
theorem faulty_length {left : List Byte} (formed : (LineResult.faulty left).wellFormed = true) : left.length = 8 := by
  simpa [LineResult.wellFormed] using formed

theorem bits_faulty {left : List Byte} (data : List Byte) (formed : (LineResult.faulty left).wellFormed = true) :
    LineResult.bits data (.faulty left) = left :=
  List.take_of_length_le (Nat.le_of_eq (faulty_length formed))

theorem exec_lineProgramComplete {i l : Nat} {data : List Byte} (res : LineResult) (inFlight : s.controller = .programming i l data) :
    exec (.lineProgramComplete res) s = .next ((s.lineProgrammed i l (LineResult.bits data res)).lineEnded
      (decide (readLine (programBytes s.flash (lineAddress i l) (LineResult.bits data res)) i l = data))) := by
  show execLineProgramComplete res s = _
  unfold execLineProgramComplete
  rw [inFlight]
  rfl

theorem exec_eraseComplete {i : Nat} (stuck : List (Nat × Byte)) (inFlight : s.controller = .erasing i) :
    exec (.eraseComplete stuck) s = .next ((s.sectorErasedTo i (stuckBits stuck)).eraseEnded
      (if sectorErased (eraseSector (stuckBits stuck) i s.flash) i then .success else .verifyFail)) := by
  show execEraseComplete stuck s = _
  unfold execEraseComplete
  rw [inFlight]
  rfl

/-- Settles O46: by what programming and erasing leave at each address; what the engine does next touches no flash. -/
theorem flashOperationsChangeTheirOwnBytes : Obligations.FlashOperationsChangeTheirOwnBytes := by
  refine ⟨fun m a b i l n x => ⟨rfl, rfl, readBytes_eq_map m n a, rfl, rfl, sectorErased_iff⟩,
    fun s wf => ⟨fun i l data res inFlight length formed => ⟨_, exec_lineProgramComplete res inFlight, ?line⟩,
      fun i stuck inFlight => ⟨_, exec_eraseComplete stuck inFlight, ?erased, fun none a inside => ?good⟩⟩⟩
  case line =>
    rw [(lineEnded_keeps ..).flash]
    cases res with
    | good => exact ⟨fun a outside => read_program_outside wf length outside, fun k inside => read_program_inside wf length inside⟩
    | faulty left =>
      have eight := faulty_length formed
      rw [bits_faulty data formed]
      exact ⟨fun a outside => read_program_outside wf eight outside, fun k inside => read_program_inside wf eight inside⟩
  case erased =>
    rw [(eraseEnded_keeps ..).flash]
    exact eraseSector_erasedSome _ i wf
  case good =>
    rw [(eraseEnded_keeps ..).flash, none]
    exact read_eraseSector_good i a wf inside

/-! ### Arrivals of the supply state -/

/-- An erase that GUARD stops leaves nothing but the engine's work to be done again (R126, R137, R152, R156). -/
theorem eraseEnded_aborted (s : State) :
    ∃ w, s.eraseEnded .aborted = { s with work := w } ∧ ∀ i suspect, s.work = .tailErase i suspect → w = .idle := by
  have same (other : ∀ i suspect, s.work ≠ .tailErase i suspect) :
      ∃ w, s = { s with work := w } ∧ ∀ i suspect, s.work = .tailErase i suspect → w = .idle :=
    ⟨s.work, rfl, fun i suspect h => absurd h (other i suspect)⟩
  unfold State.eraseEnded
  split
  · exact ⟨.idle, rfl, fun _ _ _ => rfl⟩
  · next f inHand =>
    have other (w : Work) : ∀ i suspect, s.work = .tailErase i suspect → w = .idle := fun i suspect h => by
      rw [inHand] at h; cases h
    unfold State.formatErased
    split
    · exact ⟨_, rfl, other _⟩
    · exact ⟨_, rfl, other _⟩
    all_goals exact ⟨s.work, rfl, other _⟩
  · next mw inHand =>
    have other (w : Work) : ∀ i suspect, s.work = .tailErase i suspect → w = .idle := fun i suspect h => by
      rw [inHand] at h; cases h
    split
    · exact ⟨_, rfl, other _⟩
    all_goals exact ⟨s.work, rfl, other _⟩
  all_goals
    next inHand => exact same fun i suspect h => by rw [inHand] at h; cases h

/-- Settles O47: by the tests of the two arrivals, and what an aborted erase leaves. -/
theorem supplyArrivals : Obligations.SupplyArrivals := by
  refine ⟨fun s running => ⟨exec_normalArrival running, exec_guardArrival_guard running, fun normal none => ?quiet,
      fun i normal inFlight wf => ?erasing⟩,
    fun s held => ⟨if_pos held, fun free => ?kept, fun hold => if_pos hold⟩⟩
  case quiet =>
    show execGuardArrival s = _
    rw [execGuardArrival, if_neg (by simp [running]), if_neg (by simp [normal])]
    refine congrArg _ ?_
    unfold State.abortErase
    split
    · next i inFlight => exact absurd inFlight (none i)
    · rfl
    · rfl
  case erasing =>
    obtain ⟨w, ended, idle⟩ := eraseEnded_aborted { ({ s with supply := .guard, supplyHigh := false } : State).sectorErasedTo i
      (Config.erasedBits s.draws) with draws := s.draws + 1 }
    have aborted : exec .guardArrival s = .next { { ({ s with supply := .guard, supplyHigh := false } : State).sectorErasedTo i
        (Config.erasedBits s.draws) with draws := s.draws + 1 } with work := w } := by
      show execGuardArrival s = _
      rw [execGuardArrival, if_neg (by simp [running]), if_neg (by simp [normal])]
      refine congrArg _ (Eq.trans ?_ ended)
      unfold State.abortErase
      dsimp only
      rw [inFlight]
    exact ⟨_, aborted, rfl, rfl, rfl, rfl, rfl, rfl, rfl, rfl, eraseSector_erasedSome _ i wf,
      fun suspect tail => idle i suspect tail⟩
  case kept =>
    have pin : s.resetPin = true := by simpa [State.inReset, free] using held
    show execNormalArrival s = _
    rw [execNormalArrival, if_neg (by simp [free]), if_pos pin]

/-! ### Resets -/

theorem toReset_standsReset (pin hold : Bool) : (s.toReset pin hold).standsReset :=
  ⟨rfl, rfl, rfl, rfl, rfl, rfl, rfl, rfl, rfl, rfl, rfl, fun p => by
    cases p <;> exact ⟨rfl, rfl, rfl, rfl, rfl, rfl, rfl, rfl, rfl, rfl, rfl⟩⟩

/-- A line program that a reset cuts off has turned some of the bits asked for (R134; log 8). -/
theorem cutFlash_programming {m : List Host.Cell} (wf : Memory.wf m = true) (draw i l : Nat) {data : List Byte}
    (length : data.length = 8) :
    (∀ a, ¬inLine i l a → readByte (cutFlash (.programming i l data) draw m) a = readByte m a) ∧
      (∀ a, readByte m a &&& readByte (cutFlash (.programming i l data) draw m) a =
        readByte (cutFlash (.programming i l data) draw m) a) ∧
      ∀ k, k < 8 → readByte m (2048 * i + 8 * l + k) &&& data.getD k 0xFF &&&
          readByte (cutFlash (.programming i l data) draw m) (2048 * i + 8 * l + k) =
        readByte m (2048 * i + 8 * l + k) &&& data.getD k 0xFF := by
  unfold cutFlash
  dsimp only
  generalize asked : (List.range data.length).map (fun k => data.getD k erasedByte ||| Config.unprogrammedBits draw k) = bytes
  have eight : bytes.length = 8 := by rw [← asked, List.length_map, List.length_range, length]
  refine ⟨fun a outside => read_program_outside wf eight outside, fun a => programBytes_lowers wf bytes, fun k inside => ?_⟩
  have byte : bytes.getD k 0xFF = data.getD k 0xFF ||| Config.unprogrammedBits draw k := by
    rw [← asked, List.getD_eq_getElem _ _ (by rw [List.length_map, List.length_range]; omega), List.getElem_map, List.getElem_range]
  rw [read_program_inside wf eight inside, byte]
  exact and_unprogrammed ..

/-- Settles O4: both resets set every block anew, and leave in the flash what `cutFlash` says of the operation in flight. -/
theorem resetsCutOffAndTakeResetState : Obligations.ResetsCutOffAndTakeResetState := by
  intro s wf
  refine ⟨_, _, rfl, rfl, toReset_standsReset _ _, rfl, rfl, rfl, toReset_standsReset _ _, rfl, rfl, rfl, rfl, ?_, fun m flash => ?_⟩
  · show (s.supplyHigh && !true) = false
    exact Bool.and_false _
  · have cut : m = cutFlash s.controller s.draws s.flash := flash.elim id id
    refine ⟨cut ▸ wf_cutFlash _ _ wf, ?_⟩
    split
    · next idle => rw [cut, idle, cutFlash]
    · next i l data inFlight =>
      intro length
      rw [cut, inFlight]
      exact cutFlash_programming wf s.draws i l length
    · next i inFlight =>
      rw [cut, inFlight]
      exact eraseSector_erasedSome _ i wf

end

end Sys2Proof.Machine
end

