-- ==== Sys2Proof/Proofs/ReadingSectors.lean ====
section
/-! PROOF. What mount reads: the class of a sector (R146, TABLE 71), a record at a payload line (R149, TABLE 85), and the effect of one
record at replay (R148, R150, TABLE 72). -/

namespace Sys2Proof.Machine

/-! ### The class of a sector -/

section
variable {m : List Host.Cell} {i l : Nat}

theorem lineErased_iff : lineErased m i l = true ↔ readBytes m (2048 * i + 8 * l) 8 = List.replicate 8 0xFF := decide_eq_true_iff

theorem headerValid_iff : headerValid m i = true ↔
    beNat (readBytes m (2048 * i) 2) = 0x4A52 ∧ beNat (readBytes m (2048 * i + 4) 4) ≠ 0 ∧
      (crc16 (readBytes m (2048 * i) 14)).toNat = beNat (readBytes m (2048 * i + 14) 2) := by
  simp only [headerValid, Bool.and_eq_true, decide_eq_true_eq, and_assoc]
  rfl

/-- The ring's rows of TABLE 71, in the order of the table. -/
theorem classify_valid_rows {α : Type} {valid second third : Prop} [Decidable valid] [Decidable second] [Decidable third]
    (a b c d : α) :
    (if valid then (if third then (if second then a else b) else c) else d) =
      if valid ∧ second ∧ third then a else if valid ∧ third then b else if valid then c else d := by
  by_cases v : valid
  · by_cases t : third
    · simp only [v, t, true_and, and_true, if_true]
    · simp only [v, t, and_false, if_true, if_false]
  · simp only [v, false_and, if_false]

/-- Settles O6: the model's tests are those of the rows, in another order. -/
theorem classificationFollowsTable71 : Obligations.ClassificationFollowsTable71 := by
  intro m i
  refine ⟨headerValid_iff, fun wf => allErased_iff wf _ _, ?_⟩
  rw [classify]
  refine if_congr (by rw [← Bool.not_eq_true, lineErased_iff]) rfl (if_congr ?_ ?_ ?_)
  · simp only [Bool.and_eq_true, lineErased_iff, and_assoc]
  · show (if payloadErased m i = true then _ else _) = _
    rw [payloadErased]
    split
    · next erased => rw [show allErased m (2048 * i + 40) (2048 * i + 2048) = true from erased]; rfl
    · next written => rw [if_neg (show ¬allErased m (2048 * i + 40) (2048 * i + 2048) = true from written)]
  · rw [classify_valid_rows]
    simp only [lineErased_iff, headerValid_iff, Bool.decide_and]
    rfl

end

/-! ### A record at a payload line -/

/-- A record header with these bytes is possible at this line (R149, TABLE 85). -/
def headerBytesPossible (b : Nat → Byte) (line : Nat) : Prop :=
  ((b 0 = 0x01 ∨ b 0 = 0x02) ∨ b 0 = 0x03 ∨ b 0 = 0x04) ∧ (b 4).toNat ≤ 240 ∧ (b 0 ≠ 0x01 → (b 4).toNat = 0) ∧
    (b 0 = 0x01 ∨ b 0 = 0x02 → keyValid (keyOfBytes (b 2) (b 3)) = true) ∧
    (¬(b 0 = 0x01 ∨ b 0 = 0x02) → keyOfBytes (b 2) (b 3) = 0) ∧
    (b 0 = 0x01 ∨ b 0 = 0x02 → b 5 ≠ 0 →
      1 ≤ (b 5).toNat / 16 ∧ (b 5).toNat / 16 ≤ (b 5).toNat % 16 ∧ (b 5).toNat % 16 ≤ 6) ∧
    (b 0 = 0x03 → 1 ≤ (b 5).toNat % 16 ∧ (b 5).toNat % 16 ≤ 6) ∧ (b 0 = 0x04 → b 5 = 0) ∧
    ((b 1).getLsbD 0 = true → b 0 = 0x01 ∧ b 5 = 0) ∧ line + (2 + ((b 4).toNat + 7) / 8) ≤ 251

section
variable {m : List Host.Cell} {i line : Nat} {k : RecordKind} {b : Nat → Byte}

/-- Outside a group the group byte is 0 (R177). -/
theorem grouped_iff {r : StoredRecord} {g : Byte} (position : r.position = g.toNat / 16) (count : r.count = g.toNat % 16) :
    r.grouped = true ↔ g ≠ 0 := by
  have zero : g = 0 ↔ g.toNat / 16 = 0 ∧ g.toNat % 16 = 0 := by
    rw [BitVec.toNat_eq]
    show g.toNat = 0 ↔ _
    omega
  rw [StoredRecord.grouped, position, count, Ne, zero]
  simp only [Bool.not_eq_true', Bool.and_eq_false_iff, beq_eq_false_iff_ne]
  tauto

theorem kindOfCode_eq_some {c : Byte} : kindOfCode c = some k ↔ c = k.code := by
  unfold kindOfCode
  cases k <;> simp only [RecordKind.code]
  all_goals
    split
    · next h => subst h; decide
    · split
      · next h => subst h; decide
      · split
        · next h => subst h; decide
        · split
          · next h => subst h; decide
          · simp_all

theorem kindOfCode_eq_none {c : Byte} : kindOfCode c = none ↔ ¬((c = 0x01 ∨ c = 0x02) ∨ c = 0x03 ∨ c = 0x04) := by
  unfold kindOfCode
  split
  · simp_all
  · split
    · simp_all
    · split
      · simp_all
      · split
        · simp_all
        · simp_all

/-- The fields of a header, by its bytes (TABLE 85). -/
theorem headerAt_eq (m : List Host.Cell) (i line : Nat) (k : RecordKind) (at' : ∀ off, b off = readByte m (2048 * i + 40 + 8 * line + off)) :
    headerAt m i line k = ⟨k, (b 1).getLsbD 0, keyOfBytes (b 2) (b 3), (b 4).toNat, (b 5).toNat / 16, (b 5).toNat % 16,
      beNat [b 6, b 7], BitVec.ofNat 48 (beNat [b 8, b 9, b 10, b 11, b 12, b 13])⟩ := by
  simp only [at']
  rfl

theorem possible_iff (code : b 0 = k.code) {reference : Nat} {seq : SeqNo} :
    (⟨k, (b 1).getLsbD 0, keyOfBytes (b 2) (b 3), (b 4).toNat, (b 5).toNat / 16, (b 5).toNat % 16, reference, seq⟩ :
      StoredRecord).possible line = true ↔ headerBytesPossible b line := by
  have grouped := grouped_iff (r := ⟨k, (b 1).getLsbD 0, keyOfBytes (b 2) (b 3), (b 4).toNat, (b 5).toNat / 16, (b 5).toNat % 16,
    reference, seq⟩) (g := b 5) rfl rfl
  unfold headerBytesPossible StoredRecord.possible StoredRecord.kindPossible linesForLength
  cases k <;> simp only [RecordKind.code] at code <;> simp only [code, Bool.and_eq_true, Bool.or_eq_true, Bool.not_eq_true',
    ← Bool.not_eq_true, grouped, decide_eq_true_eq]
  · simp
    cases (b 1)[0] <;> tauto
  all_goals
    simp
    tauto

/-- The check of the record at a line is good, its value having this length (R174). -/
def recordCheckGood (m : List Host.Cell) (i line : Nat) (b : Nat → Byte) : Prop :=
  (crc16 (readBytes m (2048 * i + 40 + 8 * line) 14 ++ readBytes m (2048 * i + 40 + 8 * line + 16) (b 4).toNat)).toNat =
    beNat [b 14, b 15]

theorem checkGood_iff (at' : ∀ off, b off = readByte m (2048 * i + 40 + 8 * line + off)) :
    checkGood m i line (b 4).toNat = true ↔ recordCheckGood m i line b := by
  unfold checkGood recordCheckGood
  rw [decide_eq_true_iff, at' 14, at' 15]
  rfl

theorem readRecord_finished (stops : 251 ≤ line ∨ readByte m (2048 * i + 40 + 8 * line) = 0xFF) :
    readRecord m i line = .finished := by
  unfold readRecord
  by_cases ended : 251 ≤ line
  · exact if_pos ended
  · exact (if_neg ended).trans (if_pos (stops.resolve_left ended))

/-- A header of a known kind is read where it is possible and its check good (R149). -/
theorem readRecord_written (at' : ∀ off, b off = readByte m (2048 * i + 40 + 8 * line + off)) (inside : line < 251)
    (written : b 0 ≠ 0xFF) : readRecord m i line = (kindOfCode (b 0)).elim .damaged fun k =>
      if (headerAt m i line k).possible line && checkGood m i line (headerAt m i line k).length then
        .record (headerAt m i line k) else .damaged := by
  have first : b 0 = readByte m (payloadAddress i (8 * line)) := at' 0
  unfold readRecord
  rw [if_neg (Nat.not_le.mpr inside), if_neg (first ▸ written), ← first]
  cases kindOfCode (b 0) <;> rfl

theorem readable_iff (at' : ∀ off, b off = readByte m (2048 * i + 40 + 8 * line + off)) (code : b 0 = k.code) :
    ((headerAt m i line k).possible line && checkGood m i line (headerAt m i line k).length) = true ↔
      headerBytesPossible b line ∧ recordCheckGood m i line b := by
  rw [Bool.and_eq_true, headerAt_eq m i line k at', possible_iff code]
  exact and_congr_right fun _ => checkGood_iff at'

theorem readRecord_damaged (at' : ∀ off, b off = readByte m (2048 * i + 40 + 8 * line + off)) (inside : line < 251)
    (written : b 0 ≠ 0xFF) (bad : ¬(headerBytesPossible b line ∧ recordCheckGood m i line b)) :
    readRecord m i line = .damaged := by
  rw [readRecord_written at' inside written]
  cases code : kindOfCode (b 0) with
  | none => rfl
  | some k => exact if_neg fun readable => bad ((readable_iff at' (kindOfCode_eq_some.mp code)).mp readable)

theorem readRecord_record (at' : ∀ off, b off = readByte m (2048 * i + 40 + 8 * line + off)) (inside : line < 251)
    (code : b 0 = k.code) (possible : headerBytesPossible b line) (good : recordCheckGood m i line b) :
    readRecord m i line = .record ⟨k, (b 1).getLsbD 0, keyOfBytes (b 2) (b 3), (b 4).toNat, (b 5).toNat / 16, (b 5).toNat % 16,
      beNat [b 6, b 7], BitVec.ofNat 48 (beNat [b 8, b 9, b 10, b 11, b 12, b 13])⟩ := by
  have written : b 0 ≠ 0xFF := by rw [code]; cases k <;> decide
  rw [readRecord_written at' inside written, kindOfCode_eq_some.mpr code]
  rw [Option.elim_some, if_pos ((readable_iff at' code).mpr ⟨possible, good⟩), headerAt_eq m i line k at']

end

/-! ### The effect of a record at replay -/

section
variable {i line : Nat} {r : StoredRecord} {a : Replay}

theorem plain_iff : r.grouped = false ↔ r.position = 0 ∧ r.count = 0 := by
  simp [StoredRecord.grouped]

theorem replayRecord_member (member : (r.kind = .value ∨ r.kind = .tombstone) ∧ ¬(r.position = 0 ∧ r.count = 0)) :
    replayRecord i r line a = { a with
      run := if r.position = 1 then [(r, line)] else if joinsRun a.run r then a.run ++ [(r, line)] else [] } := by
  obtain ⟨keyed, grouped⟩ := member
  have inGroup : r.grouped = true := by rw [← Bool.not_eq_false, plain_iff]; exact grouped
  unfold replayRecord
  rcases keyed with kind | kind <;> rw [kind] <;> exact if_pos inGroup

theorem joinsRun_append {rest : List (StoredRecord × Nat)} {q : StoredRecord} {ln : Nat} :
    joinsRun (rest ++ [(q, ln)]) r = true ↔ q.position + 1 = r.position ∧ q.count = r.count ∧ q.reference = r.reference := by
  simp [joinsRun, and_assoc]

/-- A run is applied member by member (R150). -/
theorem applyRun_eq_foldl (i : Nat) : ∀ (run : List (StoredRecord × Nat)) (d : List DirEntry),
    applyRun i run d = run.foldl (fun d x => if x.1.kind = .value then
      insertKeyed DirEntry.key ⟨x.1.key, x.1.seq, x.1.length, i, 8 * x.2, true⟩ d
      else if x.1.kind = .tombstone then d.filter fun e => e.key != x.1.key else d) d
  | [], _ => rfl
  | (r, line) :: rest, d => by
    rw [applyRun, applyRun_eq_foldl i rest, List.foldl_cons]
    congr 1
    unfold applyStored
    cases r.kind <;> simp [removeKeyed]

theorem commitApplies_iff {run : List (StoredRecord × Nat)} :
    commitApplies run r = true ↔ run.length = r.count ∧ ∀ x ∈ run, x.1.reference = r.reference := by
  simp [commitApplies]

/-- Settles O7: a record by its bytes, its effect by its kind and group, and a sector read record by record. -/
theorem replayFollowsTable72 : Obligations.ReplayFollowsTable72 := by
  refine ⟨fun m i line => ⟨readRecord_finished, fun inside written bad => ?damaged, fun k listed inside code possible good => ?record⟩,
    fun i line r a => ⟨fun kind plain => ?value, fun kind plain => ?tombstone, fun kind => ?wipe, fun member first => ?first,
      fun member later rest q ln run => ?later, fun member later run => ?orphan, fun kind => ?commit, rfl⟩,
    fun m i n line a => ⟨fun r read => ?read, fun read => ?stopped, fun read => ?finished⟩⟩
  case damaged =>
    exact readRecord_damaged (b := fun off => readByte m (2048 * i + 40 + 8 * line + off)) (fun _ => rfl) inside written bad
  case record =>
    have kind : k.2 = k.1.code := by fin_cases listed <;> rfl
    exact readRecord_record (b := fun off => readByte m (2048 * i + 40 + 8 * line + off)) (fun _ => rfl) inside (code.trans kind)
      possible good
  case value =>
    unfold replayRecord applyStored
    rw [kind]
    exact if_neg (by rw [plain_iff.mpr plain]; decide)
  case tombstone =>
    unfold replayRecord applyStored
    rw [kind]
    exact if_neg (by rw [plain_iff.mpr plain]; decide)
  case wipe =>
    unfold replayRecord
    rw [kind]
  case first => rw [replayRecord_member member, if_pos first]
  case later =>
    rw [replayRecord_member member, if_neg later, run]
    exact congrArg (fun x => { a with run := x }) (if_congr joinsRun_append rfl rfl)
  case orphan =>
    rw [replayRecord_member member, if_neg later, run]
    rfl
  case commit =>
    unfold replayRecord
    rw [kind]
    dsimp only
    rw [applyRun_eq_foldl]
    exact congrArg (fun x => { a with directory := x, run := [] }) (if_congr (commitApplies_iff (r := r) (run := a.run)) rfl rfl)
  case read => rw [replaySector, read]; rfl
  case stopped => rw [replaySector, read]
  case finished => rw [replaySector, read]

end

end Sys2Proof.Machine
end

