-- ==== Sys2Proof/Proofs/RecordsAndHeadersReadBack.lean ====
section
/-! PROOF. What is programmed is what mount reads (R149, R174, R177): byte order, the layout of records and of sector headers, and
their reading back from erased bytes. -/

namespace Sys2Proof.Machine

/-! ### Byte order -/

@[simp] theorem length_beBytes : ∀ n v, (beBytes n v).length = n
  | 0, _ => rfl
  | n + 1, v => by rw [beBytes, List.length_cons, length_beBytes n v]

theorem beNat_beBytes : ∀ n v, beNat (beBytes n v) = v % 256 ^ n
  | 0, v => by rw [beBytes, beNat_nil, pow_zero, Nat.mod_one]
  | n + 1, v => by
    rw [beBytes, beNat_cons, beNat_beBytes n v, length_beBytes, BitVec.toNat_ofNat, Nat.mod_pow_succ (x := v) (b := 256) (k := n),
      Nat.add_comm, Nat.mul_comm]

theorem keyOfBytes_beBytes {k : Key} {hi lo : Byte} (bytes : [hi, lo] = beBytes 2 k.toNat) : keyOfBytes hi lo = k := by
  rw [keyOfBytes, bytes, beNat_beBytes, Nat.mod_eq_of_lt (show k.toNat < 256 ^ 2 from k.isLt), BitVec.ofNat_toNat, BitVec.setWidth_eq]

/-! ### Bytes programmed over erased ones -/

section
variable {m : List Host.Cell} {a : Nat} {bs : List Byte}

theorem readByte_programmed (wf : Memory.wf m = true) (erased : ∀ b, a ≤ b → b < a + bs.length → readByte m b = 0xFF) {k : Nat}
    (inside : k < bs.length) : readByte (programBytes m a bs) (a + k) = bs.getD k 0xFF := by
  rw [read_programBytes bs _ _ wf, if_pos ⟨Nat.le_add_right a k, Nat.add_lt_add_left inside a⟩,
    erased _ (Nat.le_add_right a k) (Nat.add_lt_add_left inside a), Nat.add_sub_cancel_left]
  exact BitVec.allOnes_and

theorem readBytes_programmed (wf : Memory.wf m = true) (erased : ∀ b, a ≤ b → b < a + bs.length → readByte m b = 0xFF) {k n : Nat}
    (inside : k + n ≤ bs.length) : readBytes (programBytes m a bs) (a + k) n = (bs.drop k).take n := by
  rw [readBytes_eq_map]
  refine List.ext_getElem (by simp; omega) fun j left right => ?_
  have short : j < n := by simpa using left
  have at' : k + j < bs.length := by omega
  rw [List.getElem_map, List.getElem_range, List.getElem_take, List.getElem_drop, Nat.add_assoc, readByte_programmed wf erased at',
    List.getD_eq_getElem _ _ at']

end

/-! ### The layout of a record (TABLE 85) -/

section
variable (r : RecordSpec) (first q : SeqNo)

theorem length_headerFields : (r.headerFields first q).length = 14 := rfl

theorem length_padValue (value : List Byte) : (padValue value).length = 8 * ((value.length + 7) / 8) := by
  rw [padValue, List.length_append, List.length_replicate]
  omega

theorem length_recordBytes : (r.bytes first q).length = 8 * r.lines := by
  rw [RecordSpec.bytes, List.length_append, List.length_append, length_headerFields, length_beBytes, length_padValue, RecordSpec.lines,
    linesForLength]
  omega

/-- The fields before the check, and the check. -/
theorem take_recordBytes : (r.bytes first q).take 14 = r.headerFields first q := rfl

theorem check_recordBytes : ((r.bytes first q).drop 14).take 2 =
    beBytes 2 (crc16 (r.headerFields first q ++ r.value)).toNat := rfl

/-- The value follows the header's two lines, and 0xFF the value (R59). -/
theorem drop_recordBytes :
    (r.bytes first q).drop 16 = r.value ++ List.replicate (8 * ((r.value.length + 7) / 8) - r.value.length) erasedByte := rfl

theorem value_recordBytes : ((r.bytes first q).drop 16).take r.value.length = r.value := by
  rw [drop_recordBytes, List.take_left]

theorem padding_recordBytes {k : Nat} (past : 16 + r.value.length ≤ k) : (r.bytes first q).getD k 0xFF = 0xFF := by
  have shift : (r.bytes first q).getD k 0xFF = ((r.bytes first q).drop 16).getD (k - 16) 0xFF := by
    rw [List.getD_eq_getElem?_getD, List.getD_eq_getElem?_getD, List.getElem?_drop]
    congr 2
    omega
  rw [shift, drop_recordBytes, List.getD_append_right _ _ _ _ (by omega), List.getD_eq_getElem?_getD, List.getElem?_replicate]
  split <;> rfl

theorem groupByte_toNat (position : r.position < 16) (count : r.count < 16) :
    r.groupByte.toNat / 16 = r.position ∧ r.groupByte.toNat % 16 = r.count := by
  rw [RecordSpec.groupByte, BitVec.toNat_ofNat]
  omega

theorem groupReference_lt : r.groupReference first < 256 ^ 2 := by
  unfold RecordSpec.groupReference
  split
  · decide
  · exact Nat.mod_lt _ (by decide)

/-- The record that mount is to read (TABLE 85). -/
def RecordSpec.stored (r : RecordSpec) (first q : SeqNo) : StoredRecord :=
  ⟨r.kind, r.copied, r.key, r.value.length, r.position, r.count, r.groupReference first, q⟩

/-- The kinds and groups of records that the engine places (R14 to R17, R59, R110, R122, R156). -/
def RecordSpec.placeable (r : RecordSpec) : Prop :=
  r.value.length ≤ 240 ∧
    (r.kind = .value ∧ keyValid r.key = true ∨ r.kind = .tombstone ∧ keyValid r.key = true ∧ r.value = [] ∨
      r.kind = .commit ∧ r.key = 0 ∧ r.value = [] ∨ r.kind = .wipe ∧ r.key = 0 ∧ r.value = []) ∧
    (r.position = 0 ∧ r.count = 0 ∧ r.kind ≠ .commit ∧ (r.copied = true → r.kind = .value) ∨
      1 ≤ r.position ∧ r.position ≤ r.count ∧ r.count ≤ 6 ∧ r.copied = false ∧ (r.kind = .value ∨ r.kind = .tombstone) ∨
      r.position = 0 ∧ 1 ≤ r.count ∧ r.count ≤ 6 ∧ r.copied = false ∧ r.kind = .commit)

end

section
variable {r : RecordSpec} {first q : SeqNo} {line : Nat}

theorem placeable_small (placeable : r.placeable) : r.position < 16 ∧ r.count < 16 := by
  obtain ⟨-, -, plain | member | commit⟩ := placeable <;> omega

theorem stored_possible (placeable : r.placeable) (fits : line + r.lines ≤ 251) : (r.stored first q).possible line = true := by
  obtain ⟨short, kinds, groups⟩ := placeable
  have kindPossible : (r.stored first q).kindPossible = true := by
    unfold StoredRecord.kindPossible RecordSpec.stored StoredRecord.grouped
    rcases kinds with ⟨kind, valid⟩ | ⟨kind, valid, empty⟩ | ⟨kind, zero, empty⟩ | ⟨kind, zero, empty⟩ <;>
      rcases groups with ⟨position, count, other, copied⟩ | ⟨low, high, count, copied, member⟩ | ⟨position, low, high, copied, commit⟩ <;>
      simp_all
  unfold StoredRecord.possible
  rw [kindPossible, Bool.and_true, Bool.and_eq_true, decide_eq_true_iff, decide_eq_true_iff]
  exact ⟨short, fits⟩

end

/-- A header of a known kind, possible and with its check good, is read as it stands. -/
theorem readRecord_header {m : List Host.Cell} {i line : Nat} {h : StoredRecord} (inside : line < 251)
    (code : readByte m (2048 * i + 40 + 8 * line) = h.kind.code) (header : headerAt m i line h.kind = h)
    (possible : h.possible line = true) (good : checkGood m i line h.length = true) : readRecord m i line = .record h := by
  have written : readByte m (2048 * i + 40 + 8 * line) ≠ 0xFF := by rw [code]; cases h.kind <;> decide
  rw [readRecord_written (b := fun off => readByte m (2048 * i + 40 + 8 * line + off)) (fun _ => rfl) inside written]
  rw [show readByte m (2048 * i + 40 + 8 * line + 0) = _ from code, kindOfCode_eq_some.mpr rfl, Option.elim_some, header, possible, good]
  rfl

section
variable {m : List Host.Cell} {i line : Nat} {r : RecordSpec} {first q : SeqNo}

/-- A record programmed over erased bytes is read back (R149, R177). -/
theorem readRecord_programmed (wf : Memory.wf m = true)
    (erased : ∀ b, 2048 * i + 40 + 8 * line ≤ b → b < 2048 * i + 40 + 8 * line + 8 * r.lines → readByte m b = 0xFF)
    (fits : line + r.lines ≤ 251) (placeable : r.placeable) :
    readRecord (programBytes m (2048 * i + 40 + 8 * line) (r.bytes first q)) i line = .record (r.stored first q) := by
  have length := length_recordBytes r first q
  have two : 16 + r.value.length ≤ 8 * r.lines ∧ 2 ≤ r.lines := by rw [RecordSpec.lines, linesForLength]; omega
  have read {k n : Nat} (within : k + n ≤ 8 * r.lines) :=
    readBytes_programmed (k := k) (n := n) wf (length.symm ▸ erased) (length.symm ▸ within)
  have byte {k : Nat} (within : k < 8 * r.lines) :=
    readByte_programmed (k := k) wf (length.symm ▸ erased) (length.symm ▸ within)
  generalize after : programBytes m (2048 * i + 40 + 8 * line) (r.bytes first q) = m' at read byte
  obtain ⟨position, count⟩ := placeable_small placeable
  obtain ⟨position, count⟩ := groupByte_toNat r position count
  have code : readByte m' (2048 * i + 40 + 8 * line) = r.kind.code := byte (k := 0) (by omega)
  have copied : readByte m' (2048 * i + 40 + 8 * line + 1) = if r.copied then 0x01 else 0x00 := byte (k := 1) (by omega)
  have key : readBytes m' (2048 * i + 40 + 8 * line + 2) 2 = beBytes 2 r.key.toNat := read (k := 2) (n := 2) (by omega)
  have valueLength : readByte m' (2048 * i + 40 + 8 * line + 4) = BitVec.ofNat 8 r.value.length := byte (k := 4) (by omega)
  have group : readByte m' (2048 * i + 40 + 8 * line + 5) = r.groupByte := byte (k := 5) (by omega)
  have reference : readBytes m' (2048 * i + 40 + 8 * line + 6) 2 = beBytes 2 (r.groupReference first) :=
    read (k := 6) (n := 2) (by omega)
  have sequence : readBytes m' (2048 * i + 40 + 8 * line + 8) 6 = beBytes 6 q.toNat := read (k := 8) (n := 6) (by omega)
  have fields : readBytes m' (2048 * i + 40 + 8 * line) 14 = r.headerFields first q := read (k := 0) (n := 14) (by omega)
  have value : readBytes m' (2048 * i + 40 + 8 * line + 16) r.value.length = r.value :=
    (read (k := 16) (n := r.value.length) (by omega)).trans (value_recordBytes r first q)
  have check : readBytes m' (2048 * i + 40 + 8 * line + 14) 2 = beBytes 2 (crc16 (r.headerFields first q ++ r.value)).toNat :=
    read (k := 14) (n := 2) (by omega)
  have header : headerAt m' i line r.kind = r.stored first q := by
    rw [headerAt_eq m' i line r.kind (b := fun off => readByte m' (2048 * i + 40 + 8 * line + off)) fun _ => rfl]
    refine StoredRecord.mk.injEq .. ▸ ⟨rfl, ?_, keyOfBytes_beBytes key, ?_, ?_, ?_, ?_, ?_⟩
    · rw [copied]; cases r.copied <;> rfl
    · rw [valueLength, BitVec.toNat_ofNat, Nat.mod_eq_of_lt (Nat.lt_of_le_of_lt placeable.1 (by decide))]
    · rw [group]; exact position
    · rw [group]; exact count
    · refine (congrArg beNat reference).trans ((beNat_beBytes ..).trans (Nat.mod_eq_of_lt (groupReference_lt ..)))
    · refine congrArg (BitVec.ofNat 48) ((congrArg beNat sequence).trans (beNat_beBytes ..)) |>.trans ?_
      rw [Nat.mod_eq_of_lt (show q.toNat < 256 ^ 6 from q.isLt), BitVec.ofNat_toNat, BitVec.setWidth_eq]
  refine readRecord_header (by omega) code header (stored_possible placeable fits) ?_
  have crc : (crc16 (r.headerFields first q ++ r.value)).toNat < 256 ^ 2 := (crc16 (r.headerFields first q ++ r.value)).isLt
  have good : (crc16 (readBytes m' (2048 * i + 40 + 8 * line) 14 ++
      readBytes m' (2048 * i + 40 + 8 * line + 16) r.value.length)).toNat =
        beNat (readBytes m' (2048 * i + 40 + 8 * line + 14) 2) := by
    rw [fields, value, check, beNat_beBytes, Nat.mod_eq_of_lt crc]
  exact decide_eq_true good

/-- The value programmed reads back, padded with 0xFF, and no flag is set but COPIED (R59, R177). -/
theorem value_programmed (wf : Memory.wf m = true)
    (erased : ∀ b, 2048 * i + 40 + 8 * line ≤ b → b < 2048 * i + 40 + 8 * line + 8 * r.lines → readByte m b = 0xFF) :
    readBytes (programBytes m (2048 * i + 40 + 8 * line) (r.bytes first q)) (2048 * i + 40 + 8 * line + 16) r.value.length = r.value ∧
      (∀ b, 2048 * i + 40 + 8 * line + 16 + r.value.length ≤ b → b < 2048 * i + 40 + 8 * line + 8 * r.lines →
        readByte (programBytes m (2048 * i + 40 + 8 * line) (r.bytes first q)) b = 0xFF) ∧
      readByte (programBytes m (2048 * i + 40 + 8 * line) (r.bytes first q)) (2048 * i + 40 + 8 * line + 1) =
        if r.copied = true then 0x01 else 0x00 := by
  have length := length_recordBytes r first q
  have two : 16 + r.value.length ≤ 8 * r.lines := by rw [RecordSpec.lines, linesForLength]; omega
  refine ⟨?_, fun b low high => ?_, readByte_programmed (k := 1) wf (length.symm ▸ erased) (by omega)⟩
  · exact (readBytes_programmed (k := 16) wf (length.symm ▸ erased) (by omega)).trans (value_recordBytes r first q)
  · obtain ⟨k, rfl⟩ := Nat.exists_eq_add_of_le (show 2048 * i + 40 + 8 * line ≤ b by omega)
    rw [readByte_programmed wf (length.symm ▸ erased) (by omega)]
    exact padding_recordBytes r first q (by omega)

/-- Header lines 0 and 1 programmed over erased bytes are valid, and give their fields back (R2, R146, TABLE 86). -/
theorem header_programmed {count : Nat} {gen : Generation} {mark : SeqNo} (wf : Memory.wf m = true)
    (erased : ∀ b, 2048 * i ≤ b → b < 2048 * i + 16 → readByte m b = 0xFF) (small : count < 65536) (real : gen ≠ 0) :
    headerValid (programBytes m (2048 * i) (headerBytes count gen mark)) i = true ∧
      beNat (readBytes (programBytes m (2048 * i) (headerBytes count gen mark)) (2048 * i + 2) 2) = count ∧
      beNat (readBytes (programBytes m (2048 * i) (headerBytes count gen mark)) (2048 * i + 4) 4) = gen.toNat ∧
      beNat (readBytes (programBytes m (2048 * i) (headerBytes count gen mark)) (2048 * i + 8) 6) = mark.toNat := by
  have read {k n : Nat} (within : k + n ≤ 16) := readBytes_programmed (bs := headerBytes count gen mark) (k := k) (n := n) wf erased within
  generalize programBytes m (2048 * i) (headerBytes count gen mark) = m' at read
  have identifier : readBytes m' (2048 * i) 2 = beBytes 2 formatIdentifier := read (k := 0) (n := 2) (by decide)
  have erases : readBytes m' (2048 * i + 2) 2 = beBytes 2 count := read (k := 2) (n := 2) (by decide)
  have generation : readBytes m' (2048 * i + 4) 4 = beBytes 4 gen.toNat := read (k := 4) (n := 4) (by decide)
  have sequence : readBytes m' (2048 * i + 8) 6 = beBytes 6 mark.toNat := read (k := 8) (n := 6) (by decide)
  have fields : readBytes m' (2048 * i) 14 = headerFields count gen mark := read (k := 0) (n := 14) (by decide)
  have check : readBytes m' (2048 * i + 14) 2 = beBytes 2 (crc16 (headerFields count gen mark)).toNat :=
    read (k := 14) (n := 2) (by decide)
  have genNat : beNat (readBytes m' (2048 * i + 4) 4) = gen.toNat := by
    rw [generation, beNat_beBytes, Nat.mod_eq_of_lt (show gen.toNat < 256 ^ 4 from gen.isLt)]
  refine ⟨headerValid_iff.mpr ⟨?_, ?_, ?_⟩, ?_, genNat, ?_⟩
  · rw [identifier, beNat_beBytes]; rfl
  · rw [genNat]; exact fun zero => real (BitVec.eq_of_toNat_eq zero)
  · rw [fields, check, beNat_beBytes,
      Nat.mod_eq_of_lt (show (crc16 (headerFields count gen mark)).toNat < 256 ^ 2 from (crc16 (headerFields count gen mark)).isLt)]
  · rw [erases, beNat_beBytes, Nat.mod_eq_of_lt (show count < 256 ^ 2 from small)]
  · rw [sequence, beNat_beBytes, Nat.mod_eq_of_lt (show mark.toNat < 256 ^ 6 from mark.isLt)]

end

/-- Settles O48: by the layout of a record and of a sector header, byte by byte. -/
theorem recordsAndHeadersReadBack : Obligations.RecordsAndHeadersReadBack := by
  refine ⟨⟨crc16_nil, fun bytes b => ?_⟩, fun m i wf => ⟨fun line r first q erased fits short kinds groups => ?_,
    fun count gen mark erased small real => header_programmed wf erased small real⟩⟩
  · have shift : crc16Bit = fun c : BitVec 16 => if c.msb = true then c <<< 1 ^^^ 0x1021 else c <<< 1 := funext crc16Bit_msb
    rw [crc16_snoc, shift]
    rfl
  · exact ⟨readRecord_programmed wf erased fits ⟨short, kinds, groups⟩, value_programmed wf erased⟩

end Sys2Proof.Machine
end

