-- ==== Sys2Proof/Proofs/FramesAct.lean ====
section
/-! PROOF. Frames at the point where they act (R163 to R166, R168): each leaves its port the status, the bytes put out and its result,
and SUBMIT, FETCH and PORT_RESET the queues besides. -/

namespace Sys2Proof.Machine

section
variable {s : State} {p : Port} {u v : PortUnit} {n : Nat} {result : FrameResult}

/-- A frame acts at its second moment (R163). -/
theorem frame_acts {t : State} (p : Port) (act : State → Port → State) (running : s.inReset = false) (done : act s p = t) :
    atMoment ⟨p, .acts⟩ act s = .next t := (atMoment_acts p running).trans (congrArg _ done)

theorem setPort_setPort : (s.setPort p u).setPort p v = s.setPort p v := by
  rw [State.setPort, State.setPort, State.setPort, set_set]

theorem port_setPort : (s.setPort p u).port p = u := port_of_set rfl

/-- What a frame leaves in its port (R163). -/
theorem endFrame_eq (status out : List Byte) :
    u.endFrame status out result = { u with selected := false, latch := status, sdo := out, lastResult := result } := rfl

/-- A frame that only outputs its status (R163, R175). -/
theorem plainFrame_eq (s : State) (p : Port) (n : Nat) (result : FrameResult) :
    s.plainFrame p n result = s.setPort p { s.port p with
      selected := false
      latch := s.frameStatus p
      sdo := (s.frameStatus p ++ List.replicate n 0x00).take n
      lastResult := result } := by
  rw [State.plainFrame, endFrame_eq, frameOutput, List.append_nil]

/-! ### SUBMIT -/

theorem submitFrame_refused {input : List Byte} {part : Bool} (fails : s.submitResult p input part = result) (refused : result ≠ .ok) :
    s.submitFrame p input part = s.plainFrame p (input.length + 1) result := by
  rw [State.submitFrame, if_neg (by rw [fails]; exact refused), fails]

/-- An admitted request joins the tail (R164). -/
theorem submitFrame_admitted {input : List Byte} {part : Bool} (passes : s.submitResult p input part = .ok) :
    s.submitFrame p input part = s.setPort p { s.port p with
      selected := false
      latch := s.frameStatus p
      sdo := (s.frameStatus p ++ List.replicate (input.length + 1) 0x00).take (input.length + 1)
      lastResult := .ok
      queue := (s.port p).queue ++ [submitRequest input] } := by
  rw [State.submitFrame, if_pos passes, plainFrame_eq, port_setPort, setPort_setPort]
  rfl

theorem submitLength_short {input : List Byte} {part : Bool} (short : input.length < 3) : submitLength input part = false := by
  rw [submitLength, decide_eq_false (by omega), Bool.false_and, Bool.false_and]

theorem submitLength_eq_false {tag code len : Byte} {rest : List Byte} {part : Bool} :
    submitLength (tag :: code :: len :: rest) part = false ↔ rest.length ≠ len.toNat + 1 ∨ part = true := by
  have whole : (tag :: code :: len :: rest).length + 1 = 5 + (byteAt (tag :: code :: len :: rest) 2).toNat ↔
      rest.length = len.toNat + 1 := by
    show rest.length + 3 + 1 = 5 + len.toNat ↔ _
    omega
  simp only [submitLength, Bool.and_eq_false_iff, decide_eq_false_iff_not, whole, Bool.not_eq_false']
  simp

/-- The CRC-8 covers every byte before the last (R164). -/
theorem submitCrc_eq_false {tag code len : Byte} {rest : List Byte} (some : rest ≠ []) :
    submitCrc (tag :: code :: len :: rest) = false ↔
      crc8 (0x01 :: tag :: code :: len :: rest.dropLast) ≠ rest.getLast?.getD 0 := by
  cases rest with
  | nil => exact absurd rfl some
  | cons x xs => exact decide_eq_false_iff_not

theorem tagFree_eq_false {tag : Byte} : s.tagFree p tag = false ↔ tag = 0xFF ∨ tag ∈ s.tagsInUse p := by
  simp only [State.tagFree, Bool.and_eq_false_iff, decide_eq_false_iff_not, Bool.not_eq_false', List.contains_iff_mem, not_not]

/-- TABLE 79 on a frame that carries a tag, a code and a length. -/
theorem submitResult_eq (tag code len : Byte) (rest : List Byte) (part : Bool) :
    s.submitResult p (tag :: code :: len :: rest) part =
      if rest.length ≠ len.toNat + 1 ∨ part = true then .lengthError
      else if crc8 (0x01 :: tag :: code :: len :: rest.dropLast) ≠ rest.getLast?.getD 0 then .crcError
      else if (s.port p).state = .resetting then .resetting
      else if tag = 0xFF ∨ tag ∈ s.tagsInUse p then .badTag
      else if s.freeCredits p = 0 then .full
      else .ok := by
  unfold State.submitResult
  by_cases wrong : rest.length ≠ len.toNat + 1 ∨ part = true
  · rw [if_pos wrong, if_pos (submitLength_eq_false.mpr wrong)]
  · rw [if_neg wrong, if_neg (wrong ∘ submitLength_eq_false.mp)]
    have some : rest ≠ [] := by rintro rfl; exact wrong (.inl (by simp))
    exact if_congr (submitCrc_eq_false some) rfl (if_congr Iff.rfl rfl (if_congr tagFree_eq_false rfl rfl))

/-- Settles O13: a refused SUBMIT is a plain frame with its result, an admitted one joins the queue besides. -/
theorem submitTestsThenAdmits : Obligations.SubmitTestsThenAdmits := by
  refine ⟨fun s p input part running short => ?_, fun s p tag code len rest part running => ⟨_, (submitResult_eq ..), ?_⟩⟩
  · refine frame_acts p (fun t p => t.submitFrame p input part) running ?_
    have fails : s.submitResult p input part = .lengthError := if_pos (submitLength_short short)
    exact (submitFrame_refused fails (by decide)).trans (plainFrame_eq ..)
  · refine frame_acts p (fun t p => t.submitFrame p (tag :: code :: len :: rest) part) running ?_
    by_cases passes : s.submitResult p (tag :: code :: len :: rest) part = .ok
    · rw [submitFrame_admitted passes, passes, if_pos rfl]
      rfl
    · rw [submitFrame_refused rfl passes, plainFrame_eq, if_neg passes]
      rfl

/-! ### FETCH -/

/-- The acknowledgment removes the head reply (R165). -/
def PortUnit.removes (u : PortUnit) (ack : Byte) : Bool :=
  u.headSent && decide (u.replies.head?.map Reply.tag = some ack) && decide (u.state = .normal)

theorem acknowledges_eq (ack : Byte) :
    u.acknowledges ack = (u.headSent && decide (u.replies.head?.map Reply.tag = some ack)) := by
  unfold PortUnit.acknowledges
  cases u.replies with
  | nil => simp
  | cons r rest => simp [Bool.and_comm]

theorem acknowledge_eq (ack : Byte) : u.acknowledge ack = { u with
    replies := if u.removes ack = true then u.replies.tail else u.replies
    headSent := !u.removes ack && u.headSent } := by
  have test : u.acknowledges ack = true ∧ u.state = .normal ↔ u.removes ack = true := by
    simp only [PortUnit.removes, acknowledges_eq, Bool.and_eq_true, decide_eq_true_eq]
  unfold PortUnit.acknowledge
  by_cases removed : u.removes ack = true
  · rw [if_pos (test.mpr removed), if_pos removed, removed, Bool.not_true, Bool.false_and]
  · rw [if_neg (removed ∘ test.mp), if_neg removed, Bool.eq_false_iff.mpr removed, Bool.not_false, Bool.true_and]

/-- A FETCH past its acknowledgment byte (R165). -/
theorem fetchFrame_eq (s : State) (p : Port) (ack : Byte) (n : Nat) (result : FrameResult) :
    s.fetchFrame p ack n result = s.setPort p { s.port p with
      replies := if (s.port p).removes ack = true then (s.port p).replies.tail else (s.port p).replies
      headSent := (!(s.port p).removes ack && (s.port p).headSent) ||
        (!(if (s.port p).removes ack = true then (s.port p).replies.tail else (s.port p).replies).isEmpty &&
          decide ((s.port p).state = .normal) && decide (2 + ((s.port p).acknowledge ack).fetchBytes.length ≤ n))
      selected := false
      latch := s.frameStatus p
      sdo := (s.frameStatus p ++ ((s.port p).acknowledge ack).fetchBytes ++ List.replicate n 0x00).take n
      lastResult := result } := by
  rw [State.fetchFrame, acknowledge_eq]
  rfl

theorem fetchBytes_eq (ack : Byte) : (u.acknowledge ack).fetchBytes =
    { u with replies := if u.removes ack = true then u.replies.tail else u.replies : PortUnit }.fetchBytes := by
  rw [acknowledge_eq]
  rfl

/-- Settles O14: the acknowledgment by one test, the bytes by the head as it then stands. -/
theorem fetchAcknowledgesAndPutsOutHead : Obligations.FetchAcknowledgesAndPutsOutHead := by
  refine ⟨fun r => rfl, ⟨crc8_nil, fun bytes b => ?crc⟩, fun x listed => ?codes, fun s p ack rest running => ?fetch⟩
  case crc =>
    have shift : crc8Bit = fun c : Byte => if c.msb = true then c <<< 1 ^^^ 0x2F else c <<< 1 := funext crc8Bit_msb
    rw [crc8_snoc, shift]
    rfl
  case codes => fin_cases listed <;> rfl
  case fetch =>
    refine ⟨_, _, _, rfl, rfl, fetchBytes_eq ack, ?_, ?_⟩
    · exact frame_acts p (fun t p => t.fetchFrame p ack (rest.length + 2) .ok) running (fetchFrame_eq ..)
    · exact frame_acts p (fun t p => t.timeoutFrame p (0x02 :: ack :: rest)) running (fetchFrame_eq s p ack (rest.length + 2) .timeout)

/-! ### The other frames -/

theorem timeoutFrame_plain {kind : Byte} {input : List Byte} (early : kind ≠ 0x02 ∨ input = []) :
    s.timeoutFrame p (kind :: input) = s.plainFrame p (input.length + 1) .timeout := by
  cases input with
  | nil => rfl
  | cons ack rest => exact if_neg (early.resolve_right (by simp))

theorem portResetFrame_refused {input : List Byte} {part : Bool} (bad : ¬(input = [0xBC] ∧ part = false)) :
    s.portResetFrame p input part = s.plainFrame p (input.length + 1)
      (if input.length = 1 ∧ part = false then .crcError else .lengthError) := by
  have fails : portResetResult input part = if input.length = 1 ∧ part = false then .crcError else .lengthError := by
    unfold portResetResult
    by_cases whole : input.length = 1 ∧ part = false
    · obtain ⟨x, rfl⟩ := List.length_eq_one_iff.mp whole.1
      obtain ⟨-, rfl⟩ := whole
      have wrong : crc8 [0x04] ≠ x := fun same => bad ⟨by rw [← same]; decide, rfl⟩
      rw [if_pos (⟨rfl, rfl⟩ : [x].length = 1 ∧ false = false), if_neg (by simp)]
      exact if_neg wrong
    · rw [if_neg whole, if_pos]
      simpa using whole
  rw [State.portResetFrame, if_neg (by rw [fails]; split <;> decide), fails]

theorem portResetFrame_good : s.portResetFrame p [0xBC] false = s.setPort p ((s.port p).endFrame (s.frameStatus p)
    ((s.frameStatus p ++ List.replicate 2 0x00).take 2) .ok).portReset := by
  have passes : portResetResult [0xBC] false = .ok := by decide
  rw [State.portResetFrame, if_pos passes, plainFrame_eq, port_setPort, setPort_setPort]
  rfl

/-- Settles O15: each is a plain frame with its result, but for a good PORT_RESET in NORMAL. -/
theorem otherFramesAndPortReset : Obligations.OtherFramesAndPortReset := by
  refine ⟨fun s p kind input running => ⟨?peek, fun one two three four => ?unknown, ?short, ?fetch, fun early => ?timeout, ?empty⟩,
    fun s p running => ⟨fun normal => ?reset, fun resetting => ?again, fun input part bad => ?refused⟩⟩
  case peek => exact frame_acts p (fun t p => t.plainFrame p (input.length + 1) .ok) running (plainFrame_eq ..)
  case unknown =>
    refine frame_acts p (fun t p => if 1 ≤ kind.toNat ∧ kind.toNat ≤ 4 then t else t.plainFrame p (input.length + 1) .unknownKind) running ?_
    refine (if_neg fun within => ?_).trans (plainFrame_eq ..)
    rcases (show kind.toNat = 1 ∨ kind.toNat = 2 ∨ kind.toNat = 3 ∨ kind.toNat = 4 by omega) with h | h | h | h
    · exact one (BitVec.eq_of_toNat_eq h)
    · exact two (BitVec.eq_of_toNat_eq h)
    · exact three (BitVec.eq_of_toNat_eq h)
    · exact four (BitVec.eq_of_toNat_eq h)
  case short => exact frame_acts p (fun t p => t.plainFrame p 0 .lengthError) running (plainFrame_eq ..)
  case fetch => exact frame_acts p (fun t p => t.plainFrame p 1 .lengthError) running (plainFrame_eq ..)
  case timeout =>
    exact frame_acts p (fun t p => t.timeoutFrame p (kind :: input)) running ((timeoutFrame_plain early).trans (plainFrame_eq ..))
  case empty => exact frame_acts p (fun t p => t.timeoutFrame p []) running (plainFrame_eq ..)
  case reset =>
    refine frame_acts p (fun t p => t.portResetFrame p [0xBC] false) running (portResetFrame_good.trans (congrArg _ ?_))
    exact if_pos normal
  case again =>
    refine frame_acts p (fun t p => t.portResetFrame p [0xBC] false) running (portResetFrame_good.trans (congrArg _ ?_))
    exact if_neg (by rw [show ((s.port p).endFrame _ _ _).state = _ from resetting]; decide)
  case refused =>
    exact frame_acts p (fun t p => t.portResetFrame p input part) running ((portResetFrame_refused bad).trans (plainFrame_eq ..))

end

end Sys2Proof.Machine
end

