-- ==== Sys2Proof/Proofs/ArbiterAndReports.lean ====
section
/-! PROOF. The arbiter's choice (R47, R48), the two first checks of every request (R52), and STORE_STATUS (R133). -/

namespace Sys2Proof.Machine

section
variable {s : State} {p : Port}

/-! ### The arbiter -/

theorem noRequester_iff : s.noRequester = true ↔ ∀ p, s.requester p = false := by
  simp only [State.noRequester, Bool.and_eq_true, Bool.not_eq_true']
  exact ⟨fun ⟨⟨a, b⟩, c⟩ p => by cases p <;> assumption, fun none => ⟨⟨none _, none _⟩, none _⟩⟩

/-- R46. -/
theorem reclaimAllowed_iff : s.reclaimAllowed = true ↔ s.mode = .ready ∧ s.supply = .normal := by
  simp [State.reclaimAllowed]

/-- The first requester in the order from the pointer (R48, case 2). -/
theorem firstRequester_eq (requests : s.requester p = true)
    (first : p = s.pointer ∨ (p = Port.next s.pointer ∧ s.requester s.pointer = false) ∨
      (s.requester s.pointer = false ∧ s.requester (Port.next s.pointer) = false)) : s.firstRequester = some p := by
  unfold State.firstRequester
  rcases first with rfl | ⟨rfl, idle⟩ | ⟨idle, idle'⟩
  · rw [List.find?_cons_of_pos requests]
  · rw [List.find?_cons_of_neg (by simp [idle]), List.find?_cons_of_pos requests]
  · have last : p = Port.next (Port.next s.pointer) := by
      have ports : p = s.pointer ∨ p = Port.next s.pointer ∨ p = Port.next (Port.next s.pointer) := by
        cases p <;> cases s.pointer <;> decide
      rcases ports with rfl | rfl | rfl
      · rw [idle] at requests; cases requests
      · rw [idle'] at requests; cases requests
      · rfl
    rw [List.find?_cons_of_neg (by simp [idle]), List.find?_cons_of_neg (by simp [idle']), ← last, List.find?_cons_of_pos requests]

theorem firstRequester_none (silent : ∀ p, s.requester p = false) : s.firstRequester = none :=
  List.find?_eq_none.mpr fun p _ => by simp [silent p]

theorem exec_arbiterChoice (idle : s.work = .idle) (mounted : s.mode ≠ .mounting) (formatted : s.mode ≠ .formatting) :
    exec .arbiterChoice s = .next (s.grant s.choice) := by
  show execArbiterChoice s = _
  unfold execArbiterChoice
  rw [idle]
  exact if_neg (not_or.mpr ⟨mounted, formatted⟩)

theorem choice_urgent (urgent : (s.mode = .ready ∧ s.supply = .normal) ∧ s.demand = .urgent ∧
    (s.lastGrant = .port ∨ ∀ p, s.requester p = false)) : s.choice = .reclaim := by
  obtain ⟨eligible, demand, turn⟩ := urgent
  exact if_pos ⟨reclaimAllowed_iff.mpr eligible, demand, turn.imp_right noRequester_iff.mpr⟩

theorem choice_not_urgent (other : ¬((s.mode = .ready ∧ s.supply = .normal) ∧ s.demand = .urgent ∧
    (s.lastGrant = .port ∨ ∀ p, s.requester p = false))) : s.choice = s.firstRequester.elim
      (if s.reclaimAllowed = true ∧ s.demand = .background then .reclaim else .none) .port := by
  rw [reclaimAllowed_iff.symm, noRequester_iff.symm] at other
  unfold State.choice
  rw [if_neg other]
  cases s.firstRequester <;> rfl

/-- Settles O17: the three cases of R48 in their order, and what each grant sets. -/
theorem arbiterChoiceByCases : Obligations.ArbiterChoiceByCases := by
  refine ⟨⟨rfl, rfl, rfl⟩, fun s busy => ?busy, fun s idle mounted formatted => ⟨fun urgent => ?urgent, fun other =>
    ⟨fun p requests first => ⟨fun pending => ?teardown, fun r rest calm queue => ?request⟩, fun silent => ?silent⟩⟩⟩
  case busy =>
    show execArbiterChoice s = _
    unfold execArbiterChoice
    split
    · next idle => exact if_pos (busy.resolve_left (not_not.mpr idle))
    · rfl
  case urgent => rw [exec_arbiterChoice idle mounted formatted, choice_urgent urgent]; rfl
  case teardown =>
    rw [exec_arbiterChoice idle mounted formatted, choice_not_urgent other, firstRequester_eq requests first]
    exact congrArg _ (if_pos pending)
  case request =>
    rw [exec_arbiterChoice idle mounted formatted, choice_not_urgent other, firstRequester_eq requests first]
    refine congrArg _ ((if_neg calm).trans ?_)
    rw [queue]
  case silent =>
    rw [exec_arbiterChoice idle mounted formatted, choice_not_urgent other, firstRequester_none silent, Option.elim_none,
      if_congr (and_congr_left' reclaimAllowed_iff) rfl rfl]
    split <;> rfl

/-! ### Steps 1 and 2 of a request -/

section
variable {α : Type} {r : Request} {parsed : Option α} {later : α → List (Option Rejection)} {act : α → State → State}

theorem settle_noSession (shut : (s.session p).isOpen = false) :
    s.settle p r (judge (checkSession s p) parsed later) act = s.answer p r.tag .noSession [] := by
  rw [checkSession, shut, failUnless_false, judge_first, settle_error]

theorem settle_malformed (opened : (s.session p).isOpen = true) (unparsed : parsed = none) :
    s.settle p r (judge (checkSession s p) parsed later) act = s.answer p r.tag .malformed [] := by
  rw [checkSession, opened, failUnless_true, unparsed, judge_malformed, settle_error]

theorem parseEmpty_none {body : List Byte} (nonempty : body ≠ []) : parseEmpty body = none := by
  cases body with
  | nil => exact absurd rfl nonempty
  | cons => rfl

theorem exec_unknownRequestCode (inHand : s.work = .request p r) (unknown : r.code = 0x00 ∨ 0x14 < r.code.toNat) :
    exec .unknownRequestCode s = .next (unknownCodeRequest p r s) := by
  have other : knownCode r.code ≠ true := by
    simp only [knownCode, ne_eq, Bool.and_eq_true, decide_eq_true_eq, not_and, not_le]
    rcases unknown with zero | high
    · rw [zero]; decide
    · exact fun _ => high
  show execUnknownRequestCode s = _
  unfold execUnknownRequestCode
  rw [inHand]
  exact if_neg other

end

/-- Settles O19: steps 1 and 2 of the common check order, which each of these requests makes first. -/
theorem noSessionAndMalformed : Obligations.NoSessionAndMalformed := by
  refine ⟨fun s p r inHand shut notOpen notStatus c listed code unknown => ?shut,
    fun s p r inHand opened => ⟨fun c listed code nonempty => ?body, fun unknown => ?code⟩⟩
  case shut =>
    fin_cases listed
    on_goal 19 =>
      exact (exec_unknownRequestCode inHand (unknown rfl)).trans (congrArg _ (settle_noSession shut))
    all_goals exact (serve_granted inHand code.symm).trans (congrArg _ (settle_noSession shut))
  case body =>
    have unparsed := parseEmpty_none nonempty
    fin_cases listed <;> exact (serve_granted inHand code).trans (congrArg _ (settle_malformed opened unparsed))
  case code => exact (exec_unknownRequestCode inHand unknown).trans (congrArg _ (settle_malformed opened rfl))

/-! ### STORE_STATUS -/

/-- Choosing one of two again and again chooses one of the list, before all others in the order. -/
theorem foldl_choice {f : Nat → Nat → Nat} {before : Nat → Nat → Prop} (chooses : ∀ a b, f a b = a ∨ f a b = b)
    (left : ∀ a b, before (f a b) a) (right : ∀ a b, before (f a b) b) (refl : ∀ a, before a a)
    (trans : ∀ a b c, before a b → before b c → before a c) : ∀ (l : List Nat) (c : Nat),
    l.foldl f c ∈ c :: l ∧ ∀ x ∈ c :: l, before (l.foldl f c) x
  | [], c => ⟨List.mem_singleton.mpr rfl, fun x hx => List.mem_singleton.mp hx ▸ refl c⟩
  | y :: l, c => by
    obtain ⟨listed, first⟩ := foldl_choice chooses left right refl trans l (f c y)
    rw [List.foldl_cons]
    refine ⟨?_, fun x hx => ?_⟩
    · rcases List.mem_cons.mp listed with chosen | later
      · rw [chosen]
        rcases chooses c y with h | h <;> rw [h] <;> simp
      · simp [later]
    · have head := first _ List.mem_cons_self
      rcases List.mem_cons.mp hx with rfl | hx
      · exact trans _ _ _ head (left _ _)
      · rcases List.mem_cons.mp hx with rfl | later
        · exact trans _ _ _ head (right _ _)
        · exact first x (List.mem_cons_of_mem _ later)

theorem foldl_min (l : List Nat) (c : Nat) : l.foldl min c ∈ c :: l ∧ ∀ x ∈ c :: l, l.foldl min c ≤ x :=
  foldl_choice (before := (· ≤ ·)) min_choice min_le_left min_le_right le_refl (fun _ _ _ => le_trans) l c

theorem foldl_max (l : List Nat) (c : Nat) : l.foldl max c ∈ c :: l ∧ ∀ x ∈ c :: l, x ≤ l.foldl max c :=
  foldl_choice (before := (· ≥ ·)) max_choice le_max_left le_max_right le_refl (fun _ _ _ => ge_trans) l c

theorem mem_usableEraseCounts {n : Nat} :
    n ∈ s.usableEraseCounts ↔ ∃ e ∈ s.sectors, e.state ≠ .retired ∧ e.eraseCount = n := by
  simp [State.usableEraseCounts, and_assoc]

/-- The erase counts of the usable sectors lie between the lowest and the highest, and both are among them (R133). -/
theorem eraseCounts_bounds {c : Nat} {cs : List Nat} (counts : s.usableEraseCounts = c :: cs) :
    (s.lowestEraseCount ∈ s.usableEraseCounts ∧ ∀ n ∈ s.usableEraseCounts, s.lowestEraseCount ≤ n) ∧
      s.highestEraseCount ∈ s.usableEraseCounts ∧ ∀ n ∈ s.usableEraseCounts, n ≤ s.highestEraseCount := by
  rw [State.lowestEraseCount, State.highestEraseCount, counts]
  exact ⟨foldl_min cs c, foldl_max cs c⟩

theorem headGeneration_eq : s.headGeneration = s.head?.elim 0 fun h => (s.sector h).generationNat := by
  unfold State.headGeneration
  cases s.head? <;> rfl

theorem supply_code (v : Supply) : v.code = if v = .guard then 1 else 0 := by cases v <;> rfl

theorem exec_storeStatus {r : Request} (granted : s.granted p r 0x12) (empty : r.body = []) :
    exec .storeStatus s = .next (s.drawIfNoneUsable.answer p r.tag .ok (statusBody s)) := by
  obtain ⟨inHand, coded⟩ := granted
  refine (serve_granted inHand coded).trans (congrArg _ ?_)
  rw [storeStatusRequest, storeStatusVerdict, empty, parseEmpty, judge_later, settle_end]
  rfl

/-- Settles O22: the body's fields by name, the two erase counts as a fold over the usable sectors'. -/
theorem storeStatusReports : Obligations.StoreStatusReports := by
  refine ⟨fun x listed => ?codes, fun s p r granted => ⟨fun nonempty => ?malformed, fun empty => ?served⟩⟩
  case codes => fin_cases listed <;> rfl
  case malformed =>
    obtain ⟨inHand, coded⟩ := granted
    refine (serve_granted inHand coded).trans (congrArg _ ?_)
    rw [storeStatusRequest, storeStatusVerdict, parseEmpty_none nonempty, judge_malformed, settle_error]
  case served =>
    refine ⟨s.lowestEraseCount, s.highestEraseCount, s.drawIfNoneUsable.draws, fun e he usable => ?_, fun ⟨e, he, usable⟩ => ?_, ?_⟩
    · have listed := mem_usableEraseCounts.mpr ⟨e, he, usable, rfl⟩
      cases counts : s.usableEraseCounts with
      | nil => rw [counts] at listed; cases listed
      | cons c cs =>
        obtain ⟨⟨-, low⟩, -, high⟩ := eraseCounts_bounds counts
        exact ⟨low _ listed, high _ listed⟩
    · have listed := mem_usableEraseCounts.mpr ⟨e, he, usable, rfl⟩
      cases counts : s.usableEraseCounts with
      | nil => rw [counts] at listed; cases listed
      | cons c cs =>
        obtain ⟨⟨low, -⟩, high, -⟩ := eraseCounts_bounds counts
        refine ⟨?_, mem_usableEraseCounts.mp low, mem_usableEraseCounts.mp high⟩
        rw [State.drawIfNoneUsable, counts]
        rfl
    · rw [exec_storeStatus granted empty, statusBody, headGeneration_eq, supply_code]
      rfl

end

end Sys2Proof.Machine
end

