-- ==== Sys2Proof/Proofs/BodiesAndCheckedQuantities.lean ====
section
/-! PROOF. The bodies of the writing requests (R57, R61, R104), and what the checks of the common order compare (R19, R22, R26, R28,
R32 to R36, R86). -/

namespace Sys2Proof.Machine

/-! ### The bodies -/

section
variable {hi lo o : Byte} {rest : List Byte}

/-- A change with its delete flag, from the bytes after the options (R57, R104). -/
def changeFrom (hi lo o : Byte) (rest : List Byte) (delete : Bool) : Option Change :=
  if o.getLsbD 0 = true then
    (if rest.length < 6 then none
     else some ⟨keyOfBytes hi lo, some (BitVec.ofNat 48 (beNat (rest.take 6))), delete, rest.drop 6⟩)
  else some ⟨keyOfBytes hi lo, none, delete, rest⟩

theorem parseChange_short {limit : Nat} {body : List Byte} (short : body.length < 3) : parseChange limit body = none := by
  match body, short with
  | [], _ | [_], _ | [_, _], _ => rfl
  | _ :: _ :: _ :: _, short => exact absurd short (by simp)

theorem parseChange_eq (limit : Nat) : parseChange limit (hi :: lo :: o :: rest) =
    if limit ≤ o.toNat then none else changeFrom hi lo o rest (o.getLsbD 1) := by
  rw [parseChange, changeFrom]
  by_cases defined : o.toNat < limit
  · rw [if_pos defined, if_neg (Nat.not_le.mpr defined)]
  · rw [if_neg defined, if_pos (Nat.not_lt.mp defined)]

theorem changeFrom_delete {delete : Bool} {c : Change} (from' : changeFrom hi lo o rest delete = some c) : c.delete = delete := by
  unfold changeFrom at from'
  split at from'
  · split at from'
    · cases from'
    · cases from'; rfl
  · cases from'; rfl

theorem changeFrom_key {delete : Bool} {c : Change} (from' : changeFrom hi lo o rest delete = some c) : c.key = keyOfBytes hi lo := by
  unfold changeFrom at from'
  split at from'
  · split at from'
    · cases from'
    · cases from'; rfl
  · cases from'; rfl

/-- Tests that agree on what stands there pass the same. -/
theorem filter_agrees {α : Type} {x : Option α} {f g : α → Bool} (agree : ∀ a, x = some a → f a = g a) : x.filter f = x.filter g := by
  cases x with
  | none => rfl
  | some a => rw [Option.filter, Option.filter, agree a rfl]

theorem parseWrite_eq (body : List Byte) :
    parseWrite body = (parseChange 2 body).filter fun c => systemValueValid c.key c.value := by
  unfold parseWrite
  cases parseChange 2 body <;> rfl

theorem parseDelete_eq (body : List Byte) : parseDelete body = (parseChange 2 body).filter fun c => c.value.isEmpty := by
  unfold parseDelete
  cases parseChange 2 body with
  | none => rfl
  | some c => exact if_congr List.isEmpty_iff.symm rfl rfl

theorem parseGroupPut_eq (body : List Byte) :
    parseGroupPut body = (parseChange 4 body).filter fun c => !(c.delete && !c.value.isEmpty) := by
  unfold parseGroupPut
  cases parseChange 4 body with
  | none => rfl
  | some c => cases refused : c.delete && !c.value.isEmpty <;> simp [refused, Option.filter]

/-- A filter over a body read as `parseChange` reads it. -/
theorem filter_parseChange (limit : Nat) (q : Change → Bool) : ((parseChange limit (hi :: lo :: o :: rest)).filter q) =
    if limit ≤ o.toNat then none else (changeFrom hi lo o rest (o.getLsbD 1)).filter q := by
  rw [parseChange_eq]
  split <;> rfl

theorem bit_one_clear (small : ¬2 ≤ o.toNat) : o.getLsbD 1 = false := by
  rw [BitVec.getLsbD, Nat.testBit_eq_decide_div_mod_eq]
  simp only [pow_one, decide_eq_false_iff_not]
  omega

/-- Settles O23: the three bodies are read alike, and each then takes its own test. -/
theorem changeBodiesParse : Obligations.ChangeBodiesParse := by
  refine fun hi lo o rest => ⟨fun body short => ⟨?_, ?_, ?_⟩, ?write, ?delete, ?groupPut⟩
  · rw [parseWrite_eq, parseChange_short short]; rfl
  · rw [parseDelete_eq, parseChange_short short]; rfl
  · rw [parseGroupPut_eq, parseChange_short short]; rfl
  case write =>
    rw [parseWrite_eq, filter_parseChange]
    split
    · rfl
    · next small =>
      rw [bit_one_clear small]
      exact filter_agrees fun c from' => by rw [changeFrom_key from']
  case delete =>
    rw [parseDelete_eq, filter_parseChange]
    split
    · rfl
    · next small => rw [bit_one_clear small]; rfl
  case groupPut =>
    rw [parseGroupPut_eq, filter_parseChange]
    refine if_congr Iff.rfl rfl (filter_agrees fun c from' => ?_)
    rw [changeFrom_delete from']

end

/-! ### What the checks compare -/

section
variable {s : State} {p q : Port} {k : Key} {v : List Byte}

theorem userKey_iff : userKey k = true ↔ 0x0001 ≤ k.toNat ∧ k.toNat ≤ 0x0EFF := by simp [userKey]

theorem systemKey_iff : systemKey k = true ↔ k = 0x0F01 ∨ k = 0x0F02 ∨ k = 0x0F03 := by
  have first : k = 0x0F01 ↔ k.toNat = 0x0F01 := BitVec.toNat_eq
  have second : k = 0x0F02 ↔ k.toNat = 0x0F02 := BitVec.toNat_eq
  have third : k = 0x0F03 ↔ k.toNat = 0x0F03 := BitVec.toNat_eq
  rw [systemKey, Bool.and_eq_true, decide_eq_true_iff, decide_eq_true_iff, first, second, third]
  omega

theorem versionMatches_absent (absent : s.entry k = none) (v : SeqNo) : s.versionMatches k (some v) = true ↔ v = 0 := by
  simp [State.versionMatches, absent]

theorem versionMatches_present {e : DirEntry} (present : s.entry k = some e) (v : SeqNo) :
    s.versionMatches k (some v) = true ↔ v ≠ 0 ∧ e.version = v := by
  simp [State.versionMatches, present]

theorem version_eq (s : State) (k : Key) : s.version k = (s.entry k).elim 0 fun e => e.version := by
  unfold State.version
  cases s.entry k <;> rfl

/-- TABLE 87: the rights value. -/
theorem parseRights_eq_some_iff {r : PerPort Rights} : parseRights v = some r ↔ ∃ a b c : Byte, v = [a, b, c] ∧
    a.toNat < 16 ∧ b.toNat < 16 ∧ c.toNat < 16 ∧ r = ⟨Rights.ofByte a, Rights.ofByte b, Rights.ofByte c⟩ := by
  match v with
  | [] | [_] | [_, _] | _ :: _ :: _ :: _ :: _ => simp [parseRights]
  | [a, b, c] =>
    rw [parseRights]
    simp only [rightsByteValid, Bool.and_eq_true, decide_eq_true_iff, and_assoc]
    constructor
    · intro parsed
      split at parsed
      · next small => exact ⟨a, b, c, rfl, small.1, small.2.1, small.2.2, (Option.some.inj parsed).symm⟩
      · cases parsed
    · rintro ⟨a', b', c', same, ha, hb, hc, rfl⟩
      cases same
      exact if_pos ⟨ha, hb, hc⟩

theorem parseRights_some_iff : (∃ r, parseRights v = some r) ↔ v.length = 3 ∧ ∀ b ∈ v, b.toNat < 16 := by
  simp only [parseRights_eq_some_iff]
  constructor
  · rintro ⟨r, a, b, c, rfl, ha, hb, hc, -⟩
    exact ⟨rfl, by simp [ha, hb, hc]⟩
  · rintro ⟨three, small⟩
    obtain ⟨a, b, c, rfl⟩ := List.length_eq_three.mp three
    exact ⟨_, a, b, c, rfl, small a (by simp), small b (by simp), small c (by simp), rfl⟩

theorem parseFreezeLine_iff :
    parseFreezeLine v = some k ↔ v.length = 2 ∧ 0x0001 ≤ beNat v ∧ beNat v ≤ 0x0F00 ∧ k.toNat = beNat v := by
  match v with
  | [] | [_] | _ :: _ :: _ :: _ => simp [parseFreezeLine]
  | [a, b] =>
    have bytes : (keyOfBytes a b).toNat = beNat [a, b] := by
      rw [keyOfBytes_toNat]
      simp [beNat_cons]
    have named : keyOfBytes a b = k ↔ k.toNat = beNat [a, b] := by
      rw [← bytes, eq_comm, BitVec.toNat_eq]
    simp [parseFreezeLine, and_assoc, named]

theorem parsePeriod_iff {n : Nat} : parsePeriod v = some n ↔ v.length = 2 ∧ 1 ≤ beNat v ∧ beNat v ≤ 6000 ∧ n = beNat v := by
  match v with
  | [] | [_] | _ :: _ :: _ :: _ => simp [parsePeriod]
  | [a, b] => simp [parsePeriod, and_assoc, eq_comm]

theorem systemValueValid_freeze :
    systemValueValid 0x0F02 v = true ↔ v.length = 2 ∧ 0x0001 ≤ beNat v ∧ beNat v ≤ 0x0F00 := by
  have test : systemValueValid 0x0F02 v = (parseFreezeLine v).isSome := by
    rw [systemValueValid, if_neg (by decide), if_pos (by decide)]
  rw [test, Option.isSome_iff_exists]
  simp only [parseFreezeLine_iff]
  refine ⟨fun ⟨k, two, low, high, _⟩ => ⟨two, low, high⟩, fun ⟨two, low, high⟩ => ⟨BitVec.ofNat 16 (beNat v), two, low, high, ?_⟩⟩
  rw [BitVec.toNat_ofNat, Nat.mod_eq_of_lt (by omega)]

theorem systemValueValid_period :
    systemValueValid 0x0F03 v = true ↔ v.length = 2 ∧ 1 ≤ beNat v ∧ beNat v ≤ 6000 := by
  have test : systemValueValid 0x0F03 v = (parsePeriod v).isSome := by
    rw [systemValueValid, if_neg (by decide), if_neg (by decide), if_pos (by decide)]
  rw [test, Option.isSome_iff_exists]
  simp only [parsePeriod_iff]
  exact ⟨fun ⟨n, two, low, high, _⟩ => ⟨two, low, high⟩, fun ⟨two, low, high⟩ => ⟨_, two, low, high, rfl⟩⟩

theorem systemValueValid_rights : systemValueValid 0x0F01 v = true ↔ v.length = 3 ∧ ∀ b ∈ v, b.toNat < 16 := by
  have test : systemValueValid 0x0F01 v = (parseRights v).isSome := if_pos (by decide)
  rw [test, Option.isSome_iff_exists, parseRights_some_iff]

theorem grantsAdmin_iff {r : PerPort Rights} : grantsAdmin r = true ↔ ∃ p, (r.get p).admin = true := by
  rw [grantsAdmin, Bool.or_eq_true, Bool.or_eq_true]
  constructor
  · rintro ((onA | onB) | onC)
    · exact ⟨.A, onA⟩
    · exact ⟨.B, onB⟩
    · exact ⟨.C, onC⟩
  · rintro ⟨_ | _ | _, granted⟩
    · exact .inl (.inl granted)
    · exact .inl (.inr granted)
    · exact .inr granted

/-- R86. -/
theorem heldByOther_iff : s.heldByOther p k = some q ↔ q ≠ p ∧ ∃ e, s.leaseOf k = some e ∧ e.holder = q := by
  unfold State.heldByOther
  cases s.leaseOf k with
  | none => simp
  | some e =>
    by_cases own : e.holder = p
    · simp only [if_pos own]
      refine ⟨fun h => (by cases h), fun ⟨other, x, same, holds⟩ => ?_⟩
      cases same
      exact absurd (holds.symm.trans own) other
    · simp only [if_neg own, Option.some.injEq]
      refine ⟨fun holds => ⟨fun same => own (holds.trans same), e, rfl, holds⟩, fun ⟨_, x, same, holds⟩ => ?_⟩
      cases same
      exact holds

theorem entrySize_eq (s : State) (k : Key) : s.entrySize k = (s.entry k).elim 0 fun e => 16 + 8 * ((e.length + 7) / 8) := by
  unfold State.entrySize
  cases s.entry k <;> rfl

/-- Only a writing member adds a record (R19). -/
theorem groupAddedBytes_eq (ms : List Member) :
    groupAddedBytes ms = ((ms.filter fun m => !m.delete).map fun m => 16 + 8 * ((m.value.length + 7) / 8)).sum := by
  unfold groupAddedBytes
  induction ms with
  | nil => rfl
  | cons m ms ih =>
    rw [List.map_cons, List.sum_cons, ih]
    cases delete : m.delete <;> simp [delete, sizeForLength]

theorem countChange_iff (s : State) (m : Member) : Member.countChange s m =
    if m.delete = false ∧ s.entry m.key = none then 1 else if m.delete = true ∧ s.entry m.key ≠ none then -1 else 0 := by
  unfold Member.countChange
  cases m.delete <;> cases s.entry m.key <;> simp

/-- Settles O24: each quantity by the lemma that says what it compares. -/
theorem checkedQuantities : Obligations.CheckedQuantities := by
  refine ⟨fun k => ⟨userKey_iff, systemKey_iff, by simp [keyValid]⟩,
    fun s k => ⟨rfl, fun absent v => versionMatches_absent absent v, fun e present v => versionMatches_present present v, version_eq s k,
      frozen_iff⟩,
    fun k v => ⟨fun rights freeze period => ?other, systemValueValid_rights, systemValueValid_freeze, systemValueValid_period⟩,
    fun v => ⟨parseRights_some_iff, fun k => parseFreezeLine_iff, fun n => parsePeriod_iff, rfl, fun b => beNat_cons b v⟩,
    fun b => rfl, fun a b c r parsed => ?rights, fun r => grantsAdmin_iff, fun s p q k => heldByOther_iff,
    fun s => ⟨fun c => ?write, fun ms => ?group, countChange_iff s⟩⟩
  case other =>
    rw [systemValueValid]
    exact (if_neg rights).trans ((if_neg freeze).trans (if_neg period))
  case rights =>
    obtain ⟨a', b', c', bytes, -, -, -, rfl⟩ := parseRights_eq_some_iff.mp parsed
    cases bytes
    intro x listed
    fin_cases listed <;> rfl
  case write => rw [State.liveAfterWrite, entrySize_eq]; rfl
  case group =>
    rw [liveAfterGroup, groupAddedBytes_eq, groupReplacedBytes]
    simp only [entrySize_eq]

end

end Sys2Proof.Machine
end

