-- ==== Sys2Proof/Proofs/ClaimsWatchesAndCompact.lean ====
section
/-! PROOF. CLAIM, WATCH, UNWATCH and COMPACT (05_claims.md R75 to R78; 06_watches_and_change_notices.md R92, R93;
08_space_and_wear.md R131): the body of each request, the steps it takes, and what the request that passes them does. -/

namespace Sys2Proof.Machine

variable {s : State} {p : Port} {r : Request} {k : Key}

/-! ### CLAIM -/

/-- R75: a period or a wait above 6,000 is a field value that step 2 forbids. -/
theorem parseClaim_tooLong {hi lo p1 p0 w1 w0 : Byte} (tooLong : 6000 < beNat [p1, p0] ∨ 6000 < beNat [w1, w0]) :
    parseClaim [hi, lo, p1, p0, w1, w0] = none :=
  if_neg (by omega)

theorem parseClaim_fits {hi lo p1 p0 w1 w0 : Byte} (inRange : ¬(6000 < beNat [p1, p0] ∨ 6000 < beNat [w1, w0])) :
    parseClaim [hi, lo, p1, p0, w1, w0] = some ⟨keyOfBytes hi lo, beNat [p1, p0], beNat [w1, w0]⟩ :=
  if_pos (by omega)

/-- Steps 1 and 2 of CLAIM, before what the later steps come to. -/
theorem settle_claimBody {later : ClaimBody → List (Option Rejection)} {act : ClaimBody → State → State}
    {reply : Byte → Byte → Byte → Byte → Byte → Byte → State}
    (served : ∀ hi lo p1 p0 w1 w0, s.settle p r (verdictOf ⟨keyOfBytes hi lo, beNat [p1, p0], beNat [w1, w0]⟩
      (later ⟨keyOfBytes hi lo, beNat [p1, p0], beNat [w1, w0]⟩)) act = reply hi lo p1 p0 w1 w0) :
    s.settle p r (judge (checkSession s p) (parseClaim r.body) later) act
      = if (s.session p).isOpen = false then s.answer p r.tag .noSession []
        else match r.body with
          | [hi, lo, p1, p0, w1, w0] =>
            if 6000 < beNat [p1, p0] ∨ 6000 < beNat [w1, w0] then s.answer p r.tag .malformed []
            else reply hi lo p1 p0 w1 w0
          | _ => s.answer p r.tag .malformed [] := by
  rw [checkSession, settle_first, settle_parsed]
  congr 1
  match r.body with
  | [] | [_] | [_, _] | [_, _, _] | [_, _, _, _] | [_, _, _, _, _] => rfl
  | [hi, lo, p1, p0, w1, w0] =>
    by_cases long : 6000 < beNat [p1, p0] ∨ 6000 < beNat [w1, w0]
    · simp only [parseClaim_tooLong long, if_pos long]
    · simp only [parseClaim_fits long, if_neg long, served]
  | _ :: _ :: _ :: _ :: _ :: _ :: _ :: _ => rfl

/-- A CLAIM on a key that another port holds (R78). -/
theorem claimHeld_eq (tag : Byte) (e : Lease) (c : ClaimBody) : s.claimHeld p tag e c =
    if c.wait = 0 then s.answer p tag .held [Port.code e.holder]
    else if (s.session p).parked ≠ none then s.answer p tag .waitBusy []
    else if 4 ≤ s.claimCount p then s.answer p tag .limit []
    else s.parkClaim p tag e c := by
  have marked : (s.session p).parked.isSome = true ↔ (s.session p).parked ≠ none := Option.isSome_iff_ne_none
  exact if_congr Iff.rfl rfl (if_congr marked rfl rfl)

/-- TABLE 44, of a key with no lease, with the port's own and with another port's. -/
theorem claimAct_eq (c : ClaimBody) : claimAct p r c s = match s.leaseOf c.key with
    | none =>
      if 4 ≤ s.claimCount p then s.answer p r.tag .limit []
      else s.grantLease p r.tag c.key (s.periodUsed c.period)
    | some e =>
      if e.holder = p then
        (s.restartLease e (s.periodUsed c.period)).answer p r.tag .ok (claimBody 2 (s.periodUsed c.period))
      else if c.wait = 0 then s.answer p r.tag .held [Port.code e.holder]
      else if (s.session p).parked ≠ none then s.answer p r.tag .waitBusy []
      else if 4 ≤ s.claimCount p then s.answer p r.tag .limit []
      else s.parkClaim p r.tag e c := by
  unfold claimAct
  cases s.leaseOf c.key with
  | none => rfl
  | some e => exact if_congr Iff.rfl rfl (claimHeld_eq r.tag e c)

/-- Settles O31: the checks of CLAIM, then the rows of TABLE 44. -/
theorem claimOutcomesOfTable44 : Obligations.ClaimOutcomesOfTable44 := by
  intro s p r ⟨inHand, coded⟩
  refine (serve_granted inHand coded).trans (congrArg _ (settle_claimBody fun hi lo p1 p0 w1 w0 => ?_))
  refine (settle_mayClaim (claimAct_eq _)).trans ?_
  cases s.leaseOf (keyOfBytes hi lo) <;> rfl

/-! ### WATCH and UNWATCH -/

/-- A session put back where it was taken from changes nothing. -/
theorem setSession_own (s : State) (p : Port) : s.setSession p (s.session p) = s :=
  congrArg (fun ss => { s with sessions := ss }) (set_get s.sessions p)

/-- R92: a key that is in the list is OK whatever the list's length. -/
theorem watchAct_eq : watchAct p r k s =
    if k ∈ (s.session p).watch then s.answer p r.tag .ok (beBytes 6 ((s.entry k).elim 0 fun e => e.version.toNat))
    else if 16 ≤ (s.session p).watch.length then s.answer p r.tag .limit []
    else (s.setSession p { s.session p with watch := (s.session p).watch ++ [k] }).answer p r.tag .ok
      (beBytes 6 ((s.entry k).elim 0 fun e => e.version.toNat)) := by
  rw [watchAct, version_toNat, Session.addWatch, List.contains_eq_mem]
  by_cases listed : k ∈ (s.session p).watch
  · have marked : decide (k ∈ (s.session p).watch) = true := decide_eq_true listed
    rw [if_pos listed, marked, if_neg (fun full => Bool.noConfusion full.1), if_pos rfl]
    exact congrArg (fun t : State => t.answer p r.tag .ok _) (setSession_own s p)
  · have clear : decide (k ∈ (s.session p).watch) = false := decide_eq_false listed
    rw [if_neg listed, clear, if_neg Bool.false_ne_true]
    exact if_congr (and_iff_right rfl) rfl rfl

/-- R93: a key that is not in the list changes nothing. -/
theorem unwatchAct_eq : unwatchAct p r k s =
    if k ∈ (s.session p).watch then
      (s.setSession p { s.session p with
        watch := (s.session p).watch.filter fun y => y != k
        notices := clearChanged k (s.session p).notices }).answer p r.tag .ok [1]
    else s.answer p r.tag .ok [0] := by
  rw [unwatchAct, Session.dropWatch, List.contains_eq_mem]
  by_cases listed : k ∈ (s.session p).watch
  · rw [if_pos listed, if_pos (by simp [listed])]
    simp [listed, flagBit]
  · have kept : ((s.session p).watch.filter fun y => y != k) = (s.session p).watch :=
      List.filter_eq_self.mpr fun y hy => bne_iff_ne.mpr fun same => listed (same ▸ hy)
    rw [if_neg listed, if_neg (by simp [listed]), kept]
    have clear : decide (k ∈ (s.session p).watch) = false := decide_eq_false listed
    rw [clear]
    exact congrArg (fun t : State => t.answer p r.tag .ok [0]) (setSession_own s p)

/-- The first notice of the key is the one that an UNWATCH meets (R93). -/
theorem clearChanged_append {before : List Notice} (absent : ∀ m ∈ before, m.key ≠ k) (after : List Notice) :
    clearChanged k (before ++ after) = before ++ clearChanged k after := by
  induction before with
  | nil => rfl
  | cons m rest ih =>
    obtain ⟨other, others⟩ := List.forall_mem_cons.mp absent
    rw [List.cons_append, clearChanged, if_neg other, ih others, List.cons_append]

/-- Settles O34: the checks of the two requests, then the list with the key in it or out of it. -/
theorem watchAndUnwatchChangeList : Obligations.WatchAndUnwatchChangeList := by
  refine ⟨fun s p r ⟨inHand, coded⟩ => ?watch, fun s p r ⟨inHand, coded⟩ => ?unwatch,
    fun k before after n absent => ⟨?absent, fun keyed => ?met⟩⟩
  case watch =>
    refine (serve_granted inHand coded).trans (congrArg _ (settle_keyBody fun hi lo => ?_))
    rw [settle_mayRead, settle_validKey, watchAct_eq]
  case unwatch =>
    refine (serve_granted inHand coded).trans (congrArg _ (settle_keyBody fun hi lo => ?_))
    rw [checkNotBlank, settle_step, settle_validKey, unwatchAct_eq]
    exact if_congr (by simp) rfl rfl
  case absent => simpa [clearChanged] using clearChanged_append absent []
  case met =>
    rw [clearChanged_append absent, clearChanged, if_pos keyed, List.append_assoc]
    cases n.lapsed <;> rfl

/-! ### COMPACT -/

theorem parseCompact_eq {usable : Nat} {hi lo : Byte} : parseCompact usable [hi, lo] =
    if beNat [hi, lo] < 1 ∨ usable - 3 < beNat [hi, lo] then none else some (beNat [hi, lo]) := by
  rw [parseCompact]
  by_cases outside : beNat [hi, lo] < 1 ∨ usable - 3 < beNat [hi, lo]
  · rw [if_pos outside, if_neg (by omega)]
  · rw [if_neg outside, if_pos (by omega)]

theorem compactAct_eq (n : Nat) : compactAct p r n s =
    if n ≤ s.freeCount then
      ({ s with reclaim := { s.reclaim with target := none, limit := none } }).answer p r.tag .ok
        [0, BitVec.ofNat 8 s.freeCount]
    else
      ({ s with reclaim := { s.reclaim with target := some n, limit := some s.nextGen } }).answer p r.tag .ok
        [BitVec.ofNat 8 n, BitVec.ofNat 8 s.freeCount] := by
  rw [compactAct, State.setCompact, State.targetStanding]
  split <;> rfl

/-- Settles O39: steps 1 to 4 with ADMIN, then the target set or cleared. -/
theorem compactSetsTarget : Obligations.CompactSetsTarget := by
  intro s p r ⟨inHand, coded⟩
  refine (serve_granted inHand coded).trans (congrArg _ ?_)
  rw [compactRequest, compactVerdict, checkSession, settle_first, settle_parsed]
  congr 1
  match r.body with
  | [] | [_] => rfl
  | [hi, lo] =>
    have later : s.settle p r (verdictOf (beNat [hi, lo]) [checkNotBlank s, checkRight s p Rights.admin]) (compactAct p r) =
        if s.mode = .blank then s.answer p r.tag .blank []
        else if (s.session p).rights.admin = false then s.answer p r.tag .denied []
        else compactAct p r (beNat [hi, lo]) s := by
      simp only [checkNotBlank, checkRight, settle_step, settle_end, decide_eq_false_iff_not, not_not]
    rw [compactAct_eq] at later
    by_cases outside : beNat [hi, lo] < 1 ∨ s.usable - 3 < beNat [hi, lo]
    · simp only [parseCompact_eq, if_pos outside]
    · simp only [parseCompact_eq, if_neg outside, later]
  | _ :: _ :: _ :: _ => rfl

end Sys2Proof.Machine
end

