-- ==== Sys2Proof/Proofs/WritingSteps.lean ====
section
/-! PROOF. WRITE, DELETE and GROUP_COMMIT (04_reading_writing_and_deleting.md R57 to R62; 07_group_commit.md R107 to R110): one
rule for each step that the three take, and the records of a group. -/

namespace Sys2Proof.Machine

/-! ### The steps (R52, TABLE 30, TABLE 35) -/

section
variable {α : Type} {s : State} {p : Port} {r : Request} {act : α → State → State} {a : α} {k : Key}
  {t : List (Option Rejection)}

/-- R33: a system key asks for ADMIN too, and the rights key for a value that leaves some port with it. -/
theorem settle_checkSystemWrite (c : Change) :
    s.settle p r (verdictOf a (checkSystemWrite s p c :: t)) act
      = if systemKey c.key = true ∧ ((s.session p).rights.admin = false ∨
            (c.key = 0x0F01 ∧ ¬∃ v, parseRights c.value = some v ∧ grantsAdmin v = true)) then
          s.answer p r.tag .denied []
        else s.settle p r (verdictOf a t) act := by
  have granted : ((parseRights c.value).map grantsAdmin).getD false = true ↔
      ∃ v, parseRights c.value = some v ∧ grantsAdmin v = true := by
    cases parseRights c.value <;> simp
  rw [checkSystemWrite, settle_step]
  have other : decide (c.key ≠ rightsKey) = false ↔ c.key = 0x0F01 := by rw [decide_eq_false_iff_not, not_not]; rfl
  refine if_congr ?_ rfl rfl
  rw [← granted, ← other]
  cases systemKey c.key <;> cases (s.session p).rights.admin <;> simp

theorem settle_checkKey :
    s.settle p r (verdictOf a (checkKey k :: t)) act
      = if keyValid k = false then s.answer p r.tag .badKey [] else s.settle p r (verdictOf a t) act := by
  rw [checkKey, settle_step]

theorem settle_checkNotReadOnly :
    s.settle p r (verdictOf a (checkNotReadOnly s :: t)) act
      = if s.mode = .readOnly then s.answer p r.tag .readOnly [] else s.settle p r (verdictOf a t) act := by
  simp only [checkNotReadOnly, settle_step, decide_eq_false_iff_not, not_not]

/-- R35. -/
theorem settle_checkFreezeRise (c : Change) :
    s.settle p r (verdictOf a (checkFreezeRise s c :: t)) act
      = if c.key = 0x0F02 ∧ s.freezeLine.toNat < beNat c.value then s.answer p r.tag .frozen []
        else s.settle p r (verdictOf a t) act := by
  rw [checkFreezeRise, settle_step]
  have other : decide (c.key ≠ freezeKey) = false ↔ c.key = 0x0F02 := by rw [decide_eq_false_iff_not, not_not]; rfl
  refine if_congr ?_ rfl rfl
  rw [Bool.or_eq_false_iff, other, decide_eq_false_iff_not, not_le]

theorem settle_checkLease :
    s.settle p r (verdictOf a (checkLease s p k :: t)) act
      = match s.heldByOther p k with
        | some q => s.answer p r.tag .held [Port.code q]
        | none => s.settle p r (verdictOf a t) act := by
  rw [checkLease, settle_optional]
  cases s.heldByOther p k <;> rfl

theorem settle_checkVersion (expected : Option SeqNo) :
    s.settle p r (verdictOf a (checkVersion s k expected :: t)) act
      = if s.versionMatches k expected = false then s.answer p r.tag .stale (beBytes 6 (s.version k).toNat)
        else s.settle p r (verdictOf a t) act := by
  rw [checkVersion, settle_step]

theorem settle_checkExists :
    s.settle p r (verdictOf a (checkExists s k :: t)) act
      = if s.entry k = none then s.answer p r.tag .notFound [] else s.settle p r (verdictOf a t) act := by
  rw [checkExists, settle_step]
  exact if_congr (by simp) rfl rfl

theorem settle_checkRoom :
    s.settle p r (verdictOf a (checkRoom s k :: t)) act
      = if s.entry k = none ∧ 1024 ≤ s.directory.length then s.answer p r.tag .noRoom []
        else s.settle p r (verdictOf a t) act := by
  rw [checkRoom, settle_step]
  exact if_congr (by simp) rfl rfl

theorem settle_checkBudget (after : Nat) :
    s.settle p r (verdictOf a (checkBudget s after :: t)) act
      = if s.liveBudget < after ∧ s.storeLive < after then s.answer p r.tag .noSpace []
        else s.settle p r (verdictOf a t) act := by
  rw [checkBudget, settle_step]
  exact if_congr (by simp) rfl rfl

theorem settle_checkReserve (lines : Nat) :
    s.settle p r (verdictOf a (checkReserve s lines :: t)) act
      = if s.fitsHead lines = false ∧ s.freeCount < 3 then s.answer p r.tag .retry []
        else s.settle p r (verdictOf a t) act := by
  rw [checkReserve, settle_step]
  exact if_congr (by simp) rfl rfl

theorem settle_checkSupply :
    s.settle p r (verdictOf a (checkSupply s :: t)) act
      = if s.supply = .guard then s.answer p r.tag .hold [] else s.settle p r (verdictOf a t) act := by
  rw [checkSupply, settle_step]
  exact if_congr (by cases s.supply <;> decide) rfl rfl

end

/-! ### WRITE and DELETE -/

/-- Settles O26: each check by its rule, in the order of TABLE 30. -/
theorem writeAndDeleteTakeTheirSteps : Obligations.WriteAndDeleteTakeTheirSteps := by
  refine ⟨fun s p r ⟨inHand, coded⟩ => ?write, fun s p r ⟨inHand, coded⟩ => ?delete⟩
  case write =>
    refine (serve_granted inHand coded).trans (congrArg _ ?_)
    rw [writeRequest, writeVerdict, checkSession, settle_first, settle_parsed]
    refine if_congr Iff.rfl rfl ?_
    cases parseWrite r.body with
    | none => rfl
    | some c =>
      dsimp only
      rw [settle_mayWrite, settle_checkSystemWrite, settle_checkKey, settle_checkNotReadOnly, settle_checkFrozen,
        settle_checkFreezeRise, settle_checkLease, settle_checkVersion, settle_checkRoom, settle_checkLength,
        settle_checkBudget, settle_checkReserve, settle_checkSupply, settle_end]
      rfl
  case delete =>
    refine (serve_granted inHand coded).trans (congrArg _ ?_)
    rw [deleteRequest, deleteVerdict, checkSession, settle_first, settle_parsed]
    refine if_congr Iff.rfl rfl ?_
    cases parseDelete r.body with
    | none => rfl
    | some c =>
      dsimp only
      rw [settle_mayWriteUserKey, settle_checkKey, settle_checkNotReadOnly, settle_checkFrozen, settle_checkLease,
        settle_checkVersion, settle_checkExists, settle_checkReserve, settle_checkSupply, settle_end]
      rfl

/-! ### A step made over the members (R107) -/

section
variable {s : State} {p : Port} {r : Request} {ms : List Member} {t : List (Option Rejection)}

/-- The first member that fails gives the refusal, with its position before the body. -/
theorem overMembers_eq {test : Member → Option Rejection} {fails : Member → Bool} {st : Status}
    {body : Option Member → List Byte} (tests : ∀ m, test m = if fails m = true then some (st, body (some m)) else none)
    (ms : List Member) (pos : Nat) :
    overMembers test pos ms = (ms.findIdx? fails).map fun i => (st, BitVec.ofNat 8 (pos + i) :: body ms[i]?) := by
  induction ms generalizing pos with
  | nil => rfl
  | cons m ms ih =>
    rw [overMembers, List.findIdx?_cons, tests m]
    by_cases failed : fails m = true
    · simp only [if_pos failed]
      rfl
    · simp only [if_neg failed, ih (pos + 1), Option.map_map]
      refine congrArg (Option.map · _) (funext fun i => ?_)
      rw [Function.comp, List.getElem?_cons_succ, Nat.add_right_comm, Nat.add_assoc]

theorem settle_overMembers {act : Unit → State → State} {test : Member → Option Rejection} {fails : Member → Bool}
    {st : Status} {body : Option Member → List Byte}
    (tests : ∀ m, test m = if fails m = true then some (st, body (some m)) else none) :
    s.settle p r (verdictOf () (overMembers test 1 ms :: t)) act
      = match ms.findIdx? fails with
        | some i => s.answer p r.tag st (BitVec.ofNat 8 (i + 1) :: body ms[i]?)
        | none => s.settle p r (verdictOf () t) act := by
  rw [settle_optional, overMembers_eq tests]
  cases ms.findIdx? fails with
  | none => rfl
  | some i => simp only [Option.map_some, Nat.add_comm 1 i]

theorem checkFrozen_eq (m : Member) :
    checkFrozen s m.key = if s.frozen m.key = true then some (.frozen, []) else none := by
  rw [checkFrozen, failUnless]
  cases s.frozen m.key <;> rfl

theorem checkLease_eq (m : Member) : checkLease s p m.key = if (s.heldByOther p m.key).isSome = true then
    some (.held, [((some m).bind fun x => s.heldByOther p x.key).elim 0 Port.code]) else none := by
  rw [checkLease]
  cases held : s.heldByOther p m.key <;> simp [held]

theorem checkVersion_eq (m : Member) : checkVersion s m.key m.expected =
    if (!s.versionMatches m.key m.expected) = true then
      some (.stale, beBytes 6 ((some m).elim 0 fun x => (s.version x.key).toNat)) else none := by
  rw [checkVersion, failUnless]
  cases s.versionMatches m.key m.expected <;> rfl

theorem settle_checkGroupRoom {act : Unit → State → State} :
    s.settle p r (verdictOf () (checkGroupRoom s ms :: t)) act
      = if 1024 < (s.directory.length : Int) + (ms.map (Member.countChange s)).sum then s.answer p r.tag .noRoom []
        else s.settle p r (verdictOf () t) act := by
  rw [checkGroupRoom, settle_step]
  exact if_congr (by simp) rfl rfl

/-- Steps 6 to 14 over a group with members. -/
theorem settle_groupChecks {act : Unit → State → State} :
    s.settle p r (verdictOf () (groupChecks s p ms)) act
      = if s.mode = .readOnly then s.answer p r.tag .readOnly []
        else match ms.findIdx? fun m => s.frozen m.key with
        | some i => s.answer p r.tag .frozen [BitVec.ofNat 8 (i + 1)]
        | none => match ms.findIdx? fun m => (s.heldByOther p m.key).isSome with
          | some i => s.answer p r.tag .held
              [BitVec.ofNat 8 (i + 1), (ms[i]?.bind fun m => s.heldByOther p m.key).elim 0 Port.code]
          | none => match ms.findIdx? fun m => !s.versionMatches m.key m.expected with
            | some i => s.answer p r.tag .stale
                (BitVec.ofNat 8 (i + 1) :: beBytes 6 (ms[i]?.elim 0 fun m => (s.version m.key).toNat))
            | none =>
              if 1024 < (s.directory.length : Int) + (ms.map (Member.countChange s)).sum then
                s.answer p r.tag .noRoom []
              else if s.liveBudget < liveAfterGroup s ms ∧ s.storeLive < liveAfterGroup s ms then
                s.answer p r.tag .noSpace []
              else if s.fitsHead (totalLines (groupRecords ms)) = false ∧ s.freeCount < 3 then
                s.answer p r.tag .retry []
              else if s.supply = .guard then s.answer p r.tag .hold []
              else act () s := by
  rw [groupChecks, settle_checkNotReadOnly, settle_overMembers (body := fun _ => []) checkFrozen_eq,
    settle_overMembers (body := fun o => [(o.bind fun m => s.heldByOther p m.key).elim 0 Port.code]) checkLease_eq,
    settle_overMembers (body := fun o => beBytes 6 (o.elim 0 fun m => (s.version m.key).toNat)) checkVersion_eq,
    settle_checkGroupRoom, settle_checkBudget, settle_checkReserve, settle_checkSupply, settle_end]

end

/-! ### The records of a group (R110) -/

theorem memberRecords_length (count : Nat) (ms : List Member) : ∀ pos, (memberRecords count pos ms).length = ms.length := by
  induction ms with
  | nil => exact fun _ => rfl
  | cons m ms ih => exact fun pos => congrArg (· + 1) (ih (pos + 1))

theorem memberRecords_getElem (count : Nat) (ms : List Member) :
    ∀ pos j, (memberRecords count pos ms)[j]? = ms[j]?.map (memberRecord count (pos + j)) := by
  induction ms with
  | nil => exact fun _ _ => rfl
  | cons m ms ih =>
    intro pos j
    cases j with
    | zero => rfl
    | succ j => rw [memberRecords, List.getElem?_cons_succ, ih, List.getElem?_cons_succ, Nat.add_right_comm, Nat.add_assoc]

theorem groupRecords_commit (ms : List Member) :
    (groupRecords ms)[ms.length]? = some ⟨.commit, false, 0, [], 0, ms.length⟩ := by
  rw [groupRecords, List.getElem?_append_right (memberRecords_length _ _ _).le, memberRecords_length, Nat.sub_self]
  rfl

theorem groupRecords_member {ms : List Member} {j : Nat} {m : Member} (member : ms[j]? = some m) :
    (groupRecords ms)[j]? = some (memberRecord ms.length (j + 1) m) := by
  obtain ⟨inside, -⟩ := List.getElem?_eq_some_iff.mp member
  rw [groupRecords, List.getElem?_append_left (by rwa [memberRecords_length]), memberRecords_getElem, member,
    Nat.add_comm 1 j]
  rfl

/-- Settles O37: the records of a group by their places; GROUP_COMMIT's checks in their order, those of a group with no member
left out. -/
theorem groupCommitTakesItsSteps : Obligations.GroupCommitTakesItsSteps := by
  refine ⟨fun ms => ⟨?count, groupRecords_commit ms, fun j m member => groupRecords_member member⟩,
    fun s p r ⟨inHand, coded⟩ => ?commit⟩
  case count => rw [groupRecords, List.length_append, memberRecords_length]; rfl
  case commit =>
    refine (serve_granted inHand coded).trans (congrArg _ (settle_emptyBody ?_))
    dsimp only [List.cons_append, List.nil_append]
    rw [settle_mayWrite, settle_checkGroup]
    by_cases empty : (s.session p).members = []
    · rw [if_pos empty, if_pos empty, settle_end, groupCommitAct, if_pos empty]
      rfl
    · rw [if_neg empty, if_neg empty, settle_groupChecks, groupCommitAct, if_neg empty]
      rfl

end Sys2Proof.Machine
end

