-- ==== Sys2Proof/Proofs/PlacementLines.lean ====
section
/-! PROOF. Placing and programming records (01_storage_layout.md R11 to R16, R20, R21; 04_reading_writing_and_deleting.md R59 to
R65): the free sector chosen, where a placement begins, one rule for the end of each of its lines, and what follows a failure. -/

namespace Sys2Proof.Machine

/-! ### The free sector chosen (R12) -/

section
variable {s : State} {i j k b : Nat}

/-- The order of R12: the lower erase count, and of one count the lower index. -/
def State.lessUsed (s : State) (i j : Nat) : Prop :=
  (s.sector i).eraseCount < (s.sector j).eraseCount ∨ ((s.sector i).eraseCount = (s.sector j).eraseCount ∧ i ≤ j)

theorem State.lessUsed.trans (first : s.lessUsed i j) (second : s.lessUsed j k) : s.lessUsed i k := by
  unfold State.lessUsed at *
  omega

theorem State.lessUsed.antisymm (first : s.lessUsed i j) (second : s.lessUsed j i) : i = j := by
  unfold State.lessUsed at *
  omega

/-- Of sectors taken by ascending index the fold keeps the first in the order. -/
theorem foldl_lessWorn_first (js : List Nat) : ∀ b, js.Pairwise (· < ·) → (∀ j ∈ js, b < j) →
    ∀ j ∈ b :: js, s.lessUsed (js.foldl (lessWorn s) b) j := by
  induction js with
  | nil =>
    intro b _ _ j listed
    cases List.mem_singleton.mp listed
    exact .inr ⟨rfl, Nat.le_refl _⟩
  | cons x js ih =>
    intro b ascending above
    obtain ⟨aboveX, rest⟩ := List.pairwise_cons.mp ascending
    obtain ⟨belowX, belowRest⟩ := List.forall_mem_cons.mp above
    rw [List.foldl_cons, List.forall_mem_cons, List.forall_mem_cons]
    by_cases less : (s.sector x).eraseCount < (s.sector b).eraseCount
    · have better : lessWorn s b x = x := if_pos less
      rw [better]
      obtain ⟨toX, toRest⟩ := List.forall_mem_cons.mp (ih x rest aboveX)
      exact ⟨toX.trans (.inl less), toX, toRest⟩
    · have stands : lessWorn s b x = b := if_neg less
      rw [stands]
      obtain ⟨toB, toRest⟩ := List.forall_mem_cons.mp (ih b rest belowRest)
      refine ⟨toB, toB.trans ?_, toRest⟩
      unfold State.lessUsed
      omega

theorem freePool_ascending : s.freePool.Pairwise (· < ·) := List.pairwise_lt_range.filter _

theorem chooseFree_first (chosen : s.chooseFree = some i) : ∀ j ∈ s.freePool, s.lessUsed i j := by
  unfold State.chooseFree at chosen
  split at chosen
  · cases chosen
  · next b js pool =>
    cases chosen
    obtain ⟨above, rest⟩ := List.pairwise_cons.mp (pool ▸ freePool_ascending (s := s))
    rw [pool]
    exact foldl_lessWorn_first js b rest above

theorem chooseFree_isSome (free : 0 < s.freeCount) : ∃ i, s.chooseFree = some i := by
  unfold State.chooseFree
  split
  · next empty => exact absurd free (by simp [State.freeCount, empty])
  · exact ⟨_, rfl⟩

theorem chooseFree_eq (free : i ∈ s.freePool) (first : ∀ j ∈ s.freePool, s.lessUsed i j) : s.chooseFree = some i := by
  obtain ⟨j, chosen⟩ := chooseFree_isSome (List.length_pos_of_mem free)
  rw [chosen, (chooseFree_first chosen i free).antisymm (first j (chooseFree_mem chosen))]

end

/-! ### Where a placement begins (R12, R15, R16) -/

section
variable {s : State} {pl : Placement} {i h : Nat}

theorem fitsHead_of_head (head : s.head? = some h) (n : Nat) : s.fitsHead n = decide (n ≤ 251 - (s.sector h).fill) := by
  rw [State.fitsHead, head]

theorem startPlacement_fits (head : s.head? = some h) (fits : totalLines pl.records ≤ 251 - (s.sector h).fill) :
    s.startPlacement pl = s.enterBody pl h := by
  rw [State.startPlacement, head]
  exact if_pos (by rw [fitsHead_of_head head, decide_eq_true_eq]; exact fits)

theorem startPlacement_closes (head : s.head? = some h) (full : 251 - (s.sector h).fill < totalLines pl.records) :
    s.startPlacement pl = s.closeHead pl h := by
  rw [State.startPlacement, head]
  exact if_neg (by rw [fitsHead_of_head head, decide_eq_true_eq]; omega)

theorem startPlacement_headless (headless : s.head? = none) : s.startPlacement pl = s.tryOpen pl := by
  rw [State.startPlacement, headless]

/-- The first line of the first record (R14). -/
theorem firstLine_eq (pl : Placement) (q : SeqNo) :
    lineOf (pl.recordBytes q 0) 0 = (pl.records.head?.elim [] fun r => r.bytes q q).take 8 := by
  unfold Placement.recordBytes lineOf
  rw [← List.head?_eq_getElem?]
  cases pl.records.head? with
  | none => rfl
  | some r =>
    have same : q + BitVec.ofNat 48 0 = q := by simp
    dsimp only [Option.elim]
    rw [same, Nat.mul_zero, List.drop_zero]

/-- R59, R110. -/
theorem enterBody_eq : s.enterBody pl h = { s with
    nextSeq := if pl.firstSeq = none then s.nextSeq + BitVec.ofNat 48 pl.records.length else s.nextSeq
    work := .place { pl with firstSeq := some (pl.firstSeq.getD s.nextSeq), phase := .body h (s.sector h).fill 0 0 }
    controller := .programming h (5 + (s.sector h).fill)
      ((pl.records.head?.elim [] fun r => r.bytes (pl.firstSeq.getD s.nextSeq) (pl.firstSeq.getD s.nextSeq)).take 8) } := by
  unfold State.enterBody State.programRecordLine
  rw [← firstLine_eq]
  rfl

/-- R9, R12: line 0 of a header is its first 8 bytes. -/
theorem openSector_eq : s.openSector pl i = { s with
    sectors := s.sectors.set i { s.sector i with generation := some s.nextGen }
    nextGen := s.nextGen + 1
    work := .place { pl with phase := .line0 i }
    controller := .programming i 0 (beBytes 2 0x4A52 ++ beBytes 2 (s.sector i).eraseCount ++ beBytes 4 s.nextGen.toNat) } := rfl

theorem tryOpen_opens (free : s.chooseFree = some i) (enough : pl.threshold ≤ s.freeCount) :
    s.tryOpen pl = s.openSector pl i := by
  rw [State.tryOpen, free]
  exact if_pos enough

theorem tryOpen_loses (few : s.freeCount < pl.threshold) : s.tryOpen pl = s.loseThreshold pl := by
  unfold State.tryOpen
  split
  · exact if_neg (Nat.not_le.mpr few)
  · rfl

/-- The free sector that R12 names is the one opened. -/
theorem tryOpen_first (free : i ∈ s.freePool) (first : ∀ j ∈ s.freePool, s.lessUsed i j) (enough : pl.threshold ≤ s.freeCount) :
    s.tryOpen pl = s.openSector pl i :=
  tryOpen_opens (chooseFree_eq free first) enough

/-- With a free sector and the threshold met some sector is opened, the first in the order of R12. -/
theorem tryOpen_some (free : 0 < s.freeCount) (enough : pl.threshold ≤ s.freeCount) :
    ∃ i ∈ s.freePool, (∀ j ∈ s.freePool, s.lessUsed i j) ∧ s.tryOpen pl = s.openSector pl i := by
  obtain ⟨i, chosen⟩ := chooseFree_isSome free
  exact ⟨i, chooseFree_mem chosen, chooseFree_first chosen, tryOpen_opens chosen enough⟩

end

/-! ### The kinds of placement (R20, R21, TABLE 12) -/

section
variable {s : State} {pl : Placement} {p : Port} {tag : Byte} {line : Nat}

/-- The placement is of a WRITE, a DELETE or a commit, for this port and tag. -/
def Goal.appends (g : Goal) (p : Port) (tag : Byte) : Prop := g = .write p tag ∨ g = .delete p tag ∨ g = .commit p tag

theorem threshold_append (append : pl.goal.appends p tag) : pl.threshold = if pl.attempts = 0 then 3 else 2 := by
  unfold Placement.threshold
  rcases append with goal | goal | goal <;> rw [goal]

theorem threshold_copy (goal : pl.goal = .copy line) : pl.threshold = 2 := by rw [Placement.threshold, goal]

theorem threshold_wipe (goal : pl.goal = .wipe p tag) : pl.threshold = 1 := by rw [Placement.threshold, goal]

theorem format?_append (append : pl.goal.appends p tag) : pl.format? = none := by
  unfold Placement.format?
  rcases append with goal | goal | goal <;> rw [goal]

theorem format?_copy (goal : pl.goal = .copy line) : pl.format? = none := by rw [Placement.format?, goal]

theorem format?_wipe (goal : pl.goal = .wipe p tag) : pl.format? = some ⟨p, tag, .paused, pl.firstSeq, 0⟩ := by
  rw [Placement.format?, goal]

theorem endPlacement_append (append : pl.goal.appends p tag) (st : Status) : s.endPlacement pl st = s.answer p tag st [] := by
  unfold State.endPlacement
  rcases append with goal | goal | goal <;> rw [goal]

theorem endPlacement_copy (goal : pl.goal = .copy line) (st : Status) : s.endPlacement pl st = { s with work := .idle } := by
  rw [State.endPlacement, goal]

theorem endReadOnly_append (append : pl.goal.appends p tag) :
    s.endReadOnly pl = ({ s with mode := .readOnly }).answer p tag .readOnly [] :=
  endPlacement_append append .readOnly

theorem endReadOnly_copy (goal : pl.goal = .copy line) : s.endReadOnly pl = { s with mode := .readOnly, work := .idle } :=
  endPlacement_copy goal .readOnly

theorem loseThreshold_append (append : pl.goal.appends p tag) : s.loseThreshold pl =
    if pl.attempts = 0 then s.answer p tag .retry [] else ({ s with mode := .readOnly }).answer p tag .readOnly [] := by
  rw [State.loseThreshold, format?_append append]
  dsimp only
  rw [threshold_append append, endPlacement_append append, endReadOnly_append append]
  by_cases fresh : pl.attempts = 0
  · rw [if_pos fresh, if_pos fresh, if_pos rfl]
  · rw [if_neg fresh, if_neg fresh, if_neg (by decide)]

theorem loseThreshold_copy (goal : pl.goal = .copy line) : s.loseThreshold pl = { s with mode := .readOnly, work := .idle } := by
  rw [State.loseThreshold, format?_copy goal]
  dsimp only
  rw [threshold_copy goal, endReadOnly_copy goal]
  rfl

theorem loseThreshold_wipe (goal : pl.goal = .wipe p tag) :
    s.loseThreshold pl = s.wipeErase ⟨p, tag, .paused, pl.firstSeq, 0⟩ := by
  rw [State.loseThreshold, format?_wipe goal]

end

/-! ### The end of a line of a placement (R135) -/

section
variable {s : State} {pl : Placement} {i ln h base k l : Nat} {data : List Byte} {ok : Bool} {r : RecordSpec} {q : SeqNo}

/-- The flash after a line program, and the controller IDLE, before the engine takes the outcome. -/
theorem exec_placementLine (res : LineResult) (inHand : s.work = .place pl) (inFlight : s.controller = .programming i ln data) :
    exec (.lineProgramComplete res) s = .next ((s.lineProgrammed i ln (LineResult.bits data res)).placementLine pl
      (decide (readLine (programBytes s.flash (lineAddress i ln) (LineResult.bits data res)) i ln = data))) := by
  have taken : (s.lineProgrammed i ln (LineResult.bits data res)).work = .place pl := inHand
  rw [exec_lineProgramComplete res inFlight, State.lineEnded, taken]

/-- A line that reads back as asked, on good flash. -/
theorem exec_placementLine_verified (inHand : s.work = .place pl) (inFlight : s.controller = .programming i ln data)
    (verified : readLine (programBytes s.flash (lineAddress i ln) data) i ln = data) :
    exec (.lineProgramComplete .good) s = .next ((s.lineProgrammed i ln data).placementLine pl true) := by
  refine (exec_placementLine .good inHand inFlight).trans ?_
  rw [LineResult.bits, decide_eq_true verified]

theorem placementLine_closing (phase : pl.phase = .closing h) : s.placementLine pl ok = (s.markClosed h ok).tryOpen pl := by
  rw [State.placementLine, phase]

theorem placementLine_line0 (phase : pl.phase = .line0 i) : s.placementLine pl true = s.openSecondLine pl i := by
  rw [State.placementLine, phase]
  rfl

theorem placementLine_line1 (phase : pl.phase = .line1 i) : s.placementLine pl true = (s.becomeHead i).enterBody pl i := by
  rw [State.placementLine, phase]
  rfl

theorem placementLine_headerFailed (phase : pl.phase = .line0 i ∨ pl.phase = .line1 i) :
    s.placementLine pl false = s.retireHeader pl i := by
  unfold State.placementLine
  rcases phase with phase | phase <;> rw [phase] <;> rfl

theorem placementLine_retiring (phase : pl.phase = .retiring i) :
    s.placementLine pl ok = (s.retireSector i ok).afterHeaderFailure pl := by
  rw [State.placementLine, phase]

theorem placementLine_closingFailed (phase : pl.phase = .closingFailed h) :
    s.placementLine pl ok = (s.markClosed h ok).afterFailure pl := by
  rw [State.placementLine, phase]

theorem placementLine_bodyFailed (phase : pl.phase = .body h base k l) : s.placementLine pl false = s.recordFailed pl h := by
  rw [State.placementLine, phase]
  rfl

theorem linesAt_eq (member : pl.records[k]? = some r) : pl.linesAt k = r.lines := by
  rw [Placement.linesAt, member]

theorem placementLine_nextLine (phase : pl.phase = .body h base k l) (member : pl.records[k]? = some r) (more : l + 1 < r.lines) :
    s.placementLine pl true = s.programRecordLine pl h base k (l + 1) := by
  have yes : l + 1 < pl.linesAt k := by rwa [linesAt_eq member]
  rw [State.placementLine, phase]
  exact if_pos yes

theorem placementLine_lastLine (phase : pl.phase = .body h base k l) (member : pl.records[k]? = some r) (last : l + 1 = r.lines) :
    s.placementLine pl true = (s.raiseFill h r.lines).recordVerified pl h base k := by
  have no : ¬l + 1 < pl.linesAt k := by rw [linesAt_eq member]; omega
  rw [State.placementLine, phase, ← linesAt_eq member]
  exact if_neg no

/-- R14: each line of a record stands at its place in the payload. -/
theorem programRecordLine_eq (member : pl.records[k]? = some r) (numbered : pl.firstSeq = some q) :
    s.programRecordLine pl h base k l = { s with
      work := .place { pl with phase := .body h base k l }
      controller := .programming h (5 + (base + totalLines (pl.records.take k)) + l)
        (((r.bytes q (q + BitVec.ofNat 48 k)).drop (8 * l)).take 8) } := by
  rw [State.programRecordLine, Placement.recordBytes, member, numbered]
  rfl

/-- R111: before a group's next record the supply is read. -/
theorem recordVerified_next {next : RecordSpec} (following : pl.records[k + 1]? = some next) :
    s.recordVerified pl h base k =
      if s.supply = .guard then s.endPlacement pl .hold else s.programRecordLine pl h base (k + 1) 0 := by
  obtain ⟨inside, -⟩ := List.getElem?_eq_some_iff.mp following
  refine (if_pos inside).trans ?_
  cases s.supply <;> rfl

end

/-- Settles O27: the beginning of a placement by its three cases, and the rules for a verified line. -/
theorem placementProgramsLineByLine : Obligations.PlacementProgramsLineByLine := by
  refine ⟨fun s pl _ => ⟨fun h head fits => ?body, fun h head full => startPlacement_closes head full,
      fun i headless enough free first => ?opens⟩,
    fun s pl i ln data inHand inFlight verified => ⟨fun phase => ?line0, fun base k l r q phase member numbered more => ?nextLine⟩⟩
  case body => exact (startPlacement_fits head fits).trans enterBody_eq
  case opens => exact (startPlacement_headless headless).trans ((tryOpen_first free first enough).trans openSector_eq)
  case line0 =>
    rw [exec_placementLine_verified inHand inFlight verified, placementLine_line0 phase]
    rfl
  case nextLine =>
    rw [exec_placementLine_verified inHand inFlight verified, placementLine_nextLine phase member more,
      programRecordLine_eq member numbered]
    rfl

/-! ### The next head (R11 to R13) -/

section
variable {s : State} {pl : Placement} {i : Nat}

/-- R129. -/
theorem readOnlyTest_iff : s.readOnlyTest = true ↔ s.usable < 8 ∨ s.liveBudget < s.storeLive ∨ s.freeCount = 0 := by
  simp [State.readOnlyTest, or_assoc]

/-- A head has fill 0 when it is opened, and past the table every entry reads 0. -/
theorem becomeHead_fill : ((s.becomeHead i).sector i).fill = 0 := by
  by_cases inTable : i < s.sectors.length
  · rw [State.becomeHead, sector_setSector_self inTable]
  · rw [State.becomeHead, sector_setSector, if_neg (fun inside => inTable inside.2), sector_beyond (Nat.not_lt.mp inTable)]
    rfl

theorem becomeHead_enterBody : (s.becomeHead i).enterBody pl i = { s with
    sectors := s.sectors.set i { s.sector i with state := .opened, fill := 0, live := 0 }
    nextSeq := if pl.firstSeq = none then s.nextSeq + BitVec.ofNat 48 pl.records.length else s.nextSeq
    work := .place { pl with firstSeq := some (pl.firstSeq.getD s.nextSeq), phase := .body i 0 0 0 }
    controller := .programming i 5
      ((pl.records.head?.elim [] fun r => r.bytes (pl.firstSeq.getD s.nextSeq) (pl.firstSeq.getD s.nextSeq)).take 8) } := by
  rw [enterBody_eq, becomeHead_fill]
  rfl

end

/-- Settles O28: each phase of the opening by its rule, the thresholds, the choice of the sector, and the endings. -/
theorem placementOpensNextHead : Obligations.PlacementOpensNextHead := by
  refine ⟨fun s pl i ln data res inHand inFlight => ⟨fun phase => ?closing, fun phase ok => ?line1, fun phase failed => ?headerFailed,
      fun phase => ?retiring, fun base k l r next q p tag phase goal member following last numbered ok => ?nextRecord⟩,
    fun pl => ⟨fun p tag append => threshold_append append, fun line goal => threshold_copy goal,
      fun p tag goal => threshold_wipe goal⟩,
    fun s pl => ⟨fun i => openSector_eq, fun i free enough first => tryOpen_first free first enough, fun few => ⟨?append, ?copy, ?wipe⟩,
      fun p tag st append => endPlacement_append append st, fun line st goal => endPlacement_copy goal st⟩⟩
  case closing =>
    rw [exec_placementLine res inHand inFlight, placementLine_closing phase]
    rfl
  case line1 =>
    rw [exec_placementLine res inHand inFlight, ok, placementLine_line1 phase, becomeHead_enterBody]
    rfl
  case headerFailed =>
    rw [exec_placementLine res inHand inFlight, failed, placementLine_headerFailed phase]
    rfl
  case retiring =>
    rw [exec_placementLine res inHand inFlight, placementLine_retiring phase, State.afterHeaderFailure]
    exact congrArg Host.Outcome.next (if_congr (and_congr Iff.rfl readOnlyTest_iff) rfl rfl)
  case nextRecord =>
    rw [exec_placementLine res inHand inFlight, ok, placementLine_lastLine phase member last, recordVerified_next following,
      programRecordLine_eq following numbered, endPlacement_append (.inr (.inr goal))]
    rfl
  case append => exact fun p tag append => (tryOpen_loses few).trans (loseThreshold_append append)
  case copy => exact fun line goal => (tryOpen_loses few).trans (loseThreshold_copy goal)
  case wipe => exact fun p tag goal => (tryOpen_loses few).trans (loseThreshold_wipe goal)

/-! ### After a failure (R63 to R65, R113, R124, R156) -/

section
variable {s : State} {pl : Placement} {p : Port} {tag : Byte} {line : Nat}

theorem afterFailure_third (records : pl.format? = none) (third : 3 ≤ pl.attempts) : s.afterFailure pl = s.endReadOnly pl := by
  rw [State.afterFailure, records]
  exact if_pos third

theorem afterFailure_guard (records : pl.format? = none) (again : pl.attempts < 3) (guard : s.supply = .guard) :
    s.afterFailure pl = s.endPlacement pl .hold := by
  rw [State.afterFailure, records]
  exact (if_neg (Nat.not_le.mpr again)).trans (if_neg (by rw [guard]; decide))

theorem afterFailure_normal (records : pl.format? = none) (again : pl.attempts < 3) (normal : s.supply = .normal) :
    s.afterFailure pl = s.tryOpen pl := by
  rw [State.afterFailure, records]
  exact (if_neg (Nat.not_le.mpr again)).trans (if_pos normal)

theorem afterFailure_wipe (goal : pl.goal = .wipe p tag) :
    s.afterFailure pl = s.wipeAgain ⟨p, tag, .paused, pl.firstSeq, 0⟩ := by
  rw [State.afterFailure, format?_wipe goal]

/-- A retry's threshold is 2 (TABLE 12). -/
theorem threshold_retry (append : pl.goal.appends p tag) (failed : 1 ≤ pl.attempts) : pl.threshold = 2 := by
  rw [threshold_append append, if_neg (by omega)]

theorem afterFailure_opens (records : pl.format? = none) (two : pl.threshold = 2) (again : pl.attempts < 3)
    (normal : s.supply = .normal) (enough : 2 ≤ s.freeCount) :
    s.afterFailure pl = s.tryOpen pl ∧ ∃ i ∈ s.freePool, (∀ j ∈ s.freePool, s.lessUsed i j) ∧
      s.afterFailure pl = s.openSector pl i := by
  rw [afterFailure_normal records again normal]
  exact ⟨rfl, tryOpen_some (by omega) (by omega)⟩

end

/-- Settles O30: a failed line by its rule, the end of the CLOSED marker that follows it, and the cases after that. -/
theorem failedLineIsRetriedInNextHead : Obligations.FailedLineIsRetriedInNextHead := by
  refine ⟨fun s pl h base k l ln data res inHand phase inFlight => ?failed, fun s pl h data res inHand phase inFlight => ?closed,
    fun s pl line goal => ⟨fun third => ?copyThird, fun again guard => ?copyGuard, fun again normal few => ?copyFew,
      fun again normal enough => ?copyAgain⟩,
    fun s pl p tag goal => afterFailure_wipe goal,
    fun s pl p tag append failed => ⟨fun third => ?third, fun again guard => ?guard, fun again normal few => ?few,
      fun again normal enough => ?again⟩⟩
  case failed =>
    have bits : (match res with | .good => data | .faulty left => left.take 8) = LineResult.bits data res := by
      cases res <;> rfl
    intro written unread
    have wrote : written = LineResult.bits data res := bits
    rw [wrote] at unread ⊢
    rw [exec_placementLine res inHand inFlight, decide_eq_false unread, placementLine_bodyFailed phase]
    rfl
  case closed =>
    rw [exec_placementLine res inHand inFlight, placementLine_closingFailed phase]
    rfl
  case copyThird => exact (afterFailure_third (format?_copy goal) third).trans (endReadOnly_copy goal)
  case copyGuard => exact (afterFailure_guard (format?_copy goal) again guard).trans (endPlacement_copy goal .hold)
  case copyFew =>
    rw [afterFailure_normal (format?_copy goal) again normal, tryOpen_loses (by rwa [threshold_copy goal]), loseThreshold_copy goal]
  case copyAgain => exact afterFailure_opens (format?_copy goal) (threshold_copy goal) again normal enough
  case third => exact (afterFailure_third (format?_append append) third).trans (endReadOnly_append append)
  case guard => exact (afterFailure_guard (format?_append append) again guard).trans (endPlacement_append append .hold)
  case few =>
    rw [afterFailure_normal (format?_append append) again normal, tryOpen_loses (by rwa [threshold_retry append failed]),
      loseThreshold_append append, if_neg (by omega)]
  case again => exact afterFailure_opens (format?_append append) (threshold_retry append failed) again normal enough

end Sys2Proof.Machine
end

