-- ==== Sys2Proof/Proofs/VerifiedRecords.lean ====
section
/-! PROOF. A verified record (04_reading_writing_and_deleting.md R60, R62, R68; 01_storage_layout.md R18): what an entry set or
removed does to the directory and to the live bytes, what a value put in force and a posting touch, and the end of a placement of
one record. -/

namespace Sys2Proof.Machine

/-! ### Live bytes in a sector table (R18) -/

section
variable {t : List Sector} {i j n : Nat}

theorem live_beyond (beyond : ¬i < t.length) : (sectorAt t i).live = 0 := by
  rw [sectorAt, List.getD_eq_default _ _ (Nat.not_lt.mp beyond)]
  rfl

theorem live_setLive : (sectorAt (t.set i { sectorAt t i with live := n }) j).live =
    if j = i ∧ i < t.length then n else (sectorAt t j).live := by
  rw [sectorAt_set]
  split <;> rfl

theorem live_addLive (inside : i < t.length) :
    (sectorAt (addLive t i n) j).live = (sectorAt t j).live + if i = j then n else 0 := by
  rw [addLive, live_setLive]
  by_cases here : i = j
  · subst here
    rw [if_pos ⟨rfl, inside⟩, if_pos rfl]
  · rw [if_neg (fun same => here same.1.symm), if_neg here, Nat.add_zero]

/-- The live bytes that the record of an entry, if there is one, has in a sector. -/
def recordLiveIn (o : Option DirEntry) (j : Nat) : Nat := o.elim 0 fun e => if e.sector = j then e.size else 0

/-- The record's bytes leave its sector, which held them, and no other. -/
theorem live_dropLive {o : Option DirEntry} (held : ∀ j, recordLiveIn o j ≤ (sectorAt t j).live) (j : Nat) :
    (sectorAt (dropLive t o) j).live + recordLiveIn o j = (sectorAt t j).live := by
  cases o with
  | none => rfl
  | some e =>
    have here := held j
    unfold recordLiveIn at here ⊢
    dsimp only [Option.elim] at here ⊢
    rw [dropLive, subLive, live_setLive]
    by_cases same : e.sector = j
    · rw [if_pos same] at here ⊢
      subst same
      by_cases inside : e.sector < t.length
      · rw [if_pos ⟨rfl, inside⟩]
        omega
      · rw [if_neg (fun both => inside both.2)]
        have empty := live_beyond inside
        omega
    · rw [if_neg same, if_neg (fun both => same both.1.symm), Nat.add_zero]

/-- One entry of the table replaced, in the sum over the table. -/
theorem liveSum_set (e : Sector) (t : List Sector) : ∀ i, i < t.length →
    ((t.set i e).map Sector.live).sum + (sectorAt t i).live = (t.map Sector.live).sum + e.live := by
  induction t with
  | nil => exact fun i inside => absurd inside (Nat.not_lt_zero i)
  | cons x t ih =>
    intro i inside
    cases i with
    | zero =>
      simp only [List.set_cons_zero, List.map_cons, List.sum_cons, sectorAt, List.getD_cons_zero]
      omega
    | succ i =>
      have rest := ih i (Nat.lt_of_succ_lt_succ inside)
      simp only [List.set_cons_succ, List.map_cons, List.sum_cons, sectorAt, List.getD_cons_succ] at rest ⊢
      omega

theorem liveSum_addLive (inside : i < t.length) :
    ((addLive t i n).map Sector.live).sum = (t.map Sector.live).sum + n := by
  have moved : ((addLive t i n).map Sector.live).sum + (sectorAt t i).live =
      (t.map Sector.live).sum + ((sectorAt t i).live + n) := liveSum_set _ t i inside
  omega

theorem liveSum_dropLive {e : DirEntry} (inside : e.sector < t.length) (held : e.size ≤ (sectorAt t e.sector).live) :
    ((dropLive t (some e)).map Sector.live).sum + e.size = (t.map Sector.live).sum := by
  have moved : ((dropLive t (some e)).map Sector.live).sum + (sectorAt t e.sector).live =
      (t.map Sector.live).sum + ((sectorAt t e.sector).live - e.size) := liveSum_set _ t e.sector inside
  omega

end

/-! ### Entries set and removed (R24, R25) -/

section
variable {s : State} {e o : DirEntry} {k j : Key}

theorem entry_setEntry_self (s : State) (e : DirEntry) : (s.setEntry e).entry e.key = some e :=
  find_insert_self DirEntry.key

theorem entry_setEntry_other (other : j ≠ e.key) : (s.setEntry e).entry j = s.entry j :=
  find_insert_other DirEntry.key other.symm

theorem entry_removeEntry_self (s : State) (k : Key) : (s.removeEntry k).entry k = none :=
  find_remove_self DirEntry.key

theorem entry_removeEntry_other (other : j ≠ k) : (s.removeEntry k).entry j = s.entry j :=
  find_remove_other DirEntry.key other

theorem live_removeEntry (held : ∀ i, recordLiveIn (s.entry k) i ≤ (s.sector i).live) (i : Nat) :
    ((s.removeEntry k).sector i).live + recordLiveIn (s.entry k) i = (s.sector i).live :=
  live_dropLive held i

theorem live_setEntry (held : ∀ i, recordLiveIn (s.entry e.key) i ≤ (s.sector i).live) (inside : e.sector < s.sectors.length)
    (i : Nat) : ((s.setEntry e).sector i).live + recordLiveIn (s.entry e.key) i =
      (s.sector i).live + if e.sector = i then e.size else 0 := by
  have added (j : Nat) : (sectorAt (addLive s.sectors e.sector e.size) j).live = (s.sector j).live + if e.sector = j then e.size else 0 :=
    live_addLive inside
  have dropped := live_dropLive (t := addLive s.sectors e.sector e.size) (o := s.entry e.key)
    (fun j => by have here := held j; rw [added]; omega) i
  rw [added] at dropped
  exact dropped

theorem storeLive_setEntry_new (inside : e.sector < s.sectors.length) (absent : s.entry e.key = none) :
    (s.setEntry e).storeLive = s.storeLive + e.size := by
  rw [State.storeLive, State.setEntry, absent]
  exact liveSum_addLive inside

theorem storeLive_removeEntry (present : s.entry k = some o) (inside : o.sector < s.sectors.length)
    (held : o.size ≤ (s.sector o.sector).live) : (s.removeEntry k).storeLive + o.size = s.storeLive := by
  rw [State.storeLive, State.removeEntry, present]
  exact liveSum_dropLive inside held

theorem storeLive_setEntry_replaced (present : s.entry e.key = some o) (inside : o.sector < s.sectors.length)
    (held : o.size ≤ (s.sector o.sector).live) (within : e.sector < s.sectors.length) :
    (s.setEntry e).storeLive + o.size = s.storeLive + e.size := by
  have added : (sectorAt (addLive s.sectors e.sector e.size) o.sector).live =
      (s.sector o.sector).live + if e.sector = o.sector then e.size else 0 := live_addLive within
  have dropped := liveSum_dropLive (t := addLive s.sectors e.sector e.size) (e := o)
    (by rw [addLive, List.length_set]; exact inside) (by rw [added]; omega)
  rw [liveSum_addLive within] at dropped
  rw [State.storeLive, State.setEntry, present]
  exact dropped

/-- An entry moves live bytes alone (R18). -/
theorem sector_liveOnly {x y : Sector} (moved : ∃ v, x = { y with live := v }) : x = { y with live := x.live } := by
  obtain ⟨v, rfl⟩ := moved
  rfl

end

/-! ### Values in force and postings (R32, R60, R68, R95) -/

section
variable {s : State} {k : Key} {value : List Byte} {v : SeqNo}

/-- A session that is not OPEN or does not watch the key takes no posting. -/
theorem takeChanged_eq (x : Session) (k : Key) (v : SeqNo) : x.takeChanged k v =
    { x with notices := if x.isOpen = true ∧ k ∈ x.watch then postNotice k (Notice.markChanged v) x.notices else x.notices } := by
  have watched : (x.isOpen && x.watch.contains k) = true ↔ x.isOpen = true ∧ k ∈ x.watch := by simp
  exact congrArg (fun l => { x with notices := l }) (if_congr watched rfl rfl)

theorem rightsInForce_set {r : PerPort Rights} (parsed : parseRights value = some r) :
    (s.setInForce 0x0F01 value).rightsInForce = r := by
  show (if (0x0F01 : Key) = rightsKey then (parseRights value).getD s.rightsInForce else s.rightsInForce) = r
  rw [parsed]
  rfl

theorem freezeLine_set {hi lo : Byte} (bytes : value = [hi, lo]) (low : 1 ≤ beNat value) (high : beNat value ≤ 0x0F00) :
    (s.setInForce 0x0F02 value).freezeLine.toNat = beNat value := by
  have parsed : parseFreezeLine value = some (keyOfBytes hi lo) := by
    subst bytes
    exact if_pos ⟨low, high⟩
  show (if (0x0F02 : Key) = freezeKey then (parseFreezeLine value).getD s.freezeLine else s.freezeLine).toNat = beNat value
  rw [parsed]
  exact (parseFreezeLine_iff.mp parsed).2.2.2

theorem defaultPeriod_set {hi lo : Byte} (bytes : value = [hi, lo]) (low : 1 ≤ beNat value) (high : beNat value ≤ 6000) :
    (s.setInForce 0x0F03 value).defaultPeriod = beNat value := by
  have parsed : parsePeriod value = some (beNat value) := by
    subst bytes
    exact if_pos ⟨low, high⟩
  show (if (0x0F03 : Key) = periodKey then (parsePeriod value).getD s.defaultPeriod else s.defaultPeriod) = beNat value
  rw [parsed]
  rfl

end

/-! ### The end of a placement of one record -/

section
variable {s : State} {pl : Placement} {rec : RecordSpec} {q : SeqNo} {h base l ln : Nat} {data : List Byte} {p : Port} {tag : Byte}

/-- The last record's last line is followed by the end of the placement. -/
theorem recordVerified_end {k : Nat} (last : k + 1 = pl.records.length) :
    s.recordVerified pl h base k = s.finishPlacement pl h base :=
  if_neg (by omega)

theorem exec_singleVerified (inHand : s.work = .place pl) (single : pl.records = [rec]) (phase : pl.phase = .body h base 0 l)
    (last : l + 1 = rec.lines) (inFlight : s.controller = .programming h ln data)
    (verified : readLine (programBytes s.flash (lineAddress h ln) data) h ln = data) :
    exec (.lineProgramComplete .good) s =
      .next (((s.lineProgrammed h ln data).raiseFill h rec.lines).finishPlacement pl h base) := by
  rw [exec_placementLine_verified inHand inFlight verified, placementLine_lastLine phase (by rw [single]; rfl) last,
    recordVerified_end (by rw [single]; rfl)]

theorem finishPlacement_write (single : pl.records = [rec]) (numbered : pl.firstSeq = some q) (goal : pl.goal = .write p tag) :
    s.finishPlacement pl h base = s.writeDone rec q h base p tag := by
  rw [State.finishPlacement, single, goal, numbered]
  rfl

theorem finishPlacement_delete (single : pl.records = [rec]) (numbered : pl.firstSeq = some q) (goal : pl.goal = .delete p tag) :
    s.finishPlacement pl h base = s.deleteDone rec q p tag := by
  rw [State.finishPlacement, single, goal, numbered]
  rfl

theorem finishPlacement_copy {line : Nat} (single : pl.records = [rec]) (numbered : pl.firstSeq = some q)
    (goal : pl.goal = .copy line) : s.finishPlacement pl h base = s.copyDone rec q h base line := by
  rw [State.finishPlacement, single, goal, numbered]
  rfl

theorem finishPlacement_wipe (single : pl.records = [rec]) (numbered : pl.firstSeq = some q) (goal : pl.goal = .wipe p tag) :
    s.finishPlacement pl h base = s.sweepFrom ⟨p, tag, .paused, some q, 0⟩ 0 := by
  rw [State.finishPlacement, single, goal, numbered]

end

/-- Settles O29: the end of a placement of one record by its goal, and each operation it makes by its rules. -/
theorem verifiedRecordChangesDirectory : Obligations.VerifiedRecordChangesDirectory := by
  refine ⟨rfl, fun s p tag rec q pl h base l ln data inHand single numbered phase last inFlight verified =>
      ⟨fun goal => ?write, fun goal => ?delete, fun goal => ?wipe⟩,
    fun s e k value => ⟨⟨rfl, rfl, rfl, fun p v => rfl, ?touched⟩, entry_setEntry_self s e, fun j other => entry_setEntry_other other,
      entry_removeEntry_self s k, fun j other => entry_removeEntry_other other,
      fun inside absent => storeLive_setEntry_new inside absent, fun o present inside held => ⟨?removed, fun named within => ?replaced⟩,
      fun held named inside i => ⟨live_removeEntry held i, ?moved⟩, fun p v => ⟨session_postChanged_self s p k v, fun q other => ?posted⟩,
      fun other => if_neg other, fun other => if_neg other, fun other => if_neg other, fun v parsed => rightsInForce_set parsed,
      fun hi lo bytes low high => freezeLine_set bytes low high,
      fun hi lo bytes low high => defaultPeriod_set bytes low high⟩⟩
  case write =>
    rw [exec_singleVerified inHand single phase last inFlight verified, finishPlacement_write single numbered goal]
    rfl
  case delete =>
    rw [exec_singleVerified inHand single phase last inFlight verified, finishPlacement_delete single numbered goal]
    rfl
  case wipe =>
    rw [exec_singleVerified inHand single phase last inFlight verified, finishPlacement_wipe single numbered goal]
    rfl
  case touched =>
    rintro t (rfl | rfl)
    · exact ⟨length_setEntry e, fun i => sector_liveOnly (liveOnly_setEntry e)⟩
    · exact ⟨length_removeEntry k, fun i => sector_liveOnly (liveOnly_removeEntry k)⟩
  case removed => exact storeLive_removeEntry present inside held
  case replaced => exact storeLive_setEntry_replaced (named ▸ present) inside held within
  case moved =>
    subst named
    exact live_setEntry held inside i
  case posted => exact (session_postChanged_other s k v other).trans (takeChanged_eq (s.session q) k v)

end Sys2Proof.Machine
end

