-- ==== Sys2Proof/Proofs/CommittedGroup.lean ====
section
/-! PROOF. A group's verified COMMIT record (07_group_commit.md R110 to R112): what each member does to the directory, to the live
bytes and to the notice lists, by induction over the member list, and the end of the commit. -/

namespace Sys2Proof.Machine

/-! ### The records from a member on -/

/-- The records of the members from position `pos` on, and the COMMIT record (R110). -/
def groupTail (count pos : Nat) (ms : List Member) : List RecordSpec :=
  memberRecords count pos ms ++ [⟨.commit, false, 0, [], 0, count⟩]

theorem groupRecords_eq (ms : List Member) : groupRecords ms = groupTail ms.length 1 ms := rfl

theorem groupTail_cons (count pos : Nat) (m : Member) (ms : List Member) :
    groupTail count pos (m :: ms) = memberRecord count pos m :: groupTail count (pos + 1) ms := rfl

theorem totalLines_cons (r : RecordSpec) (rs : List RecordSpec) : totalLines (r :: rs) = r.lines + totalLines rs := by
  rw [totalLines, List.map_cons, List.sum_cons]
  rfl

theorem seq_succ (q : SeqNo) (n : Nat) : q + BitVec.ofNat 48 (n + 1) = q + BitVec.ofNat 48 n + 1 := by
  rw [BitVec.ofNat_add, BitVec.add_assoc]
  rfl

theorem seq_after (q : SeqNo) (n : Nat) : q + 1 + BitVec.ofNat 48 n = q + BitVec.ofNat 48 (n + 1) := by
  rw [seq_succ, BitVec.add_assoc, BitVec.add_assoc, BitVec.add_comm 1]

/-! ### The directory (R112) -/

section
variable {s : State} {h line count pos : Nat} {q : SeqNo} {m : Member} {ms : List Member} {k : Key}

/-- The entry of a writing member (R112). -/
def Member.entry (m : Member) (q : SeqNo) (h line : Nat) : DirEntry := ⟨m.key, q, m.value.length, h, 8 * line, true⟩

theorem applyMember_memberRecord : s.applyMember (memberRecord count pos m) q h line =
    if m.delete = true then s.removeEntry m.key else s.setEntry (m.entry q h line) := by
  unfold State.applyMember memberRecord
  cases m.delete <;> rfl

theorem applyMembers_cons : s.applyMembers h (groupTail count pos (m :: ms)) q line =
    (if m.delete = true then s.removeEntry m.key else s.setEntry (m.entry q h line)).applyMembers h (groupTail count (pos + 1) ms)
      (q + 1) (line + (memberRecord count pos m).lines) := by
  rw [← applyMember_memberRecord]
  rfl

/-- One member touches its own key alone. -/
theorem entry_member_other (other : k ≠ m.key) :
    (if m.delete = true then s.removeEntry m.key else s.setEntry (m.entry q h line)).entry k = s.entry k := by
  split
  · exact entry_removeEntry_other other
  · exact entry_setEntry_other other

theorem entry_applyMembers_other (ms : List Member) : ∀ (s : State) (pos line : Nat) (q : SeqNo), k ∉ ms.map Member.key →
    (s.applyMembers h (groupTail count pos ms) q line).entry k = s.entry k := by
  induction ms with
  | nil => exact fun _ _ _ _ _ => rfl
  | cons m ms ih =>
    intro s pos line q absent
    rw [List.map_cons, List.mem_cons, not_or] at absent
    rw [applyMembers_cons, ih _ _ _ _ absent.2, entry_member_other absent.1]

/-- Each member's key ends with what that member did: no later one has its key. -/
theorem entry_applyMembers (ms : List Member) : ∀ (s : State) (pos line : Nat) (q : SeqNo), (ms.map Member.key).Nodup →
    ∀ (i : Nat) (m : Member), ms[i]? = some m → (s.applyMembers h (groupTail count pos ms) q line).entry m.key =
      if m.delete = true then none else some (m.entry (q + BitVec.ofNat 48 i) h (line + totalLines ((groupTail count pos ms).take i))) := by
  induction ms with
  | nil => exact fun _ _ _ _ _ i m member => (by cases member)
  | cons x ms ih =>
    intro s pos line q distinct i m member
    obtain ⟨later, rest⟩ := List.nodup_cons.mp distinct
    rw [applyMembers_cons]
    cases i with
    | zero =>
      cases member
      rw [entry_applyMembers_other ms _ _ _ _ later]
      have same : q + BitVec.ofNat 48 0 = q := by simp
      rw [same, List.take_zero]
      split
      · exact entry_removeEntry_self s x.key
      · exact entry_setEntry_self s (x.entry q h line)
    | succ i =>
      rw [ih _ (pos + 1) _ (q + 1) rest i m member, seq_after, groupTail_cons, List.take_succ_cons, totalLines_cons, Nat.add_assoc]

/-- Nothing but the directory and the sector table changes. -/
theorem applyMembers_eq (rs : List RecordSpec) : s.applyMembers h rs q line = { s with
    directory := (s.applyMembers h rs q line).directory, sectors := (s.applyMembers h rs q line).sectors } := by
  obtain ⟨directory, sectors, touched⟩ := applyMembers_touches h rs s q line
  rw [touched]

end

/-! ### The live bytes (R18, R112) -/

section
variable {s : State} {h line count pos : Nat} {q : SeqNo} {m : Member} {ms : List Member} {k : Key}

/-- The size that a member's record adds to the live bytes. -/
def Member.added (m : Member) : Nat := if m.delete = true then 0 else sizeForLength m.value.length

theorem live_member (held : ∀ j, recordLiveIn (s.entry m.key) j ≤ (s.sector j).live) (inside : h < s.sectors.length) (j : Nat) :
    ((if m.delete = true then s.removeEntry m.key else s.setEntry (m.entry q h line)).sector j).live +
      recordLiveIn (s.entry m.key) j = (s.sector j).live + if j = h then m.added else 0 := by
  unfold Member.added
  split
  · rw [ite_self, Nat.add_zero]
    exact live_removeEntry held j
  · refine (live_setEntry (e := m.entry q h line) held inside j).trans (congrArg _ (if_congr ?_ rfl rfl))
    exact eq_comm

theorem length_member : (if m.delete = true then s.removeEntry m.key else s.setEntry (m.entry q h line)).sectors.length =
    s.sectors.length := by
  split
  · exact length_removeEntry _
  · exact length_setEntry _

/-- The records replaced leave the live bytes, which held them all, and those written join the head's. -/
theorem live_applyMembers (ms : List Member) : ∀ (s : State) (pos line : Nat) (q : SeqNo), (ms.map Member.key).Nodup →
    h < s.sectors.length → (∀ j, (ms.map fun m => recordLiveIn (s.entry m.key) j).sum ≤ (s.sector j).live) → ∀ j,
    ((s.applyMembers h (groupTail count pos ms) q line).sector j).live + (ms.map fun m => recordLiveIn (s.entry m.key) j).sum =
      (s.sector j).live + if j = h then (ms.map Member.added).sum else 0 := by
  induction ms with
  | nil =>
    intro s pos line q _ _ _ j
    show (s.sector j).live + 0 = (s.sector j).live + if j = h then 0 else 0
    rw [ite_self]
  | cons m ms ih =>
    intro s pos line q distinct inside held j
    obtain ⟨later, rest⟩ := List.nodup_cons.mp distinct
    simp only [List.map_cons, List.sum_cons] at held ⊢
    rw [applyMembers_cons]
    have one := live_member (m := m) (q := q) (line := line) (fun j => by have := held j; omega) inside
    have width := length_member (s := s) (m := m) (q := q) (h := h) (line := line)
    have others : ∀ x ∈ ms, (if m.delete = true then s.removeEntry m.key else s.setEntry (m.entry q h line)).entry x.key =
        s.entry x.key := fun x listed => entry_member_other fun same => later (same ▸ List.mem_map_of_mem listed)
    generalize (if m.delete = true then s.removeEntry m.key else s.setEntry (m.entry q h line)) = u at one width others ⊢
    have sums (i : Nat) : (ms.map fun x => recordLiveIn (u.entry x.key) i).sum = (ms.map fun x => recordLiveIn (s.entry x.key) i).sum :=
      congrArg List.sum (List.map_congr_left fun x listed => by rw [others x listed])
    have after := ih u (pos + 1) (line + (memberRecord count pos m).lines) (q + 1) rest (by rw [width]; exact inside)
      (fun i => by have here := one i; have all := held i; rw [sums]; omega) j
    rw [sums] at after
    have here := one j
    by_cases head : j = h
    · simp only [if_pos head] at after here ⊢
      omega
    · simp only [if_neg head] at after here ⊢
      omega

theorem added_sum (ms : List Member) :
    (ms.map Member.added).sum = ((ms.filter fun m => !m.delete).map fun m => sizeForLength m.value.length).sum := by
  induction ms with
  | nil => rfl
  | cons m ms ih =>
    rw [List.map_cons, List.sum_cons, ih, Member.added]
    cases delete : m.delete <;> simp [delete]

theorem liveOf_cons (e : DirEntry) (d : List DirEntry) (j : Nat) :
    liveOf (e :: d) j = (if e.sector = j then e.size else 0) + liveOf d j := by
  unfold liveOf
  by_cases here : e.sector = j <;> simp [here]

theorem liveOf_removeKeyed_le (k : Key) (d : List DirEntry) (j : Nat) : liveOf (removeKeyed DirEntry.key k d) j ≤ liveOf d j := by
  have fewer : (removeKeyed DirEntry.key k d).Sublist d := List.filter_sublist
  exact ((fewer.filter _).map _).sum_le_sum fun _ _ => Nat.zero_le _

/-- The record of a key's entry and the records of the other keys share the live bytes of a sector. -/
theorem liveOf_split (k : Key) (d : List DirEntry) (j : Nat) :
    recordLiveIn (findKeyed DirEntry.key k d) j + liveOf (removeKeyed DirEntry.key k d) j ≤ liveOf d j := by
  induction d with
  | nil => exact Nat.le_refl _
  | cons e d ih =>
    rw [liveOf_cons]
    by_cases named : e.key = k
    · have found : findKeyed DirEntry.key k (e :: d) = some e := List.find?_cons_of_pos (by simp [named])
      have gone : removeKeyed DirEntry.key k (e :: d) = removeKeyed DirEntry.key k d := List.filter_cons_of_neg (by simp [named])
      rw [found, gone]
      exact Nat.add_le_add_left (liveOf_removeKeyed_le k d j) _
    · have found : findKeyed DirEntry.key k (e :: d) = findKeyed DirEntry.key k d := List.find?_cons_of_neg (by simp [named])
      have kept : removeKeyed DirEntry.key k (e :: d) = e :: removeKeyed DirEntry.key k d :=
        List.filter_cons_of_pos (by simp [named])
      rw [found, kept, liveOf_cons]
      omega

/-- The records of distinct keys are within the live bytes of each sector. -/
theorem recordLive_sum_le (ms : List Member) : ∀ d : List DirEntry, (ms.map Member.key).Nodup → ∀ j,
    (ms.map fun m => recordLiveIn (findKeyed DirEntry.key m.key d) j).sum ≤ liveOf d j := by
  induction ms with
  | nil => exact fun _ _ _ => Nat.zero_le _
  | cons m ms ih =>
    intro d distinct j
    obtain ⟨later, rest⟩ := List.nodup_cons.mp distinct
    have split := liveOf_split m.key d j
    have others := ih (removeKeyed DirEntry.key m.key d) rest j
    have sums : (ms.map fun x => recordLiveIn (findKeyed DirEntry.key x.key (removeKeyed DirEntry.key m.key d)) j) =
        ms.map fun x => recordLiveIn (findKeyed DirEntry.key x.key d) j :=
      List.map_congr_left fun x listed => by
        have other : x.key ≠ m.key := fun same => later (same ▸ List.mem_map_of_mem listed)
        rw [find_remove_other DirEntry.key other]
    rw [sums] at others
    rw [List.map_cons, List.sum_cons]
    omega

theorem group_held (exact' : s.liveExact) (distinct : (ms.map Member.key).Nodup) (j : Nat) :
    (ms.map fun m => recordLiveIn (s.entry m.key) j).sum ≤ (s.sector j).live := by
  rw [exact'.1 j]
  exact recordLive_sum_le ms s.directory distinct j

end

/-! ### The postings (R95, R112) -/

section
variable {s : State} {p o : Port} {q : SeqNo} {m : Member} {ms : List Member} {count pos : Nat}

/-- The version that a member's posting carries. -/
def Member.posted (m : Member) (q : SeqNo) (n : Nat) : SeqNo := if m.delete = true then 0 else q + BitVec.ofNat 48 n

theorem postMembers_cons (n : Nat) : s.postMembers p (groupTail count pos (m :: ms)) (q + BitVec.ofNat 48 n) =
    (s.postChanged p m.key (m.posted q n)).postMembers p (groupTail count (pos + 1) ms) (q + BitVec.ofNat 48 (n + 1)) := by
  rw [groupTail_cons, State.postMembers, ← seq_succ]
  congr 1
  unfold memberRecord Member.posted
  cases m.delete <;> rfl

theorem postMembers_own (ms : List Member) : ∀ (s : State) (pos n : Nat),
    (s.postMembers p (groupTail count pos ms) (q + BitVec.ofNat 48 n)).session p = s.session p := by
  induction ms with
  | nil => exact fun _ _ _ => rfl
  | cons m ms ih =>
    intro s pos n
    rw [postMembers_cons, ih, session_postChanged_self]

/-- Another session takes the postings of the members whose key it watches, in staging order. -/
theorem postMembers_other (away : o ≠ p) (ms : List Member) : ∀ (s : State) (pos n : Nat),
    (s.postMembers p (groupTail count pos ms) (q + BitVec.ofNat 48 n)).session o = { s.session o with
      notices := ((ms.zipIdx n).filter fun y => (s.session o).isOpen && (s.session o).watch.contains y.1.key).foldl
        (fun l y => postNotice y.1.key (Notice.markChanged (y.1.posted q y.2)) l) (s.session o).notices } := by
  induction ms with
  | nil => exact fun _ _ _ => rfl
  | cons m ms ih =>
    intro s pos n
    rw [postMembers_cons, ih, session_postChanged_other s _ _ away, List.zipIdx_cons, List.filter_cons]
    cases watched : (s.session o).isOpen && (s.session o).watch.contains m.key with
    | false =>
      have none' : (s.session o).takeChanged m.key (m.posted q n) = s.session o := by
        rw [Session.takeChanged, watched]
        rfl
      rw [none', if_neg Bool.false_ne_true]
    | true =>
      have posts : (s.session o).takeChanged m.key (m.posted q n) = { s.session o with
          notices := postNotice m.key (Notice.markChanged (m.posted q n)) (s.session o).notices } := by
        rw [Session.takeChanged, watched]
        rfl
      rw [posts, if_pos rfl, List.foldl_cons]

theorem postMembers_eq (rs : List RecordSpec) : s.postMembers p rs q = { s with sessions := (s.postMembers p rs q).sessions } := by
  obtain ⟨sessions, touched⟩ := postMembers_touches p rs s q
  rw [touched]

end

/-! ### The end of a commit (R112) -/

section
variable {s : State} {pl : Placement} {q : SeqNo} {h base ln : Nat} {data : List Byte} {p o : Port} {tag : Byte} {ms : List Member}

theorem finishPlacement_commit (records : pl.records = groupRecords ms) (numbered : pl.firstSeq = some q)
    (goal : pl.goal = .commit p tag) : s.finishPlacement pl h base = s.commitDone pl q h base p tag := by
  have some' : ∃ r rs, pl.records = r :: rs := List.exists_cons_of_ne_nil fun none' => by
    have length := groupRecords_commit ms
    rw [← records, none'] at length
    cases length
  obtain ⟨r, rs, cons⟩ := some'
  rw [State.finishPlacement, cons, goal, numbered]
  rfl

theorem lines_commit (count : Nat) : (⟨.commit, false, 0, [], 0, count⟩ : RecordSpec).lines = 2 := by
  rw [RecordSpec.lines, linesForLength, List.length_nil]

theorem exec_commitVerified (inHand : s.work = .place pl) (goal : pl.goal = .commit p tag) (records : pl.records = groupRecords ms)
    (numbered : pl.firstSeq = some q) (phase : pl.phase = .body h base ms.length 1) (inFlight : s.controller = .programming h ln data)
    (verified : readLine (programBytes s.flash (lineAddress h ln) data) h ln = data) :
    exec (.lineProgramComplete .good) s = .next (((s.lineProgrammed h ln data).raiseFill h 2).commitDone pl q h base p tag) := by
  have last : pl.records[ms.length]? = some ⟨.commit, false, 0, [], 0, ms.length⟩ := records ▸ groupRecords_commit ms
  have count : ms.length + 1 = pl.records.length := by
    rw [records, groupRecords, List.length_append, memberRecords_length]
    rfl
  rw [exec_placementLine_verified inHand inFlight verified, placementLine_lastLine phase last (lines_commit _).symm, recordVerified_end count,
    finishPlacement_commit records numbered goal, lines_commit]

/-- What a commit does beside the directory, the sector table and the sessions. -/
theorem commitDone_eq : s.commitDone pl q h base p tag = { s with
    directory := (s.applyMembers h pl.records q base).directory
    sectors := (s.applyMembers h pl.records q base).sectors
    sessions := (((s.applyMembers h pl.records q base).clearGroup p).postMembers p pl.records q).sessions
    work := .idle
    ports := s.ports.set p ((s.port p).receive ⟨tag, .ok, BitVec.ofNat 8 (pl.records.length - 1) :: beBytes 6 q.toNat⟩).endService } := by
  rw [State.commitDone, postMembers_eq, applyMembers_eq]
  rfl

theorem session_commitDone (records : pl.records = groupRecords ms) : (s.commitDone pl q h base p tag).session o =
    (((s.applyMembers h pl.records q base).clearGroup p).postMembers p (groupTail ms.length 1 ms) (q + BitVec.ofNat 48 0)).session o := by
  have same : q + BitVec.ofNat 48 0 = q := by simp
  rw [same, ← groupRecords_eq, ← records]
  rfl

theorem live_raiseFill (n j : Nat) : ((s.raiseFill h n).sector j).live = (s.sector j).live := by
  rw [State.raiseFill, sector_setSector]
  split
  · next here => rw [here.1]
  · rfl

theorem session_clearGroup : ((s.applyMembers h pl.records q base).clearGroup p).session o =
    if o = p then { s.session p with groupOpen := false, members := [] } else s.session o := by
  rw [applyMembers_eq, State.clearGroup]
  exact get_set s.sessions p o _

end

/-- Settles O38: the directory, the live bytes and the notice lists by the rules over the member list. -/
theorem committedGroupEntersWhole : Obligations.CommittedGroupEntersWhole := by
  intro s pl q h base ln data p tag ms inHand goal records numbered phase inFlight verified distinct
  refine ⟨_, exec_commitVerified inHand goal records numbered phase inFlight verified, fun i m member => ?member, fun k absent => ?other,
    fun sound exact' inside j => ?live, fun inside => ?fill, ?own, fun o away => ?posted, ?port, ?flash, ?leases, ?seq, ?mode, ?work,
    ?controller⟩
  case member =>
    have entered := entry_applyMembers (h := h) (count := ms.length) ms ((s.lineProgrammed h ln data).raiseFill h 2) 1 base q distinct i m
      member
    rw [commitDone_eq, records]
    exact entered
  case other =>
    have kept := entry_applyMembers_other (h := h) (count := ms.length) ms ((s.lineProgrammed h ln data).raiseFill h 2) 1 base q absent
    rw [commitDone_eq, records]
    exact kept
  case live =>
    have moved := live_applyMembers (h := h) (count := ms.length) ms ((s.lineProgrammed h ln data).raiseFill h 2) 1 base q distinct
      (by rw [State.raiseFill, setSector_sectors, List.length_set]; exact inside)
      (fun i => by rw [live_raiseFill]; exact group_held exact' distinct i) j
    rw [live_raiseFill, added_sum] at moved
    rw [commitDone_eq, records]
    exact moved
  case fill =>
    rw [commitDone_eq]
    exact (fill_applyMembers h pl.records _ q base).trans (fill_raiseFill 2 inside)
  case own =>
    rw [session_commitDone records, postMembers_own, session_clearGroup, if_pos rfl]
    rfl
  case posted =>
    rw [session_commitDone records, postMembers_other away, session_clearGroup, if_neg away]
    rfl
  case port =>
    have count : pl.records.length - 1 = ms.length := by
      rw [records, groupRecords, List.length_append, memberRecords_length]
      rfl
    rw [commitDone_eq, count]
    exact get_set_self s.ports p _
  case flash => exact (congrArg State.flash commitDone_eq).trans rfl
  case leases => exact (congrArg State.leases commitDone_eq).trans rfl
  case seq => exact (congrArg State.nextSeq commitDone_eq).trans rfl
  case mode => exact (congrArg State.mode commitDone_eq).trans rfl
  case work => exact (congrArg State.work commitDone_eq).trans rfl
  case controller => exact (congrArg State.controller commitDone_eq).trans rfl

end Sys2Proof.Machine
end

