-- ==== Sys2Proof/Proofs/ReclaimSteps.lean ====
section
/-! PROOF. The steps of reclaim (08_space_and_wear.md R119 to R128, R131): the mark, the scan for the first live record, the copy
and its end, and the outcomes of the tail's erase. -/

namespace Sys2Proof.Machine

section
variable {s : State} {i : Nat}

/-! ### The mark step (R120) -/

theorem exec_reclaimMark (granted : s.work = .reclaimGrant) (idle : s.reclaim.state = .idle) (tail : s.tail? = some i)
    (closed : (s.sector i).state = .closed) : exec .reclaimMark s = .next (s.markTail i) := by
  show execReclaimMark s = _
  unfold execReclaimMark
  rw [granted, idle, tail]
  exact if_pos closed

/-- Settles O43: the marker programmed or found, and the end of its program. -/
theorem reclaimMarksTail : Obligations.ReclaimMarksTail := by
  refine fun s i => ⟨fun granted idle tail closed blank => ?programs, fun granted idle tail closed found => ?found,
    fun res data bits inHand inFlight left => ?ended⟩
  case programs =>
    rw [exec_reclaimMark granted idle tail closed]
    exact congrArg Host.Outcome.next (if_pos blank)
  case found =>
    rw [exec_reclaimMark granted idle tail closed, State.markTail, if_neg found, State.finishMark, Bool.not_true, Bool.or_false]
    rfl
  case ended =>
    subst left
    have taken : (s.lineProgrammed i 3 (LineResult.bits data res)).work = .marking i := inHand
    rw [exec_lineProgramComplete res inFlight, State.lineEnded, taken]
    rfl

/-! ### The scan and the copy (R121 to R123) -/

/-- A scan that goes past its first line found no live record there, below the fill. -/
theorem State.PassesOver.first {first line : Nat} (passes : s.PassesOver i first line) :
    line = first ∨ first < (s.sector i).fill ∧ ¬s.recordLive i first ∧ s.PassesOver i (first + s.linesAt i first) line := by
  induction passes with
  | start => exact .inl rfl
  | past l _ below dead ih =>
    rcases ih with rfl | ⟨firstBelow, firstDead, later⟩
    · exact .inr ⟨below, dead, .start⟩
    · exact .inr ⟨firstBelow, firstDead, .past l later below dead⟩

/-- The scan finds the live record that the records passed over lead to. -/
theorem scanTail_finds {line : Nat} (below : line < (s.sector i).fill) (live : s.recordLive i line) :
    ∀ n start, (s.sector i).fill ≤ start + n → s.PassesOver i start line → s.scanTail i n start = some line := by
  intro n
  induction n with
  | zero =>
    intro start enough passes
    have forward := passes.le
    omega
  | succ n ih =>
    intro start enough passes
    have forward := passes.le
    rw [scanTail_succ, if_neg (by omega)]
    rcases passes.first with rfl | ⟨-, dead, later⟩
    · exact if_pos ((liveAt_iff line).mpr live)
    · rw [if_neg fun found => dead ((liveAt_iff start).mp found)]
      exact ih _ (by unfold State.linesAt; omega) later

/-- The scan finds nothing where no record that it comes to is live. -/
theorem scanTail_eq_none {first : Nat} (dead : ∀ line, s.PassesOver i first line → line < (s.sector i).fill → ¬s.recordLive i line)
    (n : Nat) : s.scanTail i n first = none := by
  cases found : s.scanTail i n first with
  | none => rfl
  | some line =>
    obtain ⟨passes, below, live⟩ := scanTail_sound n first .start found
    exact absurd live (dead line passes below)

theorem exec_reclaimCopy (granted : s.work = .reclaimGrant) (copying : s.reclaim.state = .copying) (tail : s.tail? = some i)
    (live : (s.sector i).live ≠ 0) : exec .reclaimCopy s =
      (s.scanTail i (s.sector i).fill s.reclaim.cursor).elim (.fault .noLiveRecord) fun line => .next (s.copyFrom i line) := by
  show execReclaimCopy s = _
  unfold execReclaimCopy
  rw [granted, copying, tail]
  refine (if_neg live).trans ?_
  cases s.scanTail i (s.sector i).fill s.reclaim.cursor <;> rfl

/-- The copy of the record at a line, by its place in the flash (R122, TABLE 85). -/
theorem copyPlacement_eq (s : State) (i line : Nat) : s.copyPlacement i line = ⟨.copy line,
    [⟨.value, true, keyOfBytes (readByte s.flash (2048 * i + 40 + 8 * line + 2)) (readByte s.flash (2048 * i + 40 + 8 * line + 3)),
      readBytes s.flash (2048 * i + 40 + (8 * line + 16)) (readByte s.flash (2048 * i + 40 + 8 * line + 4)).toNat, 0, 0⟩],
    some (BitVec.ofNat 48 (beNat (readBytes s.flash (2048 * i + 40 + (8 * line + 8)) 6))), 0, .closing 0⟩ := by
  have moved (k : Nat) : 2048 * i + 40 + (8 * line + k) = 2048 * i + 40 + 8 * line + k := by omega
  simp only [State.copyPlacement, State.copyRecord, State.sequenceAt, payloadAddress_line, moved]

end

/-! ### The end of a copy (R122) -/

section
variable {s : State} {r : RecordSpec} {q : SeqNo} {h base line i : Nat}

/-- The entry of the copy: its group marker is clear. -/
def copyEntry (r : RecordSpec) (q : SeqNo) (h base : Nat) : DirEntry := ⟨r.key, q, r.value.length, h, 8 * base, false⟩

/-- The tail's erase is pending once it has no live bytes left. -/
theorem copyDone_eq (tail : s.tail? = some i) : s.copyDone r q h base line =
    let t := s.setEntry (copyEntry r q h base)
    { t with
      work := .idle
      sectors := if (t.sector i).live = 0 then t.sectors.set i { t.sector i with erasePending := true } else t.sectors
      reclaim := { s.reclaim with
        cursor := line + r.lines, state := if (t.sector i).live = 0 then .erasing else s.reclaim.state } } := by
  unfold State.copyDone
  rw [tail]
  dsimp only
  by_cases empty : ((s.setEntry (copyEntry r q h base)).sector i).live = 0
  · exact (if_pos empty).trans (by rw [if_pos empty, if_pos empty]; rfl)
  · exact (if_neg empty).trans (by rw [if_neg empty, if_neg empty]; rfl)

end

/-! ### The ring depends on states and generations alone (R7) -/

section
variable {t t' : List Sector}

theorem insertByGeneration_congr (generations : ∀ j, (sectorAt t' j).generationNat = (sectorAt t j).generationNat) (i : Nat)
    (l : List Nat) : insertByGeneration t' i l = insertByGeneration t i l := by
  induction l with
  | nil => rfl
  | cons j l ih => rw [insertByGeneration, insertByGeneration, generations, generations, ih]

theorem ringOf_congr (length : t'.length = t.length) (rings : ∀ j, (sectorAt t' j).inRing = (sectorAt t j).inRing)
    (generations : ∀ j, (sectorAt t' j).generationNat = (sectorAt t j).generationNat) : ringOf t' = ringOf t := by
  rw [ringOf, ringOf, length, funext fun i => funext (insertByGeneration_congr generations i)]
  exact congrArg (fun q => ((List.range t.length).filter q).foldr (insertByGeneration t) []) (funext rings)

end

section
variable {s : State} {h i n : Nat}

theorem tail?_raiseFill : (s.raiseFill h n).tail? = s.tail? := by
  have entries (j : Nat) : (s.raiseFill h n).sector j = { s.sector j with fill := ((s.raiseFill h n).sector j).fill } := by
    rw [State.raiseFill, sector_setSector]
    split
    · next here => rw [here.1]
    · rfl
  refine congrArg List.head? (ringOf_congr (List.length_set ..) (fun j => ?_) fun j => ?_)
  · exact (congrArg Sector.inRing (entries j)).trans rfl
  · exact (congrArg Sector.generationNat (entries j)).trans rfl

theorem tail?_inside (tail : s.tail? = some i) : i < s.sectors.length :=
  (mem_ringOf.mp (List.mem_of_head? tail)).1

end

/-! ### The copied record's entry, fill and live bytes (R122) -/

section
variable {s : State} {r : RecordSpec} {q : SeqNo} {h base line i j : Nat} {k : Key}

theorem sector_copyDone (tail : s.tail? = some i) : (s.copyDone r q h base line).sector j =
    { (s.setEntry (copyEntry r q h base)).sector j with
      erasePending := ((s.setEntry (copyEntry r q h base)).sector j).erasePending ||
        decide (j = i ∧ ((s.setEntry (copyEntry r q h base)).sector i).live = 0) } := by
  have inside : i < (s.setEntry (copyEntry r q h base)).sectors.length := (length_setEntry _).symm ▸ tail?_inside tail
  rw [copyDone_eq tail]
  generalize s.setEntry (copyEntry r q h base) = t at inside
  show sectorAt (if (t.sector i).live = 0 then t.sectors.set i { t.sector i with erasePending := true } else t.sectors) j = _
  by_cases empty : (t.sector i).live = 0
  · rw [if_pos empty, sectorAt_set]
    by_cases here : j = i
    · subst here
      rw [if_pos ⟨rfl, inside⟩, decide_eq_true ⟨rfl, empty⟩, Bool.or_true]
    · rw [if_neg (fun both => here both.1), decide_eq_false (fun both => here both.1), Bool.or_false]
      rfl
  · rw [if_neg empty, decide_eq_false (fun both => empty both.2), Bool.or_false]
    rfl

theorem erasePending_setEntry (e : DirEntry) : ((s.setEntry e).sector j).erasePending = (s.sector j).erasePending := by
  rw [sector_liveOnly (liveOnly_setEntry e)]

theorem erasePending_raiseFill (n : Nat) : ((s.raiseFill h n).sector j).erasePending = (s.sector j).erasePending := by
  rw [State.raiseFill, sector_setSector]
  split
  · next here => rw [here.1]
  · rfl

theorem live_copyDone (tail : s.tail? = some i) :
    ((s.copyDone r q h base line).sector j).live = ((s.setEntry (copyEntry r q h base)).sector j).live := by
  rw [sector_copyDone tail]

theorem entry_copyDone (tail : s.tail? = some i) :
    (s.copyDone r q h base line).entry k = (s.setEntry (copyEntry r q h base)).entry k := by
  rw [copyDone_eq tail]
  rfl

/-- The replaced record's sector holds its bytes, so every sector does. -/
theorem recordLive_held {o : DirEntry} (present : s.entry k = some o) (held : o.size ≤ (s.sector o.sector).live) (j : Nat) :
    recordLiveIn (s.entry k) j ≤ (s.sector j).live := by
  rw [present]
  unfold recordLiveIn
  dsimp only [Option.elim]
  split
  · next here => exact here ▸ held
  · exact Nat.zero_le _

end

/-- Settles O44: the scan finds the record that the records passed over lead to, or nothing; the end of the copy by the rules of
the entry it sets. -/
theorem reclaimCopyMovesLiveRecord : Obligations.ReclaimCopyMovesLiveRecord := by
  refine ⟨fun s i line granted copying tail live passes below found => ?copies, fun s i granted copying tail live dead => ?nothing,
    fun s pl r q h base line l ln i data inHand goal single numbered phase last inFlight verified tail => ?done⟩
  case copies =>
    have scanned := scanTail_finds below found _ _ (Nat.le_add_left _ _) passes
    have copy := exec_reclaimCopy granted copying tail live
    rw [scanned] at copy
    have placement := copyPlacement_eq s i line
    have record : s.copyRecord i line = _ := List.head_eq_of_cons_eq (congrArg Placement.records placement)
    refine ⟨fun room => ?_, fun full few => ?_⟩
    · refine copy.trans (congrArg Host.Outcome.next ((if_pos ?_).trans (congrArg _ placement)))
      rw [record]
      exact room
    · refine copy.trans (congrArg Host.Outcome.next ((if_neg ?_).trans rfl))
      rw [record]
      rintro (fits | enough)
      · exact absurd (full.symm.trans fits) Bool.false_ne_true
      · omega
  case nothing => rw [exec_reclaimCopy granted copying tail live, scanTail_eq_none dead]; rfl
  case done =>
    refine ⟨_, (exec_singleVerified inHand single phase last inFlight verified).trans
      (congrArg _ (finishPlacement_copy single numbered goal)), ?_⟩
    have tailNow : ((s.lineProgrammed h ln data).raiseFill h r.lines).tail? = some i := tail?_raiseFill.trans tail
    have lives (j : Nat) : (((s.lineProgrammed h ln data).raiseFill h r.lines).sector j).live = (s.sector j).live :=
      live_raiseFill r.lines j
    have pendings (j : Nat) : (((s.lineProgrammed h ln data).raiseFill h r.lines).sector j).erasePending = (s.sector j).erasePending :=
      erasePending_raiseFill r.lines
    refine ⟨?entry, fun k other => ?others, ?work, ?cursor, ?state, ?pending, fun o present held inside j => ?live, fun inside => ?fill,
      ?_⟩
    case entry => rw [entry_copyDone tailNow]; exact entry_setEntry_self _ (copyEntry r q h base)
    case others => rw [entry_copyDone tailNow]; exact entry_setEntry_other (e := copyEntry r q h base) other
    case work => rw [copyDone_eq tailNow]
    case cursor => rw [copyDone_eq tailNow]
    case state => rw [live_copyDone tailNow, copyDone_eq tailNow]; rfl
    case pending =>
      rw [live_copyDone tailNow, sector_copyDone tailNow]
      dsimp only
      rw [erasePending_setEntry, pendings]
      exact congrArg _ (decide_eq_decide.mpr (and_iff_right rfl))
    case live =>
      have moved := live_setEntry (s := (s.lineProgrammed h ln data).raiseFill h r.lines) (e := copyEntry r q h base)
        (fun j => by rw [lives]; exact recordLive_held present held j)
        (by rw [State.raiseFill, setSector_sectors, List.length_set]; exact inside) j
      have replaced : ((s.lineProgrammed h ln data).raiseFill h r.lines).entry (copyEntry r q h base).key = some o := present
      rw [lives, replaced] at moved
      rw [live_copyDone tailNow]
      exact moved
    case fill =>
      rw [sector_copyDone tailNow]
      exact (fill_setEntry _).trans (fill_raiseFill r.lines inside)
    rw [copyDone_eq tailNow]
    exact ⟨rfl, rfl, rfl, rfl, rfl, rfl, rfl, rfl, rfl⟩

end Sys2Proof.Machine
end

