-- ==== Sys2Proof/Proofs/TailErase.lean ====
section
/-! PROOF. The erase of the tail (08_space_and_wear.md R126 to R128, R131): its step, the outcomes of the erase and of the RETIRED
marker, and the test of the compact target at the end of the step. -/

namespace Sys2Proof.Machine

section
variable {s v : State} {i : Nat} {suspect ok : Bool}

/-! ### The compact target (R131) -/

theorem compactReached_iff {n : Nat} {g : Generation} (target : v.reclaim.target = some n) (limit : v.reclaim.limit = some g) :
    v.compactReached = true ↔ n ≤ v.freeCount ∨ v.tail? = none ∨
      ∃ i, v.tail? = some i ∧ ((v.sector i).state = .opened ∨ g.toNat ≤ (v.sector i).generationNat) := by
  unfold State.compactReached
  rw [target, limit]
  cases v.tail? <;> simp

/-- The test is of the state that the end of the step leaves, with the target and the limit that stood before it. -/
theorem testCompact_tested (target : v.reclaim.target = s.reclaim.target) (limit : v.reclaim.limit = s.reclaim.limit) :
    s.compactTested v.testCompact := by
  refine ⟨fun clear => ?_, fun n g aimed bounded => ⟨fun reached => ?_, fun unreached => ?_⟩⟩
  · show (if v.compactReached = true then none else v.reclaim.target) = none
    rw [target, clear, ite_self]
  · have met : v.compactReached = true := (compactReached_iff (target.trans aimed) (limit.trans bounded)).mpr reached
    exact ⟨if_pos met, if_pos met⟩
  · have unmet : ¬v.compactReached = true := fun met =>
      unreached ((compactReached_iff (target.trans aimed) (limit.trans bounded)).mp met)
    exact ⟨(if_neg unmet).trans (target.trans aimed), (if_neg unmet).trans (limit.trans bounded)⟩

/-! ### The step and the outcomes of the erase (R126 to R128) -/

theorem exec_reclaimErase (granted : s.work = .reclaimGrant) (tail : s.tail? = some i)
    (step : s.reclaim.state = .erasing ∨ (s.reclaim.state = .copying ∧ (s.sector i).live = 0)) :
    exec .reclaimErase s = .next (s.eraseTail i) := by
  show execReclaimErase s = _
  unfold execReclaimErase
  rw [granted, tail]
  exact if_pos (eraseStep_iff.mpr step)

theorem eraseTail_eq : s.eraseTail i = { s with
    sectors := s.sectors.set i { s.sector i with erasePending := true }
    reclaim := { s.reclaim with state := .erasing }
    work := if s.supply = .normal then .tailErase i (s.sector i).suspect else .idle
    controller := if s.supply = .normal then .erasing i else s.controller } := by
  unfold State.eraseTail
  by_cases normal : s.supply = .normal
  · simp only [if_pos normal]
    rfl
  · simp only [if_neg normal]
    rfl

/-- A verified erase leaves the sector with one erase more and nothing in it (R127). -/
theorem sector_countErase (inside : i < s.sectors.length) : (s.countErase i).sector i =
    ⟨(s.sector i).state, none, (s.sector i).eraseCount + 1, 0, 0, false, false⟩ :=
  sector_setSector_self inside

theorem length_countErase : (s.countErase i).sectors.length = s.sectors.length := List.length_set ..

theorem sector_freed (inside : i < s.sectors.length) : ((s.countErase i).freeSector i).sector i =
    Sector.erased ((s.sector i).eraseCount + 1) := by
  rw [State.freeSector, sector_setSector_self (by rw [length_countErase]; exact inside), sector_countErase inside]
  rfl

/-- R127: a sector suspect when the erase began, or worn, is due. -/
theorem dueRetirement_iff (inside : i < s.sectors.length) : (s.countErase i).dueRetirement i suspect = true ↔
    suspect = true ∨ 60000 ≤ (s.sector i).eraseCount + 1 := by
  rw [State.dueRetirement, sector_countErase inside, Bool.or_eq_true, decide_eq_true_iff]

theorem sector_countErase_other {j : Nat} (other : j ≠ i) : (s.countErase i).sector j = s.sector j :=
  sector_setSector_other other

theorem sector_freed_other {j : Nat} (other : j ≠ i) : ((s.countErase i).freeSector i).sector j = s.sector j :=
  (sector_setSector_other other).trans (sector_countErase_other other)

theorem exec_tailErase (stuck : List (Nat × Byte)) (inHand : s.work = .tailErase i suspect) (inFlight : s.controller = .erasing i) :
    exec (.eraseComplete stuck) s = .next ((s.sectorErasedTo i (stuckBits stuck)).tailEraseEnded i suspect
      (if sectorErased (eraseSector (stuckBits stuck) i s.flash) i = true then .success else .verifyFail)) := by
  have taken : (s.sectorErasedTo i (stuckBits stuck)).work = .tailErase i suspect := inHand
  rw [exec_eraseComplete stuck inFlight, State.eraseEnded, taken]

/-- Of a tail whose erase failed, the sector table stands (R128). -/
theorem sectors_tailFailed : (s.tailFailed i).sectors = s.sectors := by
  unfold State.tailFailed
  split <;> rfl

/-- The outcome of a tail's erase leaves the directory and the clients alone. -/
structure StoreAside (s t : State) : Prop where
  flash : t.flash = s.flash
  directory : t.directory = s.directory
  ports : t.ports = s.ports
  sessions : t.sessions = s.sessions
  leases : t.leases = s.leases

theorem tailEraseEnded_aside (o : EraseOutcome) : StoreAside s (s.tailEraseEnded i suspect o) := by
  unfold State.tailEraseEnded State.tailErased State.tailFailed
  cases o with
  | success =>
    dsimp only
    split
    · exact ⟨rfl, rfl, rfl, rfl, rfl⟩
    · exact ⟨rfl, rfl, rfl, rfl, rfl⟩
  | verifyFail =>
    dsimp only
    split
    · exact ⟨rfl, rfl, rfl, rfl, rfl⟩
    · exact ⟨rfl, rfl, rfl, rfl, rfl⟩
  | aborted => exact ⟨rfl, rfl, rfl, rfl, rfl⟩

/-- A verified erase of a tail not due for retirement: the sector joins the free pool and the step ends. -/
theorem tailErased_frees (inside : i < s.sectors.length) (fresh : ¬(suspect = true ∨ 60000 ≤ (s.sector i).eraseCount + 1)) :
    s.tailErased i suspect = ((s.countErase i).freeSector i).endTail :=
  if_neg fun due => fresh ((dueRetirement_iff inside).mp due)

theorem tailErased_retires (inside : i < s.sectors.length) (due : suspect = true ∨ 60000 ≤ (s.sector i).eraseCount + 1) :
    s.tailErased i suspect = (s.countErase i).retireTail i :=
  if_pos ((dueRetirement_iff inside).mpr due)

theorem sector_tailErased (inside : i < s.sectors.length) :
    (s.tailErased i suspect).sector i = { (s.countErase i).sector i with state := ((s.tailErased i suspect).sector i).state } := by
  by_cases due : suspect = true ∨ 60000 ≤ (s.sector i).eraseCount + 1
  · rw [tailErased_retires inside due]
    rfl
  · rw [tailErased_frees inside due]
    show ((s.countErase i).freeSector i).sector i = { (s.countErase i).sector i with
      state := (((s.countErase i).freeSector i).sector i).state }
    rw [sector_freed inside, sector_countErase inside]
    rfl

theorem sector_tailErased_other {j : Nat} (other : j ≠ i) : (s.tailErased i suspect).sector j = s.sector j := by
  unfold State.tailErased
  split
  · exact sector_countErase_other other
  · exact sector_freed_other other

end

/-- Settles O45: the step, the end of the RETIRED marker, and the outcomes of the erase, each by its rule. -/
theorem tailEraseOutcomes : Obligations.TailEraseOutcomes := by
  refine ⟨fun s i granted tail step => (exec_reclaimErase granted tail step).trans (congrArg _ eraseTail_eq),
    fun s i res data inHand inFlight => ?retired, fun s i suspect stuck inHand inFlight inside => ?erased⟩
  case retired =>
    have taken : (s.lineProgrammed i 4 (LineResult.bits data res)).work = .tailRetire i := inHand
    have run : exec (.lineProgramComplete res) s = .next ((s.lineProgrammed i 4 (LineResult.bits data res)).tailRetired i
        (decide (readLine (programBytes s.flash (lineAddress i 4) (LineResult.bits data res)) i 4 = data))) := by
      rw [exec_lineProgramComplete res inFlight, State.lineEnded, taken]
    exact ⟨_, run, rfl, rfl, rfl, rfl, rfl, rfl, rfl, testCompact_tested rfl rfl, rfl, rfl,
      if_congr (and_congr Iff.rfl readOnlyTest_iff) rfl rfl⟩
  case erased =>
    have aside (o : EraseOutcome) := tailEraseEnded_aside (s := s.sectorErasedTo i (stuckBits stuck)) (i := i) (suspect := suspect) o
    have within : i < (s.sectorErasedTo i (stuckBits stuck)).sectors.length := inside
    have run := exec_tailErase stuck inHand inFlight
    cases verified : sectorErased (eraseSector (stuckBits stuck) i s.flash) i with
    | true =>
      rw [if_pos verified] at run
      obtain ⟨flash, directory, ports, sessions, leases⟩ := aside .success
      have fields := sector_tailErased (suspect := suspect) within
      rw [sector_countErase within] at fields
      have failed {c : Prop} (failed : sectorErased (eraseSector (stuckBits stuck) i s.flash) i = false) : c :=
        absurd (verified.symm.trans failed) (by decide)
      refine ⟨_, run, flash, directory, ports, sessions, leases, fun j other => sector_tailErased_other other, ?_,
        fun _ => ⟨congrArg Sector.eraseCount fields, congrArg Sector.fill fields, congrArg Sector.live fields,
          congrArg Sector.suspect fields, congrArg Sector.erasePending fields, congrArg Sector.generation fields, ?_⟩,
        fun unverified => failed ((congrArg (sectorErased · i) flash).symm.trans unverified)⟩
      · by_cases due : suspect = true ∨ 60000 ≤ (s.sector i).eraseCount + 1
        · intro idle
          rw [State.tailEraseEnded, tailErased_retires within due] at idle
          cases idle
        · rw [State.tailEraseEnded, tailErased_frees within due]
          exact fun _ => testCompact_tested rfl rfl
      · by_cases due : suspect = true ∨ 60000 ≤ (s.sector i).eraseCount + 1
        · rw [if_pos due, State.tailEraseEnded, tailErased_retires within due]
          exact ⟨rfl, rfl⟩
        · rw [if_neg due, State.tailEraseEnded, tailErased_frees within due]
          exact ⟨congrArg Sector.state (sector_freed within), rfl, rfl, rfl, rfl, rfl⟩
    | false =>
      rw [if_neg (by rw [verified]; decide)] at run
      obtain ⟨flash, directory, ports, sessions, leases⟩ := aside .verifyFail
      have stands : ((s.sectorErasedTo i (stuckBits stuck)).tailFailed i).sectors = s.sectors := sectors_tailFailed
      have succeeded {c : Prop} (good : sectorErased (eraseSector (stuckBits stuck) i s.flash) i = true) : c :=
        absurd (verified.symm.trans good) (by decide)
      refine ⟨_, run, flash, directory, ports, sessions, leases, fun j _ => congrArg (sectorAt · j) stands, ?_,
        fun good => succeeded ((congrArg (sectorErased · i) flash).symm.trans good), fun _ => ⟨stands, ?_⟩⟩
      · by_cases fresh : s.reclaim.failures = 0
        · have again : (s.sectorErasedTo i (stuckBits stuck)).tailFailed i = _ := if_pos fresh
          rw [State.tailEraseEnded, again]
          exact fun _ => testCompact_tested rfl rfl
        · have retires : (s.sectorErasedTo i (stuckBits stuck)).tailFailed i = _ := if_neg fresh
          intro idle
          rw [State.tailEraseEnded, retires] at idle
          cases idle
      · by_cases fresh : s.reclaim.failures = 0
        · have again : (s.sectorErasedTo i (stuckBits stuck)).tailFailed i = _ := if_pos fresh
          rw [if_pos fresh, State.tailEraseEnded, again]
          exact ⟨rfl, rfl, rfl, rfl⟩
        · have retires : (s.sectorErasedTo i (stuckBits stuck)).tailFailed i = _ := if_neg fresh
          rw [if_neg fresh, State.tailEraseEnded, retires]
          exact ⟨rfl, rfl⟩

end Sys2Proof.Machine
end

