-- ==== Sys2Proof/Proofs/Formatting.lean ====
section
/-! PROOF. FORMAT (10_mounting_recovery_and_format.md R155 to R159): its checks, the placement of the WIPE record, the erases of
case 3 and of the sweep with their outcomes, and the completion. -/

namespace Sys2Proof.Machine

section
variable {s : State} {p : Port} {r : Request} {f : FormatWork} {i : Nat}

/-! ### The request (R155) -/

theorem othersClosed_eq_false_iff : s.othersClosed p = false ↔
    (s.session (Port.next p)).isOpen = true ∨ (s.session (Port.next (Port.next p))).isOpen = true := by
  rw [State.othersClosed, Bool.and_eq_false_iff, Bool.not_eq_false', Bool.not_eq_false']

/-! ### Placing the WIPE record (R156) -/

theorem wipePlace_places (room : s.fitsHead 2 = true ∨ 1 ≤ s.freeCount) :
    s.wipePlace f = s.startPlacement ⟨.wipe f.port f.tag, [⟨.wipe, false, 0, [], 0, 0⟩], f.wipeSeq, 0, .closing 0⟩ :=
  if_pos room

theorem fitsHead_two_of_room {h : Nat} (head : s.head? = some h) (room : (s.sector h).fill ≤ 249) : s.fitsHead 2 = true := by
  rw [fitsHead_of_head head, decide_eq_true_iff]
  omega

theorem wipePlace_erases (full : ∀ h, s.head? = some h → 249 < (s.sector h).fill) (empty : s.freeCount = 0) :
    s.wipePlace f = s.wipeErase f := by
  refine if_neg ?_
  rintro (fits | free)
  · unfold State.fitsHead at fits
    split at fits
    · next h head =>
      have filled := full h head
      rw [decide_eq_true_iff] at fits
      omega
    · cases fits
  · omega

theorem wipeErase_empty (empty : s.tail? = none) : s.wipeErase f = s.sweepFrom f 0 := by
  rw [State.wipeErase, empty]

theorem wipeErase_tail (tail : s.tail? = some i) : s.wipeErase f =
    if s.supply = .guard then { s with work := .format { f with phase := .paused } }
    else { s with
      sectors := s.sectors.set i { s.sector i with erasePending := true }
      work := .format { f with phase := .firstErase i (s.sector i).suspect }
      controller := .erasing i } := by
  rw [State.wipeErase, tail]
  by_cases normal : s.supply = .normal
  · exact (if_pos normal).trans (if_neg (by rw [normal]; decide)).symm
  · have guard : s.supply = .guard := by
      cases supply : s.supply with
      | guard => rfl
      | normal => exact absurd supply normal
    exact (if_neg normal).trans (if_pos guard).symm

/-! ### Going on with FORMAT (R157, R158) -/

theorem exec_formatErase_guard (inHand : s.work = .format f) (guard : s.supply = .guard) : exec .formatErase s = .next s := by
  show execFormatErase s = _
  unfold execFormatErase
  rw [inHand, guard]
  dsimp only
  split
  · exact if_neg (by decide)
  · rfl

theorem exec_wipeRePlacement_guard (inHand : s.work = .format f) (guard : s.supply = .guard) :
    exec .wipeRePlacement s = .next s := by
  show execWipeRePlacement s = _
  unfold execWipeRePlacement
  rw [inHand, guard]
  dsimp only
  split
  · exact if_neg (by decide)
  · rfl

theorem exec_wipeRePlacement (inHand : s.work = .format f) (normal : s.supply = .normal) (paused : f.phase = .paused) :
    exec .wipeRePlacement s = .next (s.wipePlace f) := by
  show execWipeRePlacement s = _
  unfold execWipeRePlacement
  rw [inHand]
  dsimp only
  rw [paused]
  exact if_pos normal

theorem exec_formatErase (inHand : s.work = .format f) (normal : s.supply = .normal) (phase : f.phase = .sweep i) :
    exec .formatErase s = .next (s.startSweep f i) := by
  show execFormatErase s = _
  unfold execFormatErase
  rw [inHand]
  dsimp only
  rw [phase]
  exact if_pos normal

theorem startSweep_eq : s.startSweep f i = { s with
    sectors := if (s.sector i).inRing = true then s.sectors.set i { s.sector i with erasePending := true } else s.sectors
    work := .format { f with phase := .sweepErase i (s.sector i).suspect }
    controller := .erasing i } := by
  unfold State.startSweep
  cases (s.sector i).inRing <;> rfl

end

/-- Settles O40: FORMAT's checks, the cases of R156, and the steps that wait for NORMAL. -/
theorem formatChecksAndPauses : Obligations.FormatChecksAndPauses := by
  refine ⟨fun s p r ⟨inHand, coded⟩ => ?format,
    fun s f => ⟨fun h head room => wipePlace_places (.inl (fitsHead_two_of_room head room)), fun free => wipePlace_places (.inr free),
      fun full empty => wipePlace_erases full empty, wipeErase_empty, fun i tail => wipeErase_tail tail⟩,
    fun s f inHand => ⟨fun guard => ⟨exec_formatErase_guard inHand guard, exec_wipeRePlacement_guard inHand guard⟩,
      fun normal paused => exec_wipeRePlacement inHand normal paused,
      fun i normal phase => (exec_formatErase inHand normal phase).trans (congrArg _ startSweep_eq)⟩⟩
  case format =>
    refine (serve_granted inHand coded).trans (congrArg _ (settle_emptyBody ?_))
    rw [checkRight, settle_step, settle_step, settle_checkSupply, settle_end]
    exact if_congr Iff.rfl rfl (if_congr othersClosed_eq_false_iff rfl rfl)

/-! ### The outcomes of FORMAT's erases (R156, R157) -/

section
variable {s : State} {f : FormatWork} {i l : Nat} {suspect : Bool} {data : List Byte}

theorem exec_formatEraseEnded (stuck : List (Nat × Byte)) (inHand : s.work = .format f) (inFlight : s.controller = .erasing i) :
    exec (.eraseComplete stuck) s = .next ((s.sectorErasedTo i (stuckBits stuck)).formatErased f
      (if sectorErased (eraseSector (stuckBits stuck) i s.flash) i = true then .success else .verifyFail)) := by
  have taken : (s.sectorErasedTo i (stuckBits stuck)).work = .format f := inHand
  rw [exec_eraseComplete stuck inFlight, State.eraseEnded, taken]

theorem exec_formatLineEnded (res : LineResult) (inHand : s.work = .format f) (inFlight : s.controller = .programming i l data) :
    exec (.lineProgramComplete res) s = .next ((s.lineProgrammed i l (LineResult.bits data res)).formatLine f
      (decide (readLine (programBytes s.flash (lineAddress i l) (LineResult.bits data res)) i l = data))) := by
  have taken : (s.lineProgrammed i l (LineResult.bits data res)).work = .format f := inHand
  rw [exec_lineProgramComplete res inFlight, State.lineEnded, taken]

theorem formatErased_first (phase : f.phase = .firstErase i suspect) (o : EraseOutcome) :
    s.formatErased f o = s.firstErased f i suspect o := by
  rw [State.formatErased, phase]

theorem formatErased_sweep (phase : f.phase = .sweepErase i suspect) (o : EraseOutcome) :
    s.formatErased f o = s.sweepErased f i suspect o := by
  rw [State.formatErased, phase]

theorem formatLine_first (ok : Bool) (phase : f.phase = .firstRetire i) :
    s.formatLine f ok = (s.retireSector i ok).wipeErase { f with failures := 0 } := by
  rw [State.formatLine, phase]

theorem formatLine_sweep (ok : Bool) (phase : f.phase = .sweepRetire i) :
    s.formatLine f ok = (s.retireSector i ok).sweepFrom f (i + 1) := by
  rw [State.formatLine, phase]

/-- A verified erase whose sector joins the free pool. -/
theorem freed_eq (inside : i < s.sectors.length) : (s.countErase i).freeSector i = { s with
    sectors := s.sectors.set i ⟨.erased, none, (s.sector i).eraseCount + 1, 0, 0, false, false⟩ } := by
  rw [State.freeSector, State.setSector, sector_countErase inside, State.countErase, State.setSector]
  dsimp only
  rw [List.set_set]

/-- What follows a verified erase: a sector that is due for retirement keeps its state until its marker is programmed, and any
other joins the free pool. -/
theorem verifiedErase_eq (inside : i < s.sectors.length) (retires frees : State → State) :
    (if (s.countErase i).dueRetirement i suspect = true then retires (s.countErase i) else frees ((s.countErase i).freeSector i)) =
      let due := suspect = true ∨ 60000 ≤ (s.sector i).eraseCount + 1
      let counted : Sector := ⟨if due then (s.sector i).state else .erased, none, (s.sector i).eraseCount + 1, 0, 0, false, false⟩
      let v := { s with sectors := s.sectors.set i counted }
      if due then retires v else frees v := by
  by_cases due : suspect = true ∨ 60000 ≤ (s.sector i).eraseCount + 1
  · simp only [if_pos due]
    exact if_pos ((dueRetirement_iff inside).mpr due)
  · simp only [if_neg due]
    exact (if_neg fun worn => due ((dueRetirement_iff inside).mp worn)).trans (congrArg frees (freed_eq inside))

/-- R137, R156, R157: GUARD stops an erase, which is then to be made again. -/
theorem formatErased_aborted (phase : f.phase = .firstErase i suspect ∨ f.phase = .sweepErase i suspect) :
    s.formatErased f .aborted = { s with
      work := .format { f with phase := if f.phase = .firstErase i suspect then .paused else .sweep i } } := by
  rcases phase with phase | phase
  · rw [formatErased_first phase, if_pos phase]
    rfl
  · rw [formatErased_sweep phase, if_neg (by rw [phase]; exact fun same => by cases same)]
    rfl

/-- R137: GUARD stops the erase in flight, and the sector is left as far as the erase had gone. -/
theorem exec_guardArrival_erasing (running : s.inReset = false) (normal : s.supply = .normal) (inFlight : s.controller = .erasing i) :
    exec .guardArrival s = .next (({ s with
      supply := .guard, supplyHigh := false, controller := .idle, flash := eraseSector (Config.erasedBits s.draws) i s.flash
      draws := s.draws + 1 } : State).eraseEnded .aborted) := by
  have run : exec .guardArrival s = .next ({ s with supply := .guard, supplyHigh := false } : State).abortErase := by
    show execGuardArrival s = _
    unfold execGuardArrival
    exact (if_neg (by rw [running]; decide)).trans (if_neg (by rw [normal]; decide))
  have stopped : ({ s with supply := .guard, supplyHigh := false } : State).abortErase =
      ({ s with
        supply := .guard, supplyHigh := false, controller := .idle, flash := eraseSector (Config.erasedBits s.draws) i s.flash
        draws := s.draws + 1 } : State).eraseEnded .aborted := by
    rw [State.abortErase, inFlight]
    rfl
  rw [run, stopped]

/-- GUARD meets an erase of FORMAT: the sector is left as far as the erase had gone. -/
theorem exec_guardArrival_format (running : s.inReset = false) (normal : s.supply = .normal) (inHand : s.work = .format f)
    (inFlight : s.controller = .erasing i) (phase : f.phase = .firstErase i suspect ∨ f.phase = .sweepErase i suspect) :
    exec .guardArrival s = .next { s with
      supply := .guard, supplyHigh := false, controller := .idle, flash := eraseSector (Config.erasedBits s.draws) i s.flash
      draws := s.draws + 1
      work := .format { f with phase := if f.phase = .firstErase i suspect then .paused else .sweep i } } := by
  rw [exec_guardArrival_erasing running normal inFlight, State.eraseEnded, inHand]
  exact congrArg Host.Outcome.next (formatErased_aborted phase)

/-! ### The sweep in ascending index (R157) -/

theorem sweepDue_iff : s.sweepDue i = true ↔ (s.sector i).state ≠ .retired ∧ (s.sector i).state ≠ .opened := by
  rw [State.sweepDue, Bool.and_eq_true, decide_eq_true_iff, decide_eq_true_iff]

theorem nextSweep_eq_some {j : Nat} (inside : j < s.sectors.length) (due : i ≤ j ∧ s.sweepDue j = true)
    (first : ∀ k, k < j → ¬(i ≤ k ∧ s.sweepDue k = true)) : s.nextSweep i = some j := by
  rw [State.nextSweep, List.find?_range_eq_some]
  refine ⟨by rw [Bool.and_eq_true, decide_eq_true_iff]; exact due, List.mem_range.mpr inside, fun k before => ?_⟩
  rw [Bool.not_eq_true', ← Bool.not_eq_true, Bool.and_eq_true, decide_eq_true_iff]
  exact first k before

theorem nextSweep_eq_none (done : ∀ j, j < s.sectors.length → ¬(i ≤ j ∧ s.sweepDue j = true)) : s.nextSweep i = none := by
  refine List.find?_eq_none.mpr fun j inRange => ?_
  rw [Bool.and_eq_true, decide_eq_true_iff]
  exact done j (List.mem_range.mp inRange)

theorem sweepFrom_next {j : Nat} (inside : j < s.sectors.length) (due : i ≤ j ∧ s.sweepDue j = true)
    (first : ∀ k, k < j → ¬(i ≤ k ∧ s.sweepDue k = true)) :
    s.sweepFrom f i = { s with work := .format { f with phase := .sweep j, failures := 0 } } := by
  rw [State.sweepFrom, nextSweep_eq_some inside due first]

theorem sweepFrom_done (done : ∀ j, j < s.sectors.length → ¬(i ≤ j ∧ s.sweepDue j = true)) :
    s.sweepFrom f i = s.formatComplete f := by
  rw [State.sweepFrom, nextSweep_eq_none done]

end

/-- Settles O41: the outcome of each erase and marker by FORMAT's phase, and the sector that the sweep takes next. -/
theorem formatEraseOutcomes : Obligations.FormatEraseOutcomes := by
  refine ⟨fun s f i suspect inHand inFlight inside => ⟨fun stuck => ⟨fun phase => ?first, fun phase => ?sweep⟩,
      fun running normal phase => ?aborted⟩,
    fun s f i l data res inHand inFlight => ⟨fun phase => ?firstMarker, fun phase => ?sweepMarker⟩,
    fun s f i => ⟨fun j within due before => ?next, fun done => ?done⟩⟩
  case first =>
    have within : i < (s.sectorErasedTo i (stuckBits stuck)).sectors.length := inside
    rw [exec_formatEraseEnded stuck inHand inFlight, formatErased_first phase]
    refine congrArg Host.Outcome.next ?_
    cases sectorErased (eraseSector (stuckBits stuck) i s.flash) i
    · rfl
    · exact verifiedErase_eq within (fun x => x.formatRetire f i (.firstRetire i))
        fun x => x.wipePlace { f with phase := .paused, failures := 0 }
  case sweep =>
    have within : i < (s.sectorErasedTo i (stuckBits stuck)).sectors.length := inside
    rw [exec_formatEraseEnded stuck inHand inFlight, formatErased_sweep phase]
    refine congrArg Host.Outcome.next ?_
    cases sectorErased (eraseSector (stuckBits stuck) i s.flash) i
    · rfl
    · exact verifiedErase_eq within (fun x => x.formatRetire f i (.sweepRetire i)) fun x => x.sweepFrom f (i + 1)
  case aborted =>
    exact ⟨_, exec_guardArrival_format running normal inHand inFlight phase⟩
  case firstMarker =>
    rw [exec_formatLineEnded res inHand inFlight, formatLine_first _ phase]
    rfl
  case sweepMarker =>
    rw [exec_formatLineEnded res inHand inFlight, formatLine_sweep _ phase]
    rfl
  case next =>
    have same (k : Nat) : i ≤ k ∧ s.sweepDue k = true ↔ i ≤ k ∧ (s.sector k).state ≠ .retired ∧ (s.sector k).state ≠ .opened :=
      and_congr Iff.rfl sweepDue_iff
    exact sweepFrom_next within ((same j).mpr due) fun k earlier due => before k earlier ((same k).mp due)
  case done =>
    exact sweepFrom_done fun j within due => done j within ⟨due.1, sweepDue_iff.mp due.2⟩

end Sys2Proof.Machine
end

