-- ==== Sys2Proof/Proofs/TeardownAndCompletion.lean ====
section
/-! PROOF. The end of a session (05_claims.md R79, R87; 11_client_ports_and_sessions.md R172, R173) and the completion of FORMAT
(10_mounting_recovery_and_format.md R159): who is touched when every lease of a port ends, and what else the two leave. -/

namespace Sys2Proof.Machine

/-! ### Who is touched when leases end (R79) -/

section
variable {s : State} {k j : Key} {p q : Port} {e : Lease} {w : Waiter} {rest : List Waiter}

/-- The port that takes over a lease when it ends: its oldest waiter's. -/
def State.nextHolder (s : State) (k : Key) : Option Port := (s.leaseOf k).bind fun e => e.waiters.head?.map Waiter.port

theorem nextHolder_endLease_other (other : j ≠ k) : (s.endLease k).nextHolder j = s.nextHolder j := by
  rw [State.nextHolder, leaseOf_endLease, if_neg other]
  rfl

/-- The session and the frame unit of a port. -/
def State.client (s : State) (q : Port) : Session × PortUnit := (s.session q, s.port q)

theorem endLease_client_other (away : s.nextHolder k ≠ some q) : (s.endLease k).client q = s.client q := by
  cases entry : s.leaseOf k with
  | none => rw [endLease_absent entry]
  | some e =>
    cases waiting : e.waiters with
    | nil => rw [endLease_removes entry waiting]; rfl
    | cons w rest =>
      have other : q ≠ w.port := fun same => away (by rw [State.nextHolder, entry, same]; simp [waiting])
      rw [endLease_passes entry waiting, State.client, session_handReply, port_handReply_other _ _ other]
      exact congrArg (·, s.port q) (get_set_other s.sessions _ other)

/-- What the hand-over leaves of the oldest waiter's port: no parked claim, and OK GRANTED under its tag. -/
def State.handedTo (s : State) (w : Waiter) : Session × PortUnit :=
  ({ s.session w.port with parked := none }, (s.port w.port).receive ⟨w.tag, .ok, claimBody 1 (s.periodUsed w.period)⟩)

theorem endLease_client_next (entry : s.leaseOf k = some e) (waiting : e.waiters = w :: rest) :
    (s.endLease k).client w.port = s.handedTo w := by
  rw [endLease_passes entry waiting, State.client, session_handReply, port_handReply_self]
  exact congrArg (·, _) (get_set_self s.sessions w.port _)

theorem periodUsed_endLease (n : Nat) : (s.endLease k).periodUsed n = s.periodUsed n := by
  obtain ⟨leases, sessions, ports, touched⟩ := endLease_clients s k
  rw [touched]
  rfl

theorem foldl_endLease_client_other (keys : List Key) : ∀ s : State, keys.Nodup → (∀ k ∈ keys, s.nextHolder k ≠ some q) →
    (keys.foldl State.endLease s).client q = s.client q := by
  induction keys with
  | nil => exact fun _ _ _ => rfl
  | cons k keys ih =>
    intro s distinct away
    obtain ⟨fresh, later⟩ := List.nodup_cons.mp distinct
    obtain ⟨here, others⟩ := List.forall_mem_cons.mp away
    rw [List.foldl_cons, ih _ later, endLease_client_other here]
    intro j listed
    have other : j ≠ k := fun same => fresh (same ▸ listed)
    rw [nextHolder_endLease_other other]
    exact others j listed

/-- A port that takes over one of the leases and no other is granted that one. -/
theorem foldl_endLease_client_next (keys : List Key) : ∀ s : State, keys.Nodup → k ∈ keys → s.leaseOf k = some e →
    e.waiters = w :: rest → (∀ j ∈ keys, j ≠ k → s.nextHolder j ≠ some w.port) →
    (keys.foldl State.endLease s).client w.port = s.handedTo w := by
  induction keys with
  | nil => exact fun _ _ listed => absurd listed List.not_mem_nil
  | cons x keys ih =>
    intro s distinct listed entry waiting away
    obtain ⟨fresh, later⟩ := List.nodup_cons.mp distinct
    obtain ⟨here, others⟩ := List.forall_mem_cons.mp away
    rw [List.foldl_cons]
    by_cases same : k = x
    · subst same
      rw [foldl_endLease_client_other keys _ later, endLease_client_next entry waiting]
      intro j inside
      have other : j ≠ k := fun same => fresh (same ▸ inside)
      rw [nextHolder_endLease_other other]
      exact others j inside other
    · have client : (s.endLease x).client w.port = s.client w.port := endLease_client_other (here (Ne.symm same))
      have after := ih (s.endLease x) later ((List.mem_cons.mp listed).resolve_left same)
        (by rw [leaseOf_endLease, if_neg same]; exact entry) waiting fun j inside other => by
          have away : j ≠ x := fun same => fresh (same ▸ inside)
          rw [nextHolder_endLease_other away]
          exact others j inside other
      have session : (s.endLease x).session w.port = s.session w.port := congrArg Prod.fst client
      have port : (s.endLease x).port w.port = s.port w.port := congrArg Prod.snd client
      rw [after, State.handedTo, State.handedTo, periodUsed_endLease, session, port]

end

/-! ### Every lease of a port ends (R87) -/

section
variable {s : State} {k : Key} {p q : Port} {e : Lease} {w : Waiter} {rest : List Waiter}

theorem mem_keysHeld_iff (sound : s.tableSound) : k ∈ s.keysHeld p ↔ ∃ e, s.leaseOf k = some e ∧ e.holder = p := by
  constructor
  · intro held
    obtain ⟨e, inside, key⟩ := List.mem_map.mp held
    obtain ⟨listed, holds⟩ := List.mem_filter.mp inside
    exact ⟨e, (leaseOf_eq_some_iff sound).mpr ⟨listed, key⟩, of_decide_eq_true holds⟩
  · rintro ⟨e, entry, holds⟩
    obtain ⟨listed, key⟩ := (leaseOf_eq_some_iff sound).mp entry
    exact key ▸ (mem_keysHeld sound listed).mpr holds

theorem nextHolder_eq_some (next : s.nextHolder k = some q) :
    ∃ e w rest, s.leaseOf k = some e ∧ e.waiters = w :: rest ∧ w.port = q := by
  obtain ⟨e, entry, first⟩ := Option.bind_eq_some_iff.mp next
  obtain ⟨w, head, port⟩ := Option.map_eq_some_iff.mp first
  obtain ⟨rest, waiting⟩ := List.head?_eq_some_iff.mp head
  exact ⟨e, w, rest, entry, waiting, port⟩

/-- A port waits for one key at most: its session's marker names it. -/
theorem waits_for_one (sound : s.tableSound) {j : Key} {e' : Lease} {w' : Waiter} (entry : s.leaseOf k = some e)
    (waits : w ∈ e.waiters) (entry' : s.leaseOf j = some e') (waits' : w' ∈ e'.waiters) (same : w'.port = w.port) : j = k := by
  obtain ⟨listed, key⟩ := (leaseOf_eq_some_iff sound).mp entry
  obtain ⟨listed', key'⟩ := (leaseOf_eq_some_iff sound).mp entry'
  have mark := ((sound.2.entries e listed).2 w waits).2
  have mark' := ((sound.2.entries e' listed').2 w' waits').2
  rw [same, mark] at mark'
  rw [← key, ← key']
  exact (congrArg Prod.fst (Option.some.inj mark')).symm

/-- No holder waits for its own lease. -/
theorem releaseAll_client_own (sound : s.tableSound) : (s.releaseAll p).client p = s.client p := by
  refine foldl_endLease_client_other _ s (keysHeld_nodup sound) fun k held next => ?_
  obtain ⟨e, entry, holds⟩ := (mem_keysHeld_iff sound).mp held
  obtain ⟨e', w, rest, entry', waiting, port⟩ := nextHolder_eq_some next
  cases entry.symm.trans entry'
  obtain ⟨listed, -⟩ := (leaseOf_eq_some_iff sound).mp entry
  exact ((sound.2.entries e listed).2 w (by rw [waiting]; exact List.mem_cons_self)).1 (port.trans holds.symm)

theorem releaseAll_client_other (sound : s.tableSound)
    (away : ∀ e ∈ s.leases, e.holder = p → e.waiters.head?.map Waiter.port ≠ some q) :
    (s.releaseAll p).client q = s.client q := by
  refine foldl_endLease_client_other _ s (keysHeld_nodup sound) fun k held next => ?_
  obtain ⟨e, entry, holds⟩ := (mem_keysHeld_iff sound).mp held
  rw [State.nextHolder, entry] at next
  exact away e ((leaseOf_eq_some_iff sound).mp entry).1 holds next

theorem releaseAll_client_next (sound : s.tableSound) (listed : e ∈ s.leases) (holds : e.holder = p)
    (waiting : e.waiters = w :: rest) : (s.releaseAll p).client w.port = s.handedTo w := by
  have entry : s.leaseOf e.key = some e := (leaseOf_eq_some_iff sound).mpr ⟨listed, rfl⟩
  refine foldl_endLease_client_next _ s (keysHeld_nodup sound) ((mem_keysHeld sound listed).mpr holds) entry waiting
    fun j _ other next => other ?_
  obtain ⟨e', w', rest', entry', waiting', port⟩ := nextHolder_eq_some next
  exact waits_for_one sound entry (by rw [waiting]; exact List.mem_cons_self) entry' (by rw [waiting']; exact List.mem_cons_self) port

/-! ### The parked claim (R83, R87) -/

theorem Lease.without_eq_self (nowhere : ∀ w ∈ e.waiters, w.port ≠ p) : e.without p = e := by
  have kept : (e.waiters.filter fun w => !decide (w.port = p)) = e.waiters :=
    List.filter_eq_self.mpr fun w waits => by simpa using nowhere w waits
  rw [Lease.without, kept]

theorem find_map_without (l : List Lease) :
    findKeyed Lease.key k (l.map fun e => e.without p) = (findKeyed Lease.key k l).map fun e => e.without p := by
  induction l with
  | nil => rfl
  | cons e l ih =>
    unfold findKeyed at ih ⊢
    rw [List.map_cons, List.find?_cons, List.find?_cons, ih]
    show (match e.key == k with | true => _ | false => _) = _
    cases e.key == k <;> rfl

/-- The port's parked claim has left the lease table, whether or not it is answered. -/
theorem leases_dropParked (answered : Bool) (sound : s.tableSound) :
    (s.dropParked p answered).leases = s.leases.map fun e => e.without p := by
  unfold State.dropParked
  split
  · next unparked =>
    exact (List.map_congr_left fun e listed => Lease.without_eq_self (sound.2.waits_nowhere unparked e listed)).trans
      (List.map_id _) |>.symm
  · split <;> rfl

theorem leaseOf_dropParked (answered : Bool) (sound : s.tableSound) :
    (s.dropParked p answered).leaseOf k = (s.leaseOf k).map fun e => e.without p := by
  rw [State.leaseOf, leases_dropParked answered sound]
  exact find_map_without s.leases

theorem client_dropParked_other (answered : Bool) (other : q ≠ p) : (s.dropParked p answered).client q = s.client q := by
  have removed : (s.removeParked p).session q = s.session q := get_set_other s.sessions _ other
  unfold State.dropParked
  split
  · rfl
  · split
    · rw [State.client, session_handReply, port_handReply_other _ _ other, removed]
      rfl
    · rw [State.client, removed]
      rfl

theorem port_dropParked_own (answered : Bool) : (s.dropParked p answered).port p = { s.port p with
    replies := if (s.port p).state = .resetting ∨ answered = false then (s.port p).replies
      else (s.port p).replies ++ ((s.session p).parked.elim [] fun mark => [⟨mark.2, .aborted, []⟩]) } := by
  unfold State.dropParked
  cases parked : (s.session p).parked with
  | none =>
    dsimp only [Option.elim]
    rw [List.append_nil, ite_self]
  | some mark =>
    cases answered with
    | true =>
      have same : (s.port p).state = .resetting ↔ (s.port p).state = .resetting ∨ true = false := by simp
      refine (port_handReply_self _ p _).trans ?_
      exact congrArg (fun l => { s.port p with replies := l }) (if_congr same rfl rfl)
    | false =>
      rw [if_pos (.inr rfl)]
      rfl

end

/-! ### The teardown (R87, R173) -/

section
variable {s t : State} {k : Key} {p q : Port} {e : Lease} {w : Waiter} {rest : List Waiter} {answered : Bool}

theorem leaseOf_tearDown (sound : s.tableSound) : (s.tearDown p answered).leaseOf k =
    (if k ∈ s.keysHeld p then (s.leaseOf k).bind s.passed else s.leaseOf k).map fun e => e.without p := by
  rw [← leaseOf_releaseAll sound, ← leaseOf_dropParked answered (releaseAll_tableSound p sound)]
  rfl

theorem client_tearDown_other (other : q ≠ p) : (s.tearDown p answered).client q = (s.releaseAll p).client q := by
  rw [← client_dropParked_other (s := s.releaseAll p) answered other]
  have kept : (s.tearDown p answered).session q = ((s.releaseAll p).dropParked p answered).session q :=
    session_setSession_other _ _ other
  exact congrArg (·, ((s.releaseAll p).dropParked p answered).port q) kept

theorem port_tearDown_own (sound : s.tableSound) : (s.tearDown p answered).port p = { s.port p with
    replies := if (s.port p).state = .resetting ∨ answered = false then (s.port p).replies
      else (s.port p).replies ++ ((s.session p).parked.elim [] fun mark => [⟨mark.2, .aborted, []⟩]) } := by
  have own := releaseAll_client_own (p := p) sound
  rw [← show (s.releaseAll p).port p = s.port p from congrArg Prod.snd own,
    ← show (s.releaseAll p).session p = s.session p from congrArg Prod.fst own]
  exact port_dropParked_own answered

/-- Where the lease table and the sessions are those of the teardown, and the other ports too, its leases are released. -/
theorem tearDown_releases (sound : s.tableSound) (leases : t.leases = (s.tearDown p answered).leases)
    (clients : ∀ q, q ≠ p → t.client q = (s.tearDown p answered).client q) : s.releasesOf t p := by
  have found (k : Key) : t.leaseOf k =
      (if k ∈ s.keysHeld p then (s.leaseOf k).bind s.passed else s.leaseOf k).map fun e => e.without p := by
    rw [State.leaseOf, leases]
    exact leaseOf_tearDown sound
  have entered {e : Lease} (listed : e ∈ s.leases) : s.leaseOf e.key = some e := (leaseOf_eq_some_iff sound).mpr ⟨listed, rfl⟩
  refine ⟨fun k absent => ?absent, fun e listed other => ?stands, fun e listed holds unwaited => ?ended,
    fun e listed holds w rest waiting => ?passed, fun q other away => ?untouched⟩
  case absent =>
    rw [found, absent]
    split <;> rfl
  case stands =>
    have kept : (e.waiters.filter fun w => !decide (w.port = p)) = e.waiters.filter fun w => decide (w.port ≠ p) :=
      List.filter_congr fun w _ => by simp
    rw [found, if_neg fun held => other ((mem_keysHeld sound listed).mp held), entered listed]
    exact congrArg (fun l => some { e with waiters := l }) kept
  case ended =>
    rw [found, if_pos ((mem_keysHeld sound listed).mpr holds), entered listed, Option.bind_some, State.passed, unwaited]
    rfl
  case passed =>
    have waits (x : Waiter) (inside : x ∈ w :: rest) : x.port ≠ p :=
      holds ▸ ((sound.2.entries e listed).2 x (by rw [waiting]; exact inside)).1
    have away := waits w List.mem_cons_self
    have client : t.client w.port = s.handedTo w :=
      (clients w.port away).trans ((client_tearDown_other away).trans (releaseAll_client_next sound listed holds waiting))
    refine ⟨?_, congrArg Prod.fst client, congrArg Prod.snd client⟩
    rw [found, if_pos ((mem_keysHeld sound listed).mpr holds), entered listed, Option.bind_some, State.passed, waiting]
    exact congrArg some (Lease.without_eq_self fun x inside => waits x (List.mem_cons_of_mem w inside))
  case untouched =>
    have client : t.client q = s.client q :=
      (clients q other).trans ((client_tearDown_other other).trans (releaseAll_client_other sound away))
    exact ⟨congrArg Prod.fst client, congrArg Prod.snd client⟩

theorem session_tearDown_own : (s.tearDown p answered).session p = Session.closed := session_setSession_self _ p _

theorem tearDown_holds_none (sound : s.tableSound) : ∀ e ∈ (s.tearDown p answered).leases, e.holder ≠ p :=
  dropParked_holders p answered p (releaseAll_holds_none sound)

theorem tearDown_waits_nowhere (sound : s.tableSound) : p ∉ (s.tearDown p answered).waiterPorts := by
  intro waits
  obtain ⟨w, listed, port⟩ := List.mem_map.mp waits
  obtain ⟨e, inside, waits⟩ := List.mem_flatMap.mp listed
  exact (tearDown_tableSound p answered sound).2.waits_nowhere (by rw [session_tearDown_own]; rfl) e inside w waits port

theorem tearDown_claimCount (sound : s.tableSound) : (s.tearDown p answered).claimCount p = 0 := by
  have held : heldBy p (s.tearDown p answered).leases = 0 :=
    List.length_eq_zero_iff.mpr (List.filter_eq_nil_iff.mpr fun e listed => by
      rw [decide_eq_true_iff]
      exact tearDown_holds_none sound e listed)
  rw [claimCount_eq, held, session_tearDown_own]
  rfl

end

/-- Settles O20: CLOSE and the teardown after a port reset are the same teardown, each with its own end. -/
theorem teardownEmptiesSession : Obligations.TeardownEmptiesSession := by
  refine fun s p sound => ⟨fun r ⟨inHand, coded⟩ opened noBody => ?close, fun inHand resetting => ?teardown⟩
  case close =>
    have run : exec .sessionClose s = .next ((s.tearDown p true).answer p r.tag .ok []) := by
      refine (serve_granted inHand coded).trans (congrArg _ ((settle_emptyBody (t := closeAct p r s) rfl).trans ?_))
      rw [if_neg (by rw [opened]; decide), if_neg (not_not.mpr noBody)]
      rfl
    have kept := (tearDown_clients s p true).storeKept
    refine ⟨_, run, tearDown_releases sound.table rfl fun q other => ?_, session_tearDown_own, tearDown_holds_none sound.table,
      tearDown_waits_nowhere sound.table, tearDown_claimCount sound.table, rfl, ?_, ?_, ?_, ?_, ?_, ?_⟩
    · exact congrArg ((s.tearDown p true).session q, ·) (port_answer_other _ _ _ _ other)
    · exact kept.directory
    · exact kept.sectors
    · exact kept.flash
    · exact kept.mode
    · exact (tearDown_keeps s p true).leaseClock
    · rw [port_answer_self, port_tearDown_own sound.table]
      by_cases resetting : (s.port p).state = .resetting
      · rw [if_pos (.inl resetting), if_pos resetting, receive_resetting _ resetting]
        rfl
      · have normal : (s.port p).state = .normal := by
          cases state : (s.port p).state with
          | normal => rfl
          | resetting => exact absurd state resetting
        rw [if_neg (by simp [resetting]), if_neg resetting, receive_normal _ (by exact normal)]
        cases (s.session p).parked <;> rfl
  case teardown =>
    have run : exec .teardown s = .next (s.serveTeardown p) := by
      show execTeardown s = _
      unfold execTeardown
      rw [inHand]
    have kept := (tearDown_clients s p false).storeKept
    refine ⟨_, run, tearDown_releases (answered := false) sound.table rfl fun q other => ?_, session_tearDown_own,
      tearDown_holds_none (answered := false) sound.table, tearDown_waits_nowhere (answered := false) sound.table,
      tearDown_claimCount (answered := false) sound.table, rfl, ?_, ?_, ?_, ?_, ?_, ?_⟩
    · exact congrArg ((s.tearDown p false).session q, ·) (port_setPort_other _ _ other)
    · exact kept.directory
    · exact kept.sectors
    · exact kept.flash
    · exact kept.mode
    · exact (tearDown_keeps s p false).leaseClock
    · refine (port_setPort_self _ p _).trans ?_
      rw [port_tearDown_own sound.table, if_pos (.inr rfl)]
      rfl

/-! ### The completion of FORMAT (R159) -/

section
variable {s : State} {f : FormatWork} {p : Port} {i : Nat}

/-- What is derived from the sector table alone is the same for the same table. -/
theorem usable_congr {t : State} (same : t.sectors = s.sectors) : t.usable = s.usable := by
  rw [State.usable, State.retiredCount, same]
  rfl

theorem freeCount_congr {t : State} (same : t.sectors = s.sectors) : t.freeCount = s.freeCount := by
  unfold State.freeCount State.freePool State.sector
  rw [same]

theorem storeLive_congr {t : State} (same : t.sectors = s.sectors) : t.storeLive = s.storeLive := by
  rw [State.storeLive, same]
  rfl

/-- A sector with its live bytes gone (R159). -/
def Sector.emptied (e : Sector) : Sector := { e with live := 0 }

theorem sector_formatStore (i : Nat) : s.formatStore.sector i = (s.sector i).emptied :=
  List.getD_map (l := s.sectors) (d := Sector.erased 0) Sector.emptied

/-- The default rights as bytes (TABLE 23). -/
theorem defaultRights_bytes : defaultRights = ⟨Rights.ofByte 0x0F, Rights.ofByte 0x07, Rights.ofByte 0x07⟩ := by decide

theorem usable_formatStore : s.formatStore.usable = s.usable := by
  show 64 - ((s.sectors.map fun e => { e with live := 0 }).filter fun e => decide (e.state = .retired)).length = _
  rw [List.filter_map, List.length_map]
  rfl

theorem freeCount_formatStore : s.formatStore.freeCount = s.freeCount := by
  have width : s.formatStore.sectors.length = s.sectors.length := List.length_map ..
  rw [State.freeCount, State.freePool, width]
  simp only [sector_formatStore]
  rfl

theorem storeLive_formatStore : s.formatStore.storeLive = 0 := by
  show ((s.sectors.map fun e => { e with live := 0 }).map Sector.live).sum = 0
  rw [List.map_map]
  exact List.sum_eq_zero fun n listed => by
    obtain ⟨e, -, rfl⟩ := List.mem_map.mp listed
    rfl

/-- The completion: the store emptied, the leases of the port released, its session rebound, and the reply. -/
theorem formatComplete_eq : s.formatComplete f = ({ s.formatStore.formatSession f.port with
    mode := if s.usable < 8 then .readOnly else .ready } : State).answer f.port f.tag .ok
      [BitVec.ofNat 8 s.usable, BitVec.ofNat 8 s.freeCount] := by
  have kept := (releaseAll_clients s.formatStore f.port).storeKept
  have usable : (s.formatStore.formatSession f.port).usable = s.usable := (usable_congr kept.sectors).trans usable_formatStore
  have free : (s.formatStore.formatSession f.port).freeCount = s.freeCount :=
    (freeCount_congr kept.sectors).trans freeCount_formatStore
  rw [State.formatComplete]
  dsimp only
  rw [usable, free]

/-- What the completion leaves of the session for which FORMAT ran and of its port: its own leases end without it. -/
theorem formatSession_client (sound : s.tableSound) : (s.formatStore.formatSession p).client p = ({ s.session p with
    rights := defaultRights.get p, watch := [], notices := [], groupOpen := false, members := [] }, s.port p) := by
  have own : (s.formatStore.releaseAll p).client p = s.client p := releaseAll_client_own (s := s.formatStore) sound
  have session : (s.formatStore.releaseAll p).session p = s.session p := congrArg Prod.fst own
  have port : (s.formatStore.releaseAll p).port p = s.port p := congrArg Prod.snd own
  rw [State.formatSession, State.client, session_setSession_self, port_setSession, session, port]

/-- With no sector left to take after this one, the sweep is over (R157). -/
theorem sweepFrom_last {t : State} (width : t.sectors.length = s.sectors.length)
    (states : ∀ j, i < j → (t.sector j).state = (s.sector j).state)
    (last : ∀ j, i < j → j < s.sectors.length → (s.sector j).state = .retired ∨ (s.sector j).state = .opened) :
    t.sweepFrom f (i + 1) = t.formatComplete f := by
  refine sweepFrom_done fun j inside due => ?_
  obtain ⟨notRetired, notOpened⟩ := sweepDue_iff.mp due.2
  rw [states j due.1] at notRetired notOpened
  rcases last j due.1 (width ▸ inside) with retired | opened
  · exact notRetired retired
  · exact notOpened opened

end

/-- Settles O42: the last erase or marker of the sweep completes FORMAT, and what the completion leaves. -/
theorem formatCompletionEmptiesStore : Obligations.FormatCompletionEmptiesStore := by
  refine ⟨fun s f i inHand inside last => ⟨fun stuck phase inFlight verified young => ?erased, fun data phase inFlight => ?retired⟩,
    fun s f sound _ => ?complete⟩
  case erased =>
    have within : i < (s.sectorErasedTo i (stuckBits stuck)).sectors.length := inside
    have fresh : ¬((false : Bool) = true ∨ 60000 ≤ (s.sector i).eraseCount + 1) := by
      rintro (suspect | worn)
      · cases suspect
      · omega
    have frees : (s.sectorErasedTo i (stuckBits stuck)).sweepErased f i false .success =
        (((s.sectorErasedTo i (stuckBits stuck)).countErase i).freeSector i).sweepFrom f (i + 1) :=
      if_neg fun due => fresh ((dueRetirement_iff within).mp due)
    rw [exec_formatEraseEnded stuck inHand inFlight, formatErased_sweep phase, if_pos verified, frees,
      sweepFrom_last (s := s) ?_ (fun j after => ?_) last, freed_eq within]
    · rfl
    · exact (List.length_set ..).trans (List.length_set ..)
    · exact congrArg Sector.state (sector_freed_other (Nat.ne_of_gt after))
  case retired =>
    refine ⟨_, (exec_formatLineEnded .good inHand inFlight).trans (congrArg _ ((formatLine_sweep _ phase).trans
      (sweepFrom_last (s := s) (List.length_set ..) (fun j after => ?_) last))), ?_, fun j other => ?_⟩
    · exact congrArg Sector.state (sector_setSector_other (Nat.ne_of_gt after))
    · exact congrArg Sector.state (sector_retireSector (s := s.lineProgrammed i 4 _) _ inside)
    · exact sector_setSector_other other
  case complete =>
    have kept := (releaseAll_clients s.formatStore f.port).storeKept
    have client := formatSession_client (p := f.port) sound.table
    have table : (s.formatComplete f).sectors = s.formatStore.sectors := kept.sectors
    have width : s.formatStore.sectors = s.sectors.map fun e => { e with live := 0 } := rfl
    have named : s.formatComplete f = _ := formatComplete_eq
    refine ⟨kept.directory, (storeLive_congr table).trans storeLive_formatStore, kept.freezeLine, kept.defaultPeriod,
      kept.rightsInForce.trans defaultRights_bytes, ?reclaim, releaseAll_holds_none (s := s.formatStore) sound.table, ?session, kept.nextSeq,
      kept.nextGen, (releaseAll_keeps s.formatStore f.port).damaged, ?counts, ?states, (usable_congr table).trans usable_formatStore,
      (freeCount_congr table).trans freeCount_formatStore, congrArg State.mode named, rfl, ?port⟩
    case reclaim =>
      obtain ⟨leases, sessions, ports, touched⟩ := releaseAll_clients s.formatStore f.port
      exact congrArg State.reclaim touched
    case session =>
      refine (congrArg Prod.fst client).trans ?_
      have rights : (s.formatComplete f).rightsInForce = defaultRights := kept.rightsInForce
      rw [rights]
    case counts => rw [table, width, List.map_map]; rfl
    case states => rw [table, width, List.map_map]; rfl
    case port =>
      have port : (s.formatStore.formatSession f.port).port f.port = s.port f.port := congrArg Prod.snd client
      exact (congrArg (State.port · f.port) named).trans ((port_answer_self ..).trans
        (congrArg (fun u : PortUnit => (u.receive _).endService) port))

end Sys2Proof.Machine
end

