-- ==== Sys2Proof/Proofs/DerivedQuantities.lean ====
section
/-! PROOF. What is derived from the state (01_storage_layout.md R7, R8, R14, R15, R18, R19; 02_keys_versions_and_the_directory.md R23;
05_claims.md R72, R74; 11_client_ports_and_sessions.md R162): the head, the ring and the free pool, and the keyed tables. -/

namespace Sys2Proof.Machine

/-! ### The head (R8) -/

section
variable {s : State} {h i : Nat}

theorem head?_some (head : s.head? = some h) : h < s.sectors.length ∧ (s.sector h).state = .opened := by
  have opened := List.find?_some head
  exact ⟨List.mem_range.mp (List.mem_of_find?_eq_some head), of_decide_eq_true opened⟩

theorem head?_eq_none_iff : s.head? = none ↔ ∀ i, i < s.sectors.length → (s.sector i).state ≠ .opened := by
  simp [State.head?]

theorem fitsHead_iff (n : Nat) : s.fitsHead n = true ↔ ∃ h, s.head? = some h ∧ n ≤ 251 - (s.sector h).fill := by
  unfold State.fitsHead
  cases s.head? <;> simp

/-! ### The ring (R7) -/

theorem inRing_iff {e : Sector} : e.inRing = true ↔ e.state = .opened ∨ e.state = .closed ∨ e.state = .reclaiming := by
  unfold Sector.inRing
  cases e.state <;> simp

/-- The order of R7: ascending generation, and of one generation the lower index first. -/
def ringBefore (t : List Sector) (i j : Nat) : Prop :=
  (sectorAt t i).generationNat < (sectorAt t j).generationNat ∨
    ((sectorAt t i).generationNat = (sectorAt t j).generationNat ∧ i < j)

theorem ringBefore.trans {t : List Sector} {i j k : Nat} (first : ringBefore t i j) (second : ringBefore t j k) : ringBefore t i k := by
  unfold ringBefore at *
  omega

theorem insertByGeneration_ordered {t : List Sector} {l : List Nat} (ordered : l.Pairwise (ringBefore t)) (below : ∀ j ∈ l, i < j) :
    (insertByGeneration t i l).Pairwise (ringBefore t) := by
  induction l with
  | nil => exact List.pairwise_singleton _ _
  | cons j l ih =>
    obtain ⟨first, rest⟩ := List.pairwise_cons.mp ordered
    obtain ⟨here, others⟩ := List.forall_mem_cons.mp below
    rw [insertByGeneration]
    split
    · next le =>
      have before : ringBefore t i j := by unfold ringBefore; omega
      exact List.pairwise_cons.mpr ⟨List.forall_mem_cons.mpr ⟨before, fun k inside => before.trans (first k inside)⟩, ordered⟩
    · next gt =>
      refine List.pairwise_cons.mpr ⟨fun k inside => ?_, ih rest others⟩
      rcases mem_insertByGeneration.mp inside with rfl | later
      · exact .inl (Nat.lt_of_not_le gt)
      · exact first k later

theorem insertByGeneration_perm (t : List Sector) (i : Nat) (l : List Nat) : (insertByGeneration t i l).Perm (i :: l) := by
  induction l with
  | nil => exact .refl _
  | cons j l ih =>
    rw [insertByGeneration]
    split
    · exact .refl _
    · exact (ih.cons j).trans (.swap i j l)

theorem foldr_insertByGeneration_perm (t : List Sector) (l : List Nat) : (l.foldr (insertByGeneration t) []).Perm l := by
  induction l with
  | nil => exact .refl _
  | cons i l ih => exact (insertByGeneration_perm t i _).trans (ih.cons i)

/-- Sectors placed by descending index, each before those of its own generation. -/
theorem foldr_insertByGeneration_ordered (t : List Sector) {l : List Nat} (ascending : l.Pairwise (· < ·)) :
    (l.foldr (insertByGeneration t) []).Pairwise (ringBefore t) := by
  induction l with
  | nil => exact .nil
  | cons i l ih =>
    obtain ⟨first, rest⟩ := List.pairwise_cons.mp ascending
    exact insertByGeneration_ordered (ih rest) fun j inside => first j ((foldr_insertByGeneration_perm t l).mem_iff.mp inside)

/-- The ring holds each of its sectors once. -/
theorem ringOf_nodup (t : List Sector) : (ringOf t).Nodup :=
  (foldr_insertByGeneration_perm t _).nodup_iff.mpr (List.nodup_range.filter _)

theorem ringOf_ordered (t : List Sector) : (ringOf t).Pairwise (ringBefore t) :=
  foldr_insertByGeneration_ordered t (List.pairwise_lt_range.filter _)

theorem freePool_nodup : s.freePool.Nodup := List.nodup_range.filter _

end

/-! ### The keyed tables (R23, R72) -/

section
variable {α : Type} (key : α → Key)

theorem findKeyed_eq (k : Key) (l : List α) : findKeyed key k l = l.find? fun y => decide (key y = k) := rfl

theorem find_insertKeyed (x : α) (l : List α) (k : Key) :
    ((insertKeyed key x l).find? fun y => decide (key y = k)) = if key x = k then some x else l.find? fun y => decide (key y = k) := by
  rw [← findKeyed_eq, ← findKeyed_eq]
  split
  · next same => exact same ▸ find_insert_self key
  · next other => exact find_insert_other key other

end

section
variable (s : State) (p q : Port)

theorem portParked_toList : (s.portParked p).toList = (s.session p).parked.toList.map Prod.snd := by
  unfold State.portParked
  cases (s.session p).parked <;> rfl

theorem inReset_iff : s.inReset = true ↔ s.resetPin = true ∨ s.powerHold = true := by
  rw [State.inReset, Bool.or_eq_true]

theorem creditsInUse_eq : s.creditsInUse p = (s.tagsInUse p).length := by
  simp only [State.creditsInUse, State.tagsInUse, List.length_append, List.length_map]

theorem sector_eq_getElem {i : Nat} (inside : i < s.sectors.length) : s.sector i = s.sectors[i] :=
  List.getD_eq_getElem _ _ inside

end

/-- Settles O25: each quantity by the lemma that says what it is. -/
theorem derivedQuantities : Obligations.DerivedQuantities := by
  refine ⟨fun s => ⟨fun h head => head?_some head, head?_eq_none_iff, fun i => mem_ringOf.trans (and_congr Iff.rfl inRing_iff),
      ringOf_nodup s.sectors, ringOf_ordered s.sectors, rfl, fun i => mem_freePool, freePool_nodup, rfl, rfl, rfl, rfl, fitsHead_iff,
      fun k => ⟨rfl, rfl⟩, fun p => ⟨?claims, rfl, ?tags, creditsInUse_eq s p, rfl⟩⟩,
    fun x l => ⟨find_insertKeyed DirEntry.key x l, fun ascending => insertKeyed_ascending DirEntry.key ascending⟩,
    fun x l => ⟨find_insertKeyed Lease.key x l, fun ascending => insertKeyed_ascending Lease.key ascending⟩,
    fun s p q u x i => ⟨inReset_iff s, ⟨rfl, rfl, rfl⟩, ⟨rfl, rfl, rfl⟩, ⟨rfl, get_set s.ports p q u⟩, ⟨rfl, get_set s.sessions p q x⟩,
      fun inside => sector_eq_getElem s inside⟩,
    fun e => ?generation, fun r => rfl, fun rs => rfl, fun e => rfl⟩
  case claims => rw [State.claimCount, portParked_toList]
  case tags => rw [State.tagsInUse, portParked_toList]
  case generation =>
    unfold Sector.generationNat
    cases e.generation <;> rfl

end Sys2Proof.Machine
end

