-- ==== Sys2Proof/Proofs/LeaseClock.lean ====
section
/-! PROOF. The lease clock (05_claims.md R73, R82, R83): the advance and the expiries it takes, those named first in their order. -/

namespace Sys2Proof.Machine

variable {s : State} {k : Key} {p : Port} {e : Lease} {w : Waiter}

/-- The expiries named, then every lease in key order, then the waits in port order. -/
theorem advanceClock_eq (first : List Expiry) : s.advanceClock first =
    (first ++ (s.leases.map fun e => Expiry.lease e.key) ++ [Expiry.wait .A, Expiry.wait .B, Expiry.wait .C]).foldl State.takeExpiry
      { s with leaseClock := s.leaseClock + 1 } := by
  rw [State.advanceClock, State.expiries, ← List.append_assoc]
  rfl

/-- An advance touches the clock, the lease table, the sessions and the ports. -/
theorem advanceClock_clients (s : State) (first : List Expiry) : TouchesClients s.tickClock (s.advanceClock first) :=
  touchesClients_foldl takeExpiry_clients _ _

theorem advanceClock_quiet (none : ∀ e ∈ s.leases, e.expiry ≠ s.leaseClock + 1 ∧ ∀ w ∈ e.waiters, w.waitExpiry ≠ s.leaseClock + 1)
    (first : List Expiry) : s.advanceClock first = { s with leaseClock := s.leaseClock + 1 } :=
  foldl_takeExpiry_of_noneDue (s := s.tickClock) none _

/-- What an advance leaves unchanged, whatever it takes first. -/
theorem advanceClock_touches (s : State) (first : List Expiry) :
    let t := s.advanceClock first
    t.leaseClock = s.leaseClock + 1 ∧ t.directory = s.directory ∧ t.sectors = s.sectors ∧ t.flash = s.flash ∧ t.work = s.work ∧
      t.mode = s.mode ∧ t.supply = s.supply ∧ t.controller = s.controller ∧
      ((∀ e ∈ s.leases, e.expiry ≠ s.leaseClock + 1 ∧ ∀ w ∈ e.waiters, w.waitExpiry ≠ s.leaseClock + 1) →
        t = { s with leaseClock := s.leaseClock + 1 }) := by
  have quiet := advanceClock_quiet (s := s) (first := first)
  obtain ⟨leases, sessions, ports, touched⟩ := advanceClock_clients s first
  rw [touched] at quiet ⊢
  exact ⟨rfl, rfl, rfl, rfl, rfl, rfl, rfl, rfl, quiet⟩

theorem reachesNext_lease_iff (entry : s.leaseOf k = some e) : s.reachesNext (.lease k) = true ↔ e.expiry = s.leaseClock + 1 := by
  simp [State.reachesNext, entry]

theorem reachesNext_wait_iff (waits : s.waiterOf p = some w) : s.reachesNext (.wait p) = true ↔ w.waitExpiry = s.leaseClock + 1 := by
  simp [State.reachesNext, waits]

theorem expireLease_eq (entry : s.leaseOf k = some e) : s.expireLease k =
    if e.expiry = s.leaseClock then (s.setSession e.holder { s.session e.holder with
      notices := postNotice k Notice.markLapsed (s.session e.holder).notices }).endLease k else s := by
  rw [State.expireLease, entry]
  rfl

theorem expireLease_absent (absent : s.leaseOf k = none) : s.expireLease k = s := by rw [State.expireLease, absent]

theorem expireWait_eq (waits : s.waiterOf p = some w) : s.expireWait p =
    if w.waitExpiry = s.leaseClock then (s.removeParked p).handReply p ⟨w.tag, .timeout, []⟩ else s := by
  rw [State.expireWait, waits]

theorem expireWait_absent (absent : s.waiterOf p = none) : s.expireWait p = s := by rw [State.expireWait, absent]

theorem exec_leaseExpiry_running (running : s.inReset = false) (k : Key) (others : List Expiry) :
    exec (.leaseExpiry ⟨k, others⟩) s =
      .next (if s.reachesNext (.lease k) = true then s.advanceClock (.lease k :: others) else s) := whenRunning_next running

theorem exec_waitExpiry_running (running : s.inReset = false) (p : Port) (others : List Expiry) :
    exec (.waitExpiry ⟨p, others⟩) s =
      .next (if s.reachesNext (.wait p) = true then s.advanceClock (.wait p :: others) else s) := whenRunning_next running

/-- Settles O33: the advance by its parts, the two commands that name an expiry, and what taking one does. -/
theorem leaseClockTakesExpiries : Obligations.LeaseClockTakesExpiries := by
  refine ⟨fun s running => ⟨?advance, fun k others e entry => ?lease, fun k others absent => ?noLease, fun p others w waits => ?wait,
      fun p others absent => ?noWait, fun first => ?touches⟩,
    fun s => ⟨fun k e entry => expireLease_eq entry, fun k absent => expireLease_absent absent, fun p w waits => expireWait_eq waits,
      fun p absent => expireWait_absent absent⟩⟩
  case advance =>
    have advanced : exec .leaseClockAdvance s = .next (s.advanceClock []) :=
      whenRunning_next (act := fun t => t.advanceClock []) running
    exact advanced.trans (congrArg Host.Outcome.next (advanceClock_eq []))
  case lease =>
    refine (exec_leaseExpiry_running running k others).trans (congrArg Host.Outcome.next ?_)
    exact if_congr (reachesNext_lease_iff entry) (advanceClock_eq _) rfl
  case noLease =>
    refine (exec_leaseExpiry_running running k others).trans (congrArg Host.Outcome.next (if_neg ?_))
    simp [State.reachesNext, absent]
  case wait =>
    refine (exec_waitExpiry_running running p others).trans (congrArg Host.Outcome.next ?_)
    exact if_congr (reachesNext_wait_iff waits) (advanceClock_eq _) rfl
  case noWait =>
    refine (exec_waitExpiry_running running p others).trans (congrArg Host.Outcome.next (if_neg ?_))
    simp [State.reachesNext, absent]
  case touches =>
    have kept := advanceClock_touches s first
    rw [advanceClock_eq] at kept
    exact kept

end Sys2Proof.Machine
end

