-- ==== Sys2Proof/Proofs/MountWrites.lean ====
section
/-! PROOF. The writes of mount's settling phase and how each ends (10_mounting_recovery_and_format.md R151, R152). -/

namespace Sys2Proof.Machine

section
variable {s : State} {m : MountWork} {i : Nat}

theorem exec_mountLineEnded {l : Nat} {data : List Byte} (res : LineResult) (inHand : s.work = .mount m)
    (inFlight : s.controller = .programming i l data) : exec (.lineProgramComplete res) s =
      .next ((s.lineProgrammed i l (LineResult.bits data res)).mountLine m
        (decide (readLine (programBytes s.flash (lineAddress i l) (LineResult.bits data res)) i l = data))) := by
  have work : (s.lineProgrammed i l (LineResult.bits data res)).work = .mount m := inHand
  rw [exec_lineProgramComplete res inFlight, State.lineEnded, work]

theorem exec_mountEraseEnded (stuck : List (Nat × Byte)) (inHand : s.work = .mount m) (phase : m.phase = .erasing i)
    (inFlight : s.controller = .erasing i) : exec (.eraseComplete stuck) s =
      .next ((s.sectorErasedTo i (stuckBits stuck)).mountErased m i
        (if sectorErased (eraseSector (stuckBits stuck) i s.flash) i then .success else .verifyFail)) := by
  have work : (s.sectorErasedTo i (stuckBits stuck)).work = .mount m := inHand
  rw [exec_eraseComplete stuck inFlight, State.eraseEnded, work]
  simp only [phase]

theorem mountLine_closing (phase : m.phase = .closing i) (ok : Bool) :
    s.mountLine m ok = (s.markClosed i ok).mountContinue m := by
  rw [State.mountLine, phase]

theorem mountLine_retiring (phase : m.phase = .retiring i) (ok : Bool) :
    s.mountLine m ok = (s.retireSector i ok).mountContinue { m with failures := 0 } := by
  rw [State.mountLine, phase]

/-- R152: a verified erase retires a worn sector and frees any other. -/
theorem mountErased_verified (inside : i < s.sectors.length) :
    s.mountErased m i .success =
      let worn := 60000 ≤ (s.sector i).eraseCount + 1
      let counted : Sector := ⟨if worn then (s.sector i).state else .erased, none, (s.sector i).eraseCount + 1, 0, 0, false, false⟩
      let v := { s with sectors := s.sectors.set i counted }
      if worn then v.mountRetire m i else v.mountContinue { m with failures := 0 } := by
  have outcome := verifiedErase_eq (suspect := false) inside (fun x => x.mountRetire m i)
    fun x => x.mountContinue { m with failures := 0 }
  simp only [Bool.false_eq_true, false_or] at outcome
  exact outcome

/-- R137, R152: GUARD stops an erase of mount, and mount waits. -/
theorem exec_guardArrival_mount (running : s.inReset = false) (normal : s.supply = .normal) (inHand : s.work = .mount m)
    (phase : m.phase = .erasing i) (inFlight : s.controller = .erasing i) :
    exec .guardArrival s = .next { s with
      supply := .guard, supplyHigh := false, controller := .idle, flash := eraseSector (Config.erasedBits s.draws) i s.flash
      draws := s.draws + 1
      work := .mount { m with phase := .waiting } } := by
  rw [exec_guardArrival_erasing running normal inFlight, State.eraseEnded, inHand]
  simp only [phase]
  rfl

end

/-- Settles O11: by the phase of mount that the flash operation served. -/
theorem mountWriteOutcomes : Obligations.MountWriteOutcomes := by
  refine ⟨fun s m i l data res inHand inFlight => ⟨fun phase => ?closed, fun phase => ?retired⟩,
    fun s m i inHand phase inFlight inside => ⟨fun stuck => ?erased, fun running normal => ?aborted⟩, fun s m => ?continues⟩
  case closed =>
    rw [exec_mountLineEnded res inHand inFlight, mountLine_closing phase]
    rfl
  case retired =>
    rw [exec_mountLineEnded res inHand inFlight, mountLine_retiring phase]
    rfl
  case erased =>
    have within : i < (s.sectorErasedTo i (stuckBits stuck)).sectors.length := inside
    rw [exec_mountEraseEnded stuck inHand phase inFlight]
    refine congrArg Host.Outcome.next ?_
    cases sectorErased (eraseSector (stuckBits stuck) i s.flash) i
    · rfl
    · exact mountErased_verified within
  case aborted => exact ⟨_, exec_guardArrival_mount running normal inHand phase inFlight⟩
  case continues =>
    unfold State.mountContinue
    exact if_congr (and_congr Iff.rfl nextDirty_eq_none_iff) rfl rfl

end Sys2Proof.Machine
end

