-- ==== Sys2Proof/Proofs/MountEnd.lean ====
section
/-! PROOF. The end of mount (10_mounting_recovery_and_format.md R153, R154) and the commands of its settling phase (R151,
R152). -/

namespace Sys2Proof.Machine

section
variable {s : State} {m : MountWork} {i : Nat}

/-! ### The commands of the settling phase -/

theorem exec_mountClose_waiting (inHand : s.work = .mount m) (phase : m.phase = .waiting) (normal : s.supply = .normal) :
    exec .mountClose s = .next (s.mountCloseNext m) := by
  show execMountClose s = _
  rw [execMountClose, inHand]
  exact if_pos ⟨phase, normal⟩

theorem exec_dirtyErase_waiting (inHand : s.work = .mount m) (phase : m.phase = .waiting) (normal : s.supply = .normal) :
    exec .dirtyErase s = .next (s.dirtyEraseNext m) := by
  show execDirtyErase s = _
  rw [execDirtyErase, inHand]
  exact if_pos ⟨phase, normal⟩

theorem nextDirty_eq_some (inside : i < s.sectors.length) (dirty : (s.sector i).state = .dirty)
    (first : ∀ j, j < i → (s.sector j).state ≠ .dirty) : s.nextDirty = some i := by
  rw [State.nextDirty, List.find?_range_eq_some]
  refine ⟨decide_eq_true dirty, List.mem_range.mpr inside, fun j before => ?_⟩
  rw [Bool.not_eq_true', decide_eq_false_iff_not]
  exact first j before

/-! ### The directory limit -/

section
variable {d : List DirEntry}

/-- R22: in an ordered directory the system keys stand last. -/
theorem ordered_users_system (ordered : directoryOrdered d) :
    (d.filter fun e => !systemKey e.key) ++ (d.filter fun e => systemKey e.key) = d := by
  obtain ⟨ascending, valid⟩ := ordered
  have perm : ((d.filter fun e => !systemKey e.key) ++ d.filter fun e => systemKey e.key).Perm d := by
    simpa using List.filter_append_perm (fun e : DirEntry => !systemKey e.key) d
  refine perm.eq_of_pairwise (fun x y _ _ below above => absurd (below.trans above) (lt_irrefl _))
    (List.pairwise_append.mpr ⟨ascending.filter _, ascending.filter _, fun x user y system => ?_⟩) ascending
  obtain ⟨listed, user⟩ := List.mem_filter.mp user
  exact user_below_system (valid x listed) (by simpa using user) (List.mem_filter.mp system).2

theorem length_limitDirectory (ordered : directoryOrdered d) : (limitDirectory d).length = min 1024 d.length := by
  have few := systemKeys_le ordered
  have total := congrArg List.length (ordered_users_system ordered)
  rw [List.length_append] at total
  rw [limitDirectory, List.length_append, List.length_take]
  omega

theorem limitDirectory_sublist (ordered : directoryOrdered d) : (limitDirectory d).Sublist d := by
  conv_rhs => rw [← ordered_users_system ordered]
  exact (List.take_sublist _ _).append (List.Sublist.refl _)

/-- R154: what the limit leaves out is a user key above every one that it leaves in. -/
theorem limitDirectory_leavesOut {e : DirEntry} (ordered : directoryOrdered d) (listed : e ∈ d) (out : e ∉ limitDirectory d) :
    systemKey e.key = false ∧ ∀ x ∈ limitDirectory d, systemKey x.key = false → x.key.toNat < e.key.toNat := by
  rw [limitDirectory, List.mem_append, not_or] at out
  obtain ⟨late, notSystem⟩ := out
  have user : systemKey e.key = false := by simpa [listed] using notSystem
  have users : e ∈ d.filter fun e => !systemKey e.key := List.mem_filter.mpr ⟨listed, by rw [user]; rfl⟩
  refine ⟨user, fun x hx isUser => ?_⟩
  rcases List.mem_append.mp hx with early | system
  · have ascending := ordered.1.filter fun e : DirEntry => !systemKey e.key
    rw [← List.take_append_drop (1024 - (d.filter fun e => systemKey e.key).length) (d.filter fun e => !systemKey e.key)]
      at ascending users
    exact (List.pairwise_append.mp ascending).2.2 x early e ((List.mem_append.mp users).resolve_left late)
  · rw [(List.mem_filter.mp system).2] at isUser
    cases isUser

end

/-! ### The end of mount -/

theorem sector_setLive {t : List Sector} {d : List DirEntry} (inside : i < t.length) :
    sectorAt (setLive t d) i = { sectorAt t i with live := liveOf d i } := by
  rw [setLive, sectorAt, List.getD_eq_getElem?_getD, List.getElem?_map, List.getElem?_range inside]
  rfl

theorem modeAfterMount_eq (leftOut : Bool) : s.modeAfterMount leftOut =
    if s.ring = [] then .blank
    else if s.usable < 8 ∨ s.liveBudget < s.storeLive ∨ s.freeCount = 0 then .readOnly
    else if leftOut = true then .readOnly
    else .ready := by
  unfold State.modeAfterMount
  by_cases failing : s.readOnlyTest = true
  · rw [if_pos (Or.inl failing), if_pos (readOnlyTest_iff.mp failing)]
  · rw [if_neg (fun limits => failing (readOnlyTest_iff.mpr limits) :
      ¬(s.usable < 8 ∨ s.liveBudget < s.storeLive ∨ s.freeCount = 0))]
    simp only [failing, Bool.false_eq_true, false_or]

theorem mountedReclaim_eq : s.mountedReclaim =
    ⟨if (s.tail?.map fun i => (s.sector i).state) = some .reclaiming then .copying else .idle, 0, 0, none, none⟩ := by
  unfold State.mountedReclaim
  split
  · next i tail =>
    by_cases marked : (s.sector i).state = .reclaiming <;> simp [tail, marked, Reclaim.reset]
  · next tail => simp [tail, Reclaim.reset]

theorem mountedRights_eq : s.mountedRights =
    ((s.storedValue rightsKey).bind fun v => (parseRights v).filter grantsAdmin).getD
      ⟨Rights.ofByte 0x0F, Rights.ofByte 0x07, Rights.ofByte 0x07⟩ := by
  have filtered : ((s.storedValue rightsKey).bind fun v => (parseRights v).filter grantsAdmin) =
      ((s.storedValue rightsKey).bind parseRights).filter grantsAdmin := by
    cases s.storedValue rightsKey <;> rfl
  rw [filtered, ← defaultRights_bytes]
  unfold State.mountedRights
  split
  · next r given =>
    rw [given]
    by_cases admin : grantsAdmin r = true <;> simp [admin, Option.filter]
  · next given => rw [given]; rfl

end

/-- Settles O10: the two commands of the settling phase, and the end of mount field by field. -/
theorem settlingPhaseAndMountEnd : Obligations.SettlingPhaseAndMountEnd := by
  refine fun s m => ⟨fun inHand phase guard => ?guard,
    fun inHand phase normal => ⟨fun i rest toClose => ?close, fun i none inside dirty first => ?erase⟩,
    rfl, rfl, rfl, rfl,
    fun ordered => ⟨length_limitDirectory ordered, limitDirectory_sublist ordered,
      fun e listed out => limitDirectory_leavesOut ordered listed out⟩,
    fun i inside => sector_setLive inside, ?mode, ?reclaim, ?rights, rfl, rfl⟩
  case guard =>
    have notNormal : s.supply ≠ .normal := by rw [guard]; decide
    exact ⟨exec_mountClose_idle fun _ _ _ normal => absurd normal notNormal,
      exec_dirtyErase_idle fun _ _ _ normal => absurd normal notNormal⟩
  case close =>
    rw [exec_mountClose_waiting inHand phase normal, State.mountCloseNext, toClose]
    rfl
  case erase =>
    rw [exec_dirtyErase_waiting inHand phase normal, State.dirtyEraseNext, none, nextDirty_eq_some inside dirty first]
    rfl
  case mode =>
    have ends := modeAfterMount_eq (s := s.installDirectory m.working) (decide (1024 < m.working.length))
    simp only [decide_eq_true_eq] at ends
    exact ends
  case reclaim => exact mountedReclaim_eq (s := s.installDirectory m.working)
  case rights => exact mountedRights_eq (s := s.installDirectory m.working)

end Sys2Proof.Machine
end

