-- ==== Sys2Proof/Proofs/MountReading.lean ====
section
/-! PROOF. What mount reads of one sector (10_mounting_recovery_and_format.md R146 to R149): from its own cells what the whole flash
reads there, and the line where the reading of its records stops. -/

namespace Sys2Proof.Machine

section
variable {m : List Host.Cell} {i line n l : Nat}

/-! ### The header (R146, R147) -/

theorem headerField_sectorCells {off : Nat} (inside : off + n ≤ 2048) :
    headerField (sectorCells m i) i off n = headerField m i off n := by
  rw [headerField, headerField, readBytes_sectorCells (Nat.le_add_right _ _) (by rw [sectorBytes]; omega)]

theorem readLine_sectorCells (inside : l < 256) : readLine (sectorCells m i) i l = readLine m i l :=
  readBytes_sectorCells (Nat.le_add_right _ _) (by rw [lineAddress, sectorBytes]; omega)

theorem headerValid_sectorCells : headerValid (sectorCells m i) i = headerValid m i := by
  have check : readBytes (sectorCells m i) (sectorBase i) 14 = readBytes m (sectorBase i) 14 :=
    readBytes_sectorCells (Nat.le_refl _) (by rw [sectorBytes]; omega)
  rw [headerValid, headerValid, headerField_sectorCells (by decide), headerField_sectorCells (by decide),
    headerField_sectorCells (by decide), check]

theorem payloadErased_sectorCells : payloadErased (sectorCells m i) i = payloadErased m i :=
  allErased_sectorCells (Nat.le_add_right _ _) (Nat.le_refl _)

theorem lineErased_sectorCells (inside : l < 256) : lineErased (sectorCells m i) i l = lineErased m i l := by
  rw [lineErased, lineErased, readLine_sectorCells inside]

theorem classify_sectorCells : classify (sectorCells m i) i = classify m i := by
  unfold classify
  rw [lineErased_sectorCells (l := 0) (by decide), lineErased_sectorCells (l := 1) (by decide),
    lineErased_sectorCells (l := 2) (by decide), lineErased_sectorCells (l := 3) (by decide),
    lineErased_sectorCells (l := 4) (by decide), readLine_sectorCells (l := 2) (by decide),
    readLine_sectorCells (l := 3) (by decide), headerValid_sectorCells, payloadErased_sectorCells]

/-! ### Records (R149) -/

theorem readByte_payload {off : Nat} (inside : off < 2008) :
    readByte (sectorCells m i) (payloadAddress i off) = readByte m (payloadAddress i off) :=
  readByte_sectorCells (by rw [payloadAddress]; omega) (by rw [payloadAddress, sectorBytes]; omega)

theorem readBytes_payload {off : Nat} (inside : off + n ≤ 2008) :
    readBytes (sectorCells m i) (payloadAddress i off) n = readBytes m (payloadAddress i off) n :=
  readBytes_sectorCells (by rw [payloadAddress]; omega) (by rw [payloadAddress, sectorBytes]; omega)

theorem headerAt_sectorCells (room : line + 2 ≤ 251) (k : RecordKind) :
    headerAt (sectorCells m i) i line k = headerAt m i line k := by
  have byte {off : Nat} (low : off < 8) := readByte_payload (m := m) (i := i) (off := 8 * line + off) (by omega)
  have seq := readBytes_payload (m := m) (i := i) (off := 8 * line + 8) (n := 6) (by omega)
  simp only [headerAt, seq, byte (show 1 < 8 by decide), byte (show 2 < 8 by decide), byte (show 3 < 8 by decide),
    byte (show 4 < 8 by decide), byte (show 5 < 8 by decide), byte (show 6 < 8 by decide), byte (show 7 < 8 by decide)]

theorem headerAt_length_sectorCells (inside : line < 251) (k : RecordKind) :
    (headerAt (sectorCells m i) i line k).length = (headerAt m i line k).length :=
  congrArg BitVec.toNat (readByte_payload (off := 8 * line + 4) (by omega))

theorem checkGood_sectorCells (room : line + linesForLength n ≤ 251) :
    checkGood (sectorCells m i) i line n = checkGood m i line n := by
  rw [linesForLength] at room
  rw [checkGood, checkGood, readBytes_payload (off := 8 * line) (by omega), readBytes_payload (off := 8 * line + 16) (by omega),
    readBytes_payload (off := 8 * line + 14) (by omega)]

theorem possible_room {r : StoredRecord} (possible : r.possible line = true) : line + linesForLength r.length ≤ 251 := by
  simp only [StoredRecord.possible, Bool.and_eq_true, decide_eq_true_eq] at possible
  exact possible.2

/-- A record that would leave the payload is possible in neither; any other reads the same. -/
theorem readable_sectorCells (inside : line < 251) (k : RecordKind) :
    ((headerAt (sectorCells m i) i line k).possible line &&
        checkGood (sectorCells m i) i line (headerAt (sectorCells m i) i line k).length) =
      ((headerAt m i line k).possible line && checkGood m i line (headerAt m i line k).length) := by
  have length := headerAt_length_sectorCells (m := m) (i := i) inside k
  by_cases room : line + linesForLength (headerAt m i line k).length ≤ 251
  · rw [headerAt_sectorCells (by rw [linesForLength] at room; omega), checkGood_sectorCells room]
  · have here : (headerAt m i line k).possible line = false := Bool.eq_false_iff.mpr fun possible => room (possible_room possible)
    have there : (headerAt (sectorCells m i) i line k).possible line = false :=
      Bool.eq_false_iff.mpr fun possible => room (length ▸ possible_room possible)
    rw [here, there, Bool.false_and, Bool.false_and]

theorem readRecord_sectorCells : readRecord (sectorCells m i) i line = readRecord m i line := by
  by_cases ended : 251 ≤ line
  · rw [readRecord_finished (.inl ended), readRecord_finished (.inl ended)]
  · have inside : line < 251 := Nat.lt_of_not_le ended
    unfold readRecord
    rw [if_neg ended, if_neg ended, readByte_payload (by omega)]
    refine if_congr Iff.rfl rfl ?_
    split
    · rfl
    · next k code =>
      rw [readable_sectorCells inside k]
      split
      · next good =>
        have room := possible_room (Bool.and_eq_true_iff.mp good).1
        rw [headerAt_sectorCells (by rw [linesForLength] at room; omega)]
      · rfl

theorem replaySector_sectorCells : ∀ (n line : Nat) (a : Replay),
    replaySector (sectorCells m i) i n line a = replaySector m i n line a
  | 0, _, _ => rfl
  | n + 1, line, a => by
    unfold replaySector
    rw [readRecord_sectorCells]
    split
    · rfl
    · rfl
    · exact replaySector_sectorCells n _ _

/-! ### Where reading stops (R148) -/

/-- The record read at one line ends at the other. -/
def nextRecord (m : List Host.Cell) (i line line' : Nat) : Prop :=
  ∃ r, readRecord m i line = .record r ∧ line' = line + linesForLength r.length

/-- Reading from one line comes to the other. -/
def readsOn (m : List Host.Cell) (i : Nat) : Nat → Nat → Prop := Relation.ReflTransGen (nextRecord m i)

theorem readsTo_iff : ReadsTo m i l ↔ readsOn m i 0 l := by
  constructor
  · intro reads
    induction reads with
    | start => exact .refl
    | past line r _ read ih => exact ih.tail ⟨r, read, rfl⟩
  · intro reads
    induction reads with
    | refl => exact .start
    | tail _ step ih =>
      obtain ⟨r, read, rfl⟩ := step
      exact .past _ r ih read

theorem readsOn_record {r : StoredRecord} (read : readRecord m i line = .record r) :
    readsOn m i line l ↔ l = line ∨ readsOn m i (line + linesForLength r.length) l := by
  constructor
  · intro reads
    rcases Relation.ReflTransGen.cases_head reads with same | ⟨next, ⟨r', read', rfl⟩, rest⟩
    · exact .inl same.symm
    · cases read.symm.trans read'
      exact .inr rest
  · rintro (rfl | rest)
    · exact .refl
    · exact .head ⟨r, read, rfl⟩ rest

theorem readsOn_stopped (stops : ∀ r, readRecord m i line ≠ .record r) : readsOn m i line l ↔ l = line := by
  constructor
  · intro reads
    rcases Relation.ReflTransGen.cases_head reads with same | ⟨_, ⟨r, read, _⟩, _⟩
    · exact same.symm
    · exact absurd read (stops r)
  · rintro rfl
    exact .refl

/-- The line where the replay of a sector stops, and whether a damaged record stopped it. -/
def stopOf (m : List Host.Cell) (i : Nat) : Nat × Bool := (replaySector m i 126 0 ⟨[], [], 0, 0⟩).2

/-- What the replay carries does not bear on where it stops. -/
theorem replaySector_stop (m : List Host.Cell) (i : Nat) : ∀ (n line : Nat) (a b : Replay),
    (replaySector m i n line a).2 = (replaySector m i n line b).2
  | 0, _, _, _ => rfl
  | n + 1, line, a, b => by
    unfold replaySector
    split
    · rfl
    · rfl
    · exact replaySector_stop m i n _ _ _

/-- The replay stops where no good record stands: each has at least 2 lines, so that `n` steps come to the end of the payload. -/
theorem replaySector_stops : ∀ (n line : Nat) (a : Replay), 251 ≤ line + 2 * n →
    readsOn m i line (replaySector m i n line a).2.1 ∧ readRecord m i (replaySector m i n line a).2.1 =
      if (replaySector m i n line a).2.2 = true then .damaged else .finished
  | 0, line, a, far => ⟨.refl, readRecord_finished (.inl far)⟩
  | n + 1, line, a, far => by
    unfold replaySector
    split
    · next read => exact ⟨.refl, read⟩
    · next read => exact ⟨.refl, read⟩
    · next r read =>
      obtain ⟨reads, stands⟩ := replaySector_stops n (line + linesForLength r.length)
        (countSequence r (replayRecord i r line a)) (by rw [linesForLength]; omega)
      exact ⟨(readsOn_record read).mpr (.inr reads), stands⟩

theorem stopOf_reads (m : List Host.Cell) (i : Nat) : ReadsTo m i (stopOf m i).1 :=
  readsTo_iff.mpr (replaySector_stops 126 0 _ (by decide)).1

theorem stopOf_stands (m : List Host.Cell) (i : Nat) :
    readRecord m i (stopOf m i).1 = if (stopOf m i).2 = true then .damaged else .finished :=
  (replaySector_stops 126 0 _ (by decide)).2

theorem stopOf_damaged_iff : (stopOf m i).2 = true ↔ readRecord m i (stopOf m i).1 = .damaged := by
  rw [stopOf_stands]
  split <;> simp [*]

/-! ### The sequences and damaged records of one sector (R148, R149) -/

/-- A record is read at or behind this line, and this is one more than its sequence. -/
def countedFrom (m : List Host.Cell) (i line q : Nat) : Prop :=
  ∃ l r, readsOn m i line l ∧ readRecord m i l = .record r ∧ q = r.seq.toNat + 1

theorem replayRecord_counts (i : Nat) (r : StoredRecord) (line : Nat) (a : Replay) :
    (replayRecord i r line a).afterHighest = a.afterHighest ∧ (replayRecord i r line a).damaged = a.damaged := by
  unfold replayRecord
  split
  · exact ⟨rfl, rfl⟩
  · exact ⟨rfl, rfl⟩
  · split <;> exact ⟨rfl, rfl⟩
  · split <;> exact ⟨rfl, rfl⟩

/-- The sequence count covers every record read, and stands at one of them or where it stood. -/
theorem replaySector_afterHighest : ∀ (n line : Nat) (a : Replay), 251 ≤ line + 2 * n →
    let after := (replaySector m i n line a).1.afterHighest
    a.afterHighest ≤ after ∧ (∀ q, countedFrom m i line q → q ≤ after) ∧ (after = a.afterHighest ∨ countedFrom m i line after) := by
  intro n
  have stopped {line : Nat} (none : ∀ r, readRecord m i line ≠ .record r) {q : Nat} : ¬countedFrom m i line q := by
    rintro ⟨l, r, reads, read, -⟩
    rw [(readsOn_stopped none).mp reads] at read
    exact none r read
  induction n with
  | zero =>
    intro line a far
    have none (r : StoredRecord) : readRecord m i line ≠ .record r := by rw [readRecord_finished (.inl (by omega))]; simp
    exact ⟨Nat.le_refl _, fun q counted => absurd counted (stopped none), .inl rfl⟩
  | succ n ih =>
    intro line a far
    unfold replaySector
    split
    · next read =>
      exact ⟨Nat.le_refl _, fun q counted => absurd counted (stopped (by rw [read]; simp)), .inl rfl⟩
    · next read =>
      exact ⟨Nat.le_refl _, fun q counted => absurd counted (stopped (by rw [read]; simp)), .inl rfl⟩
    · next r read =>
      have carried : (countSequence r (replayRecord i r line a)).afterHighest = max a.afterHighest (r.seq.toNat + 1) := by
        rw [countSequence, (replayRecord_counts i r line a).1]
      obtain ⟨keeps, covers, stands⟩ := ih (line + linesForLength r.length) (countSequence r (replayRecord i r line a))
        (by rw [linesForLength]; omega)
      rw [carried] at keeps stands
      refine ⟨by omega, ?_, ?_⟩
      · rintro q ⟨l, r', reads, read', rfl⟩
        rcases (readsOn_record read).mp reads with rfl | later
        · cases read.symm.trans read'
          omega
        · exact covers _ ⟨l, r', later, read', rfl⟩
      · rcases stands with stands | ⟨l, r', reads, read', same⟩
        · rcases Nat.le_total (r.seq.toNat + 1) a.afterHighest with below | above
          · exact .inl (by rw [stands, Nat.max_eq_left below])
          · exact .inr ⟨line, r, .refl, read, by rw [stands, Nat.max_eq_right above]⟩
        · exact .inr ⟨l, r', (readsOn_record read).mpr (.inr reads), read', same⟩

theorem replaySector_damaged : ∀ (n line : Nat) (a : Replay), (replaySector m i n line a).1.damaged =
    if (replaySector m i n line a).2.2 = true then min 65535 (a.damaged + 1) else a.damaged
  | 0, _, _ => rfl
  | n + 1, line, a => by
    unfold replaySector
    split
    · rfl
    · rfl
    · next r read =>
      have carried : (countSequence r (replayRecord i r line a)).damaged = a.damaged := (replayRecord_counts i r line a).2
      rw [replaySector_damaged n, carried]

end

end Sys2Proof.Machine
end

