-- ==== Sys2Proof/Proofs/MountTable.lean ====
section
/-! PROOF. The sector table that mount builds (10_mounting_recovery_and_format.md R146, R147): from the classes, by the flags of
duplicate generations and the demotion of RECLAIMING sectors, to what the replay and the live bytes leave of it. -/

namespace Sys2Proof.Machine

section
variable {m : List Host.Cell} {d i j k n off : Nat} {t : List Sector}

/-! ### The highest header field -/

/-- `v` is the highest value of a header field over the valid headers, or 0 where no header is valid. -/
def isHighest (m : List Host.Cell) (off n v : Nat) : Prop :=
  (∀ i, i < 64 → headerValid m i = true → headerField m i off n ≤ v) ∧
    ((∃ i, i < 64 ∧ headerValid m i = true ∧ headerField m i off n = v) ∨ (v = 0 ∧ ∀ i, i < 64 → headerValid m i = false))

theorem foldl_max_spec (l : List Nat) : ∀ b : Nat, b ≤ l.foldl max b ∧ (∀ x ∈ l, x ≤ l.foldl max b) ∧
    (l.foldl max b = b ∨ l.foldl max b ∈ l) := by
  induction l with
  | nil => exact fun b => ⟨Nat.le_refl _, fun x hx => (by cases hx), .inl rfl⟩
  | cons y l ih =>
    intro b
    obtain ⟨above, covers, stands⟩ := ih (max b y)
    rw [List.foldl_cons]
    refine ⟨by omega, List.forall_mem_cons.mpr ⟨by omega, covers⟩, ?_⟩
    rcases stands with stands | listed
    · rcases Nat.le_total b y with below | under
      · exact .inr (by rw [stands, Nat.max_eq_right below]; exact List.mem_cons_self)
      · exact .inl (by rw [stands, Nat.max_eq_left under])
    · exact .inr (List.mem_cons_of_mem y listed)

theorem highestField_isHighest (inside : off + n ≤ 2048) : isHighest m off n (highestField m off n) := by
  have fields : highestField m off n =
      ((List.range 64).map fun i => if headerValid m i = true then headerField m i off n else 0).foldl max 0 := by
    simp only [highestField, headerValid_sectorCells, headerField_sectorCells inside]
  obtain ⟨-, covers, stands⟩ := foldl_max_spec
    ((List.range 64).map fun i => if headerValid m i = true then headerField m i off n else 0) 0
  rw [← fields] at covers stands
  have above (i : Nat) (low : i < 64) (valid : headerValid m i = true) : headerField m i off n ≤ highestField m off n := by
    have listed := covers _ (List.mem_map_of_mem (List.mem_range.mpr low))
    rwa [if_pos valid] at listed
  refine ⟨above, ?_⟩
  by_cases some : ∃ i, i < 64 ∧ headerValid m i = true
  · left
    obtain ⟨i, low, valid⟩ := some
    rcases stands with zero | listed
    · exact ⟨i, low, valid, by have := above i low valid; omega⟩
    · obtain ⟨j, inRange, field⟩ := List.mem_map.mp listed
      by_cases header : headerValid m j = true
      · rw [if_pos header] at field
        exact ⟨j, List.mem_range.mp inRange, header, field⟩
      · rw [if_neg header] at field
        exact ⟨i, low, valid, by have := above i low valid; omega⟩
  · have invalid (i : Nat) (low : i < 64) : headerValid m i = false := Bool.eq_false_iff.mpr fun valid => some ⟨i, low, valid⟩
    refine .inr ⟨?_, invalid⟩
    rcases stands with zero | listed
    · exact zero
    · obtain ⟨j, inRange, field⟩ := List.mem_map.mp listed
      rw [invalid j (List.mem_range.mp inRange)] at field
      exact field.symm

theorem headerField_lt : headerField m i 4 4 < 2 ^ 32 := by
  have a := (readByte m (sectorBase i + 4)).isLt
  have b := (readByte m (sectorBase i + 4 + 1)).isLt
  have c := (readByte m (sectorBase i + 4 + 1 + 1)).isLt
  have d := (readByte m (sectorBase i + 4 + 1 + 1 + 1)).isLt
  simp only [headerField, readBytes, beNat_cons, beNat_nil, List.length_cons, List.length_nil]
  omega

/-! ### The table as classified -/

theorem mountedSector_sectorCells (draw highest : Nat) :
    mountedSector (sectorCells m i) draw highest i = mountedSector m draw highest i := by
  unfold mountedSector mountedGeneration mountedEraseCount
  rw [classify_sectorCells, headerField_sectorCells (by decide), headerField_sectorCells (by decide), headerValid_sectorCells]

theorem length_classifiedTable : (classifiedTable m d).length = 64 := by
  rw [classifiedTable, List.length_map, List.length_range]

theorem sectorAt_classifiedTable (inside : i < 64) :
    sectorAt (classifiedTable m d) i = mountedSector m d (highestField m 2 2) i := by
  rw [classifiedTable, sectorAt, List.getD_eq_getElem?_getD, List.getElem?_map, List.getElem?_range inside]
  exact mountedSector_sectorCells _ _

/-- The sector is in the ring by its class. -/
def inMountRing (m : List Host.Cell) (i : Nat) : Prop :=
  i < 64 ∧ ((classify m i).1 = .opened ∨ (classify m i).1 = .closed ∨ (classify m i).1 = .reclaiming)

/-- Ring order by the generations of the headers. -/
def mountBefore (m : List Host.Cell) (j i : Nat) : Prop :=
  headerField m j 4 4 < headerField m i 4 4 ∨ (headerField m j 4 4 = headerField m i 4 4 ∧ j < i)

theorem mem_ringOf_classifiedTable : i ∈ ringOf (classifiedTable m d) ↔ inMountRing m i := by
  rw [mem_ringOf, length_classifiedTable]
  exact and_congr_right fun inside => by rw [sectorAt_classifiedTable inside]; exact inRing_iff

theorem generationNat_classifiedTable (ring : inMountRing m i) :
    (sectorAt (classifiedTable m d) i).generationNat = headerField m i 4 4 := by
  obtain ⟨inside, state⟩ := ring
  rw [sectorAt_classifiedTable inside]
  have given : (mountedSector m d (highestField m 2 2) i).generation = some (BitVec.ofNat 32 (headerField m i 4 4)) := by
    unfold mountedSector mountedGeneration
    rcases state with state | state | state <;> rw [state]
  rw [Sector.generationNat, given]
  exact (BitVec.toNat_ofNat _ _).trans (Nat.mod_eq_of_lt headerField_lt)

theorem ringBefore_classifiedTable (first : inMountRing m j) (second : inMountRing m i) :
    ringBefore (classifiedTable m d) j i ↔ mountBefore m j i := by
  rw [ringBefore, mountBefore, generationNat_classifiedTable first, generationNat_classifiedTable second]

/-! ### Duplicate generations (R147) -/

/-- The tables have the same entries but for the suspect flags. -/
def sameButSuspect (t t' : List Sector) : Prop :=
  t'.length = t.length ∧ ∀ k, ∃ v, sectorAt t' k = { sectorAt t k with suspect := v }

theorem sameButSuspect.trans {t t' t'' : List Sector} (first : sameButSuspect t t') (second : sameButSuspect t' t'') :
    sameButSuspect t t'' := by
  refine ⟨second.1.trans first.1, fun k => ?_⟩
  obtain ⟨v, same⟩ := first.2 k
  obtain ⟨v', same'⟩ := second.2 k
  exact ⟨v', by rw [same', same]⟩

theorem sameButSuspect_suspectAt (t : List Sector) (j : Nat) : sameButSuspect t (suspectAt t j) := by
  refine ⟨List.length_set .., fun k => ?_⟩
  rw [suspectAt, sectorAt_set]
  split
  · next here => exact ⟨true, by rw [here.1]⟩
  · exact ⟨_, rfl⟩

theorem suspect_suspectAt (inside : j < t.length) :
    (sectorAt (suspectAt t j) k).suspect = true ↔ (sectorAt t k).suspect = true ∨ k = j := by
  rw [suspectAt, sectorAt_set]
  split
  · next here => simp [here.1]
  · next away => simp [show k ≠ j from fun same => away ⟨same, inside⟩]

/-- One step of the scan: the later of two neighbours. -/
def flagPair (t : List Sector) (i j : Nat) : List Sector :=
  if (sectorAt t i).generationNat = (sectorAt t j).generationNat then suspectAt t j else t

theorem sameButSuspect_flagPair (t : List Sector) (i j : Nat) : sameButSuspect t (flagPair t i j) := by
  unfold flagPair
  split
  · exact sameButSuspect_suspectAt t j
  · exact ⟨rfl, fun k => ⟨_, rfl⟩⟩

theorem suspect_flagPair (inside : j < t.length) : (sectorAt (flagPair t i j) k).suspect = true ↔
    (sectorAt t k).suspect = true ∨ (k = j ∧ (sectorAt t i).generationNat = (sectorAt t j).generationNat) := by
  unfold flagPair
  split
  · next same => rw [suspect_suspectAt inside, and_iff_left same]
  · next differ => rw [or_iff_left fun both => differ both.2]

theorem sameButSuspect_flagDuplicates : ∀ (ring : List Nat) (t : List Sector), sameButSuspect t (flagDuplicates t ring)
  | [], _ => ⟨rfl, fun _ => ⟨_, rfl⟩⟩
  | [_], _ => ⟨rfl, fun _ => ⟨_, rfl⟩⟩
  | i :: j :: rest, t => (sameButSuspect_flagPair t i j).trans (sameButSuspect_flagDuplicates (j :: rest) _)

theorem sameButSuspect.generationNat {t t' : List Sector} (same : sameButSuspect t t') (k : Nat) :
    (sectorAt t' k).generationNat = (sectorAt t k).generationNat := by
  obtain ⟨v, entry⟩ := same.2 k
  rw [entry]
  rfl

theorem sameButSuspect.ringBefore {t t' : List Sector} (same : sameButSuspect t t') : ringBefore t' = ringBefore t := by
  funext i j
  rw [Machine.ringBefore, Machine.ringBefore, same.generationNat, same.generationNat]

/-- In a ring in order, the scan flags each sector that has one of its generation before it: their neighbours have it too. -/
theorem suspect_flagDuplicates : ∀ (ring : List Nat) (t : List Sector), ring.Pairwise (ringBefore t) → (∀ i ∈ ring, i < t.length) →
    ((sectorAt (flagDuplicates t ring) k).suspect = true ↔ (sectorAt t k).suspect = true ∨
      (k ∈ ring ∧ ∃ j ∈ ring, j < k ∧ (sectorAt t j).generationNat = (sectorAt t k).generationNat))
  | [], t, _, _ => by simp [flagDuplicates]
  | [i], t, _, _ => by simp [flagDuplicates]; omega
  | i :: j :: rest, t, ordered, inside => by
    obtain ⟨first, later⟩ := List.pairwise_cons.mp ordered
    obtain ⟨-, within⟩ := List.forall_mem_cons.mp inside
    have step := sameButSuspect_flagPair t i j
    have ih := suspect_flagDuplicates (j :: rest) (flagPair t i j) (step.ringBefore ▸ later) (step.1 ▸ within)
    refine ih.trans ?_
    rw [suspect_flagPair (within j List.mem_cons_self)]
    simp only [step.generationNat, or_assoc]
    refine or_congr Iff.rfl ⟨?_, ?_⟩
    · rintro (⟨rfl, same⟩ | ⟨listed, j', listed', below, same⟩)
      · refine ⟨List.mem_cons_of_mem i List.mem_cons_self, i, List.mem_cons_self, ?_, same⟩
        have before := first k List.mem_cons_self
        unfold ringBefore at before
        omega
      · exact ⟨List.mem_cons_of_mem i listed, j', List.mem_cons_of_mem i listed', below, same⟩
    · rintro ⟨listed, j', listed', below, same⟩
      rcases List.mem_cons.mp listed with rfl | tail
      · rcases List.mem_cons.mp listed' with rfl | tail'
        · omega
        · have before := first j' tail'
          unfold ringBefore at before
          omega
      · rcases List.mem_cons.mp listed' with rfl | tail'
        · rcases List.mem_cons.mp tail with rfl | behind
          · exact .inl ⟨rfl, same⟩
          · have before := first j List.mem_cons_self
            have after := (List.pairwise_cons.mp later).1 k behind
            unfold ringBefore at before after
            exact .inr ⟨tail, j, List.mem_cons_self, by omega, by omega⟩
        · exact .inr ⟨tail, j', tail', below, same⟩

/-! ### RECLAIMING sectors behind the front (R147) -/

theorem length_demoteReclaiming : ∀ (ring : List Nat) (t : List Sector), (demoteReclaiming t ring).length = t.length
  | [], _ => rfl
  | i :: rest, t => by
    rw [demoteReclaiming, length_demoteReclaiming rest]
    split
    · exact List.length_set ..
    · rfl

theorem lt_length_of_reclaiming (state : (sectorAt t k).state = .reclaiming) : k < t.length :=
  lt_length_of_state (s := { State.reset with sectors := t }) (by rw [State.sector, state]; simp)

theorem sectorAt_demoteReclaiming : ∀ (ring : List Nat) (t : List Sector), sectorAt (demoteReclaiming t ring) k =
    if k ∈ ring ∧ (sectorAt t k).state = .reclaiming then { sectorAt t k with state := .closed, suspect := true } else sectorAt t k
  | [], t => by simp [demoteReclaiming]
  | i :: rest, t => by
    rw [demoteReclaiming, sectorAt_demoteReclaiming rest]
    by_cases here : k = i
    · subst here
      by_cases state : (sectorAt t k).state = .reclaiming
      · have moved : sectorAt (t.set k { sectorAt t k with state := .closed, suspect := true }) k =
            { sectorAt t k with state := .closed, suspect := true } := by
          rw [sectorAt_set, if_pos ⟨rfl, lt_length_of_reclaiming state⟩]
        rw [if_pos state, moved, if_pos (⟨List.mem_cons_self, state⟩ : k ∈ k :: rest ∧ _)]
        exact if_neg fun both => SectorState.noConfusion both.2
      · rw [if_neg state, if_neg (fun both => state both.2), if_neg fun both => state both.2]
    · have other : sectorAt (if (sectorAt t i).state = .reclaiming then
          t.set i { sectorAt t i with state := .closed, suspect := true } else t) k = sectorAt t k := by
        split
        · rw [sectorAt_set, if_neg fun both => here both.1]
        · rfl
      rw [other]
      simp only [List.mem_cons, here, false_or]

/-! ### The table before the replay -/

/-- A RECLAIMING sector that is not the first of the ring. -/
def displaced (m : List Host.Cell) (i : Nat) : Prop :=
  (classify m i).1 = .reclaiming ∧ ∃ j, inMountRing m j ∧ mountBefore m j i

theorem mem_tail_of_ordered {l : List Nat} (ordered : l.Pairwise (ringBefore t)) :
    i ∈ l.tail ↔ i ∈ l ∧ ∃ j ∈ l, ringBefore t j i := by
  cases l with
  | nil => simp
  | cons h rest =>
    obtain ⟨first, -⟩ := List.pairwise_cons.mp ordered
    refine ⟨fun behind => ⟨List.mem_cons_of_mem h behind, h, List.mem_cons_self, first i behind⟩, ?_⟩
    rintro ⟨listed, j, listed', before⟩
    rcases List.mem_cons.mp listed with rfl | behind
    · rcases List.mem_cons.mp listed' with rfl | behind'
      · unfold ringBefore at before
        omega
      · have after := first j behind'
        unfold ringBefore at before after
        omega
    · exact behind

theorem mem_tail_classifiedTable (state : (classify m i).1 = .reclaiming) (inside : i < 64) :
    i ∈ (ringOf (classifiedTable m d)).tail ↔ displaced m i := by
  have ring : inMountRing m i := ⟨inside, .inr (.inr state)⟩
  rw [mem_tail_of_ordered (ringOf_ordered _), mem_ringOf_classifiedTable, displaced, and_iff_right ring, and_iff_right state]
  refine exists_congr fun j => ?_
  rw [mem_ringOf_classifiedTable]
  exact and_congr_right fun other => ringBefore_classifiedTable other ring

/-- A sector of the ring with one of its generation of lower index. -/
def duplicate (m : List Host.Cell) (i : Nat) : Prop :=
  inMountRing m i ∧ ∃ j, j < i ∧ inMountRing m j ∧ headerField m j 4 4 = headerField m i 4 4

theorem duplicate_iff : (i ∈ ringOf (classifiedTable m d) ∧ ∃ j ∈ ringOf (classifiedTable m d), j < i ∧
    (sectorAt (classifiedTable m d) j).generationNat = (sectorAt (classifiedTable m d) i).generationNat) ↔ duplicate m i := by
  rw [mem_ringOf_classifiedTable, duplicate]
  refine and_congr_right fun ring => exists_congr fun j => ?_
  rw [mem_ringOf_classifiedTable]
  constructor
  · rintro ⟨ring', below, same⟩
    rw [generationNat_classifiedTable ring', generationNat_classifiedTable ring] at same
    exact ⟨below, ring', same⟩
  · rintro ⟨below, ring', same⟩
    refine ⟨ring', below, ?_⟩
    rw [generationNat_classifiedTable ring', generationNat_classifiedTable ring, same]

/-- The entry that a sector has before the replay: as classified, but for the state of a displaced one and the flags. -/
theorem sectorAt_builtTable (inside : i < 64) : ∃ state suspect,
    sectorAt (builtTable m d) i = { mountedSector m d (highestField m 2 2) i with state := state, suspect := suspect } ∧
    (displaced m i → state = .closed) ∧ (¬displaced m i → state = (classify m i).1) ∧
    (suspect = true ↔ (classify m i).2 = true ∨ duplicate m i ∨ displaced m i) := by
  obtain ⟨v, flagged⟩ := (sameButSuspect_flagDuplicates (ringOf (classifiedTable m d)) (classifiedTable m d)).2 i
  have suspect := suspect_flagDuplicates (k := i) (ringOf (classifiedTable m d)) (classifiedTable m d) (ringOf_ordered _)
    fun j listed => (mem_ringOf.mp listed).1
  rw [duplicate_iff, flagged, sectorAt_classifiedTable inside] at suspect
  rw [sectorAt_classifiedTable inside] at flagged
  rw [builtTable, sectorAt_demoteReclaiming, flagged]
  have moved : (i ∈ (ringOf (classifiedTable m d)).tail ∧ (classify m i).1 = .reclaiming) ↔ displaced m i :=
    ⟨fun both => (mem_tail_classifiedTable both.2 inside).mp both.1, fun away => ⟨(mem_tail_classifiedTable away.1 inside).mpr away, away.1⟩⟩
  split
  · next both =>
    have away := moved.mp both
    exact ⟨.closed, true, rfl, fun _ => rfl, fun stays => absurd away stays, by simp [away]⟩
  · next stays =>
    have stands : ¬displaced m i := fun away => stays (moved.mpr away)
    refine ⟨_, v, rfl, fun away => absurd away stands, fun _ => rfl, ?_⟩
    rw [or_iff_left stands]
    exact suspect

theorem length_builtTable : (builtTable m d).length = 64 :=
  (length_demoteReclaiming _ _).trans ((sameButSuspect_flagDuplicates _ _).1.trans length_classifiedTable)

theorem ringOf_builtTable : ringOf (builtTable m d) = ringOf (classifiedTable m d) := by
  refine ringOf_congr (length_builtTable.trans length_classifiedTable.symm) (fun j => ?_) fun j => ?_
  all_goals
    obtain ⟨v, flagged⟩ := (sameButSuspect_flagDuplicates (ringOf (classifiedTable m d)) (classifiedTable m d)).2 j
    rw [builtTable, sectorAt_demoteReclaiming, flagged]
    split
  · next both =>
    have state : (sectorAt (classifiedTable m d) j).state = .reclaiming := both.2
    simp only [Sector.inRing, state]
  · rfl
  · rfl
  · rfl

end

end Sys2Proof.Machine
end

