-- ==== Sys2Proof/Proofs/MountedStore.lean ====
section
/-! PROOF. The state in which a part leaves reset (10_mounting_recovery_and_format.md R145 to R151): the replay of the ring, and the
entry that each sector has of it. -/

namespace Sys2Proof.Machine

section
variable {m : List Host.Cell} {d i j k : Nat} {t : List Sector}

/-! ### The replay of the ring -/

theorem isEmpty_eq_last {rest : List Nat} (fresh : k ∉ rest) : rest.isEmpty = decide ((k :: rest).getLast? = some k) := by
  cases rest with
  | nil => simp
  | cons j rest =>
    rw [List.getLast?_cons_cons]
    exact (decide_eq_false fun same => fresh (List.mem_of_getLast? same)).symm

theorem sectorAt_replayRing : ∀ (ring : List Nat) (t : List Sector) (a : Replay), ring.Nodup → (∀ i ∈ ring, i < t.length) →
    sectorAt (replayRing m ring t a).1 k =
      if k ∈ ring then replayedSector (sectorAt t k) (stopOf m k).1 (stopOf m k).2 (decide (ring.getLast? = some k))
      else sectorAt t k
  | [], _, _, _, _ => rfl
  | i :: rest, t, a, distinct, inside => by
    obtain ⟨fresh, distinct'⟩ := List.nodup_cons.mp distinct
    obtain ⟨here, others⟩ := List.forall_mem_cons.mp inside
    have stop : (replaySector (sectorCells m i) i 126 0 a).2 = stopOf m i := by
      rw [replaySector_sectorCells, replaySector_stop m i 126 0 a ⟨[], [], 0, 0⟩, stopOf]
    rw [replayRing, stop]
    dsimp only
    rw [sectorAt_replayRing rest _ _ distinct' (fun j listed => (List.length_set ..).symm ▸ others j listed)]
    by_cases first : k = i
    · subst first
      rw [if_neg fresh, if_pos List.mem_cons_self, sectorAt_set, if_pos ⟨rfl, here⟩, isEmpty_eq_last fresh]
    · have other (e : Sector) : sectorAt (t.set i e) k = sectorAt t k := by
        rw [sectorAt_set, if_neg fun both => first both.1]
      rw [other]
      cases rest with
      | nil => simp [first]
      | cons j rest =>
        rw [List.getLast?_cons_cons]
        exact if_congr (by rw [List.mem_cons, List.mem_cons, List.mem_cons, or_iff_right first]) rfl rfl

theorem replayRing_carried : ∀ (ring : List Nat) (t : List Sector) (a : Replay),
    (replayRing m ring t a).2.1 = ring.foldl (fun a i => (replaySector m i 126 0 a).1) a
  | [], _, _ => rfl
  | i :: rest, t, a => by
    rw [replayRing, List.foldl_cons]
    refine (replayRing_carried rest _ _).trans ?_
    rw [replaySector_sectorCells]

theorem replayRing_sameRing (ring : List Nat) : ∀ (t : List Sector) (a : Replay) (k : Nat), ∃ fill suspect,
    sectorAt (replayRing m ring t a).1 k = { sectorAt t k with fill := fill, suspect := suspect } := by
  induction ring with
  | nil => exact fun t a k => ⟨_, _, rfl⟩
  | cons i ring ih =>
    intro t a k
    rw [replayRing]
    obtain ⟨fill, suspect, same⟩ := ih (t.set i (replayedSector (sectorAt t i) (replaySector (sectorCells m i) i 126 0 a).2.1
      (replaySector (sectorCells m i) i 126 0 a).2.2 ring.isEmpty)) (replaySector (sectorCells m i) i 126 0 a).1 k
    refine ⟨fill, suspect, same.trans ?_⟩
    rw [sectorAt_set]
    split
    · next here => rw [here.1]; rfl
    · rfl

theorem getLast?_of_ordered {l : List Nat} (ordered : l.Pairwise (ringBefore t)) :
    l.getLast? = some i ↔ i ∈ l ∧ ∀ j ∈ l, j = i ∨ ringBefore t j i := by
  constructor
  · intro last
    obtain ⟨front, rfl⟩ := List.getLast?_eq_some_iff.mp last
    refine ⟨by simp, fun j listed => ?_⟩
    rcases List.mem_append.mp listed with early | here
    · exact .inr ((List.pairwise_append.mp ordered).2.2 j early i List.mem_cons_self)
    · exact .inl (List.mem_singleton.mp here)
  · rintro ⟨listed, others⟩
    obtain ⟨front, behind, rfl⟩ := List.append_of_mem listed
    cases behind with
    | nil => simp
    | cons j behind =>
      have after := (List.pairwise_cons.mp (List.pairwise_append.mp ordered).2.1).1 j List.mem_cons_self
      unfold ringBefore at after
      rcases others j (by simp) with rfl | before
      · omega
      · unfold ringBefore at before
        omega

/-- No other sector of the ring stands behind this one. -/
def lastOfRing (m : List Host.Cell) (i : Nat) : Prop := ∀ j, inMountRing m j → j = i ∨ mountBefore m j i

theorem getLast?_classifiedTable (ring : inMountRing m i) :
    (ringOf (classifiedTable m d)).getLast? = some i ↔ lastOfRing m i := by
  rw [getLast?_of_ordered (ringOf_ordered _), and_iff_right (mem_ringOf_classifiedTable.mpr ring), lastOfRing]
  refine forall_congr' fun j => ?_
  rw [mem_ringOf_classifiedTable]
  exact imp_congr_right fun other => or_congr Iff.rfl (ringBefore_classifiedTable other ring)

/-! ### The entries once mount has read the flash -/

/-- What mount makes of sector `i`, but for its live bytes. -/
structure MountedEntry (m : List Host.Cell) (draw i : Nat) (e : Sector) : Prop where
  moved : displaced m i → e.state = .closed
  stays : ¬displaced m i → e.state = (classify m i).1
  generation : e.generation = mountedGeneration m i (classify m i).1
  eraseCount : e.eraseCount = mountedEraseCount m draw (highestField m 2 2) i (classify m i).1
  erasePending : e.erasePending = decide ((classify m i).1 = .dirty)
  fill : inMountRing m i → e.fill = (stopOf m i).1
  suspect : e.suspect = true ↔ (classify m i).2 = true ∨ duplicate m i ∨ displaced m i ∨
    (inMountRing m i ∧ (stopOf m i).2 = true ∧ ¬(lastOfRing m i ∧ (classify m i).1 = .opened))

theorem opened_iff {e : Sector} (moved : displaced m i → e.state = .closed) (stays : ¬displaced m i → e.state = (classify m i).1) :
    e.state = .opened ↔ (classify m i).1 = .opened := by
  by_cases away : displaced m i
  · rw [moved away, away.1]
    simp
  · rw [stays away]

theorem MountedEntry.live {draw : Nat} {e : Sector} (entry : MountedEntry m draw i e) (live : Nat) :
    MountedEntry m draw i { e with live := live } :=
  ⟨entry.moved, entry.stays, entry.generation, entry.eraseCount, entry.erasePending, entry.fill, entry.suspect⟩

section
variable {draw : Nat} {e : Sector}

theorem MountedEntry.ofRing (entry : MountedEntry m draw i e) (ring : inMountRing m i) :
    e.generation = some (BitVec.ofNat 32 (headerField m i 4 4)) ∧ e.eraseCount = headerField m i 2 2 := by
  rw [entry.generation, entry.eraseCount]
  rcases ring.2 with state | state | state <;> rw [state] <;> exact ⟨rfl, rfl⟩

theorem MountedEntry.free (entry : MountedEntry m draw i e) (free : (classify m i).1 = .erased ∨ (classify m i).1 = .dirty) :
    e.generation = none ∧ isHighest m 2 2 e.eraseCount := by
  rw [entry.generation, entry.eraseCount]
  rcases free with state | state <;> rw [state] <;> exact ⟨rfl, highestField_isHighest (by decide)⟩

theorem MountedEntry.retired_valid (entry : MountedEntry m draw i e) (retired : (classify m i).1 = .retired)
    (header : headerValid m i = true) :
    e.generation = some (BitVec.ofNat 32 (headerField m i 4 4)) ∧ e.eraseCount = headerField m i 2 2 := by
  rw [entry.generation, entry.eraseCount, retired]
  exact ⟨if_pos header, if_pos header⟩

theorem MountedEntry.retired_blank (entry : MountedEntry m draw i e) (retired : (classify m i).1 = .retired)
    (blank : headerValid m i = false) : e.generation = none := by
  rw [entry.generation, retired]
  exact if_neg (by rw [blank]; decide)

/-- A damaged record stands where the reading of the sector stopped. -/
theorem MountedEntry.hurt_iff (entry : MountedEntry m draw i e) (ring : inMountRing m i) :
    (stopOf m i).2 = true ↔ readRecord m i e.fill = .damaged := by
  rw [entry.fill ring, stopOf_damaged_iff]

theorem MountedEntry.suspect_iff (entry : MountedEntry m draw i e) : e.suspect = true ↔
    (classify m i).2 = true ∨ duplicate m i ∨ displaced m i ∨
      ((inMountRing m i ∧ readRecord m i e.fill = .damaged) ∧ ¬((classify m i).1 = .opened ∧ lastOfRing m i)) := by
  rw [entry.suspect, and_comm (a := lastOfRing m i), ← and_assoc, and_congr_right entry.hurt_iff]

end

section
variable {s t : State}

theorem replayed_mountedEntry (s : State) (inside : i < 64) : MountedEntry s.flash s.draws i (sectorAt s.replayed.1 i) := by
  obtain ⟨state, suspect, built, moved, stays, flagged⟩ := sectorAt_builtTable (m := s.flash) (d := s.draws) inside
  have replayed := sectorAt_replayRing (m := s.flash) (k := i) (ringOf (builtTable s.flash s.draws)) (builtTable s.flash s.draws)
    ⟨[], [], 0, 0⟩ (ringOf_nodup _) fun j listed => (mem_ringOf.mp listed).1
  rw [ringOf_builtTable] at replayed
  unfold State.replayed
  rw [ringOf_builtTable, replayed, built]
  by_cases ring : inMountRing s.flash i
  · rw [if_pos (mem_ringOf_classifiedTable.mpr ring)]
    have opened : state = .opened ↔ (classify s.flash i).1 = .opened :=
      opened_iff (e := { Sector.erased 0 with state := state }) moved stays
    have last := getLast?_classifiedTable (d := s.draws) ring
    refine ⟨moved, stays, rfl, rfl, rfl, fun _ => rfl, ?_⟩
    simp only [replayedSector, Bool.or_eq_true, Bool.and_eq_true, Bool.not_eq_true', Bool.and_eq_false_iff, decide_eq_false_iff_not,
      flagged, last, opened, ring, true_and, or_assoc, not_and_or]
  · rw [if_neg fun listed => ring (mem_ringOf_classifiedTable.mp listed)]
    refine ⟨moved, stays, rfl, rfl, rfl, fun among => absurd among ring, flagged.trans ?_⟩
    simp only [ring, false_and, or_false]

/-! ### Leaving reset -/

/-- The state that mount starts from: neither hold holds the part. -/
def State.released (s : State) : State := { s with powerHold := false, resetPin := false }

theorem leaveReset_released (s : State) : s.released.leaveReset = s.released.mountRead.takeRise :=
  if_neg (by simp [State.released, State.inReset])

theorem exec_resetHoldRelease_last (held : s.powerHold = true) (free : s.resetPin = false) :
    exec .resetHoldRelease s = .next s.released.mountRead.takeRise := by
  have release : { s with powerHold := false } = s.released := by rw [State.released, ← free]
  show execResetHoldRelease s = _
  rw [execResetHoldRelease, if_pos held, release, leaveReset_released]

theorem exec_resetPinRelease_last (free : s.powerHold = false) (held : s.resetPin = true) :
    exec .resetPinRelease s = .next s.released.mountRead.takeRise := by
  have release : { s with resetPin := false } = s.released := by rw [State.released, ← free]
  show execResetPinRelease s = _
  rw [execResetPinRelease, if_pos held, release, leaveReset_released]

theorem leavesResetTo_eq (left : s.leavesResetTo t) : t = s.released.mountRead.takeRise := by
  rcases left with ⟨held, free, run⟩ | ⟨free, held, run⟩
  · exact (Host.Outcome.next.inj ((exec_resetHoldRelease_last held free).symm.trans run)).symm
  · exact (Host.Outcome.next.inj ((exec_resetPinRelease_last free held).symm.trans run)).symm

theorem sector_takeRise (s : State) (i : Nat) : s.takeRise.sector i = s.sector i := rfl

/-- Mount waits, having read the store, or ends at once. -/
theorem mountRead_cases (s : State) :
    (s.replayed.2.2 = [] ∧ s.readStore.nextDirty = none ∧
      s.mountRead = s.readStore.mountEnd ⟨.waiting, s.replayed.2.2, s.replayedDirectory, 0⟩) ∨
    (¬(s.replayed.2.2 = [] ∧ s.readStore.nextDirty = none) ∧
      s.mountRead = { s.readStore with work := .mount ⟨.waiting, s.replayed.2.2, s.replayedDirectory, 0⟩ }) := by
  rw [mountRead_eq, State.mountContinue]
  by_cases settled : s.replayed.2.2 = [] ∧ s.readStore.nextDirty = none
  · exact .inl ⟨settled.1, settled.2, if_pos settled⟩
  · exact .inr ⟨settled, if_neg settled⟩

theorem length_replayed (s : State) : s.replayed.1.length = 64 := by
  unfold State.replayed
  exact (replayRing_states _ _ _ _).1.trans length_builtTable

theorem length_readStore (s : State) : s.readStore.sectors.length = 64 := by
  rw [State.readStore, setLive, List.length_map, List.length_range, length_replayed]

theorem length_mountRead (s : State) : s.mountRead.sectors.length = 64 := by
  rcases mountRead_cases s with ⟨-, -, ends⟩ | ⟨-, waits⟩
  · rw [ends]
    exact (List.length_map ..).trans (List.length_range.trans (length_readStore s))
  · rw [waits]
    exact length_readStore s

theorem sector_readStore (s : State) (j : Nat) : ∃ live, s.readStore.sector j = { sectorAt s.replayed.1 j with live := live } :=
  sectorAt_setLive _ _ j

/-- The live bytes apart, the entries are those of the replay. -/
theorem sector_mountRead (s : State) (j : Nat) : ∃ live, s.mountRead.sector j = { sectorAt s.replayed.1 j with live := live } := by
  obtain ⟨live, read⟩ := sector_readStore s j
  rcases mountRead_cases s with ⟨-, -, ends⟩ | ⟨-, waits⟩
  · obtain ⟨live', final⟩ := sectorAt_setLive s.readStore.sectors (limitDirectory s.replayedDirectory) j
    rw [ends]
    exact ⟨live', final.trans (by rw [show sectorAt s.readStore.sectors j = _ from read])⟩
  · rw [waits]
    exact ⟨live, read⟩

theorem nextGen_mountRead (s : State) : s.mountRead.nextGen = BitVec.ofNat 32 (highestField s.flash 4 4 + 1) := by
  rcases mountRead_cases s with ⟨-, -, ends⟩ | ⟨-, waits⟩
  · rw [ends]; rfl
  · rw [waits]; rfl

theorem mounted_sector (left : s.leavesResetTo t) (i : Nat) :
    ∃ live, t.sector i = { sectorAt s.released.replayed.1 i with live := live } := by
  rw [leavesResetTo_eq left, sector_takeRise]
  exact sector_mountRead s.released i

theorem mounted_entry (left : s.leavesResetTo t) (inside : i < 64) : MountedEntry s.flash s.draws i (t.sector i) := by
  obtain ⟨live, entry⟩ := mounted_sector left i
  rw [entry]
  exact (replayed_mountedEntry s.released inside).live live

end

end

/-- Settles O8: each entry is what the classes, the flags of R147 and the replay make of it. -/
theorem mountBuildsSectorTable : Obligations.MountBuildsSectorTable := by
  intro s t left
  refine ⟨⟨highestField s.flash 4 4, highestField_isHighest (by decide), ?nextGen⟩, fun i inside => ?entry⟩
  case nextGen =>
    rw [leavesResetTo_eq left, takeRise_nextGen]
    exact nextGen_mountRead s.released
  case entry =>
    have entry := mounted_entry left inside
    exact ⟨entry.moved, entry.stays, entry.ofRing, entry.free, fun retired header => entry.retired_valid retired header,
      fun retired blank => entry.retired_blank retired blank, entry.erasePending, entry.suspect_iff⟩

end Sys2Proof.Machine
end

