-- ==== Sys2Proof/Proofs/MountReplay.lean ====
section
/-! PROOF. What the replay of the ring carries to the end of the reading phase (10_mounting_recovery_and_format.md R148 to R151). -/

namespace Sys2Proof.Machine

section
variable {m : List Host.Cell} {i : Nat}

/-- The replay of the sectors of a ring, one after another. -/
def replayOf (m : List Host.Cell) (ring : List Nat) (a : Replay) : Replay :=
  ring.foldl (fun a i => (replaySector m i 126 0 a).1) a

theorem replayOf_cons (m : List Host.Cell) (i : Nat) (ring : List Nat) (a : Replay) :
    replayOf m (i :: ring) a = replayOf m ring (replaySector m i 126 0 a).1 := List.foldl_cons ..

/-! ### The next sequence -/

theorem replayOf_afterHighest : ∀ (ring : List Nat) (a : Replay),
    let after := (replayOf m ring a).afterHighest
    a.afterHighest ≤ after ∧ (∀ i ∈ ring, ∀ q, countedFrom m i 0 q → q ≤ after) ∧
      (after = a.afterHighest ∨ ∃ i ∈ ring, countedFrom m i 0 after)
  | [], _ => ⟨Nat.le_refl _, fun _ listed => (by cases listed), .inl rfl⟩
  | i :: ring, a => by
    obtain ⟨above, covers, stands⟩ := replaySector_afterHighest (m := m) (i := i) 126 0 a (by decide)
    obtain ⟨above', covers', stands'⟩ := replayOf_afterHighest ring (replaySector m i 126 0 a).1
    rw [replayOf_cons]
    refine ⟨above.trans above', List.forall_mem_cons.mpr ⟨fun q counted => (covers q counted).trans above', covers'⟩, ?_⟩
    rcases stands' with same | ⟨j, listed, counted⟩
    · rw [same]
      exact stands.imp_right fun counted => ⟨i, List.mem_cons_self, counted⟩
    · exact .inr ⟨j, List.mem_cons_of_mem i listed, counted⟩

/-- R10, R148: the next sequence is 1, or the highest of the marks and of the records' successors. -/
theorem mountedNextSeq_spec (m : List Host.Cell) (ring : List Nat) :
    let after := (replayOf m ring ⟨[], [], 0, 0⟩).afterHighest
    ∃ n, mountedNextSeq m after = BitVec.ofNat 48 n ∧ 1 ≤ n ∧
      (∀ i, i < 64 → headerValid m i = true → headerField m i 8 6 ≤ n) ∧
      (∀ i ∈ ring, ∀ q, countedFrom m i 0 q → q ≤ n) ∧
      (n = 1 ∨ (∃ i, i < 64 ∧ headerValid m i = true ∧ headerField m i 8 6 = n) ∨ ∃ i ∈ ring, countedFrom m i 0 n) := by
  obtain ⟨-, covers, stands⟩ := replayOf_afterHighest (m := m) ring ⟨[], [], 0, 0⟩
  obtain ⟨marks, marked⟩ := highestField_isHighest (m := m) (off := 8) (n := 6) (by decide)
  dsimp only
  generalize (replayOf m ring ⟨[], [], 0, 0⟩).afterHighest = after at covers stands
  refine ⟨max 1 (max after (highestField m 8 6)), rfl, by omega, fun i low valid => ?_, fun i listed q counted => ?_, ?_⟩
  · have below := marks i low valid
    omega
  · have below := covers i listed q counted
    omega
  · rcases Nat.le_total after (highestField m 8 6) with below | above
    · rcases marked with ⟨i, low, valid, field⟩ | ⟨zero, -⟩
      · by_cases one : highestField m 8 6 ≤ 1
        · exact .inl (by omega)
        · exact .inr (.inl ⟨i, low, valid, by omega⟩)
      · exact .inl (by omega)
    · by_cases one : after ≤ 1
      · exact .inl (by omega)
      · rcases stands with zero | ⟨i, listed, counted⟩
        · have none : after = 0 := zero
          omega
        · exact .inr (.inr ⟨i, listed, by rwa [Nat.max_eq_left above, Nat.max_eq_right (by omega)]⟩)

/-! ### Damaged records -/

theorem replayOf_damaged : ∀ (ring : List Nat) (a : Replay), a.damaged + ring.length ≤ 65535 →
    (replayOf m ring a).damaged = a.damaged + (ring.filter fun i => (stopOf m i).2).length
  | [], _, _ => rfl
  | i :: ring, a, few => by
    rw [List.length_cons] at few
    have stop : (replaySector m i 126 0 a).2 = stopOf m i := replaySector_stop m i 126 0 a _
    have here := replaySector_damaged (m := m) (i := i) 126 0 a
    rw [stop] at here
    cases hurt : (stopOf m i).2 with
    | true =>
      rw [hurt, if_pos rfl] at here
      rw [replayOf_cons, replayOf_damaged ring _ (by omega), here,
        List.filter_cons_of_pos (p := fun i => (stopOf m i).2) hurt, List.length_cons]
      omega
    | false =>
      rw [hurt, if_neg (by decide)] at here
      rw [replayOf_cons, replayOf_damaged ring _ (by omega), here,
        List.filter_cons_of_neg (p := fun i => (stopOf m i).2) (by rw [hurt]; decide)]

/-! ### The sectors to be closed (R151) -/

theorem toClose_sublist : ∀ (ring : List Nat) (t : List Sector) (a : Replay), (replayRing m ring t a).2.2.Sublist ring
  | [], _, _ => .slnil
  | i :: ring, t, a => by
    rw [replayRing]
    dsimp only
    split
    · exact (toClose_sublist ring _ _).cons_cons i
    · exact (toClose_sublist ring _ _).cons i

theorem mustClose_iff {e : Sector} {hurt : Bool} {last : Prop} [Decidable last] :
    mustClose e hurt (decide last) = true ↔ e.state = .opened ∧ (¬last ∨ hurt = true) := by
  simp [mustClose]

theorem mem_toClose : ∀ (ring : List Nat) (t : List Sector) (a : Replay), ring.Nodup →
    (i ∈ (replayRing m ring t a).2.2 ↔
      i ∈ ring ∧ (sectorAt t i).state = .opened ∧ (ring.getLast? ≠ some i ∨ (stopOf m i).2 = true))
  | [], _, _, _ => by simp [replayRing]
  | j :: ring, t, a, distinct => by
    obtain ⟨fresh, distinct'⟩ := List.nodup_cons.mp distinct
    have stop : (replaySector (sectorCells m j) j 126 0 a).2 = stopOf m j := by
      rw [replaySector_sectorCells, replaySector_stop m j 126 0 a ⟨[], [], 0, 0⟩, stopOf]
    rw [replayRing, stop]
    dsimp only
    have rest := mem_toClose ring (t.set j (replayedSector (sectorAt t j) (stopOf m j).1 (stopOf m j).2 ring.isEmpty))
      (replaySector (sectorCells m j) j 126 0 a).1 distinct'
    by_cases here : i = j
    · subst here
      have out : i ∉ (replayRing m ring (t.set i (replayedSector (sectorAt t i) (stopOf m i).1 (stopOf m i).2 ring.isEmpty))
          (replaySector (sectorCells m i) i 126 0 a).1).2.2 := fun listed => fresh ((toClose_sublist ring _ _).mem listed)
      rw [and_iff_right List.mem_cons_self, ← mustClose_iff (last := (i :: ring).getLast? = some i), ← isEmpty_eq_last fresh]
      split
      · next close => exact iff_of_true List.mem_cons_self close
      · next keep => exact iff_of_false out keep
    · have state (e : Sector) : sectorAt (t.set j e) i = sectorAt t i := by
        rw [sectorAt_set, if_neg fun both => here both.1]
      rw [state] at rest
      have listed : i ∈ j :: ring ↔ i ∈ ring := by rw [List.mem_cons, or_iff_right here]
      have last (among : i ∈ ring) : (j :: ring).getLast? = ring.getLast? := by
        cases ring with
        | nil => cases among
        | cons k ring => exact List.getLast?_cons_cons
      rw [listed]
      refine Iff.trans ?_ (rest.trans (and_congr_right fun among => by rw [last among]))
      split
      · rw [List.mem_cons, or_iff_right here]
      · rfl

end

/-! ### The state in which reset is left -/

section
variable {s t : State} {i j : Nat}

/-- What the whole replay carries. -/
def State.mountReplay (s : State) : Replay := replayOf s.flash (ringOf (classifiedTable s.flash s.draws)) ⟨[], [], 0, 0⟩

theorem replayed_carried (s : State) : s.replayed.2.1 = s.mountReplay := by
  unfold State.replayed
  rw [replayRing_carried, ringOf_builtTable]
  rfl

theorem replayed_closes : i ∈ s.replayed.2.2 ↔ i ∈ ringOf (classifiedTable s.flash s.draws) ∧
    (sectorAt s.replayed.1 i).state = .opened ∧
      ((ringOf (classifiedTable s.flash s.draws)).getLast? ≠ some i ∨ (stopOf s.flash i).2 = true) := by
  have states := replayRing_states s.flash (ringOf (builtTable s.flash s.draws)) (builtTable s.flash s.draws) ⟨[], [], 0, 0⟩
  unfold State.replayed
  rw [mem_toClose _ _ _ (ringOf_nodup _), states.2, ringOf_builtTable]

theorem replayed_closes_nodup (s : State) : s.replayed.2.2.Nodup := by
  unfold State.replayed
  exact (toClose_sublist _ _ _).nodup (ringOf_nodup _)

/-- Fill, live bytes and the suspect flag have no part in the ring. -/
theorem ringOf_sameGenerations {t t' : List Sector} (length : t'.length = t.length)
    (same : ∀ j, ∃ fill live suspect, sectorAt t' j = { sectorAt t j with fill := fill, live := live, suspect := suspect }) :
    ringOf t' = ringOf t := by
  refine ringOf_congr length (fun j => ?_) fun j => ?_
  all_goals
    obtain ⟨fill, live, suspect, entry⟩ := same j
    rw [entry]
    generalize sectorAt t j = e
    rfl

theorem ringOf_replayed (s : State) : ringOf s.replayed.1 = ringOf (classifiedTable s.flash s.draws) := by
  rw [← ringOf_builtTable]
  refine ringOf_sameGenerations ((length_replayed s).trans length_builtTable.symm) fun j => ?_
  unfold State.replayed
  obtain ⟨fill, suspect, entry⟩ := replayRing_sameRing (m := s.flash) (ringOf (builtTable s.flash s.draws))
    (builtTable s.flash s.draws) ⟨[], [], 0, 0⟩ j
  exact ⟨fill, _, suspect, entry⟩

theorem ring_mountRead (s : State) : s.mountRead.ring = ringOf (classifiedTable s.flash s.draws) := by
  rw [← ringOf_replayed]
  refine ringOf_sameGenerations ((length_mountRead s).trans (length_replayed s).symm) fun j => ?_
  obtain ⟨live, entry⟩ := sector_mountRead s j
  exact ⟨_, live, _, entry⟩

theorem ring_takeRise (s : State) : s.takeRise.ring = s.ring := rfl

theorem mounted_ring (left : s.leavesResetTo t) : t.ring = ringOf (classifiedTable s.flash s.draws) := by
  rw [leavesResetTo_eq left, ring_takeRise, ring_mountRead]
  rfl

theorem mem_mounted_ring (left : s.leavesResetTo t) : i ∈ t.ring ↔ inMountRing s.flash i := by
  rw [mounted_ring left, mem_ringOf_classifiedTable]

theorem mounted_fill (left : s.leavesResetTo t) (listed : i ∈ t.ring) : (t.sector i).fill = (stopOf s.flash i).1 :=
  have ring := (mem_mounted_ring left).mp listed
  (mounted_entry left ring.1).fill ring

theorem mounted_hurt (left : s.leavesResetTo t) (listed : i ∈ t.ring) :
    (stopOf s.flash i).2 = true ↔ readRecord s.flash i (t.sector i).fill = .damaged :=
  have ring := (mem_mounted_ring left).mp listed
  (mounted_entry left ring.1).hurt_iff ring

theorem mounted_stop (left : s.leavesResetTo t) (listed : i ∈ t.ring) : ReadsTo s.flash i (t.sector i).fill ∧
    (readRecord s.flash i (t.sector i).fill = .finished ∨ readRecord s.flash i (t.sector i).fill = .damaged) := by
  rw [mounted_fill left listed, stopOf_stands]
  refine ⟨stopOf_reads _ _, ?_⟩
  split
  · exact .inr rfl
  · exact .inl rfl

/-- The fields of the counters when mount has read the flash, whether it waits or has ended. -/
theorem counters_mountRead (s : State) : s.mountRead.nextSeq = mountedNextSeq s.flash s.mountReplay.afterHighest ∧
    s.mountRead.damaged = s.mountReplay.damaged := by
  rw [← replayed_carried]
  rcases mountRead_cases s with ⟨-, -, ends⟩ | ⟨-, waits⟩
  · rw [ends]; exact ⟨rfl, rfl⟩
  · rw [waits]; exact ⟨rfl, rfl⟩

theorem mounted_counters (left : s.leavesResetTo t) : t.nextSeq = mountedNextSeq s.flash s.mountReplay.afterHighest ∧
    t.damaged = s.mountReplay.damaged := by
  obtain ⟨nextSeq, damaged⟩ := counters_mountRead s.released
  rw [leavesResetTo_eq left, takeRise_nextSeq, takeRise_damaged, nextSeq, damaged]
  exact ⟨rfl, rfl⟩

theorem countedFrom_iff {m : List Host.Cell} {q : Nat} :
    countedFrom m i 0 q ↔ ∃ line r, ReadsTo m i line ∧ readRecord m i line = .record r ∧ r.seq.toNat + 1 = q := by
  simp only [countedFrom, readsTo_iff, eq_comm]

theorem length_ring_le (left : s.leavesResetTo t) : t.ring.length ≤ 64 := by
  have few : t.ring.length ≤ (List.range 64).length := (List.subperm_of_subset (by rw [mounted_ring left]; exact ringOf_nodup _)
    fun i listed => List.mem_range.mpr ((mem_mounted_ring left).mp listed).1).length_le
  rwa [List.length_range] at few

theorem mounted_state (left : s.leavesResetTo t) (i : Nat) : (t.sector i).state = (sectorAt s.released.replayed.1 i).state := by
  obtain ⟨live, entry⟩ := mounted_sector left i
  rw [entry]

/-- Mount has a close to make: the sectors of R151. -/
theorem mounted_closes (left : s.leavesResetTo t) : i ∈ s.released.replayed.2.2 ↔
    i ∈ t.ring ∧ (t.sector i).state = .opened ∧
      (t.ring.getLast? ≠ some i ∨ readRecord s.flash i (t.sector i).fill = .damaged) := by
  have closes : i ∈ s.released.replayed.2.2 ↔ i ∈ ringOf (classifiedTable s.flash s.draws) ∧
      (sectorAt s.released.replayed.1 i).state = .opened ∧
        ((ringOf (classifiedTable s.flash s.draws)).getLast? ≠ some i ∨ (stopOf s.flash i).2 = true) := replayed_closes
  rw [← mounted_state left, ← mounted_ring left] at closes
  exact closes.trans (and_congr_right fun listed => and_congr_right fun _ => or_congr Iff.rfl (mounted_hurt left listed))

theorem takeRise_mountEnd (s : State) (m : MountWork) : (s.mountEnd m).takeRise = s.takeRise.mountEnd m := rfl

/-- A DIRTY sector stands in the table that mount leaves when one stood in the table that it read. -/
theorem mounted_dirty (left : s.leavesResetTo t) :
    s.released.readStore.nextDirty = none ↔ ∀ i, i < 64 → (t.sector i).state ≠ .dirty := by
  have states (i : Nat) : (s.released.readStore.sector i).state = (t.sector i).state := by
    obtain ⟨live, read⟩ := sector_readStore s.released i
    rw [mounted_state left i, read]
  rw [State.nextDirty, List.find?_eq_none, length_readStore]
  simp only [List.mem_range, decide_eq_true_eq, states]

/-- What mount has in hand when it has read the flash. -/
def State.mountWork (s : State) : MountWork := ⟨.waiting, s.replayed.2.2, s.replayedDirectory, 0⟩

theorem mountWork_working (s : State) : s.mountWork.working = s.mountReplay.directory :=
  congrArg Replay.directory (replayed_carried s)

/-- Mount has nothing left to write. -/
def mountSettled (m : List Host.Cell) (t : State) : Prop :=
  (∀ i, ¬(i ∈ t.ring ∧ (t.sector i).state = .opened ∧ (t.ring.getLast? ≠ some i ∨ readRecord m i (t.sector i).fill = .damaged))) ∧
    ∀ i, i < 64 → (t.sector i).state ≠ .dirty

theorem mountSettled_iff (left : s.leavesResetTo t) :
    mountSettled s.flash t ↔ s.released.replayed.2.2 = [] ∧ s.released.readStore.nextDirty = none := by
  rw [mountSettled, mounted_dirty left, List.eq_nil_iff_forall_not_mem]
  exact and_congr (forall_congr' fun i => not_congr (mounted_closes left).symm) Iff.rfl

theorem mounted_ends (left : s.leavesResetTo t) (settled : mountSettled s.flash t) :
    t = s.released.readStore.takeRise.mountEnd s.released.mountWork := by
  rcases mountRead_cases s.released with ⟨-, -, ends⟩ | ⟨unsettled, -⟩
  · rw [← takeRise_mountEnd, State.mountWork, ← ends]
    exact leavesResetTo_eq left
  · exact absurd ((mountSettled_iff left).mp settled) unsettled

theorem mounted_waits (left : s.leavesResetTo t) (unsettled : ¬mountSettled s.flash t) :
    t = ({ s.released.readStore with work := .mount s.released.mountWork } : State).takeRise := by
  rcases mountRead_cases s.released with ⟨closed, clean, -⟩ | ⟨-, waits⟩
  · exact absurd ((mountSettled_iff left).mpr ⟨closed, clean⟩) unsettled
  · rw [State.mountWork, ← waits]
    exact leavesResetTo_eq left

theorem mountEnd_work (s : State) (m : MountWork) : (s.mountEnd m).work = .idle := rfl

theorem live_readStore (inside : i < 64) : (s.readStore.sector i).live = liveOf s.mountReplay.directory i := by
  rw [← mountWork_working]
  exact congrArg Sector.live (sector_setLive ((length_replayed s).symm ▸ inside))

end

/-- Settles O9: the replay stops in each sector of the ring as R148 says, and mount waits exactly when it has something to write. -/
theorem mountReplaysRing : Obligations.MountReplaysRing := by
  intro s t left
  obtain ⟨nextSeq, damaged⟩ := mounted_counters left
  have carried : s.mountReplay = replayOf s.flash t.ring ⟨[], [], 0, 0⟩ := by rw [mounted_ring left]; rfl
  have working : s.released.mountWork.working = (replayOf s.flash t.ring ⟨[], [], 0, 0⟩).directory := by
    rw [← carried]
    exact mountWork_working s.released
  rw [carried] at nextSeq damaged
  refine ⟨fun i listed => mounted_stop left listed, ?sequence, ?damaged, fun settled => ?ends, fun unsettled => ?waits⟩
  case sequence =>
    obtain ⟨n, seq, one, marks, covers, stands⟩ := mountedNextSeq_spec s.flash t.ring
    refine ⟨n, nextSeq.trans seq, one, marks, fun i listed line r reads read => ?_, stands.imp_right (Or.imp_right ?_)⟩
    · exact covers i listed _ (countedFrom_iff.mpr ⟨line, r, reads, read, rfl⟩)
    · rintro ⟨i, listed, counted⟩
      exact ⟨i, listed, countedFrom_iff.mp counted⟩
  case damaged =>
    have few := length_ring_le left
    rw [damaged, replayOf_damaged t.ring ⟨[], [], 0, 0⟩ (by show 0 + t.ring.length ≤ 65535; omega), Nat.zero_add]
    refine congrArg List.length (List.filter_congr fun i listed => ?_)
    rw [Bool.eq_iff_iff, decide_eq_true_iff]
    exact mounted_hurt left listed
  case ends =>
    have ends := mounted_ends left settled
    exact ⟨by rw [ends]; exact mountEnd_work _ _, _, _, working, ends⟩
  case waits =>
    have waits := mounted_waits left unsettled
    refine ⟨s.released.mountWork, by rw [waits]; exact takeRise_work _, rfl, working, fun i => mounted_closes left,
      replayed_closes_nodup _, fun i inside => ?_⟩
    have live : (t.sector i).live = (s.released.readStore.sector i).live := by
      rw [waits]
      exact congrArg Sector.live (sector_takeRise _ i)
    rw [live, live_readStore inside]
    exact congrArg (fun a : Replay => liveOf a.directory i) carried

end Sys2Proof.Machine
end

