-- ==== Sys2Proof/Proofs/LeavingReset.lean ====
section
/-! PROOF. The release of the holds (09_flash_and_supply.md R139, 10_mounting_recovery_and_format.md R145): what stands through the
reading phase, and the store of a part whose flash is erased throughout. -/

namespace Sys2Proof.Machine

section
variable {s t : State} {i : Nat}

/-! ### The release -/

theorem leaveReset_held (held : s.inReset = true) : s.leaveReset = s := if_pos held

theorem exec_resetHoldRelease_pin (held : s.powerHold = true) (pin : s.resetPin = true) :
    exec .resetHoldRelease s = .next { s with powerHold := false } := by
  show execResetHoldRelease s = _
  rw [execResetHoldRelease, if_pos held, leaveReset_held (by simp [State.inReset, pin])]

theorem exec_resetPinRelease_hold (hold : s.powerHold = true) (held : s.resetPin = true) :
    exec .resetPinRelease s = .next { s with resetPin := false } := by
  show execResetPinRelease s = _
  rw [execResetPinRelease, if_pos held, leaveReset_held (by simp [State.inReset, hold])]

/-- One hold holds the part, and its release is the way out of reset. -/
def State.lastHold (s : State) : Prop := (s.powerHold = true ∧ s.resetPin = false) ∨ (s.powerHold = false ∧ s.resetPin = true)

theorem lastHold_released (last : s.lastHold) :
    (if s.powerHold = true then exec .resetHoldRelease s else exec .resetPinRelease s) = .next s.released.mountRead.takeRise := by
  rcases last with ⟨held, free⟩ | ⟨free, held⟩
  · rw [if_pos held, exec_resetHoldRelease_last held free]
  · rw [if_neg (by rw [free]; decide), exec_resetPinRelease_last free held]

/-! ### What the reading phase leaves -/

theorem mountRead_keeps (s : State) : Keeps { s with damaged := s.mountRead.damaged } s.mountRead := by
  rcases mountRead_cases s with ⟨-, -, ends⟩ | ⟨-, waits⟩
  · rw [ends]; constructor <;> rfl
  · rw [waits]; constructor <;> rfl

theorem mountRead_clients (s : State) : s.mountRead.controller = s.controller ∧ s.mountRead.ports = s.ports ∧
    s.mountRead.sessions = s.sessions ∧ s.mountRead.leases = s.leases := by
  rcases mountRead_cases s with ⟨-, -, ends⟩ | ⟨-, waits⟩
  · rw [ends]; exact ⟨rfl, rfl, rfl, rfl⟩
  · rw [waits]; exact ⟨rfl, rfl, rfl, rfl⟩

theorem modeAfterMount_mounted (leftOut : Bool) : s.modeAfterMount leftOut ≠ .mounting ∧ s.modeAfterMount leftOut ≠ .formatting := by
  rw [modeAfterMount_eq]
  split
  · simp
  · split
    · simp
    · split <;> simp

theorem mountRead_work (s : State) :
    (∃ m, s.mountRead.work = .mount m ∧ m.phase = .waiting ∧ s.mountRead.mode = .mounting) ∨
      (s.mountRead.work = .idle ∧ s.mountRead.mode ≠ .mounting ∧ s.mountRead.mode ≠ .formatting) := by
  rcases mountRead_cases s with ⟨-, -, ends⟩ | ⟨-, waits⟩
  · right
    rw [ends]
    exact ⟨mountEnd_work _ _, modeAfterMount_mounted (s := s.readStore.installDirectory s.replayedDirectory) _⟩
  · left
    rw [waits]
    exact ⟨_, rfl, rfl, rfl⟩

/-! ### A part whose flash is erased throughout -/

theorem readBytes_empty : ∀ a n, readBytes [] a n = List.replicate n 0xFF
  | _, 0 => rfl
  | a, n + 1 => by rw [readBytes, readBytes_empty (a + 1) n]; rfl

theorem lineErased_empty (i l : Nat) : lineErased [] i l = true := lineErased_iff.mpr (readBytes_empty _ 8)

theorem headerValid_empty (i : Nat) : headerValid [] i = false := by
  rw [← Bool.not_eq_true, headerValid_iff, readBytes_empty]
  exact fun header => absurd header.1 (by decide)

theorem classify_empty (i : Nat) : classify [] i = (.erased, false) := by
  simp [classify, lineErased_empty, payloadErased, allErased]

theorem not_inMountRing_empty (i : Nat) : ¬inMountRing [] i := by
  rintro ⟨-, state⟩
  simp [classify_empty] at state

/-- Every sector of the table is free. -/
def State.allFree (s : State) : Prop :=
  s.sectors.length = 64 ∧ ∀ i, i < 64 → (s.sector i).state = .erased ∧ (s.sector i).erasePending = false

theorem allFree_counts (free : s.allFree) : s.freeCount = 64 ∧ s.usable = 64 := by
  obtain ⟨length, entries⟩ := free
  constructor
  · have all : s.freePool = List.range 64 := by
      rw [State.freePool, length]
      refine List.filter_eq_self.mpr fun i inRange => ?_
      obtain ⟨state, pending⟩ := entries i (List.mem_range.mp inRange)
      simp [state, pending]
    rw [State.freeCount, all, List.length_range]
  · have none : s.sectors.filter (fun e => decide (e.state = .retired)) = [] := by
      refine List.filter_eq_nil_iff.mpr fun e listed => ?_
      obtain ⟨i, inside, rfl⟩ := List.mem_iff_getElem.mp listed
      rw [← sector_eq_getElem s inside, (entries i (length ▸ inside)).1]
      decide
    rw [State.usable, State.retiredCount, none]
    rfl

theorem mounted_allFree (left : s.leavesResetTo t) (blank : s.flash = []) : t.allFree := by
  refine ⟨by rw [leavesResetTo_eq left, takeRise_sectors, length_mountRead], fun i inside => ?_⟩
  have entry := mounted_entry left inside
  rw [blank] at entry
  have stays : ¬displaced [] i := fun away => by rw [displaced, classify_empty] at away; cases away.1
  exact ⟨by rw [entry.stays stays, classify_empty], by rw [entry.erasePending, classify_empty]; rfl⟩

theorem mounted_ring_empty (left : s.leavesResetTo t) (blank : s.flash = []) : t.ring = [] := by
  refine List.eq_nil_iff_forall_not_mem.mpr fun i listed => ?_
  have ring := (mem_mounted_ring left).mp listed
  rw [blank] at ring
  exact not_inMountRing_empty i ring

theorem mountSettled_empty (left : s.leavesResetTo t) (blank : s.flash = []) : mountSettled s.flash t := by
  refine ⟨fun i close => ?_, fun i inside => ?_⟩
  · rw [mounted_ring_empty left blank] at close
    cases close.1
  · rw [((mounted_allFree left blank).2 i inside).1]
    decide

/-- The end of a mount that found no record, and no ring. -/
theorem mountEnd_empty {u : State} {w : MountWork} (none : w.working = []) (ring : (u.mountEnd w).ring = []) :
    let t := u.mountEnd w
    t.mode = .blank ∧ t.work = .idle ∧ t.directory = [] ∧ t.freezeLine = 0x0F00 ∧ t.defaultPeriod = 500 ∧
      t.rightsInForce = ⟨Rights.ofByte 0x0F, Rights.ofByte 0x07, Rights.ofByte 0x07⟩ := by
  obtain ⟨-, -, work, -, -, -, -, -, mode, -, rights, freezeLine, period⟩ := settlingPhaseAndMountEnd u w
  have directory : (u.mountEnd w).directory = [] := by
    show limitDirectory w.working = []
    rw [none]
    rfl
  have entry (k : Key) : (u.mountEnd w).entry k = .none := by rw [State.entry, directory]; rfl
  simp only [entry, Option.map_none, Option.bind_none, Option.getD_none] at rights freezeLine period
  exact ⟨mode.trans (if_pos ring), work, directory, freezeLine, period, rights⟩

/-- The counters of a part whose flash is erased: no header and no record gives them a value. -/
theorem mounted_counters_empty (left : s.leavesResetTo t) (blank : s.flash = []) :
    t.nextSeq = 1 ∧ t.nextGen = 1 ∧ t.damaged = 0 := by
  have ring := mounted_ring_empty left blank
  obtain ⟨-, ⟨n, nextSeq, -, -, -, from'⟩, damaged, -⟩ := mountReplaysRing s t left
  obtain ⟨⟨g, ⟨-, stands⟩, nextGen⟩, -⟩ := mountBuildsSectorTable s t left
  have one : n = 1 := by
    rcases from' with one | ⟨i, -, valid, -⟩ | ⟨i, listed, -⟩
    · exact one
    · rw [blank, headerValid_empty] at valid; cases valid
    · rw [ring] at listed; cases listed
  have zero : g = 0 := by
    rcases stands with ⟨i, -, valid, -⟩ | ⟨zero, -⟩
    · rw [blank, headerValid_empty] at valid; cases valid
    · exact zero
  rw [ring] at damaged
  subst one zero
  exact ⟨nextSeq, nextGen, damaged⟩

end

/-- Settles O5: what stands through the reading phase, and from it the mount of an erased flash by O8 to O10. -/
theorem leavingResetMounts : Obligations.LeavingResetMounts := by
  refine ⟨fun s => ⟨exec_resetHoldRelease_pin, exec_resetPinRelease_hold, fun last => ?released⟩, fun s blank held free => ?blank⟩
  case released =>
    refine ⟨_, lastHold_released last, ?_⟩
    have kept := mountRead_keeps s.released
    have length := length_mountRead s.released
    have work := mountRead_work s.released
    obtain ⟨controller, ports, sessions, leases⟩ := mountRead_clients s.released
    generalize s.released.mountRead = u at *
    have supply : u.takeRise.supply = if s.supplyHigh = true then .normal else s.supply := by
      rw [takeRise_supply, kept.supplyHigh, kept.supply]
      rfl
    exact ⟨kept.inReset.trans rfl, kept.flash, controller, ports, supply, kept.supplyHigh, sessions, leases, kept.leaseClock,
      kept.pending, length, work⟩
  case blank =>
    have left : s.leavesResetTo s.released.mountRead.takeRise := .inl ⟨held, free, exec_resetHoldRelease_last held free⟩
    refine ⟨_, exec_resetHoldRelease_last held free, ?_⟩
    generalize s.released.mountRead.takeRise = t at left
    have ring := mounted_ring_empty left blank
    have ends := mounted_ends left (mountSettled_empty left blank)
    have none : s.released.mountWork.working = [] := by
      rw [mountWork_working]
      show (replayOf s.flash (ringOf (classifiedTable s.flash s.draws)) ⟨[], [], 0, 0⟩).directory = []
      rw [← mounted_ring left, ring]
      rfl
    obtain ⟨nextSeq, nextGen, damaged⟩ := mounted_counters_empty left blank
    obtain ⟨freeCount, usable⟩ := allFree_counts (mounted_allFree left blank)
    obtain ⟨mode, work, directory, freezeLine, period, rights⟩ := mountEnd_empty none (ends ▸ ring)
    rw [← ends] at mode work directory freezeLine period rights
    exact ⟨mode, work, directory, freeCount, usable, ring, nextSeq, nextGen, damaged, freezeLine, period, rights⟩

end Sys2Proof.Machine
end

