-- ==== Sys2Proof/Proofs/StatusLatch.lean ====
section
/-! PROOF. ATN#, the port status bytes, and the status latched at the assertion of SEL# (11_client_ports_and_sessions.md R163, R167, TABLE
81): what is latched stands until the frame acts or the part is reset. -/

namespace Sys2Proof.Machine

section
variable {s t u : State} {p q : Port} {k : Key}

/-! ### What is latched -/

/-- No port's SEL# or latched status changes. -/
def LatchKept (s t : State) : Prop := ∀ p, (t.port p).selected = (s.port p).selected ∧ (t.port p).latch = (s.port p).latch

theorem LatchKept.refl (s : State) : LatchKept s s := fun _ => ⟨rfl, rfl⟩

theorem LatchKept.trans (first : LatchKept s t) (second : LatchKept t u) : LatchKept s u :=
  fun p => ⟨(second p).1.trans (first p).1, (second p).2.trans (first p).2⟩

theorem latchKept_of_ports (same : t.ports = s.ports) : LatchKept s t := fun p => by
  rw [State.port, State.port, same]
  exact ⟨rfl, rfl⟩

/-- One port changes, but for what it has latched. -/
theorem latchKept_at {v : PortUnit} (p : Port) (ports : t.ports = s.ports.set p v) (selected : v.selected = (s.port p).selected)
    (latch : v.latch = (s.port p).latch) : LatchKept s t := fun q => by
  by_cases same : q = p
  · subst same
    rw [port_of_set ports]
    exact ⟨selected, latch⟩
  · rw [port_of_set_other ports same]
    exact ⟨rfl, rfl⟩

theorem latchKept_foldl {α : Type} {f : State → α → State} (kept : ∀ s x, LatchKept s (f s x)) :
    ∀ (l : List α) (s : State), LatchKept s (l.foldl f s)
  | [], s => .refl s
  | x :: l, s => (kept s x).trans (latchKept_foldl kept l (f s x))

theorem LatchKept.answer (kept : LatchKept s u) (p : Port) (tag : Byte) (st : Status) (body : List Byte) :
    LatchKept s (u.answer p tag st body) :=
  kept.trans (latchKept_at p rfl rfl rfl)

theorem LatchKept.handReply (kept : LatchKept s u) (p : Port) (r : Reply) : LatchKept s (u.handReply p r) :=
  kept.trans (latchKept_at p rfl rfl rfl)

/-! ### Leases and teardowns -/

theorem endLease_latch (s : State) (k : Key) : LatchKept s (s.endLease k) := by
  unfold State.endLease
  split
  · exact .refl s
  · split
    · exact latchKept_of_ports rfl
    · next w rest _ => exact latchKept_at w.port rfl rfl rfl

theorem releaseAll_latch (s : State) (p : Port) : LatchKept s (s.releaseAll p) := latchKept_foldl endLease_latch _ s

theorem dropParked_latch (s : State) (p : Port) (answered : Bool) : LatchKept s (s.dropParked p answered) := by
  have removed : LatchKept s (s.removeParked p) := latchKept_of_ports rfl
  unfold State.dropParked
  split
  · exact .refl s
  · split
    · exact removed.handReply _ _
    · exact removed

theorem tearDown_latch (s : State) (p : Port) (answered : Bool) : LatchKept s (s.tearDown p answered) :=
  (releaseAll_latch s p).trans ((dropParked_latch _ p answered).trans (latchKept_of_ports rfl))

theorem serveTeardown_latch (s : State) (p : Port) : LatchKept s (s.serveTeardown p) :=
  (tearDown_latch s p false).trans (latchKept_at p rfl rfl rfl)

theorem takeExpiry_latch (s : State) (x : Expiry) : LatchKept s (s.takeExpiry x) := by
  cases x with
  | lease k =>
    show LatchKept s (s.expireLease k)
    unfold State.expireLease
    split
    · exact .refl s
    · next e _ =>
      split
      · have posted : LatchKept s (s.postLapsed e.holder k) := latchKept_of_ports rfl
        exact posted.trans (endLease_latch _ k)
      · exact .refl s
  | wait p =>
    show LatchKept s (s.expireWait p)
    unfold State.expireWait
    split
    · exact .refl s
    · split
      · exact LatchKept.handReply (latchKept_of_ports rfl) _ _
      · exact .refl s

theorem advanceClock_latch (s : State) (first : List Expiry) : LatchKept s (s.advanceClock first) :=
  LatchKept.trans (t := s.tickClock) (latchKept_of_ports rfl) (latchKept_foldl takeExpiry_latch _ _)

theorem formatComplete_latch (s : State) (f : FormatWork) : LatchKept s (s.formatComplete f) := by
  have emptied : LatchKept s s.formatStore := latchKept_of_ports rfl
  have session : LatchKept s (s.formatStore.formatSession f.port) :=
    emptied.trans ((releaseAll_latch _ f.port).trans (latchKept_of_ports rfl))
  exact LatchKept.answer (session.trans (latchKept_of_ports rfl)) _ _ _ _

/-! ### Events of no frame -/

theorem grant_latch (s : State) (g : Grant) : LatchKept s (s.grant g) := by
  cases g with
  | none => exact .refl s
  | reclaim => exact latchKept_of_ports rfl
  | port p =>
    unfold State.grant State.grantPort
    dsimp only
    split
    · exact latchKept_at p rfl rfl rfl
    · split
      · exact .refl s
      · exact latchKept_at p rfl rfl rfl

theorem claimAct_latch (s : State) (p : Port) (r : Request) (c : ClaimBody) : LatchKept s (claimAct p r c s) := by
  have leases (l : List Lease) : LatchKept s { s with leases := l } := latchKept_of_ports rfl
  unfold claimAct
  split
  · split
    · exact (LatchKept.refl s).answer _ _ _ _
    · exact (leases _).answer _ _ _ _
  · split
    · exact (leases _).answer _ _ _ _
    · unfold State.claimHeld
      split
      · exact (LatchKept.refl s).answer _ _ _ _
      · split
        · exact (LatchKept.refl s).answer _ _ _ _
        · split
          · exact (LatchKept.refl s).answer _ _ _ _
          · exact latchKept_at p rfl rfl rfl

theorem ClientEffect.latch (effect : ClientEffect s .other t) : LatchKept s t := by
  cases effect with
  | nothing => exact .refl s
  | supplied => exact latchKept_of_ports rfl
  | granted => exact grant_latch s _
  | answered p r d => exact LatchKept.answer (u := { s with draws := d }) (latchKept_of_ports rfl) _ _ _ _
  | opened p r e =>
    have enabled : LatchKept s ((s.setSession p ((s.session p).bind (s.rightsInForce.get p))).setPort p ((s.port p).setEnables e)) :=
      latchKept_at p rfl rfl rfl
    exact enabled.answer _ _ _ _
  | closed p r => exact (tearDown_latch s p true).answer _ _ _ _
  | claimed p r c => exact claimAct_latch s p r c
  | renewed p r c =>
    unfold renewAct
    split
    · exact LatchKept.answer (latchKept_of_ports rfl) _ _ _ _
    · exact (LatchKept.refl s).answer _ _ _ _
  | released p r k =>
    unfold releaseAct
    split
    · exact (endLease_latch s k).answer _ _ _ _
    · exact (LatchKept.refl s).answer _ _ _ _
  | watched p r k =>
    unfold watchAct
    split
    · exact (LatchKept.refl s).answer _ _ _ _
    · exact LatchKept.answer (latchKept_of_ports rfl) _ _ _ _
  | unwatched | groupBegun | memberPut | groupCleared | compacted => exact LatchKept.answer (latchKept_of_ports rfl) _ _ _ _
  | noticeTaken p r =>
    unfold takeNoticeAct
    split
    · exact (LatchKept.refl s).answer _ _ _ _
    · exact LatchKept.answer (latchKept_of_ports rfl) _ _ _ _
  | tornDown p => exact serveTeardown_latch s p
  | advanced first => exact advanceClock_latch s first

theorem ClientStep.latch {kind : CommandKind} (step : ClientStep kind s t) (running : kind ≠ .reset) : LatchKept s t := by
  cases step with
  | kept same => exact latchKept_of_ports same.ports
  | answered p tag st body owner idle leases clock sessions ports => exact latchKept_at p ports rfl rfl
  | formatted f u same serves done => rw [done]; exact (latchKept_of_ports same.ports).trans (formatComplete_latch u f)
  | reset asserted => exact absurd asserted running

theorem exec_latch {c : Instr} (other : commandKind c = .other) (ran : exec c s = .next t) : LatchKept s t := by
  rcases exec_effect ran with effect | effect
  · rw [other] at effect
    exact effect.latch
  · exact effect.client.latch (by rw [other]; simp)

/-! ### Frames -/

theorem port_plainFrame (away : p ≠ q) (n : Nat) (result : FrameResult) : (s.plainFrame q n result).port p = s.port p :=
  port_setPort_other _ _ away

theorem port_submitFrame (away : p ≠ q) (input : List Byte) (part : Bool) : (s.submitFrame q input part).port p = s.port p := by
  unfold State.submitFrame
  split
  · rw [port_setPort_other _ _ away, port_plainFrame away]
  · exact port_plainFrame away _ _

theorem port_fetchFrame (away : p ≠ q) (ack : Byte) (n : Nat) (result : FrameResult) :
    (s.fetchFrame q ack n result).port p = s.port p :=
  port_setPort_other _ _ away

theorem port_portResetFrame (away : p ≠ q) (input : List Byte) (part : Bool) :
    (s.portResetFrame q input part).port p = s.port p := by
  unfold State.portResetFrame
  split
  · rw [port_setPort_other _ _ away, port_plainFrame away]
  · exact port_plainFrame away _ _

theorem port_timeoutFrame (away : p ≠ q) (bytes : List Byte) : (s.timeoutFrame q bytes).port p = s.port p := by
  unfold State.timeoutFrame
  split
  · split
    · exact port_fetchFrame away _ _ _
    · exact port_plainFrame away _ _
  · exact port_plainFrame away _ _

theorem port_select (away : p ≠ q) : (s.select q).port p = s.port p := by
  unfold State.select
  split
  · rfl
  · exact port_setPort_other _ _ away

/-- A frame that does not act on a selected port leaves it. -/
theorem atMoment_port {e : FrameEvent} {act : State → Port → State} (selected : (s.port p).selected = true)
    (before : decide (e = ⟨p, .acts⟩) = false) (acts : ∀ q, p ≠ q → (act s q).port p = s.port p)
    (ran : atMoment e act s = .next t) : t.port p = s.port p := by
  by_cases idle : s.inReset = true ∨ (e = ⟨p, .asserted⟩ ∧ (s.port p).selected = true)
  · cases (atMoment_idle idle).symm.trans ran
    rfl
  · have away : p ≠ e.port := by
      rintro rfl
      obtain ⟨q, moment⟩ := e
      cases moment with
      | asserted => exact idle (.inr ⟨rfl, selected⟩)
      | acts => simp at before
    exact atMoment_effect (P := fun u => u.port p = s.port p) ran rfl (port_select away) (acts _ away)

theorem frame_port {c : Instr} (frame : commandKind c = .frame) (selected : (s.port p).selected = true)
    (before : endsFrame p c = false) (ran : exec c s = .next t) : t.port p = s.port p := by
  cases c with
  | submit e input part =>
    exact atMoment_port (act := fun t p => t.submitFrame p input part) selected before (fun q away => port_submitFrame away _ _) ran
  | fetch e input =>
    have ran : execFetch e input s = .next t := ran
    refine atMoment_port selected before (fun q away => ?_) ran
    cases input with
    | nil => exact port_plainFrame away _ _
    | cons ack rest => exact port_fetchFrame away _ _ _
  | peek e input =>
    exact atMoment_port (act := fun t p => t.plainFrame p (input.length + 1) .ok) selected before
      (fun q away => port_plainFrame away _ _) ran
  | portReset e input part =>
    exact atMoment_port (act := fun t p => t.portResetFrame p input part) selected before (fun q away => port_portResetFrame away _ _) ran
  | unknownKind e kind input =>
    have ran : execUnknownKind e kind input s = .next t := ran
    refine atMoment_port selected before (fun q away => ?_) ran
    split
    · rfl
    · exact port_plainFrame away _ _
  | frameTimeout e bytes =>
    exact atMoment_port (act := fun t p => t.timeoutFrame p bytes) selected before (fun q away => port_timeoutFrame away _) ran
  | frameReleasedBeforeKind e =>
    exact atMoment_port (act := fun t p => t.plainFrame p 0 .lengthError) selected before (fun q away => port_plainFrame away _ _) ran
  | _ => cases frame

theorem endsFrame_of_reset {c : Instr} (reset : commandKind c = .reset) : endsFrame p c = true := by
  cases c with
  | resetPinAssert => rfl
  | powerOnResetHold => rfl
  | _ => cases reset

theorem latch_stands {c : Instr} (ran : exec c s = .next t) (selected : (s.port p).selected = true) (before : endsFrame p c = false) :
    (t.port p).selected = true ∧ (t.port p).latch = (s.port p).latch := by
  cases kind : commandKind c with
  | reset => rw [endsFrame_of_reset kind] at before; cases before
  | frame => rw [frame_port kind selected before ran]; exact ⟨selected, rfl⟩
  | other =>
    obtain ⟨stands, latch⟩ := exec_latch kind ran p
    exact ⟨stands.trans selected, latch⟩

/-! ### The status bytes (TABLE 81) -/

theorem attention_iff : s.attention p = true ↔ ((s.port p).replyEnable = true ∧ (s.port p).replies ≠ []) ∨
    ((s.port p).noticeEnable = true ∧ (s.session p).notices ≠ []) := by
  simp [State.attention, Session.noticePending]

theorem attention_toReset (s : State) (pin hold : Bool) (p : Port) : (s.toReset pin hold).attention p = false := by
  cases p <;> rfl

theorem getLsbD_eq_decide (b : Byte) (k : Nat) : b.getLsbD k = decide (b.toNat / 2 ^ k % 2 = 1) :=
  Nat.testBit_eq_decide_div_mod_eq

theorem storeMode_code_le (mode : StoreMode) : mode.code ≤ 4 := by cases mode <;> decide

theorem supply_code_le (supply : Supply) : supply.code ≤ 1 := by cases supply <;> decide

theorem portState_code_le (port : PortState) : port.code ≤ 1 := by cases port <;> decide

theorem frameResult_code_le (result : FrameResult) : result.code ≤ 8 := by cases result <;> decide

theorem toNat_statusByte0 (mode : StoreMode) (supply : Supply) (sessionOpen replyReady pending : Bool) (port : PortState) :
    (statusByte0 mode supply sessionOpen replyReady pending port).toNat =
      mode.code * 32 + supply.code * 16 + sessionOpen.toNat * 8 + replyReady.toNat * 4 + pending.toNat * 2 + port.code := by
  have modes := storeMode_code_le mode
  have supplies := supply_code_le supply
  have ports := portState_code_le port
  have first := Bool.toNat_le sessionOpen
  have second := Bool.toNat_le replyReady
  have third := Bool.toNat_le pending
  rw [statusByte0, BitVec.toNat_ofNat]
  exact Nat.mod_eq_of_lt (by simp only [flagBit]; omega)

theorem toNat_statusByte1 {credits : Nat} (few : credits ≤ 4) (result : FrameResult) :
    (statusByte1 credits result).toNat = credits * 32 + result.code * 2 := by
  have results := frameResult_code_le result
  rw [statusByte1, BitVec.toNat_ofNat]
  exact Nat.mod_eq_of_lt (by omega)

theorem decide_toNat_eq_one (b : Bool) : decide (b.toNat = 1) = b := by cases b <;> rfl

theorem statusByte0_fields (mode : StoreMode) (supply : Supply) (sessionOpen replyReady pending : Bool) (port : PortState) :
    let b := statusByte0 mode supply sessionOpen replyReady pending port
    b.toNat / 32 = mode.code ∧ b.getLsbD 4 = decide (supply = .guard) ∧ b.getLsbD 3 = sessionOpen ∧ b.getLsbD 2 = replyReady ∧
      b.getLsbD 1 = pending ∧ b.getLsbD 0 = decide (port = .resetting) := by
  have guard : decide (supply.code = 1) = decide (supply = .guard) := by cases supply <;> rfl
  have resetting : decide (port.code = 1) = decide (port = .resetting) := by cases port <;> rfl
  have supplies := supply_code_le supply
  have ports := portState_code_le port
  have first := Bool.toNat_le sessionOpen
  have second := Bool.toNat_le replyReady
  have third := Bool.toNat_le pending
  have value := toNat_statusByte0 mode supply sessionOpen replyReady pending port
  dsimp only
  generalize statusByte0 mode supply sessionOpen replyReady pending port = b at value
  have field (k v : Nat) (stands : b.toNat / 2 ^ k % 2 = v) : b.getLsbD k = decide (v = 1) := by rw [getLsbD_eq_decide, stands]
  refine ⟨by omega, (field 4 supply.code (by omega)).trans guard, ?_, ?_, ?_, (field 0 port.code (by omega)).trans resetting⟩
  · exact (field 3 sessionOpen.toNat (by omega)).trans (decide_toNat_eq_one _)
  · exact (field 2 replyReady.toNat (by omega)).trans (decide_toNat_eq_one _)
  · exact (field 1 pending.toNat (by omega)).trans (decide_toNat_eq_one _)

theorem statusByte1_fields {credits : Nat} (few : credits ≤ 4) (result : FrameResult) :
    let b := statusByte1 credits result
    b.toNat / 32 = credits ∧ b.toNat / 2 % 16 = result.code ∧ b.getLsbD 0 = false := by
  have results := frameResult_code_le result
  have value := toNat_statusByte1 few result
  dsimp only
  rw [getLsbD_eq_decide, value, decide_eq_false_iff_not]
  omega

theorem exec_asserted {kind : Byte} {input : List Byte} {part : Bool} {c : Instr} (running : s.inReset = false)
    (free : (s.port p).selected = false) (frame : c ∈ [Instr.submit ⟨p, .asserted⟩ input part, .fetch ⟨p, .asserted⟩ input,
      .peek ⟨p, .asserted⟩ input, .portReset ⟨p, .asserted⟩ input part, .unknownKind ⟨p, .asserted⟩ kind input,
      .frameTimeout ⟨p, .asserted⟩ input, .frameReleasedBeforeKind ⟨p, .asserted⟩]) :
    exec c s = .next (s.setPort p { s.port p with selected := true, latch := s.statusBytes p, sdo := [] }) := by
  obtain ⟨act, acts⟩ := exec_frame frame s
  rw [acts, atMoment_asserted p running, State.select, if_neg (by rw [free]; decide)]

end

/-- Settles O12: what is latched by the kinds of commands, the bytes by the places of their fields. -/
theorem attentionAndStatusBytes : Obligations.AttentionAndStatusBytes := by
  refine ⟨fun s p => attention_iff, fun s t p ran => ?reset, by decide, by decide,
    fun s p kind input part running free c frame => exec_asserted running free frame,
    fun s t p c ran selected before => latch_stands ran selected before, fun s p few => ⟨_, _, rfl, ?bytes⟩⟩
  case reset =>
    rcases ran with ran | ran <;> cases ran <;> exact attention_toReset s _ _ p
  case bytes =>
    obtain ⟨mode, supply, sessionOpen, replies, pending, port⟩ := statusByte0_fields s.mode s.supply (s.session p).isOpen
      (!(s.port p).replies.isEmpty) (s.session p).noticePending (s.port p).state
    obtain ⟨credits, result, zero⟩ := statusByte1_fields (credits := s.freeCredits p) (Nat.sub_le _ _) (s.port p).lastResult
    exact ⟨mode, supply, sessionOpen, replies, pending, port, credits, result, zero⟩

end Sys2Proof.Machine
end
